-- ==== Sys2Proof/Word.lean ====
section
/-! DEFINITION. The word types of the i4c range-coder engine: what the spec treats as bits (00_scope R9). -/

namespace Sys2Proof

/-- A byte of the ports IN and OUT (20_memory R73, R74). -/
abbrev Byte := BitVec 8

/-- A command word, or one of the coder's 32-bit registers (30_encoding R90, 10_state R37, R39). -/
abbrev Word32 := BitVec 32

/-- A host register, a CSR value or a frequency (10_state R31, R46). -/
abbrev Word64 := BitVec 64

/-- A symbol operand, 0..65535 (30_encoding R92). -/
abbrev Sym := BitVec 16

/-- A pixel value or residual, 0..3 (44_predictor R191). -/
abbrev Colour := BitVec 2

/-- A key of the context store (10_state R58). -/
abbrev CtxKey := BitVec 128

end Sys2Proof
end

