-- ==== Sys2Proof/Syntax.lean ====
section
/-! DEFINITION. The commands (30_encoding R93), one constructor for each row of spec/opcode_table.json, and the control registers (10_state R62). -/

namespace Sys2Proof

/-- The transform of PX.ENC and PX.DEC: MODE = w[8], 0 = XOR, 1 = SUB (30_encoding R92). -/
inductive Mode where
  | xor
  | sub
  deriving DecidableEq, Repr

/-- The commands of 30_encoding R93. Every operand has exactly the width of its field (R91, R92), so every term is encodable. -/
inductive Instr where
  | nop
  | csrr (csrn : BitVec 8)
  | csrw (csrn : BitVec 8)
  | srst
  | acInit
  | acEnc (sym : Sym)
  | acDec
  | acFlush
  | freqWr (sym : Sym)
  | freqRd (sym : Sym)
  | freqClr
  | cumRd (sym : Sym)
  | rleInit
  | rleEbit (bit : BitVec 1)
  | rleEend
  | rlePop
  | rleDsym (sym : Sym)
  | rleDend
  | prdInit
  | fldWr (val : Colour)
  | fldRd
  | prdForesee
  | prdLearn (val : Colour)
  | pxEnc (mode : Mode)
  | pxDec (mode : Mode) (val : Colour)
  deriving DecidableEq, Repr

/-- The control registers that have a number (10_state R61, R62). -/
inductive Csr where
  | id
  | status
  | errInfo
  | errCmd
  | acNsym
  | acTerm
  | acSections
  | acSectDone
  | acLow
  | acHigh
  | acUf
  | acCode
  | acTotal
  | acBits
  | acInPos
  | acPastEnd
  | rleM
  | rleRun
  | rleQlen
  | rlePstate
  | rleDepth
  | rleVacc
  | fldDim
  | prdCfg
  | prdPos
  | ctxCount
  | shapeLen (k : Fin 4)
  | shapeCell (k : Fin 4) (i : Fin 16)
  deriving DecidableEq, Repr

end Sys2Proof
end

