-- ==== Sys2Proof/WellFormed.lean ====
section
/-! DEFINITION. Well-formed commands. Field widths need no check (each operand's type is its field); what a term can get wrong is the control register it names, and that is checked here from the ranges of 10_state R61 and the access column of R62. -/

namespace Sys2Proof

/-- 10_state R61: the assigned CSR numbers are exactly 0x00-0x15, 0x20-0x27 and 0x40-0x7F. -/
def csrNumberAssigned (n : BitVec 8) : Bool :=
  n.toNat ≤ 0x15 || (0x20 ≤ n.toNat && n.toNat ≤ 0x27) || (0x40 ≤ n.toNat && n.toNat ≤ 0x7F)

/-- 10_state R62, the RW rows: AC_NSYM, AC_TERM, AC_SECTIONS, RLE_M, FLD_DIM, PRD_CFG, SHAPE_LEN and SHAPE_CELL. -/
def csrNumberWritable (n : BitVec 8) : Bool :=
  (0x04 ≤ n.toNat && n.toNat ≤ 0x06) || n.toNat == 0x10 || n.toNat == 0x20 || n.toNat == 0x21 ||
    (0x24 ≤ n.toNat && n.toNat ≤ 0x27) || (0x40 ≤ n.toNat && n.toNat ≤ 0x7F)

/-- A command whose operands name something the block has: a CSRR of an assigned number, a CSRW of a read-write one, any other
command whatever its operands. A command that is not well-formed still decodes and runs: it raises ILLEGAL_COMMAND
(10_state R61, 40_control R111, R112). Log 18. -/
def Instr.wellFormed : Instr → Bool
  | .csrr n => csrNumberAssigned n
  | .csrw n => csrNumberWritable n
  | .nop | .srst | .acInit | .acEnc _ | .acDec | .acFlush | .freqWr _ | .freqRd _ | .freqClr | .cumRd _ | .rleInit | .rleEbit _
  | .rleEend | .rlePop | .rleDsym _ | .rleDend | .prdInit | .fldWr _ | .fldRd | .prdForesee | .prdLearn _ | .pxEnc _ | .pxDec _ _ => true

end Sys2Proof
end

