-- ==== Sys2Proof/Decode.lean ====
section
/-! DEFINITION. Decoding and encoding of command words (30_encoding R90 to R96), written from the format table R91 and the opcode map R93; the match and mask table R94, which the decoder is compared with; and the numbering of the control registers (10_state R62). -/

namespace Sys2Proof

/-- The two ways a command word is illegal (30_encoding R95). Both raise ILLEGAL_COMMAND. -/
inductive IllegalWord where
  | unassignedOpcode
  | reservedBitSet
  deriving DecidableEq, Repr

/-- `OPC` = w[31:24] (30_encoding R90). -/
def opcodeField (w : Word32) : BitVec 8 := w.extractLsb' 24 8

/-- The operand field w[23:0] (30_encoding R90). -/
def operandField (w : Word32) : BitVec 24 := w.extractLsb' 0 24

/-- MODE, one bit: 0 = XOR, 1 = SUB (30_encoding R92). -/
def Mode.ofBit (b : BitVec 1) : Mode := if b = 0 then .xor else .sub

/-- The MODE bit of a transform (30_encoding R92). -/
def Mode.bit : Mode → BitVec 1
  | .xor => 0
  | .sub => 1

/-- Format N: no field (30_encoding R91). -/
def decodeN (op : BitVec 24) (i : Instr) : Except IllegalWord Instr :=
  if op = 0 then .ok i else .error .reservedBitSet

/-- Format C: CSRN = w[7:0] (30_encoding R91). -/
def decodeC (op : BitVec 24) (f : BitVec 8 → Instr) : Except IllegalWord Instr :=
  if op.extractLsb' 8 16 = 0 then .ok (f (op.extractLsb' 0 8)) else .error .reservedBitSet

/-- Format S: SYM = w[15:0] (30_encoding R91). -/
def decodeS (op : BitVec 24) (f : Sym → Instr) : Except IllegalWord Instr :=
  if op.extractLsb' 16 8 = 0 then .ok (f (op.extractLsb' 0 16)) else .error .reservedBitSet

/-- Format B: BIT = w[0] (30_encoding R91). -/
def decodeB (op : BitVec 24) (f : BitVec 1 → Instr) : Except IllegalWord Instr :=
  if op.extractLsb' 1 23 = 0 then .ok (f (op.extractLsb' 0 1)) else .error .reservedBitSet

/-- Format V: VAL = w[1:0] (30_encoding R91). -/
def decodeV (op : BitVec 24) (f : Colour → Instr) : Except IllegalWord Instr :=
  if op.extractLsb' 2 22 = 0 then .ok (f (op.extractLsb' 0 2)) else .error .reservedBitSet

/-- Format ME: MODE = w[8] (30_encoding R91). -/
def decodeME (op : BitVec 24) (f : Mode → Instr) : Except IllegalWord Instr :=
  if op.extractLsb' 9 15 = 0 ∧ op.extractLsb' 0 8 = 0 then .ok (f (Mode.ofBit (op.extractLsb' 8 1)))
  else .error .reservedBitSet

/-- Format MD: MODE = w[8], VAL = w[1:0] (30_encoding R91). -/
def decodeMD (op : BitVec 24) (f : Mode → Colour → Instr) : Except IllegalWord Instr :=
  if op.extractLsb' 9 15 = 0 ∧ op.extractLsb' 2 6 = 0 then
    .ok (f (Mode.ofBit (op.extractLsb' 8 1)) (op.extractLsb' 0 2))
  else .error .reservedBitSet

/-- The decoder, total on all 2^32 words: the opcode selects the row of R93, its format reads the fields, and every reserved bit must be
zero (30_encoding R95). -/
def decode (w : Word32) : Except IllegalWord Instr :=
  let op := operandField w
  match (opcodeField w).toNat with
  | 0x00 => decodeN op .nop
  | 0x01 => decodeC op .csrr
  | 0x02 => decodeC op .csrw
  | 0x0F => decodeN op .srst
  | 0x10 => decodeN op .acInit
  | 0x11 => decodeS op .acEnc
  | 0x12 => decodeN op .acDec
  | 0x13 => decodeN op .acFlush
  | 0x14 => decodeS op .freqWr
  | 0x15 => decodeS op .freqRd
  | 0x16 => decodeN op .freqClr
  | 0x17 => decodeS op .cumRd
  | 0x20 => decodeN op .rleInit
  | 0x21 => decodeB op .rleEbit
  | 0x22 => decodeN op .rleEend
  | 0x23 => decodeN op .rlePop
  | 0x24 => decodeS op .rleDsym
  | 0x25 => decodeN op .rleDend
  | 0x30 => decodeN op .prdInit
  | 0x31 => decodeV op .fldWr
  | 0x32 => decodeN op .fldRd
  | 0x33 => decodeN op .prdForesee
  | 0x34 => decodeV op .prdLearn
  | 0x35 => decodeME op .pxEnc
  | 0x36 => decodeMD op .pxDec
  | _ => .error .unassignedOpcode

/-- The opcode of each command (30_encoding R93). -/
def Instr.opcode : Instr → BitVec 8
  | .nop => 0x00
  | .csrr _ => 0x01
  | .csrw _ => 0x02
  | .srst => 0x0F
  | .acInit => 0x10
  | .acEnc _ => 0x11
  | .acDec => 0x12
  | .acFlush => 0x13
  | .freqWr _ => 0x14
  | .freqRd _ => 0x15
  | .freqClr => 0x16
  | .cumRd _ => 0x17
  | .rleInit => 0x20
  | .rleEbit _ => 0x21
  | .rleEend => 0x22
  | .rlePop => 0x23
  | .rleDsym _ => 0x24
  | .rleDend => 0x25
  | .prdInit => 0x30
  | .fldWr _ => 0x31
  | .fldRd => 0x32
  | .prdForesee => 0x33
  | .prdLearn _ => 0x34
  | .pxEnc _ => 0x35
  | .pxDec _ _ => 0x36

/-- The operand field of each command, laid out by its format (30_encoding R91). -/
def Instr.operand : Instr → BitVec 24
  | .csrr n => 0#16 ++ n
  | .csrw n => 0#16 ++ n
  | .acEnc s => 0#8 ++ s
  | .freqWr s => 0#8 ++ s
  | .freqRd s => 0#8 ++ s
  | .cumRd s => 0#8 ++ s
  | .rleEbit b => 0#23 ++ b
  | .rleDsym s => 0#8 ++ s
  | .fldWr v => 0#22 ++ v
  | .prdLearn v => 0#22 ++ v
  | .pxEnc m => 0#15 ++ m.bit ++ 0#8
  | .pxDec m v => 0#15 ++ m.bit ++ 0#6 ++ v
  | .nop => 0
  | .srst => 0
  | .acInit => 0
  | .acDec => 0
  | .acFlush => 0
  | .freqClr => 0
  | .rleInit => 0
  | .rleEend => 0
  | .rlePop => 0
  | .rleDend => 0
  | .prdInit => 0
  | .fldRd => 0
  | .prdForesee => 0

/-- The command word of a command: opcode in [31:24], operand field in [23:0] (30_encoding R90). It is also what ERRCMD holds when the
command raises an error (10_state R36). -/
def encode (i : Instr) : Word32 := i.opcode ++ i.operand

/-- A row of the match and mask table (30_encoding R94). -/
structure MaskRow where
  mnemonic : String
  matchWord : Word32
  mask : Word32
  deriving DecidableEq, Repr

/-- The match and mask table, row by row as 30_encoding R94 has it. The decoder does not use it: it is there to be compared with. -/
def maskTable : List MaskRow := [
  ⟨"NOP", 0x00000000, 0xFFFFFFFF⟩,
  ⟨"CSRR", 0x01000000, 0xFFFFFF00⟩,
  ⟨"CSRW", 0x02000000, 0xFFFFFF00⟩,
  ⟨"SRST", 0x0F000000, 0xFFFFFFFF⟩,
  ⟨"AC.INIT", 0x10000000, 0xFFFFFFFF⟩,
  ⟨"AC.ENC", 0x11000000, 0xFFFF0000⟩,
  ⟨"AC.DEC", 0x12000000, 0xFFFFFFFF⟩,
  ⟨"AC.FLUSH", 0x13000000, 0xFFFFFFFF⟩,
  ⟨"FREQ.WR", 0x14000000, 0xFFFF0000⟩,
  ⟨"FREQ.RD", 0x15000000, 0xFFFF0000⟩,
  ⟨"FREQ.CLR", 0x16000000, 0xFFFFFFFF⟩,
  ⟨"CUM.RD", 0x17000000, 0xFFFF0000⟩,
  ⟨"RLE.INIT", 0x20000000, 0xFFFFFFFF⟩,
  ⟨"RLE.EBIT", 0x21000000, 0xFFFFFFFE⟩,
  ⟨"RLE.EEND", 0x22000000, 0xFFFFFFFF⟩,
  ⟨"RLE.POP", 0x23000000, 0xFFFFFFFF⟩,
  ⟨"RLE.DSYM", 0x24000000, 0xFFFF0000⟩,
  ⟨"RLE.DEND", 0x25000000, 0xFFFFFFFF⟩,
  ⟨"PRD.INIT", 0x30000000, 0xFFFFFFFF⟩,
  ⟨"FLD.WR", 0x31000000, 0xFFFFFFFC⟩,
  ⟨"FLD.RD", 0x32000000, 0xFFFFFFFF⟩,
  ⟨"PRD.FORESEE", 0x33000000, 0xFFFFFFFF⟩,
  ⟨"PRD.LEARN", 0x34000000, 0xFFFFFFFC⟩,
  ⟨"PX.ENC", 0x35000000, 0xFFFFFEFF⟩,
  ⟨"PX.DEC", 0x36000000, 0xFFFFFEFC⟩]

/-- The mnemonic of each command (30_encoding R93). -/
def Instr.mnemonic : Instr → String
  | .nop => "NOP"
  | .csrr _ => "CSRR"
  | .csrw _ => "CSRW"
  | .srst => "SRST"
  | .acInit => "AC.INIT"
  | .acEnc _ => "AC.ENC"
  | .acDec => "AC.DEC"
  | .acFlush => "AC.FLUSH"
  | .freqWr _ => "FREQ.WR"
  | .freqRd _ => "FREQ.RD"
  | .freqClr => "FREQ.CLR"
  | .cumRd _ => "CUM.RD"
  | .rleInit => "RLE.INIT"
  | .rleEbit _ => "RLE.EBIT"
  | .rleEend => "RLE.EEND"
  | .rlePop => "RLE.POP"
  | .rleDsym _ => "RLE.DSYM"
  | .rleDend => "RLE.DEND"
  | .prdInit => "PRD.INIT"
  | .fldWr _ => "FLD.WR"
  | .fldRd => "FLD.RD"
  | .prdForesee => "PRD.FORESEE"
  | .prdLearn _ => "PRD.LEARN"
  | .pxEnc _ => "PX.ENC"
  | .pxDec _ _ => "PX.DEC"

/-- The control register of a CSR number (10_state R62, R59, R60): `none` for an unassigned number. -/
def Csr.ofNumber (n : BitVec 8) : Option Csr :=
  match n.toNat with
  | 0x00 => some .id
  | 0x01 => some .status
  | 0x02 => some .errInfo
  | 0x03 => some .errCmd
  | 0x04 => some .acNsym
  | 0x05 => some .acTerm
  | 0x06 => some .acSections
  | 0x07 => some .acSectDone
  | 0x08 => some .acLow
  | 0x09 => some .acHigh
  | 0x0A => some .acUf
  | 0x0B => some .acCode
  | 0x0C => some .acTotal
  | 0x0D => some .acBits
  | 0x0E => some .acInPos
  | 0x0F => some .acPastEnd
  | 0x10 => some .rleM
  | 0x11 => some .rleRun
  | 0x12 => some .rleQlen
  | 0x13 => some .rlePstate
  | 0x14 => some .rleDepth
  | 0x15 => some .rleVacc
  | 0x20 => some .fldDim
  | 0x21 => some .prdCfg
  | 0x22 => some .prdPos
  | 0x23 => some .ctxCount
  | 0x24 => some (.shapeLen 0)
  | 0x25 => some (.shapeLen 1)
  | 0x26 => some (.shapeLen 2)
  | 0x27 => some (.shapeLen 3)
  | k => if 0x40 ≤ k ∧ k ≤ 0x7F then
      some (.shapeCell (Fin.ofNat 4 ((k - 0x40) / 16)) (Fin.ofNat 16 ((k - 0x40) % 16)))
    else none

/-- The number of a control register (10_state R62, R59, R60). -/
def Csr.number : Csr → BitVec 8
  | .id => 0x00
  | .status => 0x01
  | .errInfo => 0x02
  | .errCmd => 0x03
  | .acNsym => 0x04
  | .acTerm => 0x05
  | .acSections => 0x06
  | .acSectDone => 0x07
  | .acLow => 0x08
  | .acHigh => 0x09
  | .acUf => 0x0A
  | .acCode => 0x0B
  | .acTotal => 0x0C
  | .acBits => 0x0D
  | .acInPos => 0x0E
  | .acPastEnd => 0x0F
  | .rleM => 0x10
  | .rleRun => 0x11
  | .rleQlen => 0x12
  | .rlePstate => 0x13
  | .rleDepth => 0x14
  | .rleVacc => 0x15
  | .fldDim => 0x20
  | .prdCfg => 0x21
  | .prdPos => 0x22
  | .ctxCount => 0x23
  | .shapeLen k => BitVec.ofNat 8 (0x24 + k.val)
  | .shapeCell k i => BitVec.ofNat 8 (0x40 + 16 * k.val + i.val)

/-- What the decoder reads from a command whose bits are `w` (the host's numbering: bit 0 least significant). A command word is 32 bits
(30_encoding R90), written whole into CMD (20_memory R71), so no byte order is involved; bits above the row's `nbits` are 0. -/
def decodeTableWord (nbits w : Nat) : Option Instr :=
  match decode (BitVec.ofNat 32 (w % 2 ^ nbits)) with
  | .ok i => some i
  | .error _ => none

end Sys2Proof
end

