-- ==== Sys2Proof/Config.lean ====
section
/-! DEFINITION. What an implementation fixes (the parameters of 00_scope R7, at this block's values), and the free values: opaque constants with no body, which stand for the values the spec leaves open. -/

namespace Sys2Proof

/-- `MAX_SYM`: entries of the frequency table (00_scope R7). -/
def Config.maxSym : Nat := 65536

/-- `MAX_TOTAL` = 2^30: the largest TOTAL a coding command accepts (41_arith_coder R135). -/
def Config.maxTotal : Nat := 2 ^ 30

/-- `PAST_END_LIMIT`: the zero bits the decoder may take past the end of IN (20_memory R79). -/
def Config.pastEndLimit : Nat := 32

/-- `RLEQ_DEPTH`: capacity of the run-length symbol queue (10_state R52). -/
def Config.rleqDepth : Nat := 256

/-- `RUN_MAX` = 2^62 - 1: the largest run length (10_state R51). -/
def Config.runMax : Nat := 2 ^ 62 - 1

/-- `FIELD_CAP` = 2^24 cells: the largest W*H (10_state R54). A parameter of R7 at its default (log 9). -/
def Config.fieldCap : Nat := 2 ^ 24

/-- `CTX_CAP` = 2^20: capacity of the context store (44_predictor R209). A parameter of R7 at its default (log 9). -/
def Config.ctxCap : Nat := 2 ^ 20

/-- `FIX_MAX_CELLS`: the largest number of FixedSize key cells (10_state R56). -/
def Config.fixMaxCells : Nat := 60

/-- `FREQ_CEIL` = 31: the ceiling of the frequency-table codec (42_freq_table R161). -/
def Config.freqCeil : Nat := 31

/-- The most renormalisation shifts one command makes (41_arith_coder R136, item 5). -/
def Config.maxShifts : Nat := 32

/-- FREE VALUE (log 3, DESIGN CHOICE). What a 64-bit counter (UF, SECTDONE, INPOS) holds after it is counted up from 2^64 - 1:
the spec gives no rule (10_state R38, 93 "UF and SECTDONE wrap: any value"). The argument is the number of free values drawn before. -/
opaque Config.counterPastTop : Nat → Word64

/-- FREE VALUE (log 5, DESIGN CHOICE). The symbol 41_arith_coder R137 selects in a state where no symbol's cumulative range contains
the count. R140 shows that no run reaches such a state. The argument is the number of free values drawn before. -/
opaque Config.symbolOutsideTable : Nat → Sym

end Sys2Proof
end

