-- ==== Sys2Proof/Machine/State.lean ====
section
/-! DEFINITION. The state of one engine instance (10_state R30 and the rules it names), as plain data; the model's own fields beside it (the host's coming actions, the answer to the last one, the count of free values drawn); the reasons a step can stop; and the state after reset (70_reset R260). -/

namespace Sys2Proof.Machine

/-- A memory indexed by natural numbers, holding words of `w` bits: (index, value) pairs in one canonical form (`Memory.wf`), indices
strictly rising, no entry of value 0. An index not listed reads as 0: the reset value of every FREQ entry and FIELD cell (10_state R46, R55). -/
abbrev Memory (w : Nat) := List (Nat × BitVec w)

/-- Error codes (60_exceptions R241). Codes 13 to 255 do not exist; `unimplemented` is reserved and never raised (R243). -/
inductive ErrorCode where
  | none
  | invalidSymbol
  | zeroProbability
  | directionMisuse
  | malformedStream
  | unimplemented
  | illegalCommand
  | freqTotal
  | configInvalid
  | fieldOob
  | cursorEnd
  | rleOverflow
  | rleqOverflow
  deriving DecidableEq, Repr

/-- The error latch: STATUS.ERR, ERRINFO, ERRCMD (10_state R34 to R36). -/
structure ErrorLatch where
  err : ErrorCode
  info : Word64
  cmd : Word32
  deriving DecidableEq, Repr

/-- The coder's direction latch DIR (10_state R41). -/
inductive Dir where
  | idle
  | write
  | read
  deriving DecidableEq, Repr

/-- The arithmetic-coder unit (10_state R37 to R49). -/
structure AcUnit where
  low : Word32
  high : Word32
  uf : Word64
  code : Word32
  bitBuf : BitVec 8
  bitCnt : Nat
  dir : Dir
  nsym : BitVec 17
  term : BitVec 16
  sections : BitVec 32
  sectDone : Word64
  inBuf : BitVec 8
  inCnt : Nat
  inPos : Word64
  pastEnd : Nat
  freq : Memory 64
  deriving DecidableEq, Repr

/-- The decoder parser's phase (10_state R53). -/
inductive Phase where
  | prefixPhase
  | suffixPhase
  deriving DecidableEq, Repr

/-- The run-length unit (10_state R50 to R53). -/
structure RleUnit where
  m : BitVec 16
  run : Nat
  queue : List Sym
  phase : Phase
  first : Bool
  depth : Nat
  vacc : Nat
  deriving DecidableEq, Repr

/-- A counter entry of the context store (44_predictor R201): four counters of 12, 12, 12 and 11 bits and the saturation flag. -/
structure CtxEntry where
  c0 : BitVec 12
  c1 : BitVec 12
  c2 : BitVec 12
  c3 : BitVec 11
  sat : Bool
  deriving DecidableEq, Repr

/-- The context store (10_state R58): a finite map from 128-bit keys, as a list with strictly rising keys. A key not listed is absent. -/
abbrev CtxStore := List (CtxKey × CtxEntry)

/-- The predictor unit (10_state R54 to R60). -/
structure PrdUnit where
  width : BitVec 16
  height : BitVec 16
  field : Memory 2
  cfg : BitVec 23
  pos : Nat
  ctx : CtxStore
  ctxFull : Bool
  shapeLen : Vector (BitVec 5) 4
  shapeCell : Vector (Vector (BitVec 16) 16) 4
  deriving DecidableEq, Repr

/-- What the host (and the reset input) does to the engine: accesses to the register window (20_memory R71), each with its byte offset,
its width in bytes and, for a write, its value; the two port actions (R72); and the system reset input (70_reset R260). -/
inductive HostAction where
  | windowWrite (offset bytes : Nat) (value : Word64)
  | windowRead (offset bytes : Nat)
  | attachIn (bytes : List Byte)
  | takeOut
  | systemReset
  deriving DecidableEq, Repr

/-- What a host action returns to the host (20_memory R72). -/
inductive HostReply where
  | nothing
  | word (v : Word64)
  | bytes (bs : List Byte)
  deriving DecidableEq, Repr

/-- The whole state. `arg` to `out` are the components of 10_state R30; `pending`, `reply` and `draws` are the model's own (log 1, 2, 4). -/
structure State where
  arg : Word64
  res : Word64
  latch : ErrorLatch
  ac : AcUnit
  rle : RleUnit
  prd : PrdUnit
  inp : List Byte
  out : List Byte
  pending : List HostAction
  reply : HostReply
  draws : Nat
  deriving DecidableEq, Repr

/-- Faults: there is none. The block's one kind of exceptional event is a command error, which sets the latch and goes on
(60_exceptions R240, R246); nothing stops the machine. Safe: a run is never cut short by a fault. -/
inductive Fault where
  deriving DecidableEq, Repr

/-- Refusals: the steps the model does not give. -/
inductive Refusal where
  /-- No meaning for the instruction with this mnemonic; raised by exec's own arm only, and by no arm of this model. Safe. -/
  | notModelled (mnemonic : String)
  /-- A host access that 20_memory R71 refuses (an unlisted offset, a width other than 64 bits, a write to RES or STATUS): "a model gives it
  no step". Raised by `Machine.perform`. Safe: no claim is provable about a host that makes one. -/
  | windowAccess
  deriving DecidableEq, Repr

/-- The latch after reset: NONE, 0, 0 (10_state R34 to R36). -/
def ErrorLatch.reset : ErrorLatch := { err := .none, info := 0, cmd := 0 }

/-- The arithmetic coder after reset (70_reset R260). -/
def AcUnit.reset : AcUnit where
  low := 0
  high := 0xFFFFFFFF
  uf := 0
  code := 0
  bitBuf := 0
  bitCnt := 0
  dir := .idle
  nsym := 1
  term := 0
  sections := 0
  sectDone := 0
  inBuf := 0
  inCnt := 0
  inPos := 0
  pastEnd := 0
  freq := []

/-- The run-length unit after reset (70_reset R260). -/
def RleUnit.reset : RleUnit where
  m := 1
  run := 0
  queue := []
  phase := .prefixPhase
  first := true
  depth := 0
  vacc := 0

/-- SHAPE_LEN after reset: 12, 6, 3, 0 (10_state R59). -/
def resetShapeLen : Vector (BitVec 5) 4 := #v[12, 6, 3, 0]

/-- SHAPE_CELL after reset (10_state R60), each as its CSR value DY ‖ DX. -/
def resetShapeCell : Vector (Vector (BitVec 16) 16) 4 := #v[
  #v[0xFEFE, 0xFEFF, 0xFE00, 0xFE01, 0xFE02, 0xFFFE, 0xFFFF, 0xFF00, 0xFF01, 0xFF02, 0x00FE, 0x00FF,
     0x00FF, 0x00FF, 0x00FF, 0x00FF],
  #v[0xFE00, 0xFFFF, 0xFF00, 0xFF01, 0x00FE, 0x00FF, 0x00FF, 0x00FF, 0x00FF, 0x00FF, 0x00FF, 0x00FF,
     0x00FF, 0x00FF, 0x00FF, 0x00FF],
  #v[0xFFFF, 0xFF00, 0x00FF, 0x00FF, 0x00FF, 0x00FF, 0x00FF, 0x00FF, 0x00FF, 0x00FF, 0x00FF, 0x00FF,
     0x00FF, 0x00FF, 0x00FF, 0x00FF],
  #v[0x00FF, 0x00FF, 0x00FF, 0x00FF, 0x00FF, 0x00FF, 0x00FF, 0x00FF, 0x00FF, 0x00FF, 0x00FF, 0x00FF,
     0x00FF, 0x00FF, 0x00FF, 0x00FF]]

/-- The predictor unit after reset (70_reset R260). -/
def PrdUnit.reset : PrdUnit where
  width := 1
  height := 1
  field := []
  cfg := 0x312310
  pos := 0
  ctx := []
  ctxFull := false
  shapeLen := resetShapeLen
  shapeCell := resetShapeCell

/-- The machine right after power-on: every component at the reset value of 70_reset R260, both ports empty (20_memory R73, R74), and the
model's own fields empty (log 1, 2, 4). -/
def State.reset : State where
  arg := 0
  res := 0
  latch := ErrorLatch.reset
  ac := AcUnit.reset
  rle := RleUnit.reset
  prd := PrdUnit.reset
  inp := []
  out := []
  pending := []
  reply := .nothing
  draws := 0

/-- Replace ARG. -/
def State.setArg (s : State) (v : Word64) : State := { s with arg := v }

/-- Replace RES. -/
def State.setRes (s : State) (v : Word64) : State := { s with res := v }

/-- Replace the error latch. -/
def State.setLatch (s : State) (v : ErrorLatch) : State := { s with latch := v }

/-- Replace the arithmetic-coder unit. -/
def State.setAc (s : State) (v : AcUnit) : State := { s with ac := v }

/-- Replace the run-length unit. -/
def State.setRle (s : State) (v : RleUnit) : State := { s with rle := v }

/-- Replace the predictor unit. -/
def State.setPrd (s : State) (v : PrdUnit) : State := { s with prd := v }

/-- Replace the input sequence IN. -/
def State.setInp (s : State) (v : List Byte) : State := { s with inp := v }

/-- Replace the output sequence OUT. -/
def State.setOut (s : State) (v : List Byte) : State := { s with out := v }

/-- Replace the host's coming actions. -/
def State.setPending (s : State) (v : List HostAction) : State := { s with pending := v }

/-- Replace the answer to the last host action. -/
def State.setReply (s : State) (v : HostReply) : State := { s with reply := v }

/-- Replace the count of free values drawn. -/
def State.setDraws (s : State) (v : Nat) : State := { s with draws := v }

end Sys2Proof.Machine
end

