-- ==== Sys2Proof/Machine/Ops.lean ====
section
/-! DEFINITION. The shared operations: reading and writing the indexed memories and the context store, counting, the coded-bit ports (20_memory R77 to R79), raising an error and the one way every command runs (error entry, the latch gate and the commit rule of 60_exceptions R246, R247), and the reset that SRST and the reset input share. -/

namespace Sys2Proof.Machine

/-! ### Indexed memories (FREQ and FIELD) -/

/-- The value at index `a`; an unlisted index reads 0 (10_state R46, R55). -/
def Memory.read {w : Nat} : Memory w → Nat → BitVec w
  | [], _ => 0
  | (b, u) :: m, a => if a = b then u else Memory.read m a

/-- Store `v` at index `a`, keeping the canonical form: writing 0 removes the entry. -/
def Memory.write {w : Nat} : Memory w → Nat → BitVec w → Memory w
  | [], a, v => if v = 0 then [] else [(a, v)]
  | (b, u) :: m, a, v =>
    if a < b then (if v = 0 then (b, u) :: m else (a, v) :: (b, u) :: m)
    else if a = b then (if v = 0 then m else (a, v) :: m)
    else (b, u) :: Memory.write m a v

/-- The canonical form: indices strictly rising, no entry of value 0. -/
abbrev Memory.wf {w : Nat} (m : Memory w) : Prop :=
  m.Pairwise (fun c d => c.1 < d.1) ∧ ∀ c ∈ m, c.2 ≠ 0

/-- The exact sum of the values at indices below `n`: `cum(n)` of 41_arith_coder R121 over FREQ. -/
def Memory.sumBelow {w : Nat} (n : Nat) : Memory w → Nat
  | [] => 0
  | (a, v) :: m => (if a < n then v.toNat else 0) + Memory.sumBelow n m

/-- The first index below `n` whose running sum, starting from `acc`, passes `count`: the least s with cum(s + 1) > count
(41_arith_coder R137). -/
def Memory.findAbove {w : Nat} (n count : Nat) : Nat → Memory w → Option Nat
  | _, [] => none
  | acc, (a, v) :: m =>
    if n ≤ a then none
    else if count < acc + v.toNat then some a
    else Memory.findAbove n count (acc + v.toNat) m

/-! ### The context store -/

/-- The entry at a key, or absent (10_state R58, 44_predictor R208: two lookups find the same entry iff the keys are equal). -/
def CtxStore.find : CtxStore → CtxKey → Option CtxEntry
  | [], _ => none
  | (k, e) :: c, key => if key = k then some e else CtxStore.find c key

/-- Put an entry at a key, in key order, replacing the one there. -/
def CtxStore.put : CtxStore → CtxKey → CtxEntry → CtxStore
  | [], key, e => [(key, e)]
  | (k, u) :: c, key, e =>
    if key.toNat < k.toNat then (key, e) :: (k, u) :: c
    else if key = k then (key, e) :: c
    else (k, u) :: CtxStore.put c key e

/-- The canonical form of the context store: keys strictly rising. -/
abbrev CtxStore.wf (c : CtxStore) : Prop := c.Pairwise (fun x y => x.1.toNat < y.1.toNat)

/-! ### Counting -/

/-- A 64-bit counter one higher, with the count of free values drawn: past 2^64 - 1 the spec gives no value (10_state R38), and the counter
takes a free one (log 3). -/
def countUp (v : Word64) (draws : Nat) : Word64 × Nat :=
  if v = BitVec.allOnes 64 then (Config.counterPastTop draws, draws + 1) else (v + 1, draws)

/-! ### Raising errors -/

/-- An error on its way to the latch: the code and the info value of `raise E(info)` (00_scope R10). -/
structure Raised where
  code : ErrorCode
  info : Word64
  deriving DecidableEq, Repr

/-- `min(n, 2^64 - 1)` as a 64-bit value (10_state R47, 41_arith_coder R129). -/
def saturate64 (n : Nat) : Word64 := BitVec.ofNat 64 (min n (2 ^ 64 - 1))

/-- The two-bit code of DIR (10_state R41). -/
def Dir.code : Dir → BitVec 2
  | .idle => 0
  | .write => 1
  | .read => 2

/-- INVALID_SYMBOL(zext_64(s)) (60_exceptions R241). -/
def Raised.invalidSymbol (s : Sym) : Raised := ⟨.invalidSymbol, s.setWidth 64⟩

/-- ZERO_PROBABILITY(zext_64(s)) (60_exceptions R241). -/
def Raised.zeroProbability (s : Sym) : Raised := ⟨.zeroProbability, s.setWidth 64⟩

/-- DIRECTION_MISUSE with the DIR value found (60_exceptions R241). -/
def Raised.directionMisuse (d : Dir) : Raised := ⟨.directionMisuse, d.code.setWidth 64⟩

/-- MALFORMED_STREAM((subcause << 56) | value), the value taken mod 2^56 (60_exceptions R241, R242; log 8). -/
def Raised.malformed (subcause : BitVec 8) (value : Nat) : Raised := ⟨.malformedStream, subcause ++ BitVec.ofNat 56 value⟩

/-- ILLEGAL_COMMAND(zext_64(w)) (60_exceptions R241). -/
def Raised.illegalCommand (w : Word32) : Raised := ⟨.illegalCommand, w.setWidth 64⟩

/-- FREQ_TOTAL(min(TOTAL, 2^64 - 1)) (60_exceptions R241). -/
def Raised.freqTotal (total : Nat) : Raised := ⟨.freqTotal, saturate64 total⟩

/-- CONFIG_INVALID(ARG) (60_exceptions R241). -/
def Raised.configInvalid (arg : Word64) : Raised := ⟨.configInvalid, arg⟩

/-- FIELD_OOB(ARG) (60_exceptions R241). -/
def Raised.fieldOob (arg : Word64) : Raised := ⟨.fieldOob, arg⟩

/-- CURSOR_END(POS) (60_exceptions R241). -/
def Raised.cursorEnd (pos : Nat) : Raised := ⟨.cursorEnd, BitVec.ofNat 64 pos⟩

/-- RLE_OVERFLOW(RUN) (60_exceptions R241). -/
def Raised.rleOverflow (run : Nat) : Raised := ⟨.rleOverflow, BitVec.ofNat 64 run⟩

/-- RLEQ_OVERFLOW with the number of symbols needed (60_exceptions R241). -/
def Raised.rleqOverflow (needed : Nat) : Raised := ⟨.rleqOverflow, BitVec.ofNat 64 needed⟩

/-- Subcause PAST_END (60_exceptions R242). -/
def subcausePastEnd : BitVec 8 := 1

/-- Subcause SECTION_LIMIT (60_exceptions R242). -/
def subcauseSectionLimit : BitVec 8 := 2

/-- Subcause RLE_SYMBOL (60_exceptions R242). -/
def subcauseRleSymbol : BitVec 8 := 3

/-- Subcause RLE_TRUNCATED (60_exceptions R242). -/
def subcauseRleTruncated : BitVec 8 := 4

/-- Subcause RLE_RANGE (60_exceptions R242). -/
def subcauseRleRange : BitVec 8 := 5

/-- Error entry (60_exceptions R246): the state before the command, with the latch set if it was clear. `w` is the command word. -/
def enterError (e : Raised) (w : Word32) (s : State) : State :=
  if s.latch.err = .none then s.setLatch { err := e.code, info := e.info, cmd := w } else s

/-- Whether the error latch is set: STATUS.ERR ≠ 0 (30_encoding R95). -/
def State.latched (s : State) : Bool := s.latch.err != .none

/-- Opcodes 0x01 (CSRR) and 0x0F (SRST): the commands that run under the latch (30_encoding R95, 60_exceptions R247). -/
def opcodeRunsLatched (opc : BitVec 8) : Bool := opc == 0x01 || opc == 0x0F

/-- How every command runs: under the latch it is ignored, unless it is CSRR or SRST (60_exceptions R247); otherwise its effect is committed
in full, or its error is entered from the state before it (R246). `body` is the command's effect on `s`. Error exit is SRST's own effect
(R248). -/
def runCommand (i : Instr) (s : State) (body : Except Raised State) : Host.Outcome State Fault Refusal :=
  if s.latched && !opcodeRunsLatched i.opcode then .next s
  else match body with
    | .ok t => .next t
    | .error e => .next (enterError e (encode i) s)

/-- What a command word that selects no row does (30_encoding R95): ignored under the latch, ILLEGAL_COMMAND otherwise. -/
def runIllegal (w : Word32) (s : State) : State :=
  if s.latched && !opcodeRunsLatched (opcodeField w) then s else enterError (.illegalCommand w) w s

/-- Every component of 10_state R30 except IN and OUT at its reset value (40_control R114, 70_reset R260). The model's own fields stay. -/
def resetEngine (s : State) : State :=
  { State.reset with inp := s.inp, out := s.out, pending := s.pending, reply := s.reply, draws := s.draws }

/-! ### Coded bits out and in -/

/-- `OutBit(b)` (20_memory R77), most significant bit first (R76). -/
def outBit (b : Bool) (s : State) : State :=
  let buf := s.ac.bitBuf ||| ((BitVec.ofBool b).setWidth 8 <<< (7 - s.ac.bitCnt))
  if s.ac.bitCnt + 1 = 8 then (s.setAc { s.ac with bitBuf := 0, bitCnt := 0 }).setOut (s.out ++ [buf])
  else s.setAc { s.ac with bitBuf := buf, bitCnt := s.ac.bitCnt + 1 }

/-- `OutBit(b)`, `n` times. -/
def outBits (b : Bool) : Nat → State → State
  | 0, s => s
  | n + 1, s => outBits b n (outBit b s)

/-- `PadOut()` (20_memory R78). -/
def padOut (s : State) : State :=
  (s.setAc { s.ac with bitBuf := 0, bitCnt := 0 }).setOut (if s.ac.bitCnt = 0 then s.out else s.out ++ [s.ac.bitBuf])

/-- `InBit()` (20_memory R79): the bit and the state after it, or the error past the end. -/
def inBit (s : State) : Except Raised (Bool × State) :=
  if s.ac.inCnt = 0 then
    match s.inp with
    | b :: rest =>
      let (pos, draws) := countUp s.ac.inPos s.draws
      .ok (b.getLsbD 7, ((s.setAc { s.ac with inBuf := b, inCnt := 7, inPos := pos }).setInp rest).setDraws draws)
    | [] =>
      if s.ac.pastEnd = Config.pastEndLimit then .error (.malformed subcausePastEnd s.ac.pastEnd)
      else .ok (false, s.setAc { s.ac with pastEnd := s.ac.pastEnd + 1 })
  else .ok (s.ac.inBuf.getLsbD (s.ac.inCnt - 1), s.setAc { s.ac with inCnt := s.ac.inCnt - 1 })

end Sys2Proof.Machine
end

