-- ==== Sys2Proof/Machine/Operands.lean ====
section
/-! DEFINITION. Every operand form: the fields of ARG (30_encoding R92), of a CSR value being written (10_state R42 to R60), and of the configuration registers as the units read them. -/

namespace Sys2Proof.Machine

/-- x = ARG[15:0] for FLD.WR and FLD.RD (30_encoding R92). -/
def argX (arg : Word64) : Nat := (arg.extractLsb' 0 16).toNat

/-- y = ARG[31:16] for FLD.WR and FLD.RD (30_encoding R92). -/
def argY (arg : Word64) : Nat := (arg.extractLsb' 16 16).toNat

/-! ### Fields of PRD_CFG (10_state R56) -/

/-- KIND, bits [1:0]. -/
def cfgKind (c : BitVec 23) : Nat := (c.extractLsb' 0 2).toNat

/-- FALLBACK, bits [3:2]. -/
def cfgFallback (c : BitVec 23) : Nat := (c.extractLsb' 2 2).toNat

/-- OOB_MODE, bits [5:4]. -/
def cfgOobMode (c : BitVec 23) : Nat := (c.extractLsb' 4 2).toNat

/-- OOB_COLOR, bits [7:6]. -/
def cfgOobColour (c : BitVec 23) : Colour := c.extractLsb' 6 2

/-- FIX_W, bits [11:8]. -/
def cfgFixW (c : BitVec 23) : Nat := (c.extractLsb' 8 4).toNat

/-- FIX_H, bits [15:12]. -/
def cfgFixH (c : BitVec 23) : Nat := (c.extractLsb' 12 4).toNat

/-- FIX_XPOS, bits [19:16]. -/
def cfgFixXpos (c : BitVec 23) : Nat := (c.extractLsb' 16 4).toNat

/-- NSHAPES, bits [22:20]. -/
def cfgShapes (c : BitVec 23) : Nat := (c.extractLsb' 20 3).toNat

/-- OOB_MODE = SUBST (10_state R56). Every other value acts as THROW; values 2 and 3 are refused by CSRW (44_predictor R193; log 15). -/
def cfgSubst (c : BitVec 23) : Bool := cfgOobMode c == 1

/-- FIX_CELLS = (FIX_H - 1) * FIX_W + min(FIX_XPOS, FIX_W) (10_state R56). -/
def cfgFixCells (c : BitVec 23) : Nat := (cfgFixH c - 1) * cfgFixW c + min (cfgFixXpos c) (cfgFixW c)

/-- Every field of PRD_CFG legal and FIX_CELLS at most 60 (10_state R56). -/
def cfgLegal (c : BitVec 23) : Bool :=
  cfgFallback c ≤ 1 && cfgOobMode c ≤ 1 && 1 ≤ cfgFixW c && 1 ≤ cfgFixH c && cfgShapes c ≤ 4 &&
    cfgFixCells c ≤ Config.fixMaxCells

/-! ### Fields of a shape cell (10_state R60) -/

/-- DX, bits [7:0], signed. -/
def cellDx (c : BitVec 16) : Int := (c.extractLsb' 0 8).toInt

/-- DY, bits [15:8], signed. -/
def cellDy (c : BitVec 16) : Int := (c.extractLsb' 8 8).toInt

/-- A cell is causal iff DY < 0, or DY = 0 and DX < 0 (10_state R60, 44_predictor R194). -/
def cellCausal (c : BitVec 16) : Bool := cellDy c < 0 || (cellDy c == 0 && cellDx c < 0)

/-! ### Legal values of the read-write registers -/

/-- Whether `v` is a legal value of the register (10_state R42 to R44, R50, R54, R56, R59, R60). A read-only register takes none. -/
def csrLegal (c : Csr) (v : Word64) : Bool :=
  match c with
  | .acNsym => 1 ≤ v.toNat && v.toNat ≤ 65536
  | .acTerm => v.toNat ≤ 65535
  | .acSections => v.toNat < 2 ^ 32
  | .rleM => 1 ≤ v.toNat && v.toNat ≤ 65535
  | .fldDim => v.toNat < 2 ^ 32 && 1 ≤ argX v && 1 ≤ argY v && argX v * argY v ≤ Config.fieldCap
  | .prdCfg => v.toNat < 2 ^ 23 && cfgLegal (v.setWidth 23)
  | .shapeLen _ => v.toNat ≤ 16
  | .shapeCell _ _ => v.toNat < 2 ^ 16 && cellCausal (v.setWidth 16)
  | .id | .status | .errInfo | .errCmd | .acSectDone | .acLow | .acHigh | .acUf | .acCode | .acTotal | .acBits | .acInPos
  | .acPastEnd | .rleRun | .rleQlen | .rlePstate | .rleDepth | .rleVacc | .prdPos | .ctxCount => false

/-- Whether the register is read-write (10_state R62, the access column). -/
def csrWritable : Csr → Bool
  | .acNsym | .acTerm | .acSections | .rleM | .fldDim | .prdCfg | .shapeLen _ | .shapeCell _ _ => true
  | .id | .status | .errInfo | .errCmd | .acSectDone | .acLow | .acHigh | .acUf | .acCode | .acTotal | .acBits | .acInPos
  | .acPastEnd | .rleRun | .rleQlen | .rlePstate | .rleDepth | .rleVacc | .prdPos | .ctxCount => false

end Sys2Proof.Machine
end

