-- ==== Sys2Proof/Machine/Flags.lean ====
section
/-! DEFINITION. Every status field and every register composed from several pieces of state: STATUS (10_state R34), AC_BITS (R40), RLE_PSTATE (R53), FLD_DIM (R54), and the packed counter entry (44_predictor R201). -/

namespace Sys2Proof.Machine

/-- The error code in STATUS.ERR (60_exceptions R241). -/
def ErrorCode.code : ErrorCode → BitVec 8
  | .none => 0
  | .invalidSymbol => 1
  | .zeroProbability => 2
  | .directionMisuse => 3
  | .malformedStream => 4
  | .unimplemented => 5
  | .illegalCommand => 6
  | .freqTotal => 7
  | .configInvalid => 8
  | .fieldOob => 9
  | .cursorEnd => 10
  | .rleOverflow => 11
  | .rleqOverflow => 12

/-- STATUS.PASTEND: 1 iff PASTEND > 0 (10_state R34). -/
def flagPastEnd (s : State) : Bool := s.ac.pastEnd != 0

/-- STATUS.RLEBUSY: 1 iff PHASE = SUFFIX or DEPTH > 0 (10_state R34). -/
def flagRleBusy (s : State) : Bool := s.rle.phase == .suffixPhase || s.rle.depth != 0

/-- STATUS (10_state R34): QLEN in [24:16], RLEBUSY [12], PASTEND [11], CTXFULL [10], DIR [9:8], ERR [7:0]. -/
def statusWord (s : State) : Word64 :=
  0#39 ++ BitVec.ofNat 9 s.rle.queue.length ++ 0#3 ++ BitVec.ofBool (flagRleBusy s) ++ BitVec.ofBool (flagPastEnd s) ++
    BitVec.ofBool s.prd.ctxFull ++ s.ac.dir.code ++ s.latch.err.code

/-- AC_BITS (10_state R40): BITBUF in [7:0], BITCNT in [10:8], INCNT in [19:16]. -/
def acBitsWord (s : State) : Word64 :=
  0#44 ++ BitVec.ofNat 4 s.ac.inCnt ++ 0#5 ++ BitVec.ofNat 3 s.ac.bitCnt ++ s.ac.bitBuf

/-- RLE_PSTATE (10_state R53): bit 0 = PHASE, bit 1 = FIRST. -/
def rlePstateWord (s : State) : Word64 :=
  0#62 ++ BitVec.ofBool s.rle.first ++ BitVec.ofBool (s.rle.phase == .suffixPhase)

/-- FLD_DIM (10_state R54): W in [15:0], H in [31:16]. -/
def fldDimWord (s : State) : Word64 := 0#32 ++ s.prd.height ++ s.prd.width

/-- The 64-bit word of a counter entry (44_predictor R201). No command reads it (10_state R58). -/
def CtxEntry.word (e : CtxEntry) : Word64 := 0#16 ++ BitVec.ofBool e.sat ++ e.c3 ++ e.c2 ++ e.c1 ++ e.c0

end Sys2Proof.Machine
end

