-- ==== Sys2Proof/Machine/Coder.lean ====
section
/-! DEFINITION. The arithmetic coder's shared operations: cumulative lookup (41_arith_coder R121), interval update (R122), the two shifts (R123), renormalisation on both sides (R131, R139), section counting (R132), priming (R138) and symbol lookup (R137). -/

namespace Sys2Proof.Machine

/-- `cum(s)` = sum(FREQ[0..s)), exact (41_arith_coder R121). -/
def AcUnit.cum (a : AcUnit) (s : Nat) : Nat := a.freq.sumBelow s

/-- TOTAL = sum(FREQ[0..NSYM)), exact (10_state R47). -/
def AcUnit.total (a : AcUnit) : Nat := a.cum a.nsym.toNat

/-- r = HIGH - LOW + 1 (41_arith_coder R122); at least 1 by R136 (log 14). -/
def AcUnit.range (a : AcUnit) : Nat := a.high.toNat + 1 - a.low.toNat

/-- Interval update for a symbol (41_arith_coder R122). -/
def intervalUpdate (sym : Sym) (a : AcUnit) : AcUnit :=
  let f := (a.freq.read sym.toNat).toNat
  let c := a.cum sym.toNat
  { a with
    low := BitVec.ofNat 32 (a.range * c / a.total + a.low.toNat)
    high := BitVec.ofNat 32 (a.range * (c + f) / a.total + a.low.toNat - 1) }

/-- TopShift of LOW and HIGH (41_arith_coder R123). -/
def topShift (a : AcUnit) : AcUnit :=
  { a with low := a.low <<< 1, high := (a.high <<< 1) ||| 1 }

/-- UnderflowShift of LOW and HIGH (41_arith_coder R123). -/
def underflowShift (a : AcUnit) : AcUnit :=
  { a with low := (a.low &&& 0x3FFFFFFF) <<< 1, high := ((a.high ||| 0x40000000) <<< 1) ||| 1 }

/-- LOW[31] = HIGH[31] (41_arith_coder R131). -/
def topBitsAgree (a : AcUnit) : Bool := a.low.getLsbD 31 == a.high.getLsbD 31

/-- LOW[30] = 1 and HIGH[30] = 0 (41_arith_coder R131). -/
def inUnderflow (a : AcUnit) : Bool := a.low.getLsbD 30 && !a.high.getLsbD 30

/-- One bit and the pending underflow bits, its complements (41_arith_coder R131). -/
def emitWithPending (b : Bool) (s : State) : State :=
  let t := outBits (!b) s.ac.uf.toNat (outBit b s)
  t.setAc { t.ac with uf := 0 }

/-- UF <- UF + 1 (41_arith_coder R131; past 2^64 - 1 a free value, log 3). -/
def countUnderflow (s : State) : State :=
  let (uf, draws) := countUp s.ac.uf s.draws
  (s.setAc { s.ac with uf := uf }).setDraws draws

/-- `EncRenorm()` (41_arith_coder R131), given as many turns as `fuel`; 32 are enough from any bounds (R136; log 13). -/
def encRenorm : Nat → State → State
  | 0, s => s
  | fuel + 1, s =>
    if topBitsAgree s.ac then
      let t := emitWithPending (s.ac.high.getLsbD 31) s
      encRenorm fuel (t.setAc (topShift t.ac))
    else if inUnderflow s.ac then
      let t := countUnderflow s
      encRenorm fuel (t.setAc (underflowShift t.ac))
    else s

/-- CODE <- ((c << 1) mod 2^32) | InBit(), where `c` is what is shifted (41_arith_coder R138, R139). -/
def shiftInCode (c : Word32) (s : State) : Except Raised State :=
  match inBit s with
  | .error e => .error e
  | .ok (b, t) => .ok (t.setAc { t.ac with code := (c <<< 1) ||| (BitVec.ofBool b).setWidth 32 })

/-- `DecRenorm()` (41_arith_coder R139), given as many turns as `fuel`; 32 are enough from any bounds (R136; log 13). -/
def decRenorm : Nat → State → Except Raised State
  | 0, s => .ok s
  | fuel + 1, s =>
    if topBitsAgree s.ac then
      match shiftInCode s.ac.code (s.setAc (topShift s.ac)) with
      | .error e => .error e
      | .ok t => decRenorm fuel t
    else if inUnderflow s.ac then
      match shiftInCode (s.ac.code ^^^ 0x40000000) (s.setAc (underflowShift s.ac)) with
      | .error e => .error e
      | .ok t => decRenorm fuel t
    else .ok s

/-- `n` bits shifted into CODE (41_arith_coder R138). -/
def shiftInBits : Nat → State → Except Raised State
  | 0, s => .ok s
  | n + 1, s =>
    match shiftInCode s.ac.code s with
    | .error e => .error e
    | .ok t => shiftInBits n t

/-- Priming (41_arith_coder R138): CODE <- 0, then 32 bits, then DIR <- READ. -/
def prime (s : State) : Except Raised State :=
  match shiftInBits 32 (s.setAc { s.ac with code := 0 }) with
  | .error e => .error e
  | .ok t => .ok (t.setAc { t.ac with dir := .read })

/-- count = ((CODE - LOW + 1) * T - 1) div r (41_arith_coder R137). -/
def AcUnit.count (a : AcUnit) : Nat := ((a.code.toNat + 1 - a.low.toNat) * a.total - 1) / a.range

/-- Symbol lookup (41_arith_coder R137). By R140 a symbol is always found; elsewhere the symbol is a free value (log 5). -/
def lookupSymbol (s : State) : Sym × State :=
  match s.ac.freq.findAbove s.ac.nsym.toNat s.ac.count 0 with
  | some n => (BitVec.ofNat 16 n, s)
  | none => (Config.symbolOutsideTable s.draws, s.setDraws (s.draws + 1))

/-- Section counting (41_arith_coder R132; past 2^64 - 1 a free value, log 3). -/
def countSection (sym : Sym) (s : State) : State :=
  if sym = s.ac.term then
    let (n, draws) := countUp s.ac.sectDone s.draws
    (s.setAc { s.ac with sectDone := n }).setDraws draws
  else s

end Sys2Proof.Machine
end

