-- ==== Sys2Proof/Machine/ArithCoder.lean ====
section
/-! DEFINITION. The arithmetic-coder commands (41_arith_coder): AC.INIT, AC.ENC, AC.DEC, AC.FLUSH, FREQ.WR, FREQ.RD, FREQ.CLR, CUM.RD. -/

namespace Sys2Proof.Machine

/-- The unit after AC.INIT (41_arith_coder R124): FREQ, NSYM, TERM and SECTIONS are kept. -/
def AcUnit.init (a : AcUnit) : AcUnit :=
  { a with
    low := 0, high := 0xFFFFFFFF, uf := 0, code := 0, bitBuf := 0, bitCnt := 0, dir := .idle, sectDone := 0,
    inBuf := 0, inCnt := 0, inPos := 0, pastEnd := 0 }

/-- AC.INIT (41_arith_coder R124). -/
def execAcInit (s : State) : Host.Outcome State Fault Refusal := runCommand .acInit s (.ok (s.setAc s.ac.init))

/-- The effect of AC.ENC s (41_arith_coder R130), its checks in the order of 60_exceptions R244. -/
def encodeSymbol (sym : Sym) (s : State) : Except Raised State :=
  if s.ac.dir = .read then .error (.directionMisuse s.ac.dir)
  else if s.ac.nsym.toNat ≤ sym.toNat then .error (.invalidSymbol sym)
  else if s.ac.freq.read sym.toNat = 0 then .error (.zeroProbability sym)
  else if Config.maxTotal < s.ac.total then .error (.freqTotal s.ac.total)
  else .ok (countSection sym (encRenorm Config.maxShifts (s.setAc (intervalUpdate sym { s.ac with dir := .write }))))

/-- AC.ENC s (41_arith_coder R130). -/
def execAcEnc (sym : Sym) (s : State) : Host.Outcome State Fault Refusal := runCommand (.acEnc sym) s (encodeSymbol sym s)

/-- SECTIONS ≠ 0 and SECTDONE ≥ SECTIONS (41_arith_coder R138, R143). -/
def sectionLimitReached (a : AcUnit) : Bool := a.sections != 0 && a.sections.toNat ≤ a.sectDone.toNat

/-- The part of AC.DEC after priming (41_arith_coder R138): lookup, interval update, renormalisation, result, section count. -/
def decodePrimed (s : State) : Except Raised State :=
  let (sym, t) := lookupSymbol s
  match decRenorm Config.maxShifts (t.setAc (intervalUpdate sym t.ac)) with
  | .error e => .error e
  | .ok u => .ok (countSection sym (u.setRes (sym.setWidth 64)))

/-- The effect of AC.DEC (41_arith_coder R138), its checks in the order of 60_exceptions R244. -/
def decodeSymbol (s : State) : Except Raised State :=
  if s.ac.dir = .write then .error (.directionMisuse s.ac.dir)
  else if sectionLimitReached s.ac then .error (.malformed subcauseSectionLimit s.ac.sectDone.toNat)
  else if s.ac.total = 0 ∨ Config.maxTotal < s.ac.total then .error (.freqTotal s.ac.total)
  else if s.ac.dir = .idle then
    match prime s with
    | .error e => .error e
    | .ok t => decodePrimed t
  else decodePrimed s

/-- AC.DEC (41_arith_coder R138). -/
def execAcDec (s : State) : Host.Outcome State Fault Refusal := runCommand .acDec s (decodeSymbol s)

/-- The effect of AC.FLUSH (41_arith_coder R133): LOW[30], then UF + 1 complement bits, then the padding; the interval starts anew and DIR
stays WRITE (R125). -/
def flushCoder (s : State) : Except Raised State :=
  if s.ac.dir = .read then .error (.directionMisuse s.ac.dir)
  else
    let b := s.ac.low.getLsbD 30
    let t := padOut (outBits (!b) (s.ac.uf.toNat + 1) (outBit b (s.setAc { s.ac with dir := .write })))
    .ok (t.setAc { t.ac with low := 0, high := 0xFFFFFFFF, uf := 0 })

/-- AC.FLUSH (41_arith_coder R133). -/
def execAcFlush (s : State) : Host.Outcome State Fault Refusal := runCommand .acFlush s (flushCoder s)

/-- FREQ.WR s (41_arith_coder R126). -/
def execFreqWr (sym : Sym) (s : State) : Host.Outcome State Fault Refusal :=
  runCommand (.freqWr sym) s (.ok (s.setAc { s.ac with freq := s.ac.freq.write sym.toNat s.arg }))

/-- FREQ.RD s (41_arith_coder R127). -/
def execFreqRd (sym : Sym) (s : State) : Host.Outcome State Fault Refusal :=
  runCommand (.freqRd sym) s (.ok (s.setRes (s.ac.freq.read sym.toNat)))

/-- FREQ.CLR (41_arith_coder R128): every entry 0, which is the memory with nothing listed. -/
def execFreqClr (s : State) : Host.Outcome State Fault Refusal :=
  runCommand .freqClr s (.ok (s.setAc { s.ac with freq := [] }))

/-- The effect of CUM.RD s (41_arith_coder R129). -/
def readCumulative (sym : Sym) (s : State) : Except Raised State :=
  if s.ac.nsym.toNat < sym.toNat then .error (.invalidSymbol sym)
  else .ok (s.setRes (saturate64 (s.ac.cum sym.toNat)))

/-- CUM.RD s (41_arith_coder R129). -/
def execCumRd (sym : Sym) (s : State) : Host.Outcome State Fault Refusal := runCommand (.cumRd sym) s (readCumulative sym s)

end Sys2Proof.Machine
end

