-- ==== Sys2Proof/Machine/Context.lean ====
section
/-! DEFINITION. The context predictor (44_predictor R190 to R211): neighbours, the four predictors, the keys, the counters, Foresee and Learn, and the transforms. Foresee and Learn are functions of the predictor unit alone (R195). -/

namespace Sys2Proof.Machine

/-- W*H. -/
def PrdUnit.cells (p : PrdUnit) : Nat := p.width.toNat * p.height.toNat

/-- x = POS mod W (44_predictor R191). -/
def PrdUnit.x (p : PrdUnit) : Nat := p.pos % p.width.toNat

/-- y = POS div W (44_predictor R191). -/
def PrdUnit.y (p : PrdUnit) : Nat := p.pos / p.width.toNat

/-- `Nb(a, b)` (44_predictor R192); `none` is UNAVAIL. -/
def PrdUnit.nb (p : PrdUnit) (a b : Int) : Option Colour :=
  if 0 ≤ a ∧ a < p.width.toNat ∧ 0 ≤ b ∧ b < p.height.toNat then
    some (p.field.read (b * p.width.toNat + a).toNat)
  else if cfgSubst p.cfg then some (cfgOobColour p.cfg)
  else none

/-- The neighbour at an offset from the current pixel. -/
def PrdUnit.near (p : PrdUnit) (dx dy : Int) : Option Colour := p.nb (p.x + dx) (p.y + dy)

/-- `PredNull()` (44_predictor R197). -/
def predNull : Colour := 0

/-- `PredHV3(L, T, TL)` (44_predictor R198). -/
def predHV3 (l t tl : Colour) : Colour := if l = tl then t else if t = tl then l else tl

/-- `PredHV()` (44_predictor R199). Each neighbour it reads is available where it reads it, so the value for UNAVAIL is never used
(log 15). -/
def predHV (p : PrdUnit) : Colour :=
  let cell (dx dy : Int) : Colour := (p.near dx dy).getD 0
  if cfgSubst p.cfg ∨ (0 < p.x ∧ 0 < p.y) then predHV3 (cell (-1) 0) (cell 0 (-1)) (cell (-1) (-1))
  else if 0 < p.x then cell (-1) 0
  else if 0 < p.y then cell 0 (-1)
  else 0

/-- The offsets of the FixedSize key cells (44_predictor R200): the rows above, top to bottom and left to right, then the cells of row y
left of x. -/
def fixedOffsets (c : BitVec 23) : List (Int × Int) :=
  let col (j : Nat) : Int := j - cfgFixXpos c
  (List.range (cfgFixH c - 1)).flatMap (fun r =>
      (List.range (cfgFixW c)).map fun j => (col j, (r : Int) - ((cfgFixH c - 1 : Nat) : Int))) ++
    (List.range (min (cfgFixXpos c) (cfgFixW c))).map fun j => (col j, 0)

/-- The colours at a list of offsets, or UNAVAIL if one of them is. -/
def PrdUnit.gather (p : PrdUnit) : List (Int × Int) → Option (List Colour)
  | [] => some []
  | (dx, dy) :: rest =>
    match p.near dx dy, p.gather rest with
    | some v, some vs => some (v :: vs)
    | _, _ => none

/-- The sum over j of (c_j << 2j) (44_predictor R200). -/
def packColours : List Colour → Nat
  | [] => 0
  | v :: vs => v.toNat + 4 * packColours vs

/-- `FixedKey()` (44_predictor R200): tag 0xFF in [127:120], the packed cells below. -/
def PrdUnit.fixedKey (p : PrdUnit) : Option CtxKey :=
  (p.gather (fixedOffsets p.cfg)).map fun vs => 0xFF#8 ++ BitVec.ofNat 120 (packColours vs)

/-- The bytes P of a packed neighbourhood, four cells a byte, the first in the low bits (44_predictor R205). -/
def packBytes : List Colour → List Byte
  | [] => []
  | [a] => [BitVec.ofNat 8 (packColours [a])]
  | [a, b] => [BitVec.ofNat 8 (packColours [a, b])]
  | [a, b, c] => [BitVec.ofNat 8 (packColours [a, b, c])]
  | a :: b :: c :: d :: rest => BitVec.ofNat 8 (packColours [a, b, c, d]) :: packBytes rest

/-- The polynomial of CRC-64/ECMA-182 (44_predictor R205). -/
def crcPoly : Word64 := 0x42F0E1EBA9EA3693

/-- One bit of the CRC: shift left, and XOR the polynomial if the bit shifted out was 1 (44_predictor R205). -/
def crcShift (c : Word64) : Word64 := if c.getLsbD 63 then (c <<< 1) ^^^ crcPoly else c <<< 1

/-- `n` bits of the CRC. -/
def crcShifts : Nat → Word64 → Word64
  | 0, c => c
  | n + 1, c => crcShifts n (crcShift c)

/-- The CRC of a byte sequence from a starting value (44_predictor R205). -/
def crcFrom : Word64 → List Byte → Word64
  | c, [] => c
  | c, b :: bs => crcFrom (crcShifts 8 (c ^^^ (b.setWidth 64 <<< 56))) bs

/-- `CRC64(P)`, CRC-64/ECMA-182: initial value 0, no reflection, no final XOR (44_predictor R205). -/
def crc64 (bs : List Byte) : Word64 := crcFrom 0 bs

/-- The offsets of hash shape k: its first SHAPE_LEN[k] cells (44_predictor R205). -/
def PrdUnit.shapeOffsets (p : PrdUnit) (k : Fin 4) : List (Int × Int) :=
  (p.shapeCell[k].toList.take p.shapeLen[k].toNat).map fun c => (cellDx c, cellDy c)

/-- `HashKey(k)` (44_predictor R205): the shape index in [127:120], zeros, the CRC of the packed neighbourhood. The default HASH_FN
(log 9). -/
def PrdUnit.hashKey (p : PrdUnit) (k : Fin 4) : Option CtxKey :=
  (p.gather (p.shapeOffsets k)).map fun vs => BitVec.ofNat 8 k.val ++ 0#56 ++ crc64 (packBytes vs)

/-- The shapes in use, in the order they are tried: k = 0, 1, ..., NSHAPES - 1 (44_predictor R207). -/
def PrdUnit.shapesInUse (p : PrdUnit) : List (Fin 4) :=
  (List.finRange 4).filter fun k => k.val < cfgShapes p.cfg

/-- A new counter entry: all zeros (44_predictor R201). -/
def CtxEntry.fresh : CtxEntry := { c0 := 0, c1 := 0, c2 := 0, c3 := 0, sat := false }

/-- The count of a colour (44_predictor R201). -/
def CtxEntry.count (e : CtxEntry) (v : Colour) : Nat :=
  if v = 0 then e.c0.toNat else if v = 1 then e.c1.toNat else if v = 2 then e.c2.toNat else e.c3.toNat

/-- The largest count of a colour: 4095, and 2047 for colour 3 (44_predictor R201). -/
def counterMax (v : Colour) : Nat := if v = 3 then 2047 else 4095

/-- One more observation of a colour. -/
def CtxEntry.bump (e : CtxEntry) (v : Colour) : CtxEntry :=
  if v = 0 then { e with c0 := e.c0 + 1 }
  else if v = 1 then { e with c1 := e.c1 + 1 }
  else if v = 2 then { e with c2 := e.c2 + 1 }
  else { e with c3 := e.c3 + 1 }

/-- Counter update (44_predictor R202): a frozen entry stays, a full counter freezes the entry, any other count goes up. -/
def CtxEntry.update (e : CtxEntry) (v : Colour) : CtxEntry :=
  if e.sat then e
  else if e.count v = counterMax v then { e with sat := true }
  else e.bump v

/-- `Vote(e)` (44_predictor R203): the least colour with the largest count. -/
def CtxEntry.vote (e : CtxEntry) : Colour :=
  let most := max (max (e.count 0) (e.count 1)) (max (e.count 2) (e.count 3))
  if e.count 0 = most then 0 else if e.count 1 = most then 1 else if e.count 2 = most then 2 else 3

/-- `Observe(k, v)` (44_predictor R209). -/
def PrdUnit.observe (p : PrdUnit) (k : CtxKey) (v : Colour) : PrdUnit :=
  match p.ctx.find k with
  | some e => { p with ctx := p.ctx.put k (e.update v) }
  | none =>
    if p.ctx.length = Config.ctxCap then { p with ctxFull := true }
    else { p with ctx := p.ctx.put k (CtxEntry.fresh.update v) }

/-- `Secondary()` (44_predictor R204). FALLBACK values 2 and 3 are refused by CSRW (log 15). -/
def secondary (p : PrdUnit) : Colour := if cfgFallback p.cfg = 1 then predHV p else predNull

/-- The entry of a key that may be UNAVAIL. -/
def PrdUnit.entryAt (p : PrdUnit) (key : Option CtxKey) : Option CtxEntry := key.bind p.ctx.find

/-- `ForeseeFixed()` (44_predictor R206). -/
def foreseeFixed (p : PrdUnit) : Colour :=
  match p.entryAt p.fixedKey with
  | some e => e.vote
  | none => secondary p

/-- `ForeseeHash()` (44_predictor R207): the first shape with data votes. -/
def foreseeHash (p : PrdUnit) : Colour :=
  match p.shapesInUse.findSome? (fun k => p.entryAt (p.hashKey k)) with
  | some e => e.vote
  | none => secondary p

/-- `Foresee()` (44_predictor R210). -/
def foresee (p : PrdUnit) : Colour :=
  match cfgKind p.cfg with
  | 0 => predNull
  | 1 => predHV p
  | 2 => foreseeFixed p
  | _ => foreseeHash p

/-- Observe a key unless it is UNAVAIL. -/
def PrdUnit.observeKey (p : PrdUnit) (key : Option CtxKey) (v : Colour) : PrdUnit :=
  match key with
  | some k => p.observe k v
  | none => p

/-- `LearnFixed(v)` (44_predictor R206). -/
def learnFixed (v : Colour) (p : PrdUnit) : PrdUnit := p.observeKey p.fixedKey v

/-- `LearnHash(v)` (44_predictor R207): every available shape learns, in order. -/
def learnHash (v : Colour) (p : PrdUnit) : PrdUnit :=
  p.shapesInUse.foldl (fun q k => q.observeKey (q.hashKey k) v) p

/-- `Learn(v)` (44_predictor R210). -/
def learn (v : Colour) (p : PrdUnit) : PrdUnit :=
  match cfgKind p.cfg with
  | 0 => p
  | 1 => p
  | 2 => learnFixed v p
  | _ => learnHash v p

/-- `Fwd(m, v, p)` (44_predictor R211). -/
def forwardTransform (m : Mode) (v p : Colour) : Colour :=
  match m with
  | .xor => v ^^^ p
  | .sub => v - p

/-- `Inv(m, r, p)` (44_predictor R211). -/
def inverseTransform (m : Mode) (r p : Colour) : Colour :=
  match m with
  | .xor => r ^^^ p
  | .sub => r + p

/-- POS <- POS + 1 (44_predictor R213). -/
def PrdUnit.advance (p : PrdUnit) : PrdUnit := { p with pos := p.pos + 1 }

/-- FIELD[i] <- v. -/
def PrdUnit.setCell (p : PrdUnit) (i : Nat) (v : Colour) : PrdUnit := { p with field := p.field.write i v }

end Sys2Proof.Machine
end

