-- ==== Sys2Proof/Machine/RunCode.lean ====
section
/-! DEFINITION. The run-length grammar (43_run_length R171), putting a run's word into the queue (R173), and the run token (R176). -/

namespace Sys2Proof.Machine

/-- `Enc(L)` with ceiling `m` (43_run_length R171). The recursion is on `fuel`; since (L div m) - 1 < L for m ≥ 1, fuel L + 1 reaches
the end of the word (log 13). -/
def encRun (m : Nat) : Nat → Nat → List Nat
  | 0, _ => []
  | fuel + 1, l => if l < m then [l] else [m] ++ encRun m fuel (l / m - 1) ++ [l % m]

/-- `Enc(L)` (43_run_length R171). -/
def runCode (m l : Nat) : List Nat := encRun m (l + 1) l

/-- `Emit(RUN); RUN <- 0` (43_run_length R173, R174). -/
def emitRun (s : State) : Except Raised State :=
  let q := runCode s.rle.m.toNat s.rle.run
  if s.rle.queue.length + q.length > Config.rleqDepth then .error (.rleqOverflow q.length)
  else .ok (s.setRle { s.rle with queue := s.rle.queue ++ q.map (BitVec.ofNat 16), run := 0 })

/-- A run token (43_run_length R176): VALID = 1 in bit 63, SEP in bit 62, LEN in [61:0]. -/
def runToken (sep : Bool) (len : Nat) : Word64 := 1#1 ++ BitVec.ofBool sep ++ BitVec.ofNat 62 len

/-- The end of a run in RLE.DSYM (43_run_length R177, `if done`): the token in RES, FIRST and VACC as for the next run. -/
def finishRun (vacc : Nat) (r : RleUnit) (s : State) : State :=
  (s.setRle { r with first := false, vacc := 0 }).setRes (runToken (!s.rle.first) vacc)

end Sys2Proof.Machine
end

