-- ==== Sys2Proof/Machine/Csr.lean ====
section
/-! DEFINITION. Reading and writing the control registers (10_state R33 to R62), with the side effects of 40_control R113. -/

namespace Sys2Proof.Machine

/-- The ID constant 0x0000_0000_4934_4301 (10_state R33). -/
def idWord : Word64 := 0x49344301

/-- The value CSRR reads (10_state R33 to R60), unassigned bits 0 (R61). -/
def csrRead (c : Csr) (s : State) : Word64 :=
  match c with
  | .id => idWord
  | .status => statusWord s
  | .errInfo => s.latch.info
  | .errCmd => s.latch.cmd.setWidth 64
  | .acNsym => s.ac.nsym.setWidth 64
  | .acTerm => s.ac.term.setWidth 64
  | .acSections => s.ac.sections.setWidth 64
  | .acSectDone => s.ac.sectDone
  | .acLow => s.ac.low.setWidth 64
  | .acHigh => s.ac.high.setWidth 64
  | .acUf => s.ac.uf
  | .acCode => s.ac.code.setWidth 64
  | .acTotal => saturate64 s.ac.total
  | .acBits => acBitsWord s
  | .acInPos => s.ac.inPos
  | .acPastEnd => BitVec.ofNat 64 s.ac.pastEnd
  | .rleM => s.rle.m.setWidth 64
  | .rleRun => BitVec.ofNat 64 s.rle.run
  | .rleQlen => BitVec.ofNat 64 s.rle.queue.length
  | .rlePstate => rlePstateWord s
  | .rleDepth => BitVec.ofNat 64 s.rle.depth
  | .rleVacc => BitVec.ofNat 64 s.rle.vacc
  | .fldDim => fldDimWord s
  | .prdCfg => s.prd.cfg.setWidth 64
  | .prdPos => BitVec.ofNat 64 s.prd.pos
  | .ctxCount => BitVec.ofNat 64 s.prd.ctx.length
  | .shapeLen k => s.prd.shapeLen[k].setWidth 64
  | .shapeCell k i => s.prd.shapeCell[k][i].setWidth 64

/-- `CSR[n] <- v` for a legal value, with the side effects of 40_control R113: FLD_DIM clears the field and sets POS to 0; TOTAL follows
NSYM by itself (10_state R47). A read-only register is not written. -/
def csrWrite (c : Csr) (v : Word64) (s : State) : State :=
  match c with
  | .acNsym => s.setAc { s.ac with nsym := v.setWidth 17 }
  | .acTerm => s.setAc { s.ac with term := v.setWidth 16 }
  | .acSections => s.setAc { s.ac with sections := v.setWidth 32 }
  | .rleM => s.setRle { s.rle with m := v.setWidth 16 }
  | .fldDim => s.setPrd { s.prd with width := v.extractLsb' 0 16, height := v.extractLsb' 16 16, field := [], pos := 0 }
  | .prdCfg => s.setPrd { s.prd with cfg := v.setWidth 23 }
  | .shapeLen k => s.setPrd { s.prd with shapeLen := s.prd.shapeLen.set k (v.setWidth 5) }
  | .shapeCell k i => s.setPrd { s.prd with shapeCell := s.prd.shapeCell.set k (s.prd.shapeCell[k].set i (v.setWidth 16)) }
  | .id | .status | .errInfo | .errCmd | .acSectDone | .acLow | .acHigh | .acUf | .acCode | .acTotal | .acBits | .acInPos
  | .acPastEnd | .rleRun | .rleQlen | .rlePstate | .rleDepth | .rleVacc | .prdPos | .ctxCount => s

end Sys2Proof.Machine
end

