-- ==== Sys2Proof/Machine/Control.lean ====
section
/-! DEFINITION. The control commands (40_control R110 to R114): NOP, CSRR, CSRW, SRST. -/

namespace Sys2Proof.Machine

/-- NOP (40_control R110). -/
def execNop (s : State) : Host.Outcome State Fault Refusal := runCommand .nop s (.ok s)

/-- The effect of CSRR n (40_control R111). -/
def readControl (n : BitVec 8) (s : State) : Except Raised State :=
  match Csr.ofNumber n with
  | none => .error (.illegalCommand (encode (.csrr n)))
  | some c => .ok (s.setRes (csrRead c s))

/-- CSRR n (40_control R111). -/
def execCsrr (n : BitVec 8) (s : State) : Host.Outcome State Fault Refusal := runCommand (.csrr n) s (readControl n s)

/-- The effect of CSRW n (40_control R112): the checks in order, then the write. -/
def writeControl (n : BitVec 8) (s : State) : Except Raised State :=
  match Csr.ofNumber n with
  | none => .error (.illegalCommand (encode (.csrw n)))
  | some c =>
    if !csrWritable c then .error (.illegalCommand (encode (.csrw n)))
    else if !csrLegal c s.arg then .error (.configInvalid s.arg)
    else .ok (csrWrite c s.arg s)

/-- CSRW n (40_control R112). -/
def execCsrw (n : BitVec 8) (s : State) : Host.Outcome State Fault Refusal := runCommand (.csrw n) s (writeControl n s)

/-- SRST (40_control R114): error exit, and the reset of every component but IN and OUT. -/
def execSrst (s : State) : Host.Outcome State Fault Refusal := runCommand .srst s (.ok (resetEngine s))

end Sys2Proof.Machine
end

