-- ==== Sys2Proof/Machine/Predictor.lean ====
section
/-! DEFINITION. The field and predictor commands (44_predictor R215 to R221): PRD.INIT, FLD.WR, FLD.RD, PRD.FORESEE, PRD.LEARN, PX.ENC, PX.DEC. -/

namespace Sys2Proof.Machine

/-- PRD.INIT (44_predictor R215). -/
def execPrdInit (s : State) : Host.Outcome State Fault Refusal :=
  runCommand .prdInit s (.ok (s.setPrd { s.prd with ctx := [], ctxFull := false, pos := 0 }))

/-- x < W and y < H, for the coordinates in ARG (44_predictor R216, R217). -/
def argInField (s : State) : Bool := argX s.arg < s.prd.width.toNat && argY s.arg < s.prd.height.toNat

/-- The raster index y*W + x of the coordinates in ARG (44_predictor R191). -/
def argIndex (s : State) : Nat := argY s.arg * s.prd.width.toNat + argX s.arg

/-- The effect of FLD.WR v (44_predictor R216). -/
def writeField (v : Colour) (s : State) : Except Raised State :=
  if argInField s then .ok (s.setPrd (s.prd.setCell (argIndex s) v)) else .error (.fieldOob s.arg)

/-- FLD.WR v (44_predictor R216). -/
def execFldWr (v : Colour) (s : State) : Host.Outcome State Fault Refusal := runCommand (.fldWr v) s (writeField v s)

/-- The effect of FLD.RD (44_predictor R217). -/
def readField (s : State) : Except Raised State :=
  if argInField s then .ok (s.setRes ((s.prd.field.read (argIndex s)).setWidth 64))
  else if cfgSubst s.prd.cfg then .ok (s.setRes ((cfgOobColour s.prd.cfg).setWidth 64))
  else .error (.fieldOob s.arg)

/-- FLD.RD (44_predictor R217). -/
def execFldRd (s : State) : Host.Outcome State Fault Refusal := runCommand .fldRd s (readField s)

/-- The cursor check of every cursor command: CURSOR_END when POS ≥ W*H (44_predictor R218 to R221). -/
def atCursor (s : State) (t : State) : Except Raised State :=
  if s.prd.cells ≤ s.prd.pos then .error (.cursorEnd s.prd.pos) else .ok t

/-- PRD.FORESEE (44_predictor R218). -/
def execPrdForesee (s : State) : Host.Outcome State Fault Refusal :=
  runCommand .prdForesee s (atCursor s (s.setRes ((foresee s.prd).setWidth 64)))

/-- FIELD[POS] <- v; Learn(v); POS <- POS + 1 (44_predictor R219, R221). -/
def PrdUnit.record (p : PrdUnit) (v : Colour) : PrdUnit := (learn v (p.setCell p.pos v)).advance

/-- PRD.LEARN v (44_predictor R219). -/
def execPrdLearn (v : Colour) (s : State) : Host.Outcome State Fault Refusal :=
  runCommand (.prdLearn v) s (atCursor s (s.setPrd (s.prd.record v)))

/-- The effect of PX.ENC m (44_predictor R220): the residual in RES, the field unchanged. -/
def encodePixel (m : Mode) (s : State) : State :=
  let v := s.prd.field.read s.prd.pos
  (s.setRes ((forwardTransform m v (foresee s.prd)).setWidth 64)).setPrd (learn v s.prd).advance

/-- PX.ENC m (44_predictor R220). -/
def execPxEnc (m : Mode) (s : State) : Host.Outcome State Fault Refusal :=
  runCommand (.pxEnc m) s (atCursor s (encodePixel m s))

/-- The effect of PX.DEC m, r (44_predictor R221). -/
def decodePixel (m : Mode) (r : Colour) (s : State) : State :=
  let v := inverseTransform m r (foresee s.prd)
  (s.setPrd (s.prd.record v)).setRes (v.setWidth 64)

/-- PX.DEC m, r (44_predictor R221). -/
def execPxDec (m : Mode) (r : Colour) (s : State) : Host.Outcome State Fault Refusal :=
  runCommand (.pxDec m r) s (atCursor s (decodePixel m r s))

end Sys2Proof.Machine
end

