-- ==== Sys2Proof/Machine/RunLength.lean ====
section
/-! DEFINITION. The run-length commands (43_run_length R172 to R178): RLE.INIT, RLE.EBIT, RLE.EEND, RLE.POP, RLE.DSYM, RLE.DEND. -/

namespace Sys2Proof.Machine

/-- The unit after RLE.INIT (43_run_length R172): M is kept. -/
def RleUnit.init (r : RleUnit) : RleUnit :=
  { r with run := 0, queue := [], phase := .prefixPhase, first := true, depth := 0, vacc := 0 }

/-- RLE.INIT (43_run_length R172). -/
def execRleInit (s : State) : Host.Outcome State Fault Refusal := runCommand .rleInit s (.ok (s.setRle s.rle.init))

/-- The effect of RLE.EBIT b (43_run_length R173). -/
def encodeBit (b : BitVec 1) (s : State) : Except Raised State :=
  if b = 0 then
    if s.rle.run = Config.runMax then .error (.rleOverflow s.rle.run)
    else .ok (s.setRle { s.rle with run := s.rle.run + 1 })
  else emitRun s

/-- RLE.EBIT b (43_run_length R173). -/
def execRleEbit (b : BitVec 1) (s : State) : Host.Outcome State Fault Refusal := runCommand (.rleEbit b) s (encodeBit b s)

/-- RLE.EEND (43_run_length R174). -/
def execRleEend (s : State) : Host.Outcome State Fault Refusal := runCommand .rleEend s (emitRun s)

/-- The effect of RLE.POP (43_run_length R175). -/
def popSymbol (s : State) : State :=
  match s.rle.queue with
  | [] => s.setRes (BitVec.allOnes 64)
  | q :: rest => (s.setRle { s.rle with queue := rest }).setRes (q.setWidth 64)

/-- RLE.POP (43_run_length R175). -/
def execRlePop (s : State) : Host.Outcome State Fault Refusal := runCommand .rlePop s (.ok (popSymbol s))

/-- RLE.DSYM in the PREFIX phase, for s ≤ M (43_run_length R177): an escape deepens the chain, a smaller symbol is the base value. -/
def parsePrefix (sym : Sym) (s : State) : Except Raised State :=
  let r := s.rle
  if sym = r.m then
    if r.depth = Config.runMax then .error (.malformed subcauseRleRange r.depth)
    else .ok ((s.setRle { r with depth := r.depth + 1 }).setRes 0)
  else if r.depth = 0 then .ok (finishRun sym.toNat r s)
  else .ok ((s.setRle { r with vacc := sym.toNat, phase := .suffixPhase }).setRes 0)

/-- RLE.DSYM in the SUFFIX phase, for s ≤ M (43_run_length R177): each remainder rebuilds one level. -/
def parseSuffix (sym : Sym) (s : State) : Except Raised State :=
  let r := s.rle
  if sym = r.m then .error (.malformed subcauseRleSymbol sym.toNat)
  else
    let v := (r.vacc + 1) * r.m.toNat + sym.toNat
    if Config.runMax < v then .error (.malformed subcauseRleRange r.depth)
    else if r.depth - 1 = 0 then .ok (finishRun v { r with depth := 0, phase := .prefixPhase } s)
    else .ok ((s.setRle { r with vacc := v, depth := r.depth - 1 }).setRes 0)

/-- The effect of RLE.DSYM s (43_run_length R177). -/
def parseSymbol (sym : Sym) (s : State) : Except Raised State :=
  if s.rle.m.toNat < sym.toNat then .error (.malformed subcauseRleSymbol sym.toNat)
  else match s.rle.phase with
    | .prefixPhase => parsePrefix sym s
    | .suffixPhase => parseSuffix sym s

/-- RLE.DSYM s (43_run_length R177). -/
def execRleDsym (sym : Sym) (s : State) : Host.Outcome State Fault Refusal := runCommand (.rleDsym sym) s (parseSymbol sym s)

/-- The effect of RLE.DEND (43_run_length R178). -/
def endRuns (s : State) : Except Raised State :=
  if s.rle.phase = .suffixPhase ∨ 0 < s.rle.depth then .error (.malformed subcauseRleTruncated s.rle.depth)
  else .ok (s.setRle { s.rle with first := true, vacc := 0 })

/-- RLE.DEND (43_run_length R178). -/
def execRleDend (s : State) : Host.Outcome State Fault Refusal := runCommand .rleDend s (endRuns s)

end Sys2Proof.Machine
end

