-- ==== Sys2Proof/Machine/Dispatch.lean ====
section
/-! DEFINITION. One arm per command (30_encoding R93). -/

namespace Sys2Proof.Machine

def exec (i : Instr) (s : State) : Host.Outcome State Fault Refusal :=
  match i with
  | .nop => Sys2Proof.Machine.execNop s
  | .csrr n => Sys2Proof.Machine.execCsrr n s
  | .csrw n => Sys2Proof.Machine.execCsrw n s
  | .srst => Sys2Proof.Machine.execSrst s
  | .acInit => Sys2Proof.Machine.execAcInit s
  | .acEnc sym => Sys2Proof.Machine.execAcEnc sym s
  | .acDec => Sys2Proof.Machine.execAcDec s
  | .acFlush => Sys2Proof.Machine.execAcFlush s
  | .freqWr sym => Sys2Proof.Machine.execFreqWr sym s
  | .freqRd sym => Sys2Proof.Machine.execFreqRd sym s
  | .freqClr => Sys2Proof.Machine.execFreqClr s
  | .cumRd sym => Sys2Proof.Machine.execCumRd sym s
  | .rleInit => Sys2Proof.Machine.execRleInit s
  | .rleEbit b => Sys2Proof.Machine.execRleEbit b s
  | .rleEend => Sys2Proof.Machine.execRleEend s
  | .rlePop => Sys2Proof.Machine.execRlePop s
  | .rleDsym sym => Sys2Proof.Machine.execRleDsym sym s
  | .rleDend => Sys2Proof.Machine.execRleDend s
  | .prdInit => Sys2Proof.Machine.execPrdInit s
  | .fldWr v => Sys2Proof.Machine.execFldWr v s
  | .fldRd => Sys2Proof.Machine.execFldRd s
  | .prdForesee => Sys2Proof.Machine.execPrdForesee s
  | .prdLearn v => Sys2Proof.Machine.execPrdLearn v s
  | .pxEnc m => Sys2Proof.Machine.execPxEnc m s
  | .pxDec m r => Sys2Proof.Machine.execPxDec m r s

end Sys2Proof.Machine
end

