-- ==== Sys2Proof/Machine/Window.lean ====
section
/-! DEFINITION. The host side: what writing a command word does (30_encoding R95), and each host action (20_memory R71, R72; 70_reset R260). -/

namespace Sys2Proof.Machine

/-- `WriteCMD(w)` (20_memory R72): the command the word selects runs; a word that selects none is illegal (30_encoding R95). -/
def writeCommand (w : Word32) (s : State) : Host.Outcome State Fault Refusal :=
  match decode w with
  | .ok i => exec i s
  | .error _ => .next (runIllegal w s)

/-- A write to the host window (20_memory R71): CMD at 0x00 (bits [63:32] ignored), ARG at 0x08; every other write is refused. -/
def windowWrite (offset bytes : Nat) (v : Word64) (s : State) : Host.Outcome State Fault Refusal :=
  if bytes = 8 ∧ offset = 0x00 then writeCommand (v.setWidth 32) s
  else if bytes = 8 ∧ offset = 0x08 then .next (s.setArg v)
  else .refused .windowAccess

/-- What a read of the host window returns (20_memory R71): CMD reads 0, then ARG, RES, STATUS; every other read is refused. -/
def windowRead (offset bytes : Nat) (s : State) : Option Word64 :=
  if bytes ≠ 8 then none
  else match offset with
    | 0x00 => some 0
    | 0x08 => some s.arg
    | 0x10 => some s.res
    | 0x18 => some (statusWord s)
    | _ => none

/-- The reset input while running: the engine as after SRST, and IN empty (20_memory R73 "At reset the sequence is empty"), OUT kept (R74
"SRST and reset do not remove bytes already appended"). Log 6. -/
def systemReset (s : State) : State := (resetEngine s).setInp []

/-- One host action (20_memory R72). -/
def perform (a : HostAction) (s : State) : Host.Outcome State Fault Refusal :=
  match a with
  | .windowWrite offset bytes v => windowWrite offset bytes v s
  | .windowRead offset bytes =>
    match windowRead offset bytes s with
    | some v => .next (s.setReply (.word v))
    | none => .refused .windowAccess
  | .attachIn bs => .next (s.setInp bs)
  | .takeOut => .next ((s.setOut []).setReply (.bytes s.out))
  | .systemReset => .next (systemReset s)

/-- The host's next action, if it has one; else the block waits (70_reset R261). The action is taken off the list, and the answer to the one
before it is gone. -/
def hostStep (s : State) : Host.Outcome State Fault Refusal :=
  match s.pending with
  | [] => .next s
  | a :: rest => perform a ((s.setPending rest).setReply .nothing)

/-- `s` with a write of the command word as the host's next action. -/
def issueWord (w : Word32) (s : State) : State := s.setPending (.windowWrite 0x00 8 (w.setWidth 64) :: s.pending)

end Sys2Proof.Machine
end

