-- ==== Sys2Proof/Machine/Step.lean ====
section
/-! DEFINITION. One step: the host's next action (00_scope R5, R8; 20_memory R84). -/

namespace Sys2Proof.Machine

/-- One step of the machine: the host's next action takes effect (20_memory R84); with none to come, the block waits (70_reset R261). -/
def step (s : State) : Host.Outcome State Fault Refusal := hostStep s

/-- `s` with the command whose bits are `w` as the host's very next action, so that the next step runs it. The block holds no program and
fetches nothing (00_scope R5): a command arrives as the host's write to CMD (log 1). -/
def State.withFetchWord (s : State) (nbits w : Nat) : State := issueWord (BitVec.ofNat 32 (w % 2 ^ nbits)) s

end Sys2Proof.Machine
end

