-- ==== Sys2Proof/Machine/HostCodec.lean ====
section
/-! DEFINITION. Host procedures, part one: host actions written as the assembler's pseudo-instructions (30_encoding R97, R98), and the frequency-table codec (42_freq_table R160 to R166). They run on the engine through its host window and ports only. -/

namespace Sys2Proof.Machine

/-- The state after a host action. A refused access gives no step (20_memory R71): the state stays. -/
def act (a : HostAction) (s : State) : State :=
  match perform a s with
  | .next t => t
  | .fault _ => s
  | .refused _ => s

/-- The state after host actions in order. -/
def actAll (as : List HostAction) (s : State) : State := as.foldl (fun t a => act a t) s

/-- `ARG v` (30_encoding R97). -/
def hostArg (v : Word64) : HostAction := .windowWrite 0x08 8 v

/-- A command, written as its word to CMD (30_encoding R97). -/
def hostCommand (i : Instr) : HostAction := .windowWrite 0x00 8 ((encode i).setWidth 64)

/-- `SETCSR n, v` (30_encoding R98). -/
def setCsr (c : Csr) (v : Word64) : List HostAction := [hostArg v, hostCommand (.csrw c.number)]

/-- `GETCSR n` (30_encoding R98): the value read from RES, and the state after. -/
def getCsr (c : Csr) (s : State) : Word64 × State :=
  let t := act (hostCommand (.csrr c.number)) s
  (t.res, t)

/-- `SETFREQ s, f` (30_encoding R98). -/
def setFreq (sym : Sym) (f : Word64) : List HostAction := [hostArg f, hostCommand (.freqWr sym)]

/-- The ARG value (y << 16) | x (30_encoding R98). -/
def fieldArg (x y : BitVec 16) : Word64 := 0#32 ++ y ++ x

/-- `FLDW x, y, v` (30_encoding R98). -/
def fldW (x y : BitVec 16) (v : Colour) : List HostAction := [hostArg (fieldArg x y), hostCommand (.fldWr v)]

/-- `FLDR x, y` (30_encoding R98). -/
def fldR (x y : BitVec 16) (s : State) : Word64 × State :=
  let t := actAll [hostArg (fieldArg x y), hostCommand .fldRd] s
  (t.res, t)

/-- `ENCODE s` (30_encoding R98). -/
def hostEncode (sym : Sym) : HostAction := hostCommand (.acEnc sym)

/-- `DECODE` (30_encoding R98). -/
def hostDecode (s : State) : Word64 × State :=
  let t := act (hostCommand .acDec) s
  (t.res, t)

/-- `TAKE` (30_encoding R97): the bytes TakeOUT returns, and the state after (20_memory R72). -/
def hostTake (s : State) : List Byte × State :=
  let t := act .takeOut s
  (match t.reply with
    | .bytes bs => bs
    | .nothing => []
    | .word _ => [], t)

/-! ### Quantisation (42_freq_table R161) -/

/-- `Quant(f)` (42_freq_table R161). -/
def quant (f : Nat) : Nat := if f < Config.freqCeil then f else Config.freqCeil

/-- `Side(f)`, for f ≥ 31 (42_freq_table R161). -/
def side (f : Nat) : Nat := f / Config.freqCeil - 1

/-- `Adjust(f)` (42_freq_table R161). -/
def adjust (f : Nat) : Nat := if f < Config.freqCeil then f else f / Config.freqCeil * Config.freqCeil

/-- `Expand(q, v)` (42_freq_table R161). -/
def expand (q v : Nat) : Nat := if q < Config.freqCeil then q else (v + 1) * Config.freqCeil

/-! ### Varints (42_freq_table R163) -/

/-- `Varint(v)` with as many bytes as `fuel` allows (42_freq_table R163). -/
def varintFuel : Nat → Nat → List Byte
  | 0, _ => []
  | fuel + 1, v => if v < 128 then [BitVec.ofNat 8 v] else BitVec.ofNat 8 (v % 128 + 128) :: varintFuel fuel (v / 128)

/-- `Varint(v)`: unsigned LEB128 (42_freq_table R163). -/
def varint (v : Nat) : List Byte := varintFuel (v + 1) v

/-- Read a varint from the front: bytes until one has bit 7 = 0 (42_freq_table R163). -/
def readVarint : List Byte → Option (Nat × List Byte)
  | [] => none
  | b :: bs =>
    if b.getLsbD 7 then
      match readVarint bs with
      | some (v, rest) => some (b.toNat - 128 + 128 * v, rest)
      | none => none
    else some (b.toNat, bs)

/-! ### SaveFreqs and LoadFreqs (42_freq_table R162, R164) -/

/-- FREQ[q] <- META_PROBS[q] for q in 0..31 (42_freq_table R162, R164). META_PROBS is open and stands as an argument (log 10). -/
def setMetaProbs (probs : Vector Word64 32) : List HostAction :=
  (List.finRange 32).flatMap fun q => setFreq (BitVec.ofNat 16 q.val) probs[q]

/-- What SaveFreqs gives: the bytes Z, the adjusted array f', and the engine after it (42_freq_table R162). `older` is what the first TAKE
returns: R162 leaves it to the host to discard these bytes or to keep them as a prefix, and the model does neither itself: it hands them
back beside Z, never inside it (DESIGN CHOICE, log 21). -/
structure SavedFreqs where
  older : List Byte
  bytes : List Byte
  adjusted : List Nat
  after : State
  deriving DecidableEq, Repr

/-- The commands of SaveFreqs before its first TAKE (42_freq_table R162). -/
def saveFreqsSetup (probs : Vector Word64 32) : List HostAction :=
  setCsr .acNsym 32 ++ setMetaProbs probs ++ [hostCommand .acInit]

/-- The commands of SaveFreqs between its two TAKEs: the meta stream (42_freq_table R162). -/
def metaStreamActions (f : List Nat) : List HostAction :=
  f.map (fun n => hostEncode (BitVec.ofNat 16 (quant n))) ++ [hostCommand .acFlush]

/-- The side channel B (42_freq_table R162). -/
def sideChannel (f : List Nat) : List Byte :=
  (f.filter (fun n => Config.freqCeil ≤ n)).flatMap fun n => varint (side n)

/-- `SaveFreqs(f[0..n))` (42_freq_table R162): Z = A ++ B, the default FREQ_LAYOUT (R166; log 9). The older bytes of OUT stand in `older`
(DESIGN CHOICE, log 21). -/
def saveFreqs (probs : Vector Word64 32) (f : List Nat) (s : State) : SavedFreqs :=
  let (older, t) := hostTake (actAll (saveFreqsSetup probs) s)
  let (stream, u) := hostTake (actAll (metaStreamActions f) t)
  { older := older, bytes := stream ++ sideChannel f, adjusted := f.map adjust, after := u }

/-- `n` DECODEs in a row: the symbols and the state after. -/
def decodeMany : Nat → State → List Nat × State
  | 0, s => ([], s)
  | n + 1, s =>
    let (q, t) := hostDecode s
    let (qs, u) := decodeMany n t
    (q.toNat :: qs, u)

/-- (8*AC_INPOS - INCNT + AC_PASTEND - 30 + 7) div 8, the length in bytes of the stream just decoded (41_arith_coder R141), from the three
CSRs; and the state after reading them. -/
def streamLength (s : State) : Nat × State :=
  let (pos, s1) := getCsr .acInPos s
  let (bits, s2) := getCsr .acBits s1
  let (past, s3) := getCsr .acPastEnd s2
  (((8 * (pos.toNat : Int) - (bits.extractLsb' 16 4).toNat + past.toNat - 30 + 7) / 8).toNat, s3)

/-- The last loop of LoadFreqs: each ceiling symbol takes one varint from the side channel (42_freq_table R164). -/
def expandAll : List Nat → List Byte → Option (List Nat × List Byte)
  | [], rest => some ([], rest)
  | q :: qs, rest =>
    if q < Config.freqCeil then
      match expandAll qs rest with
      | some (gs, r) => some (q :: gs, r)
      | none => none
    else
      match readVarint rest with
      | none => none
      | some (v, rest') =>
        match expandAll qs rest' with
        | some (gs, r) => some (expand q v :: gs, r)
        | none => none

/-- What LoadFreqs gives: the array g, the bytes after the side channel, and the engine after it. -/
structure LoadedFreqs where
  freqs : List Nat
  rest : List Byte
  after : State
  deriving DecidableEq, Repr

/-- `LoadFreqs(Z, n)` (42_freq_table R164); none when the side channel ends early. -/
def loadFreqs (probs : Vector Word64 32) (z : List Byte) (n : Nat) (s : State) : Option LoadedFreqs :=
  let t := actAll (setCsr .acNsym 32 ++ setCsr .acSections 0 ++ setMetaProbs probs ++ [hostCommand .acInit, .attachIn z]) s
  let (qs, u) := decodeMany n t
  let (len, v) := streamLength u
  match expandAll qs (z.drop len) with
  | some (gs, rest) => some { freqs := gs, rest := rest, after := v }
  | none => none

end Sys2Proof.Machine
end

