-- ==== Sys2Proof/Machine/HostImage.lean ====
section
/-! DEFINITION. Host procedures, part two: run-length planes (42_freq_table R169, 43_run_length R181, R184, R185), the container (42_freq_table R168) and the canonical order of an image's encode and decode (70_reset R261). -/

namespace Sys2Proof.Machine

/-- The plane of a colour: bit = 1 where the residual equals it (42_freq_table R169). -/
def plane (c : Colour) (residuals : List Colour) : List (BitVec 1) := residuals.map fun r => if r = c then 1 else 0

/-- The residuals of three planes: colour c where plane c has a 1, else 0 (42_freq_table R169). Planes of a damaged stream may have two 1s
at one pixel, or differ in length, where R169 says nothing: the lowest colour is taken, and the shortest plane ends the list
(DESIGN CHOICE, log 22). -/
def joinPlanes (p1 p2 p3 : List (BitVec 1)) : List Colour :=
  (p1.zip (p2.zip p3)).map fun (a, b, c) => if a = 1 then 1 else if b = 1 then 2 else if c = 1 then 3 else 0

/-- The zero-runs of a bit array, the current run being `run` long: one more run than there are ones (43_run_length R181). -/
def runsFrom (run : Nat) : List (BitVec 1) → List Nat
  | [] => [run]
  | b :: bs => if b = 0 then runsFrom (run + 1) bs else run :: runsFrom 0 bs

/-- The symbols of a plane (43_run_length R181): Enc of each run. -/
def planeSymbols (m : Nat) (bits : List (BitVec 1)) : List Nat := (runsFrom 0 bits).flatMap (runCode m)

/-- RLE.POP until it returns all ones, an AC.ENC for each symbol popped (43_run_length R185); `fuel` pops at most. -/
def drainQueue : Nat → State → State
  | 0, s => s
  | fuel + 1, s =>
    let t := act (hostCommand .rlePop) s
    if t.res = BitVec.allOnes 64 then t else drainQueue fuel (act (hostEncode (t.res.setWidth 16)) t)

/-- The pops that always empty the queue: one more than it can hold. -/
def drainLimit : Nat := Config.rleqDepth + 1

/-- The encoder side for one plane (43_run_length R185). -/
def encodePlane (term : Sym) (bits : List (BitVec 1)) (s : State) : State :=
  let t := bits.foldl (fun u b => drainQueue drainLimit (act (hostCommand (.rleEbit b)) u)) s
  act (hostEncode term) (drainQueue drainLimit (act (hostCommand .rleEend) t))

/-- The bits a token stands for: a 1 if SEP = 1, then LEN zeros; nothing if VALID = 0 (43_run_length R176, R185). -/
def tokenBits (t : Word64) : List (BitVec 1) :=
  if t.getLsbD 63 then (if t.getLsbD 62 then [1] else []) ++ List.replicate (t.extractLsb' 0 62).toNat 0 else []

/-- The decoder side for one plane (43_run_length R185), at most `fuel` symbols; none if the terminator does not come. -/
def decodePlane (term : Sym) : Nat → State → Option (List (BitVec 1) × State)
  | 0, _ => none
  | fuel + 1, s =>
    let (sym, t) := hostDecode s
    if sym = term.setWidth 64 then some ([], act (hostCommand .rleDend) t)
    else
      let u := act (hostCommand (.rleDsym (sym.setWidth 16))) t
      match decodePlane term fuel u with
      | some (bits, v) => some (tokenBits u.res ++ bits, v)
      | none => none

/-- What both sides must agree on for an image: its size, the predictor configuration and the hash shapes, the transform and the run-length
ceiling. -/
structure ImageFormat where
  width : BitVec 16
  height : BitVec 16
  cfg : BitVec 23
  shapeLen : Vector (BitVec 5) 4
  shapeCell : Vector (Vector (BitVec 16) 16) 4
  mode : Mode
  m : BitVec 16
  deriving DecidableEq, Repr

/-- TERM = M + 1 (42_freq_table R169). -/
def ImageFormat.term (f : ImageFormat) : Sym := f.m + 1

/-- The raster coordinates of a cell. -/
def ImageFormat.place (f : ImageFormat) (i : Nat) : BitVec 16 × BitVec 16 :=
  (BitVec.ofNat 16 (i % f.width.toNat), BitVec.ofNat 16 (i / f.width.toNat))

/-- The shape CSRs: SHAPE_LEN[k] and every SHAPE_CELL[k][i] (70_reset R261, step 1). -/
def ImageFormat.setupShapes (f : ImageFormat) : List HostAction :=
  (List.finRange 4).flatMap fun k => setCsr (.shapeLen k) (f.shapeLen[k].setWidth 64) ++
    (List.finRange 16).flatMap fun i => setCsr (.shapeCell k i) (f.shapeCell[k][i].setWidth 64)

/-- FLD_DIM, PRD_CFG and the shape CSRs, as both sides set them (70_reset R261, step 1 and the decoder's mirror of it). -/
def ImageFormat.setup (f : ImageFormat) : List HostAction :=
  setCsr .fldDim (fieldArg f.width f.height) ++ setCsr .prdCfg (f.cfg.setWidth 64) ++ f.setupShapes

/-- NSYM = M + 2, TERM = M + 1, RLE_M = M, the frequencies, RLE.INIT, AC.INIT (70_reset R261, step 5; 42_freq_table R169).
A frequency of 2^64 or more, which only a damaged container gives, does not fit FREQ.WR and is taken mod 2^64 (DESIGN CHOICE, log 22). -/
def ImageFormat.setupCoder (f : ImageFormat) (freqs : List Nat) : List HostAction :=
  setCsr .acNsym (f.m.setWidth 64 + 2) ++ setCsr .acTerm (f.term.setWidth 64) ++ setCsr .rleM (f.m.setWidth 64) ++
    freqs.zipIdx.flatMap (fun (n, i) => setFreq (BitVec.ofNat 16 i) (BitVec.ofNat 64 n)) ++
    [hostCommand .rleInit, hostCommand .acInit]

/-- Loading the image with FLDW (70_reset R261, step 1). -/
def ImageFormat.load (f : ImageFormat) (image : List Colour) : List HostAction :=
  image.zipIdx.flatMap fun (v, i) => fldW (f.place i).1 (f.place i).2 v

/-- `n` PX.ENC commands: the residuals and the state after (70_reset R261, step 2). -/
def collectResiduals (m : Mode) : Nat → State → List Colour × State
  | 0, s => ([], s)
  | n + 1, s =>
    let t := act (hostCommand (.pxEnc m)) s
    let (rs, u) := collectResiduals m n t
    (t.res.setWidth 2 :: rs, u)

/-- The counts of the symbols 0..M + 1 over the three planes, one TERM a plane (70_reset R261, step 3; 42_freq_table R169). Of the two ways
step 3 allows, a dry run of 43_run_length R171 on the host's side and a first pass through the RLE unit, this is the dry run
(DESIGN CHOICE, log 23). -/
def ImageFormat.counts (f : ImageFormat) (planes : List (List (BitVec 1))) : List Nat :=
  let symbols := planes.flatMap fun p => planeSymbols f.m.toNat p ++ [f.m.toNat + 1]
  (List.range (f.m.toNat + 2)).map fun s => symbols.count s

/-- What the encode of an image gives: the container, the engine after it, and the bytes OUT held before, which SaveFreqs took out of the
way (log 21). -/
structure EncodedImage where
  older : List Byte
  container : List Byte
  after : State
  deriving DecidableEq, Repr

/-- The encode of an image in the canonical order of 70_reset R261, giving the container of 42_freq_table R168: Varint(W), Varint(H), the
frequency table, the main stream, which the last TAKE returns (R261, step 7). Step 2's W*H PX.ENC are one for each entry of `image`, which
has W*H entries; for a list of another length, where R261 says nothing, it is still one FLDW and one PX.ENC an entry
(DESIGN CHOICE, log 24). -/
def encodeImage (probs : Vector Word64 32) (f : ImageFormat) (image : List Colour) (s : State) : EncodedImage :=
  let s1 := actAll (f.setup ++ f.load image ++ [hostCommand .prdInit]) s
  let (rs, s2) := collectResiduals f.mode image.length s1
  let planes := [plane 1 rs, plane 2 rs, plane 3 rs]
  let saved := saveFreqs probs (f.counts planes) s2
  let s3 := actAll (f.setupCoder saved.adjusted) saved.after
  let s4 := planes.foldl (fun t p => encodePlane f.term p t) s3
  let (stream, s5) := hostTake (act (hostCommand .acFlush) s4)
  { older := saved.older, container := varint f.width.toNat ++ varint f.height.toNat ++ saved.bytes ++ stream, after := s5 }

/-- The decode of the main stream's planes, in order, at most `fuel` symbols each. -/
def decodePlanes (term : Sym) (fuel : Nat) : Nat → State → Option (List (List (BitVec 1)) × State)
  | 0, s => some ([], s)
  | n + 1, s =>
    match decodePlane term fuel s with
    | none => none
    | some (p, t) =>
      match decodePlanes term fuel n t with
      | none => none
      | some (ps, u) => some (p :: ps, u)

/-- The decode of a container (70_reset R261, 42_freq_table R168), at most `fuel` symbols a plane: the engine at the end, the image in its
FIELD. The format's size is replaced by the container's; a width or height of 65536 or more, for which R168 says nothing, is taken mod 2^16
(DESIGN CHOICE, log 22). R261's W*H PX.DEC are one for each residual of the planes; planes of a damaged container may have another length,
where R261 says nothing, and it is still one PX.DEC a residual (DESIGN CHOICE, log 24). -/
def decodeImage (probs : Vector Word64 32) (f : ImageFormat) (fuel : Nat) (container : List Byte) (s : State) : Option State :=
  match readVarint container with
  | none => none
  | some (w, rest1) =>
    match readVarint rest1 with
    | none => none
    | some (h, rest2) =>
      let g := { f with width := BitVec.ofNat 16 w, height := BitVec.ofNat 16 h }
      match loadFreqs probs rest2 (g.m.toNat + 2) (actAll (g.setup ++ [hostCommand .prdInit]) s) with
      | none => none
      | some loaded =>
        let s1 := actAll (setCsr .acSections 3 ++ g.setupCoder loaded.freqs ++ [.attachIn loaded.rest]) loaded.after
        match decodePlanes g.term fuel 3 s1 with
        | some ([p1, p2, p3], s2) =>
          some (actAll ((joinPlanes p1 p2 p3).map fun r => hostCommand (.pxDec g.mode r)) s2)
        | _ => none

end Sys2Proof.Machine
end

