-- ==== Sys2Proof/Safety.lean ====
section
/-! DEFINITION. What the claims are stated in: when the latch is clear, the invariants of the state (canonical memories, ranges of the registers, the coder's interval), the bits the coder has put out and has still to take in, and when two predictors agree. -/

namespace Sys2Proof.Machine

/-- No error is latched: STATUS.ERR = 0. A safe run is one whose every state is ready. -/
abbrev State.ready (s : State) : Prop := s.latch.err = .none

/-- What the model's state becomes when a command raises an error with the latch clear (60_exceptions R246): the latch, nothing else. -/
def State.raised (s : State) (e : Raised) (w : Word32) : State :=
  { s with latch := { err := e.code, info := e.info, cmd := w } }

/-! ### Invariants -/

/-- FREQ, FIELD and CTX are in canonical form and inside their index ranges (10_state R46, R55, R58). -/
structure MemoryInv (s : State) : Prop where
  freqCanonical : s.ac.freq.wf
  freqInRange : ∀ c ∈ s.ac.freq, c.1 < Config.maxSym
  fieldCanonical : s.prd.field.wf
  fieldInRange : ∀ c ∈ s.prd.field, c.1 < s.prd.cells
  ctxCanonical : s.prd.ctx.wf
  ctxBounded : s.prd.ctx.length ≤ Config.ctxCap

/-- The coder's bounds are renormalised (41_arith_coder R136, items 2 and 3): LOW[31] = 0, HIGH[31] = 1, and not LOW[30] = 1 with
HIGH[30] = 0. -/
structure Renormalised (a : AcUnit) : Prop where
  lowTop : a.low.getLsbD 31 = false
  highTop : a.high.getLsbD 31 = true
  noUnderflow : ¬(a.low.getLsbD 30 = true ∧ a.high.getLsbD 30 = false)

/-- The arithmetic coder's invariant: R136 of 41_arith_coder, the bounds of an idle coder, R140, and the ranges of 10_state R40, R42, R48. -/
structure CoderInv (a : AcUnit) : Prop where
  renormalised : Renormalised a
  idleBounds : a.dir = .idle → a.low = 0 ∧ a.high = 0xFFFFFFFF
  codeInside : a.dir = .read → a.low.toNat ≤ a.code.toNat ∧ a.code.toNat ≤ a.high.toNat
  bitCntRange : a.bitCnt ≤ 7
  bitBufPadded : ∀ j, j < 8 - a.bitCnt → a.bitBuf.getLsbD j = false
  inCntRange : a.inCnt ≤ 8
  pastEndRange : a.pastEnd ≤ Config.pastEndLimit
  nsymRange : 1 ≤ a.nsym.toNat ∧ a.nsym.toNat ≤ 65536

/-- The run-length unit's invariant: the ranges of 10_state R50 to R53, and an open chain in the SUFFIX phase (43_run_length R178). -/
structure RleInv (r : RleUnit) : Prop where
  ceiling : 1 ≤ r.m.toNat
  runRange : r.run ≤ Config.runMax
  queueRange : r.queue.length ≤ Config.rleqDepth
  depthRange : r.depth ≤ Config.runMax
  vaccRange : r.vacc ≤ Config.runMax
  suffixOpen : r.phase = .suffixPhase → 0 < r.depth

/-- The predictor unit's invariant: the legal values of 10_state R54, R56, R59, R60 and the cursor's range R57. -/
structure PrdInv (p : PrdUnit) : Prop where
  widthRange : 1 ≤ p.width.toNat
  heightRange : 1 ≤ p.height.toNat
  cellsRange : p.cells ≤ Config.fieldCap
  posRange : p.pos ≤ p.cells
  cfgIsLegal : cfgLegal p.cfg = true
  lenRange : ∀ k : Fin 4, p.shapeLen[k].toNat ≤ 16
  cellsCausal : ∀ (k : Fin 4) (i : Fin 16), cellCausal p.shapeCell[k][i] = true

/-- The latch's invariant: ERRINFO and ERRCMD are 0 while no error is latched (10_state R35, R36), and code 5 is never raised
(60_exceptions R243). -/
structure LatchInv (l : ErrorLatch) : Prop where
  clearIsZero : l.err = .none → l.info = 0 ∧ l.cmd = 0
  neverUnimplemented : l.err ≠ .unimplemented

/-- The whole invariant. -/
structure State.Inv (s : State) : Prop where
  memory : MemoryInv s
  coder : CoderInv s.ac
  runLength : RleInv s.rle
  predictor : PrdInv s.prd
  errors : LatchInv s.latch

/-! ### Legal values of the control registers -/

/-- The legal values of each read-write register, as 10_state R42, R43, R44, R50, R54, R56, R59 and R60 list them; a read-only register has
none. -/
def LegalCsrValue (c : Csr) (v : Word64) : Prop :=
  match c with
  | .acNsym => 1 ≤ v.toNat ∧ v.toNat ≤ 65536
  | .acTerm => v.toNat ≤ 65535
  | .acSections => v.toNat < 2 ^ 32
  | .rleM => 1 ≤ v.toNat ∧ v.toNat ≤ 65535
  | .fldDim =>
    1 ≤ (v.extractLsb' 0 16).toNat ∧ 1 ≤ (v.extractLsb' 16 16).toNat ∧
      (v.extractLsb' 0 16).toNat * (v.extractLsb' 16 16).toNat ≤ 2 ^ 24 ∧ v.extractLsb' 32 32 = 0
  | .prdCfg =>
    (v.extractLsb' 2 2).toNat ≤ 1 ∧ (v.extractLsb' 4 2).toNat ≤ 1 ∧ 1 ≤ (v.extractLsb' 8 4).toNat ∧
      1 ≤ (v.extractLsb' 12 4).toNat ∧ (v.extractLsb' 20 3).toNat ≤ 4 ∧ v.extractLsb' 23 41 = 0 ∧
      ((v.extractLsb' 12 4).toNat - 1) * (v.extractLsb' 8 4).toNat +
        min (v.extractLsb' 16 4).toNat (v.extractLsb' 8 4).toNat ≤ 60
  | .shapeLen _ => v.toNat ≤ 16
  | .shapeCell _ _ =>
    v.toNat < 2 ^ 16 ∧
      ((v.extractLsb' 8 8).toInt < 0 ∨ ((v.extractLsb' 8 8).toInt = 0 ∧ (v.extractLsb' 0 8).toInt < 0))
  | .id | .status | .errInfo | .errCmd | .acSectDone | .acLow | .acHigh | .acUf | .acCode | .acTotal | .acBits | .acInPos
  | .acPastEnd | .rleRun | .rleQlen | .rlePstate | .rleDepth | .rleVacc | .prdPos | .ctxCount => False

/-! ### Coded bits as bit sequences (20_memory R76) -/

/-- The bits of a byte, bit 7 first (20_memory R76). -/
def byteBits (b : Byte) : List Bool := (List.range 8).map fun i => b.getLsbD (7 - i)

/-- Every coded bit put out so far: the bytes of OUT, then the BITCNT bits of BITBUF, bit 7 first (10_state R40). -/
def State.outBitsSoFar (s : State) : List Bool := s.out.flatMap byteBits ++ (byteBits s.ac.bitBuf).take s.ac.bitCnt

/-- Every coded bit still to be taken: the INCNT bits left of INBUF, then the bytes of IN (20_memory R79). -/
def State.inBitsLeft (s : State) : List Bool := (byteBits s.ac.inBuf).drop (8 - s.ac.inCnt) ++ s.inp.flatMap byteBits

/-- How many more bits the decoder can take: those left, and the zero bits still allowed past the end (20_memory R79). -/
def State.bitsAvailable (s : State) : Nat := s.inBitsLeft.length + (Config.pastEndLimit - s.ac.pastEnd)

/-- How many turns renormalisation takes from given bounds, each of which takes one bit in the decoder (41_arith_coder R131, R139). It
reads LOW and HIGH only. -/
def renormShifts : Nat → AcUnit → Nat
  | 0, _ => 0
  | fuel + 1, a =>
    if topBitsAgree a then renormShifts fuel (topShift a) + 1
    else if inUnderflow a then renormShifts fuel (underflowShift a) + 1
    else 0

/-- The bits that decoding the symbol of a primed window takes: the turns of renormalisation after its interval update
(41_arith_coder R138, R139). -/
def State.symbolShifts (s : State) : Nat :=
  renormShifts Config.maxShifts (intervalUpdate (lookupSymbol s).1 s.ac)

/-- The bits AC.DEC takes: from IDLE 32 to prime and then the symbol's, from READ the symbol's (41_arith_coder R138). Where priming itself
cannot be done, the 32. -/
def State.decodeBitsNeeded (s : State) : Nat :=
  if s.ac.dir = .idle then
    match prime s with
    | .ok p => 32 + p.symbolShifts
    | .error _ => 32
  else s.symbolShifts

/-! ### Predictors that agree -/

/-- Two predictor units agree on all that a prediction at the cursor reads (44_predictor R195): the same size, configuration, shapes,
cursor and context store, and the same cells below the cursor. -/
structure PredictAlike (p q : PrdUnit) : Prop where
  sameWidth : p.width = q.width
  sameHeight : p.height = q.height
  sameCfg : p.cfg = q.cfg
  samePos : p.pos = q.pos
  sameCtx : p.ctx = q.ctx
  sameCtxFull : p.ctxFull = q.ctxFull
  sameShapeLen : p.shapeLen = q.shapeLen
  sameShapeCell : p.shapeCell = q.shapeCell
  sameBelow : ∀ i, i < p.pos → p.field.read i = q.field.read i

/-! ### Command sequences -/

/-- The state after commands in order, none if one of them stops. -/
def execAll : List Instr → State → Option State
  | [], s => some s
  | i :: is, s =>
    match exec i s with
    | .next t => execAll is t
    | .fault _ => none
    | .refused _ => none

/-- The results in RES after each of the commands in order, none if one of them stops. -/
def execResults : List Instr → State → Option (List Word64 × State)
  | [], s => some ([], s)
  | i :: is, s =>
    match exec i s with
    | .next t =>
      match execResults is t with
      | some (rs, u) => some (t.res :: rs, u)
      | none => none
    | .fault _ => none
    | .refused _ => none

/-! ### Coded streams -/

/-- The number a bit sequence stands for, its first bit the most significant. -/
def bitsValue (bs : List Bool) : Nat := bs.foldl (fun n b => 2 * n + b.toNat) 0

/-- One position of a coded stream: NSYM and FREQ as the host has them there, however it loaded them, and the symbol
(41_arith_coder R142, 70_reset R262). -/
structure CodingStep where
  nsym : BitVec 17
  freq : Memory 64
  sym : Sym
  deriving DecidableEq, Repr

/-- A position AC.ENC accepts: a canonical table, a total of at most 2^30, and a symbol of the alphabet with a frequency
(41_arith_coder R130). -/
structure CodingStep.Codable (c : CodingStep) : Prop where
  canonical : c.freq.wf
  inAlphabet : c.sym.toNat < c.nsym.toNat
  alphabet : c.nsym.toNat ≤ 65536
  hasFrequency : c.freq.read c.sym.toNat ≠ 0
  totalBound : c.freq.sumBelow c.nsym.toNat ≤ Config.maxTotal

/-- The state with a position's NSYM and FREQ. -/
def State.withTable (s : State) (c : CodingStep) : State := s.setAc { s.ac with nsym := c.nsym, freq := c.freq }

/-- AC.ENC of each position's symbol, with that position's table; none if a command stops. -/
def encodeStream : List CodingStep → State → Option State
  | [], s => some s
  | c :: cs, s =>
    match exec (.acEnc c.sym) (s.withTable c) with
    | .next t => encodeStream cs t
    | .fault _ => none
    | .refused _ => none

/-- AC.DEC at each position, with that position's table (its symbol is not read): the results in RES and the state after. -/
def decodeStream : List CodingStep → State → Option (List Word64 × State)
  | [], s => some ([], s)
  | c :: cs, s =>
    match exec .acDec (s.withTable c) with
    | .next t =>
      match decodeStream cs t with
      | some (rs, u) => some (t.res :: rs, u)
      | none => none
    | .fault _ => none
    | .refused _ => none

/-- The section limit lets every symbol of the stream be decoded: no limit, or fewer terminators before the last symbol than sections
(41_arith_coder R138, R143). -/
def sectionsSuffice (a : AcUnit) (cs : List CodingStep) : Prop :=
  a.sections = 0 ∨ (cs.dropLast.map CodingStep.sym).count a.term < a.sections.toNat

/-! ### Run-length words -/

/-- B(d) of 43_run_length R180: the shortest run whose word has d escapes. -/
def wordBound (m : Nat) : Nat → Nat
  | 0 => 0
  | d + 1 => m * (wordBound m d + 1)

/-- RLE.EBIT of each bit and RLE.EEND, the queue popped empty after each of them (43_run_length R185): the symbols popped and the state
after. -/
def encodeArray : List (BitVec 1) → State → Option (List Word64 × State)
  | [], s =>
    match exec .rleEend s with
    | .next t => execResults (List.replicate t.rle.queue.length .rlePop) t
    | .fault _ => none
    | .refused _ => none
  | b :: bs, s =>
    match exec (.rleEbit b) s with
    | .next t =>
      match execResults (List.replicate t.rle.queue.length .rlePop) t with
      | some (qs, u) =>
        match encodeArray bs u with
        | some (rs, v) => some (qs ++ rs, v)
        | none => none
      | none => none
    | .fault _ => none
    | .refused _ => none

end Sys2Proof.Machine
end

