-- ==== Sys2Proof/Certificates/Slice0/Obligations.lean ====
section
/-! DEFINITION. The statements about the engine, from the numbered rules of spec/; each is listed in OBLIGATIONS.json. -/

section
open Sys2Proof Sys2Proof.Machine

/-! ### Encoding -/

/-- 30_encoding R90, R91, R93: a word decodes to a command exactly when it is the command's word. -/
def Obligations.DecodeEncodeAgree : Prop :=
  (∀ i : Instr, decode (encode i) = .ok i) ∧ ∀ (w : Word32) (i : Instr), decode w = .ok i → encode i = w

/-- 30_encoding R94: the match and mask table. -/
def Obligations.DecodeFollowsMaskTable : Prop :=
  (∀ w : Word32, ∀ r ∈ maskTable, (w &&& r.mask = r.matchWord ↔ ∃ i, decode w = .ok i ∧ i.mnemonic = r.mnemonic)) ∧
  (∀ w : Word32, (∃ i, decode w = .ok i) ↔ ∃ r ∈ maskTable, w &&& r.mask = r.matchWord) ∧
  (∀ r ∈ maskTable, ∀ j < 32, (r.mask.getLsbD j = false ↔
    ∃ i i' : Instr, i.mnemonic = r.mnemonic ∧ i'.mnemonic = r.mnemonic ∧ (encode i).getLsbD j ≠ (encode i').getLsbD j)) ∧
  (∀ w : Word32, ∀ r ∈ maskTable, ∀ r' ∈ maskTable, w &&& r.mask = r.matchWord → w &&& r'.mask = r'.matchWord → r = r')

/-- 30_encoding R99: the encoding examples. -/
def Obligations.SpecExampleWordsDecode : Prop :=
  decode 0x11000005 = .ok (.acEnc 5) ∧ decode 0x02000004 = .ok (.csrw Csr.acNsym.number) ∧
  decode 0x21000001 = .ok (.rleEbit 1) ∧ decode 0x31000002 = .ok (.fldWr 2) ∧ decode 0x35000100 = .ok (.pxEnc .sub) ∧
  decode 0x36000003 = .ok (.pxDec .xor 3) ∧ (Csr.shapeCell 1 2).number = 0x52 ∧
  decode 0x02000052 = .ok (.csrw (Csr.shapeCell 1 2).number) ∧
  decode 0x11010005 = .error .reservedBitSet ∧ decode 0x03000000 = .error .unassignedOpcode

/-! ### The host side, the latch and the command frame -/

/-- 00_scope R5, 20_memory R72, R84, 30_encoding R95: when the host's next action writes a command word, the step is that command's exec.
`pending` and `reply` are the model's own fields (log 1, 2). -/
def Obligations.StepRunsCommandWritten : Prop :=
  (∀ (s : State) (v : Word64) (rest : List HostAction) (i : Instr), s.pending = .windowWrite 0x00 8 v :: rest →
    decode (v.setWidth 32) = .ok i → step s = exec i ((s.setPending rest).setReply .nothing)) ∧
  (∀ (s : State) (nbits w : Nat) (i : Instr), decodeTableWord nbits w = some i →
    step (s.withFetchWord nbits w) = exec i (s.setReply .nothing))

/-- 30_encoding R95, 60_exceptions R241, R246: a word that selects no command raises ILLEGAL_COMMAND, and nothing but the latch changes;
under the latch nothing does. -/
def Obligations.IllegalWordsRaise : Prop :=
  ∀ (w : Word32) (e : IllegalWord) (s : State), decode w = .error e →
    (s.ready → writeCommand w s = .next (s.raised ⟨.illegalCommand, w.setWidth 64⟩ w)) ∧
    (s.latch.err ≠ .none → writeCommand w s = .next s)

/-- 60_exceptions R247, R246, R248, 40_control R114: the latched state: which words and host actions work, that the first error is kept,
and that SRST ends it. That SRST sets ARG and RES to 0 is the model's reading of R114, R248 and R260 beside R31 and R268 (log 7); that it
keeps pending, reply and draws is the model's choice about its own fields (log 1, 2, 4). -/
def Obligations.LatchBlocksCommands : Prop :=
  ∀ s : State, s.latch.err ≠ .none →
    (∀ w : Word32, opcodeField w ≠ 0x01 → opcodeField w ≠ 0x0F → writeCommand w s = .next s) ∧
    (∀ (n : BitVec 8) (c : Csr), Csr.ofNumber n = some c → writeCommand (0x01#8 ++ 0#16 ++ n) s = .next (s.setRes (csrRead c s))) ∧
    (∀ n : BitVec 8, Csr.ofNumber n = none → writeCommand (0x01#8 ++ 0#16 ++ n) s = .next s) ∧
    writeCommand 0x0F000000 s = .next { State.reset with
      inp := s.inp, out := s.out, pending := s.pending, reply := s.reply, draws := s.draws } ∧
    (∀ (w : Word32) (e : IllegalWord), decode w = .error e → writeCommand w s = .next s) ∧
    (∀ v : Word64, perform (.windowWrite 0x08 8 v) s = .next (s.setArg v)) ∧
    (∀ bs : List Byte, perform (.attachIn bs) s = .next (s.setInp bs)) ∧
    perform .takeOut s = .next ((s.setOut []).setReply (.bytes s.out))

/-- 60_exceptions R246, 20_memory R81: every command ends in a next state; one that raises changes the latch alone, which was clear; only
SRST changes a latch otherwise. -/
def Obligations.ErrorsChangeOnlyTheLatch : Prop :=
  ∀ (i : Instr) (s : State), ∃ t, exec i s = .next t ∧
    (i = .srst ∨ t.latch = s.latch ∨
      (s.ready ∧ t = s.setLatch t.latch ∧ t.latch.err ≠ .none ∧ t.latch.err ≠ .unimplemented ∧ t.latch.cmd = encode i))

/-- 20_memory R71: the host register window. -/
def Obligations.HostWindowAccesses : Prop :=
  ∀ s : State,
    (∀ v : Word64, perform (.windowWrite 0x00 8 v) s = writeCommand (v.setWidth 32) s) ∧
    (∀ v : Word64, perform (.windowWrite 0x08 8 v) s = .next (s.setArg v)) ∧
    perform (.windowRead 0x00 8) s = .next (s.setReply (.word 0)) ∧
    perform (.windowRead 0x08 8) s = .next (s.setReply (.word s.arg)) ∧
    perform (.windowRead 0x10 8) s = .next (s.setReply (.word s.res)) ∧
    perform (.windowRead 0x18 8) s = .next (s.setReply (.word (csrRead .status s))) ∧
    (∀ (offset bytes : Nat) (v : Word64), ¬(bytes = 8 ∧ (offset = 0x00 ∨ offset = 0x08)) →
      perform (.windowWrite offset bytes v) s = .refused .windowAccess) ∧
    (∀ offset bytes : Nat, ¬(bytes = 8 ∧ (offset = 0x00 ∨ offset = 0x08 ∨ offset = 0x10 ∨ offset = 0x18)) →
      perform (.windowRead offset bytes) s = .refused .windowAccess)

/-- 20_memory R72 to R74, R84, 70_reset R260: the actions on the ports and the reset input, and the order of steps. The list of coming
actions, the reply and a reset's effect on the ports of a running machine are the model's reading (log 1, 2, 6). -/
def Obligations.PortAndResetActions : Prop :=
  (∀ s : State, s.pending = [] → step s = .next s) ∧
  (∀ (s : State) (a : HostAction) (rest : List HostAction), s.pending = a :: rest →
    step s = perform a ((s.setPending rest).setReply .nothing)) ∧
  (∀ (s : State) (bs : List Byte), perform (.attachIn bs) s = .next (s.setInp bs)) ∧
  (∀ s : State, perform .takeOut s = .next ((s.setOut []).setReply (.bytes s.out))) ∧
  (∀ s : State, perform .systemReset s = .next { State.reset with
    out := s.out, pending := s.pending, reply := s.reply, draws := s.draws })

/-- 10_state R31, R32, 70_reset R268: no command but SRST writes ARG, and only the ten commands of R32 (and SRST) write RES. That SRST
resets both is the model's reading of R114 and R260 beside R31 (log 7). -/
def Obligations.ArgAndResWriters : Prop :=
  ∀ (i : Instr) (s t : State), exec i s = .next t → i ≠ .srst →
    t.arg = s.arg ∧ t.pending = s.pending ∧ t.reply = s.reply ∧
    (i.opcode ∉ [0x01#8, 0x12#8, 0x15#8, 0x17#8, 0x23#8, 0x24#8, 0x32#8, 0x33#8, 0x35#8, 0x36#8] → t.res = s.res)

/-- 60_exceptions R255, 41_arith_coder R120, 43_run_length R170, 44_predictor R190: the units share no state. -/
def Obligations.UnitsAreSeparate : Prop :=
  ∀ (i : Instr) (s t : State), exec i s = .next t →
    (0x10 ≤ i.opcode.toNat ∧ i.opcode.toNat ≤ 0x17 → t.rle = s.rle ∧ t.prd = s.prd) ∧
    (0x20 ≤ i.opcode.toNat ∧ i.opcode.toNat ≤ 0x25 → t.ac = s.ac ∧ t.prd = s.prd) ∧
    (0x30 ≤ i.opcode.toNat ∧ i.opcode.toNat ≤ 0x36 → t.ac = s.ac ∧ t.rle = s.rle) ∧
    (∀ n : BitVec 8, i = .csrw n →
      (n.toNat < 0x10 → t.rle = s.rle ∧ t.prd = s.prd) ∧ (n.toNat = 0x10 → t.ac = s.ac ∧ t.prd = s.prd) ∧
        (0x10 < n.toNat → t.ac = s.ac ∧ t.rle = s.rle))

/-- 20_memory R73, R74: commands take bytes only from the front of IN and add bytes only at the end of OUT; only AC.DEC takes, only AC.ENC
and AC.FLUSH add. -/
def Obligations.PortsMoveForward : Prop :=
  ∀ (i : Instr) (s t : State), exec i s = .next t →
    (∃ taken, s.inp = taken ++ t.inp) ∧ (∃ added, t.out = s.out ++ added) ∧
    (i ≠ .acDec → t.inp = s.inp) ∧ (i.opcode ≠ 0x11 → i.opcode ≠ 0x13 → t.out = s.out)

/-! ### Control commands -/

/-- 40_control R110: NOP. -/
def Obligations.NopChangesNothing : Prop :=
  (∀ s : State, exec .nop s = .next s) ∧ (∀ w : Word32, decode w = .ok .nop ↔ w = 0) ∧
  (∀ (s : State) (w : Word32), s.ready → opcodeField w = 0x00 → operandField w ≠ 0 →
    writeCommand w s = .next (s.raised ⟨.illegalCommand, w.setWidth 64⟩ w))

/-- 40_control R111 with 10_state R33 to R60: what CSRR of each assigned number returns, in every state (also under the latch), with no
other effect; the fields of STATUS (R34); and the numbers of the error codes (60_exceptions R241) and of DIR (R41) that stand in them. -/
def Obligations.CsrrReadsEachRegister : Prop :=
  (∀ s : State,
    exec (.csrr 0x00) s = .next (s.setRes 0x49344301) ∧
    exec (.csrr 0x01) s = .next (s.setRes (statusWord s)) ∧
    exec (.csrr 0x02) s = .next (s.setRes s.latch.info) ∧
    exec (.csrr 0x03) s = .next (s.setRes (s.latch.cmd.setWidth 64)) ∧
    exec (.csrr 0x04) s = .next (s.setRes (s.ac.nsym.setWidth 64)) ∧
    exec (.csrr 0x05) s = .next (s.setRes (s.ac.term.setWidth 64)) ∧
    exec (.csrr 0x06) s = .next (s.setRes (s.ac.sections.setWidth 64)) ∧
    exec (.csrr 0x07) s = .next (s.setRes s.ac.sectDone) ∧
    exec (.csrr 0x08) s = .next (s.setRes (s.ac.low.setWidth 64)) ∧
    exec (.csrr 0x09) s = .next (s.setRes (s.ac.high.setWidth 64)) ∧
    exec (.csrr 0x0A) s = .next (s.setRes s.ac.uf) ∧
    exec (.csrr 0x0B) s = .next (s.setRes (s.ac.code.setWidth 64)) ∧
    exec (.csrr 0x0C) s = .next (s.setRes (BitVec.ofNat 64 (min (s.ac.freq.sumBelow s.ac.nsym.toNat) (2 ^ 64 - 1)))) ∧
    exec (.csrr 0x0D) s = .next (s.setRes
      (0#44 ++ BitVec.ofNat 4 s.ac.inCnt ++ 0#5 ++ BitVec.ofNat 3 s.ac.bitCnt ++ s.ac.bitBuf)) ∧
    exec (.csrr 0x0E) s = .next (s.setRes s.ac.inPos) ∧
    exec (.csrr 0x0F) s = .next (s.setRes (BitVec.ofNat 64 s.ac.pastEnd)) ∧
    exec (.csrr 0x10) s = .next (s.setRes (s.rle.m.setWidth 64)) ∧
    exec (.csrr 0x11) s = .next (s.setRes (BitVec.ofNat 64 s.rle.run)) ∧
    exec (.csrr 0x12) s = .next (s.setRes (BitVec.ofNat 64 s.rle.queue.length)) ∧
    exec (.csrr 0x13) s = .next (s.setRes
      (0#62 ++ BitVec.ofBool s.rle.first ++ BitVec.ofBool (decide (s.rle.phase = .suffixPhase)))) ∧
    exec (.csrr 0x14) s = .next (s.setRes (BitVec.ofNat 64 s.rle.depth)) ∧
    exec (.csrr 0x15) s = .next (s.setRes (BitVec.ofNat 64 s.rle.vacc)) ∧
    exec (.csrr 0x20) s = .next (s.setRes (0#32 ++ s.prd.height ++ s.prd.width)) ∧
    exec (.csrr 0x21) s = .next (s.setRes (s.prd.cfg.setWidth 64)) ∧
    exec (.csrr 0x22) s = .next (s.setRes (BitVec.ofNat 64 s.prd.pos)) ∧
    exec (.csrr 0x23) s = .next (s.setRes (BitVec.ofNat 64 s.prd.ctx.length)) ∧
    (∀ k : Fin 4, exec (.csrr (BitVec.ofNat 8 (0x24 + k.val))) s = .next (s.setRes (s.prd.shapeLen[k].setWidth 64))) ∧
    (∀ (k : Fin 4) (i : Fin 16), exec (.csrr (BitVec.ofNat 8 (0x40 + 16 * k.val + i.val))) s =
      .next (s.setRes (s.prd.shapeCell[k][i].setWidth 64)))) ∧
  (∀ s : State, s.rle.queue.length ≤ 256 →
    (statusWord s).extractLsb' 0 8 = s.latch.err.code ∧ (statusWord s).extractLsb' 8 2 = s.ac.dir.code ∧
    (statusWord s).getLsbD 10 = s.prd.ctxFull ∧ (statusWord s).getLsbD 11 = decide (0 < s.ac.pastEnd) ∧
    (statusWord s).getLsbD 12 = decide (s.rle.phase = .suffixPhase ∨ 0 < s.rle.depth) ∧
    (statusWord s).extractLsb' 13 3 = 0 ∧ ((statusWord s).extractLsb' 16 9).toNat = s.rle.queue.length ∧
    (statusWord s).extractLsb' 25 39 = 0) ∧
  (ErrorCode.none.code = 0 ∧ ErrorCode.invalidSymbol.code = 1 ∧ ErrorCode.zeroProbability.code = 2 ∧
    ErrorCode.directionMisuse.code = 3 ∧ ErrorCode.malformedStream.code = 4 ∧ ErrorCode.unimplemented.code = 5 ∧
    ErrorCode.illegalCommand.code = 6 ∧ ErrorCode.freqTotal.code = 7 ∧ ErrorCode.configInvalid.code = 8 ∧
    ErrorCode.fieldOob.code = 9 ∧ ErrorCode.cursorEnd.code = 10 ∧ ErrorCode.rleOverflow.code = 11 ∧
    ErrorCode.rleqOverflow.code = 12) ∧
  Dir.idle.code = 0 ∧ Dir.write.code = 1 ∧ Dir.read.code = 2

/-- 40_control R112, R113 with 10_state R42 to R60: a CSRW of a legal value, register by register, with its side effect. -/
def Obligations.CsrwTakesLegalValues : Prop :=
  ∀ s : State, s.ready →
    (LegalCsrValue .acNsym s.arg → exec (.csrw 0x04) s = .next { s with ac := { s.ac with nsym := s.arg.setWidth 17 } }) ∧
    (LegalCsrValue .acTerm s.arg → exec (.csrw 0x05) s = .next { s with ac := { s.ac with term := s.arg.setWidth 16 } }) ∧
    (LegalCsrValue .acSections s.arg →
      exec (.csrw 0x06) s = .next { s with ac := { s.ac with sections := s.arg.setWidth 32 } }) ∧
    (LegalCsrValue .rleM s.arg → exec (.csrw 0x10) s = .next { s with rle := { s.rle with m := s.arg.setWidth 16 } }) ∧
    (LegalCsrValue .fldDim s.arg → ∃ t, exec (.csrw 0x20) s = .next t ∧ (∀ i, t.prd.field.read i = 0) ∧
      t = { s with prd := { s.prd with
        width := s.arg.extractLsb' 0 16, height := s.arg.extractLsb' 16 16, field := t.prd.field, pos := 0 } }) ∧
    (LegalCsrValue .prdCfg s.arg → exec (.csrw 0x21) s = .next { s with prd := { s.prd with cfg := s.arg.setWidth 23 } }) ∧
    (∀ k : Fin 4, LegalCsrValue (.shapeLen k) s.arg → ∃ t, exec (.csrw (BitVec.ofNat 8 (0x24 + k.val))) s = .next t ∧
      t.prd.shapeLen[k].toNat = s.arg.toNat ∧ (∀ j : Fin 4, j ≠ k → t.prd.shapeLen[j] = s.prd.shapeLen[j]) ∧
      t = { s with prd := { s.prd with shapeLen := t.prd.shapeLen } }) ∧
    (∀ (k : Fin 4) (i : Fin 16), LegalCsrValue (.shapeCell k i) s.arg →
      ∃ t, exec (.csrw (BitVec.ofNat 8 (0x40 + 16 * k.val + i.val))) s = .next t ∧
        t.prd.shapeCell[k][i].toNat = s.arg.toNat ∧
        (∀ (k' : Fin 4) (i' : Fin 16), (k', i') ≠ (k, i) → t.prd.shapeCell[k'][i'] = s.prd.shapeCell[k'][i']) ∧
        t = { s with prd := { s.prd with shapeCell := t.prd.shapeCell } })

/-- 10_state R61, R62, 40_control R111, R112: which numbers are assigned and which are read-write, that each register has one number, and
the errors of CSRR and CSRW, in order. -/
def Obligations.CsrAccessErrors : Prop :=
  (∀ n : BitVec 8, (Csr.ofNumber n = none ↔ (0x16 ≤ n.toNat ∧ n.toNat ≤ 0x1F) ∨ (0x28 ≤ n.toNat ∧ n.toNat ≤ 0x3F) ∨ 0x80 ≤ n.toNat) ∧
    (∀ c, Csr.ofNumber n = some c → c.number = n)) ∧
  (∀ c : Csr, Csr.ofNumber c.number = some c ∧ (csrWritable c = true ↔
    c.number ∈ [0x04#8, 0x05#8, 0x06#8, 0x10#8, 0x20#8, 0x21#8] ∨ (0x24 ≤ c.number.toNat ∧ c.number.toNat ≤ 0x27) ∨
      (0x40 ≤ c.number.toNat ∧ c.number.toNat ≤ 0x7F))) ∧
  ∀ (s : State) (n : BitVec 8), s.ready →
    (Csr.ofNumber n = none →
      exec (.csrr n) s = .next (s.raised ⟨.illegalCommand, (encode (.csrr n)).setWidth 64⟩ (encode (.csrr n))) ∧
      exec (.csrw n) s = .next (s.raised ⟨.illegalCommand, (encode (.csrw n)).setWidth 64⟩ (encode (.csrw n)))) ∧
    (∀ c, Csr.ofNumber n = some c → csrWritable c = false →
      exec (.csrw n) s = .next (s.raised ⟨.illegalCommand, (encode (.csrw n)).setWidth 64⟩ (encode (.csrw n)))) ∧
    (∀ c, Csr.ofNumber n = some c → csrWritable c = true → ¬LegalCsrValue c s.arg →
      exec (.csrw n) s = .next (s.raised ⟨.configInvalid, s.arg⟩ (encode (.csrw n))))

/-- 10_state R61: a value is taken whole: after a CSRW that raised nothing, CSRR of the same number returns ARG. -/
def Obligations.CsrwReadsBack : Prop :=
  ∀ (n : BitVec 8) (s t : State), s.ready → exec (.csrw n) s = .next t → t.ready →
    exec (.csrr n) t = .next (t.setRes s.arg)

/-- 70_reset R260, 40_control R114: the reset values, at power-on, by SRST and by the reset input. That SRST sets ARG and RES to 0 is the
model's reading of R114 and R260 beside R31 and R268 (log 7); that SRST keeps pending, reply and draws is the model's choice about its
own fields (log 1, 2, 4). -/
def Obligations.ResetValues : Prop :=
  (State.reset.arg = 0 ∧ State.reset.res = 0 ∧ State.reset.latch = ⟨.none, 0, 0⟩ ∧
    State.reset.inp = [] ∧ State.reset.out = []) ∧
  (State.reset.ac.low = 0 ∧ State.reset.ac.high = 0xFFFFFFFF ∧ State.reset.ac.uf = 0 ∧ State.reset.ac.code = 0 ∧
    State.reset.ac.bitBuf = 0 ∧ State.reset.ac.bitCnt = 0 ∧ State.reset.ac.dir = .idle ∧ State.reset.ac.nsym = 1 ∧
    State.reset.ac.term = 0 ∧ State.reset.ac.sections = 0 ∧ State.reset.ac.sectDone = 0 ∧ State.reset.ac.inBuf = 0 ∧
    State.reset.ac.inCnt = 0 ∧ State.reset.ac.inPos = 0 ∧ State.reset.ac.pastEnd = 0 ∧
    (∀ k, State.reset.ac.freq.read k = 0) ∧ State.reset.ac.total = 0) ∧
  (State.reset.rle.m = 1 ∧ State.reset.rle.run = 0 ∧ State.reset.rle.queue = [] ∧
    State.reset.rle.phase = .prefixPhase ∧ State.reset.rle.first = true ∧ State.reset.rle.depth = 0 ∧
    State.reset.rle.vacc = 0) ∧
  (State.reset.prd.width = 1 ∧ State.reset.prd.height = 1 ∧ (∀ i, State.reset.prd.field.read i = 0) ∧
    State.reset.prd.cfg = 0x312310 ∧ State.reset.prd.pos = 0 ∧ (∀ k, State.reset.prd.ctx.find k = none) ∧
    State.reset.prd.ctx.length = 0 ∧ State.reset.prd.ctxFull = false ∧
    State.reset.prd.shapeLen.toList = [12, 6, 3, 0] ∧
    (State.reset.prd.shapeCell.toList.map fun v => v.toList.map fun c => (cellDx c, cellDy c)) =
      [[(-2, -2), (-1, -2), (0, -2), (1, -2), (2, -2), (-2, -1), (-1, -1), (0, -1), (1, -1), (2, -1), (-2, 0), (-1, 0)] ++
          List.replicate 4 (-1, 0),
        [(0, -2), (-1, -1), (0, -1), (1, -1), (-2, 0), (-1, 0)] ++ List.replicate 10 (-1, 0),
        [(-1, -1), (0, -1), (-1, 0)] ++ List.replicate 13 (-1, 0),
        List.replicate 16 (-1, 0)]) ∧
  (∀ s : State, exec .srst s = .next { State.reset with
    inp := s.inp, out := s.out, pending := s.pending, reply := s.reply, draws := s.draws }) ∧
  (∀ s : State, ∃ t, perform .systemReset s = .next t ∧ t.arg = 0 ∧ t.res = 0 ∧ t.latch = State.reset.latch ∧
    t.ac = State.reset.ac ∧ t.rle = State.reset.rle ∧ t.prd = State.reset.prd)

/-- 60_exceptions R248, R253: a set latch changes only by SRST and by the reset input. -/
def Obligations.OnlyResetClearsLatch : Prop :=
  (∀ (i : Instr) (s t : State), s.latch.err ≠ .none → exec i s = .next t → t.latch = s.latch ∨ i = .srst) ∧
  (∀ s t : State, s.latch.err ≠ .none → step s = .next t → t.latch ≠ s.latch →
    (∃ rest, s.pending = .systemReset :: rest) ∨
      ∃ v rest, s.pending = .windowWrite 0x00 8 v :: rest ∧ decode (v.setWidth 32) = .ok .srst)

/-! ### The arithmetic coder -/

/-- 41_arith_coder R124: AC.INIT. -/
def Obligations.AcInitStartsCoder : Prop :=
  ∀ s : State, s.ready → exec .acInit s = .next { s with ac := { s.ac with
    low := 0, high := 0xFFFFFFFF, uf := 0, code := 0, bitBuf := 0, bitCnt := 0, dir := .idle, sectDone := 0,
    inBuf := 0, inCnt := 0, inPos := 0, pastEnd := 0 } }

/-- 41_arith_coder R126, R127, R128: FREQ.WR, FREQ.RD and FREQ.CLR. -/
def Obligations.FreqTableCommands : Prop :=
  (∀ (s : State) (sym : Sym), s.ready → s.ac.freq.wf → ∃ t, exec (.freqWr sym) s = .next t ∧
    t.ac.freq.read sym.toNat = s.arg ∧ (∀ k, k ≠ sym.toNat → t.ac.freq.read k = s.ac.freq.read k) ∧ t.ac.freq.wf ∧
    t = { s with ac := { s.ac with freq := t.ac.freq } }) ∧
  (∀ (s : State) (sym : Sym), s.ready → exec (.freqRd sym) s = .next (s.setRes (s.ac.freq.read sym.toNat))) ∧
  (∀ s : State, s.ready → ∃ t, exec .freqClr s = .next t ∧ (∀ k, t.ac.freq.read k = 0) ∧ t.ac.total = 0 ∧
    t = { s with ac := { s.ac with freq := t.ac.freq } })

/-- 41_arith_coder R121, R129: CUM.RD returns the sum of the frequencies below s, saturated; above NSYM it raises INVALID_SYMBOL. -/
def Obligations.CumRdReturnsPrefixSum : Prop :=
  ∀ (s : State) (sym : Sym), s.ready → s.ac.freq.wf →
    (sym.toNat ≤ s.ac.nsym.toNat → exec (.cumRd sym) s = .next (s.setRes
      (BitVec.ofNat 64 (min ((Finset.range sym.toNat).sum fun k => (s.ac.freq.read k).toNat) (2 ^ 64 - 1))))) ∧
    (s.ac.nsym.toNat < sym.toNat →
      exec (.cumRd sym) s = .next (s.raised ⟨.invalidSymbol, sym.setWidth 64⟩ (encode (.cumRd sym))))

/-- 41_arith_coder R122, R135, R145: the interval update is exact, its result lies inside the old interval, and the intervals of two
symbols do not meet. -/
def Obligations.IntervalUpdateStaysInside : Prop :=
  ∀ a : AcUnit, a.freq.wf → a.total ≤ 2 ^ 30 → a.low.toNat + 2 ^ 30 ≤ a.high.toNat + 1 →
    (∀ sym : Sym, sym.toNat < a.nsym.toNat → a.freq.read sym.toNat ≠ 0 →
      (intervalUpdate sym a).low.toNat =
        (a.high.toNat - a.low.toNat + 1) * a.cum sym.toNat / a.total + a.low.toNat ∧
      (intervalUpdate sym a).high.toNat + 1 =
        (a.high.toNat - a.low.toNat + 1) * (a.cum sym.toNat + (a.freq.read sym.toNat).toNat) / a.total + a.low.toNat ∧
      a.low.toNat ≤ (intervalUpdate sym a).low.toNat ∧
      (intervalUpdate sym a).low.toNat ≤ (intervalUpdate sym a).high.toNat ∧
      (intervalUpdate sym a).high.toNat ≤ a.high.toNat) ∧
    (∀ sym sym' : Sym, sym.toNat < sym'.toNat → sym'.toNat < a.nsym.toNat → a.freq.read sym.toNat ≠ 0 →
      a.freq.read sym'.toNat ≠ 0 → (intervalUpdate sym a).high.toNat < (intervalUpdate sym' a).low.toNat)

/-- 41_arith_coder R123: the two shifts. -/
def Obligations.ShiftsDoubleTheInterval : Prop :=
  ∀ a : AcUnit,
    (topShift a).low.toNat = a.low.toNat * 2 % 2 ^ 32 ∧ (topShift a).high.toNat = a.high.toNat * 2 % 2 ^ 32 + 1 ∧
    (underflowShift a).low.toNat = (a.low &&& 0x3FFFFFFF#32).toNat * 2 % 2 ^ 32 ∧
    (underflowShift a).high.toNat = (a.high ||| 0x40000000#32).toNat * 2 % 2 ^ 32 + 1 ∧
    topShift a = { a with low := (topShift a).low, high := (topShift a).high } ∧
    underflowShift a = { a with low := (underflowShift a).low, high := (underflowShift a).high } ∧
    (a.low.toNat ≤ a.high.toNat → a.low.getLsbD 31 ≠ a.high.getLsbD 31 → a.low.getLsbD 30 = true →
      a.high.getLsbD 30 = false →
      a.low.extractLsb' 30 2 = 1 ∧ a.high.extractLsb' 30 2 = 2 ∧
      underflowShift a = topShift { a with low := a.low ^^^ 0x40000000#32, high := a.high ^^^ 0x40000000#32 } ∧
      (underflowShift a).low.toNat = 2 * (a.low.toNat - 0x40000000) ∧
      (underflowShift a).high.toNat = 2 * (a.high.toNat - 0x40000000) + 1)

/-- 41_arith_coder R131, R136: EncRenorm is the loop of R131, run to its end, which leaves the bounds renormalised. The counter's value
past 2^64 - 1 is free (log 3), so the underflow turn is stated below it. -/
def Obligations.EncRenormFollowsItsLoop : Prop :=
  ∀ s : State, s.ac.low.toNat ≤ s.ac.high.toNat →
    (∀ b : Bool, s.ac.low.getLsbD 31 = b → s.ac.high.getLsbD 31 = b →
      encRenorm 32 s = encRenorm 32 ((outBits (!b) s.ac.uf.toNat (outBit b s)).setAc
        (topShift { (outBits (!b) s.ac.uf.toNat (outBit b s)).ac with uf := 0 }))) ∧
    (s.ac.low.getLsbD 31 ≠ s.ac.high.getLsbD 31 → s.ac.low.getLsbD 30 = true → s.ac.high.getLsbD 30 = false →
      s.ac.uf ≠ BitVec.allOnes 64 →
      encRenorm 32 s = encRenorm 32 (s.setAc (underflowShift { s.ac with uf := s.ac.uf + 1 }))) ∧
    (s.ac.low.getLsbD 31 ≠ s.ac.high.getLsbD 31 → ¬(s.ac.low.getLsbD 30 = true ∧ s.ac.high.getLsbD 30 = false) →
      encRenorm 32 s = s) ∧
    Renormalised (encRenorm 32 s).ac

/-- 41_arith_coder R139, R136: DecRenorm is the loop of R139, run to its end; a bit that cannot be had ends it with the error. -/
def Obligations.DecRenormFollowsItsLoop : Prop :=
  (∀ s : State, s.ac.low.toNat ≤ s.ac.high.toNat →
    (s.ac.low.getLsbD 31 = s.ac.high.getLsbD 31 →
      decRenorm 32 s = Except.bind (shiftInCode s.ac.code (s.setAc (topShift s.ac))) (decRenorm 32)) ∧
    (s.ac.low.getLsbD 31 ≠ s.ac.high.getLsbD 31 → s.ac.low.getLsbD 30 = true → s.ac.high.getLsbD 30 = false →
      decRenorm 32 s =
        Except.bind (shiftInCode (s.ac.code ^^^ 0x40000000#32) (s.setAc (underflowShift s.ac))) (decRenorm 32)) ∧
    (s.ac.low.getLsbD 31 ≠ s.ac.high.getLsbD 31 → ¬(s.ac.low.getLsbD 30 = true ∧ s.ac.high.getLsbD 30 = false) →
      decRenorm 32 s = .ok s) ∧
    (∀ t, decRenorm 32 s = .ok t → Renormalised t.ac)) ∧
  (∀ (c : Word32) (b : Bool) (s t : State), inBit s = .ok (b, t) →
    shiftInCode c s = .ok (t.setAc { t.ac with code := BitVec.ofNat 32 (2 * c.toNat + b.toNat) })) ∧
  (∀ (c : Word32) (s : State) (e : Raised), inBit s = .error e → shiftInCode c s = .error e)

/-- 20_memory R76, R77, 10_state R40: OutBit adds one bit to the coded bits, first bit highest, and touches nothing else. -/
def Obligations.OutBitAppendsOneBit : Prop :=
  ∀ (b : Bool) (s : State), s.ac.bitCnt ≤ 7 → (∀ j, j < 8 - s.ac.bitCnt → s.ac.bitBuf.getLsbD j = false) →
    (outBit b s).outBitsSoFar = s.outBitsSoFar ++ [b] ∧ (outBit b s).ac.bitCnt ≤ 7 ∧
    (∀ j, j < 8 - (outBit b s).ac.bitCnt → (outBit b s).ac.bitBuf.getLsbD j = false) ∧
    outBit b s = { s with
      out := (outBit b s).out, ac := { s.ac with bitBuf := (outBit b s).ac.bitBuf, bitCnt := (outBit b s).ac.bitCnt } }

/-- 20_memory R79, 10_state R48: InBit takes the next coded bit, or supplies one of at most 32 zeros past the end, or raises PAST_END.
INPOS past 2^64 - 1 is free (log 3). -/
def Obligations.InBitTakesTheNextBit : Prop :=
  ∀ s : State, s.ac.inCnt ≤ 8 →
    (∀ (b : Bool) (rest : List Bool), s.inBitsLeft = b :: rest → ∃ t, inBit s = .ok (b, t) ∧ t.inBitsLeft = rest ∧
      t.ac.inCnt ≤ 8 ∧
      (s.ac.inPos ≠ BitVec.allOnes 64 → 8 * t.ac.inPos.toNat + s.ac.inCnt = 8 * s.ac.inPos.toNat + t.ac.inCnt + 1) ∧
      t = { s with
        inp := t.inp, draws := t.draws,
        ac := { s.ac with inBuf := t.ac.inBuf, inCnt := t.ac.inCnt, inPos := t.ac.inPos } }) ∧
    (s.inBitsLeft = [] → s.ac.pastEnd < 32 → inBit s = .ok (false, s.setAc { s.ac with pastEnd := s.ac.pastEnd + 1 })) ∧
    (s.inBitsLeft = [] → s.ac.pastEnd = 32 → inBit s = .error ⟨.malformedStream, 1#8 ++ 32#56⟩)

/-- 41_arith_coder R138 (priming): CODE takes the next 32 coded bits, zeros standing for those past the end, or PAST_END is raised. -/
def Obligations.PrimingLoadsThirtyTwoBits : Prop :=
  ∀ s : State, s.ac.inCnt ≤ 8 → s.ac.pastEnd ≤ 32 →
    (32 ≤ s.bitsAvailable → ∃ p, prime s = .ok p ∧ p.ac.dir = .read ∧
      p.ac.code.toNat = bitsValue ((s.inBitsLeft ++ List.replicate 32 false).take 32) ∧
      p.inBitsLeft = s.inBitsLeft.drop 32 ∧ p.ac.pastEnd = s.ac.pastEnd + (32 - s.inBitsLeft.length) ∧
      p = { s with
        inp := p.inp, draws := p.draws,
        ac := { s.ac with
          dir := .read, code := p.ac.code, inBuf := p.ac.inBuf, inCnt := p.ac.inCnt, inPos := p.ac.inPos,
          pastEnd := p.ac.pastEnd } }) ∧
    (s.bitsAvailable < 32 → prime s = .error ⟨.malformedStream, 1#8 ++ 32#56⟩)

/-- 41_arith_coder R130, R132: AC.ENC of a codable symbol completes: interval update, renormalisation, section count; and its frame. -/
def Obligations.AcEncCodesTheSymbol : Prop :=
  ∀ (s : State) (sym : Sym), s.ready → s.ac.dir ≠ .read → sym.toNat < s.ac.nsym.toNat →
    s.ac.freq.read sym.toNat ≠ 0 → s.ac.total ≤ 2 ^ 30 →
    ∃ t u, u = encRenorm 32 (s.setAc (intervalUpdate sym { s.ac with dir := .write })) ∧ exec (.acEnc sym) s = .next t ∧
      t.ac.dir = .write ∧ t.ac.low = u.ac.low ∧ t.ac.high = u.ac.high ∧ t.ac.uf = u.ac.uf ∧ t.ac.bitBuf = u.ac.bitBuf ∧
      t.ac.bitCnt = u.ac.bitCnt ∧ t.out = u.out ∧ (∃ added, t.out = s.out ++ added) ∧
      (sym ≠ s.ac.term → t.ac.sectDone = s.ac.sectDone) ∧
      (sym = s.ac.term → s.ac.sectDone ≠ BitVec.allOnes 64 → t.ac.sectDone = s.ac.sectDone + 1) ∧
      t = { s with
        out := t.out, draws := t.draws,
        ac := { s.ac with
          low := t.ac.low, high := t.ac.high, uf := t.ac.uf, bitBuf := t.ac.bitBuf, bitCnt := t.ac.bitCnt,
          dir := t.ac.dir, sectDone := t.ac.sectDone } }

/-- 41_arith_coder R133, R125, 20_memory R78: AC.FLUSH puts out LOW[30], UF + 1 complements of it and zero padding to a whole byte, and
starts the interval anew. -/
def Obligations.AcFlushEndsTheStream : Prop :=
  ∀ s : State, s.ready → s.ac.dir ≠ .read → s.ac.bitCnt ≤ 7 →
    (∀ j, j < 8 - s.ac.bitCnt → s.ac.bitBuf.getLsbD j = false) →
    ∃ t pad, exec .acFlush s = .next t ∧ pad < 8 ∧
      t.out.flatMap byteBits = s.outBitsSoFar ++ [s.ac.low.getLsbD 30] ++
        List.replicate (s.ac.uf.toNat + 1) (!s.ac.low.getLsbD 30) ++ List.replicate pad false ∧
      (∃ added, t.out = s.out ++ added) ∧
      t = { s with
        out := t.out,
        ac := { s.ac with low := 0, high := 0xFFFFFFFF, uf := 0, bitBuf := 0, bitCnt := 0, dir := .write } }

/-- 60_exceptions R244, 41_arith_coder R130, R133, R138: the errors of AC.ENC, AC.FLUSH and AC.DEC, each under the conditions that put it
first: DIRECTION_MISUSE of all three (AC.FLUSH has no other error), the errors of AC.ENC and AC.DEC before any bit is coded, and PAST_END
of AC.DEC in priming and in renormalisation. Each commits nothing but the latch. -/
def Obligations.CoderCommandErrors : Prop :=
  ∀ s : State, s.ready →
    (s.ac.dir = .read →
      (∀ sym : Sym, exec (.acEnc sym) s = .next (s.raised ⟨.directionMisuse, 2⟩ (encode (.acEnc sym)))) ∧
        exec .acFlush s = .next (s.raised ⟨.directionMisuse, 2⟩ 0x13000000)) ∧
    (s.ac.dir ≠ .read → ∃ t, exec .acFlush s = .next t ∧ t.ready) ∧
    (s.ac.dir = .write → exec .acDec s = .next (s.raised ⟨.directionMisuse, 1⟩ 0x12000000)) ∧
    (∀ sym : Sym, s.ac.dir ≠ .read → s.ac.nsym.toNat ≤ sym.toNat →
      exec (.acEnc sym) s = .next (s.raised ⟨.invalidSymbol, sym.setWidth 64⟩ (encode (.acEnc sym)))) ∧
    (∀ sym : Sym, s.ac.dir ≠ .read → sym.toNat < s.ac.nsym.toNat → s.ac.freq.read sym.toNat = 0 →
      exec (.acEnc sym) s = .next (s.raised ⟨.zeroProbability, sym.setWidth 64⟩ (encode (.acEnc sym)))) ∧
    (∀ sym : Sym, s.ac.dir ≠ .read → sym.toNat < s.ac.nsym.toNat → s.ac.freq.read sym.toNat ≠ 0 → 2 ^ 30 < s.ac.total →
      exec (.acEnc sym) s =
        .next (s.raised ⟨.freqTotal, BitVec.ofNat 64 (min s.ac.total (2 ^ 64 - 1))⟩ (encode (.acEnc sym)))) ∧
    (s.ac.dir ≠ .write → s.ac.sections ≠ 0 → s.ac.sections.toNat ≤ s.ac.sectDone.toNat →
      exec .acDec s = .next (s.raised ⟨.malformedStream, 2#8 ++ s.ac.sectDone.setWidth 56⟩ 0x12000000)) ∧
    (s.ac.dir ≠ .write → (s.ac.sections = 0 ∨ s.ac.sectDone.toNat < s.ac.sections.toNat) →
      (s.ac.total = 0 ∨ 2 ^ 30 < s.ac.total) →
      exec .acDec s = .next (s.raised ⟨.freqTotal, BitVec.ofNat 64 (min s.ac.total (2 ^ 64 - 1))⟩ 0x12000000)) ∧
    (s.ac.dir = .idle → (s.ac.sections = 0 ∨ s.ac.sectDone.toNat < s.ac.sections.toNat) → 0 < s.ac.total →
      s.ac.total ≤ 2 ^ 30 → s.ac.inCnt ≤ 8 → s.ac.pastEnd ≤ 32 → s.bitsAvailable < 32 →
      exec .acDec s = .next (s.raised ⟨.malformedStream, 1#8 ++ 32#56⟩ 0x12000000)) ∧
    (s.ac.dir ≠ .write → (s.ac.sections = 0 ∨ s.ac.sectDone.toNat < s.ac.sections.toNat) → 0 < s.ac.total →
      s.ac.total ≤ 2 ^ 30 → s.ac.inCnt ≤ 8 → s.ac.pastEnd ≤ 32 → s.bitsAvailable < s.decodeBitsNeeded →
      exec .acDec s = .next (s.raised ⟨.malformedStream, 1#8 ++ 32#56⟩ 0x12000000))

/-- 41_arith_coder R137, R140: the lookup finds the least symbol whose cumulative range holds the count, its frequency is not 0, and its
interval is the one that contains CODE; no free value is drawn (log 5). -/
def Obligations.LookupFindsTheSymbol : Prop :=
  ∀ s : State, s.ac.freq.wf → s.ac.nsym.toNat ≤ 65536 → 0 < s.ac.total → s.ac.total ≤ 2 ^ 30 →
    s.ac.low.toNat + 2 ^ 30 ≤ s.ac.high.toNat + 1 → s.ac.low.toNat ≤ s.ac.code.toNat → s.ac.code.toNat ≤ s.ac.high.toNat →
    ∃ (sym : Sym) (count : Nat),
      count = ((s.ac.code.toNat - s.ac.low.toNat + 1) * s.ac.total - 1) / (s.ac.high.toNat - s.ac.low.toNat + 1) ∧
      count < s.ac.total ∧ lookupSymbol s = (sym, s) ∧ sym.toNat < s.ac.nsym.toNat ∧
      s.ac.cum sym.toNat ≤ count ∧ count < s.ac.cum (sym.toNat + 1) ∧ s.ac.freq.read sym.toNat ≠ 0 ∧
      (∀ k, k < sym.toNat → s.ac.cum (k + 1) ≤ count) ∧
      (intervalUpdate sym s.ac).low.toNat ≤ s.ac.code.toNat ∧ s.ac.code.toNat ≤ (intervalUpdate sym s.ac).high.toNat

/-- 41_arith_coder R138, R132, R140: AC.DEC completes when the direction, the sections and the total allow it and the bits it takes can be
had (from IDLE 32 to prime; in every case the turns of renormalisation, at most 32); its result, its effect and its frame. -/
def Obligations.AcDecReturnsTheSymbol : Prop :=
  (∀ s : State, s.decodeBitsNeeded ≤ if s.ac.dir = .idle then 64 else 32) ∧
  ∀ s : State, s.ready → s.ac.dir ≠ .write → (s.ac.sections = 0 ∨ s.ac.sectDone.toNat < s.ac.sections.toNat) →
    0 < s.ac.total → s.ac.total ≤ 2 ^ 30 → s.ac.freq.wf → CoderInv s.ac → s.decodeBitsNeeded ≤ s.bitsAvailable →
    ∃ (p u t : State) (sym : Sym),
      (s.ac.dir = .idle → prime s = .ok p) ∧ (s.ac.dir = .read → p = s) ∧ lookupSymbol p = (sym, p) ∧
      decRenorm 32 (p.setAc (intervalUpdate sym p.ac)) = .ok u ∧ exec .acDec s = .next t ∧
      t.res = sym.setWidth 64 ∧ sym.toNat < s.ac.nsym.toNat ∧ s.ac.freq.read sym.toNat ≠ 0 ∧ t.ac.dir = .read ∧
      t.ac.low = u.ac.low ∧ t.ac.high = u.ac.high ∧ t.ac.code = u.ac.code ∧ t.ac.inBuf = u.ac.inBuf ∧
      t.ac.inCnt = u.ac.inCnt ∧ t.ac.inPos = u.ac.inPos ∧ t.ac.pastEnd = u.ac.pastEnd ∧ t.inp = u.inp ∧
      t.ac.low.toNat ≤ t.ac.code.toNat ∧ t.ac.code.toNat ≤ t.ac.high.toNat ∧
      (sym ≠ s.ac.term → t.ac.sectDone = s.ac.sectDone) ∧
      (sym = s.ac.term → s.ac.sectDone ≠ BitVec.allOnes 64 → t.ac.sectDone = s.ac.sectDone + 1) ∧
      t = { s with
        res := t.res, inp := t.inp, draws := t.draws,
        ac := { s.ac with
          low := t.ac.low, high := t.ac.high, code := t.ac.code, dir := t.ac.dir, sectDone := t.ac.sectDone,
          inBuf := t.ac.inBuf, inCnt := t.ac.inCnt, inPos := t.ac.inPos, pastEnd := t.ac.pastEnd } }

/-- 41_arith_coder R125, 40_control R114: DIR changes only as the table says, and by SRST. -/
def Obligations.DirectionLatchTable : Prop :=
  ∀ s : State, s.ready →
    (∀ (i : Instr) (t : State), exec i s = .next t → t.ready →
      (i.opcode = 0x10 ∨ i.opcode = 0x0F → t.ac.dir = .idle) ∧
      (i.opcode = 0x11 ∨ i.opcode = 0x13 → s.ac.dir ≠ .read ∧ t.ac.dir = .write) ∧
      (i.opcode = 0x12 → s.ac.dir ≠ .write ∧ t.ac.dir = .read) ∧
      (i.opcode ∉ [0x0F#8, 0x10#8, 0x11#8, 0x12#8, 0x13#8] → t.ac.dir = s.ac.dir)) ∧
    (s.ac.dir = .read →
      (∀ sym : Sym, exec (.acEnc sym) s = .next (s.raised ⟨.directionMisuse, 2⟩ (encode (.acEnc sym)))) ∧
        exec .acFlush s = .next (s.raised ⟨.directionMisuse, 2⟩ 0x13000000)) ∧
    (s.ac.dir = .write → exec .acDec s = .next (s.raised ⟨.directionMisuse, 1⟩ 0x12000000))

/-- 41_arith_coder R142, R143, 70_reset R262: what one coder encodes and flushes, another with the same NSYM and FREQ at every position
decodes, whatever bytes follow the stream. Fewer than 2^58 symbols keep UF and INPOS below 2^64 (log 3). -/
def Obligations.CoderRoundTrip : Prop :=
  ∀ (cs : List CodingStep) (s u : State) (suffix : List Byte), s.ready → u.ready → (∀ c ∈ cs, c.Codable) →
    cs.length < 2 ^ 58 → sectionsSuffice u.ac cs →
    ∃ (s0 s1 e u0 d : State) (bytes : List Byte),
      exec .acInit s = .next s0 ∧ encodeStream cs s0 = some s1 ∧ exec .acFlush s1 = .next e ∧ e.out = s.out ++ bytes ∧
      exec .acInit (u.setInp (bytes ++ suffix)) = .next u0 ∧
      decodeStream cs u0 = some (cs.map fun c => c.sym.setWidth 64, d) ∧ d.ready

/-- 41_arith_coder R141, 70_reset R264: after decoding the symbols of a stream, the counters give the stream's length in bytes, and at most
30 bits past the end were supplied. -/
def Obligations.CountersGiveStreamLength : Prop :=
  ∀ (cs : List CodingStep) (s u : State) (suffix : List Byte) (s0 s1 e u0 d : State) (bytes : List Byte) (rs : List Word64),
    s.ready → u.ready → (∀ c ∈ cs, c.Codable) → cs ≠ [] → cs.length < 2 ^ 58 → sectionsSuffice u.ac cs →
    exec .acInit s = .next s0 → encodeStream cs s0 = some s1 → exec .acFlush s1 = .next e → e.out = s.out ++ bytes →
    exec .acInit (u.setInp (bytes ++ suffix)) = .next u0 → decodeStream cs u0 = some (rs, d) →
    (8 * d.ac.inPos.toNat + d.ac.pastEnd + 7 - d.ac.inCnt - 30) / 8 = bytes.length ∧ d.ac.pastEnd ≤ 30 ∧
      d.ac.inPos.toNat ≤ bytes.length + 4

/-! ### Run length -/

/-- 43_run_length R172, R175, R178, 60_exceptions R242: RLE.INIT, RLE.POP and RLE.DEND. A DEPTH that needs more than 56 bits is cut to 56 in
ERRINFO, as R242's table has it and R178's pseudocode does not: the model's reading (log 8). -/
def Obligations.RleControlCommands : Prop :=
  ∀ s : State, s.ready →
    exec .rleInit s = .next { s with rle := { s.rle with
      run := 0, queue := [], phase := .prefixPhase, first := true, depth := 0, vacc := 0 } } ∧
    (s.rle.queue = [] → exec .rlePop s = .next (s.setRes 0xFFFFFFFFFFFFFFFF)) ∧
    (∀ (q : Sym) (rest : List Sym), s.rle.queue = q :: rest →
      exec .rlePop s = .next { s with res := q.setWidth 64, rle := { s.rle with queue := rest } }) ∧
    (s.rle.phase = .prefixPhase → s.rle.depth = 0 →
      exec .rleDend s = .next { s with rle := { s.rle with first := true, vacc := 0 } }) ∧
    (s.rle.phase = .suffixPhase ∨ 0 < s.rle.depth →
      exec .rleDend s = .next (s.raised ⟨.malformedStream, 4#8 ++ BitVec.ofNat 56 s.rle.depth⟩ 0x25000000))

/-- 43_run_length R173, R174, R183: RLE.EBIT and RLE.EEND, where they complete and where they overflow. -/
def Obligations.RleEncoderCommands : Prop :=
  ∀ s : State, s.ready →
    (s.rle.run ≠ 2 ^ 62 - 1 → exec (.rleEbit 0) s = .next { s with rle := { s.rle with run := s.rle.run + 1 } }) ∧
    (s.rle.run = 2 ^ 62 - 1 → exec (.rleEbit 0) s = .next (s.raised ⟨.rleOverflow, 0x3FFFFFFFFFFFFFFF⟩ 0x21000000)) ∧
    (∀ i : Instr, i = .rleEbit 1 ∨ i = .rleEend →
      (s.rle.queue.length + (runCode s.rle.m.toNat s.rle.run).length ≤ 256 →
        exec i s = .next { s with rle := { s.rle with
          queue := s.rle.queue ++ (runCode s.rle.m.toNat s.rle.run).map (BitVec.ofNat 16), run := 0 } }) ∧
      (256 < s.rle.queue.length + (runCode s.rle.m.toNat s.rle.run).length →
        exec i s = .next (s.raised
          ⟨.rleqOverflow, BitVec.ofNat 64 (runCode s.rle.m.toNat s.rle.run).length⟩ (encode i))))

/-- 43_run_length R171: the word of a run. -/
def Obligations.RunWordGrammar : Prop :=
  (∀ m l : Nat, 1 ≤ m →
    (l < m → runCode m l = [l]) ∧ (m ≤ l → runCode m l = [m] ++ runCode m (l / m - 1) ++ [l % m]) ∧
    (∃ d tail, runCode m l = List.replicate d m ++ tail ∧ tail.length = d + 1 ∧ ∀ x ∈ tail, x < m)) ∧
  runCode 4 3 = [3] ∧ runCode 4 4 = [4, 0, 0] ∧ runCode 4 7 = [4, 0, 3] ∧ runCode 4 8 = [4, 1, 0] ∧
  runCode 4 19 = [4, 3, 3] ∧ runCode 4 20 = [4, 4, 0, 0, 0] ∧ runCode 4 100 = [4, 4, 4, 0, 1, 0, 0] ∧
  runCode 5 40 = [5, 5, 0, 2, 0]

/-- 43_run_length R180: the length of a run's word. -/
def Obligations.RunWordLength : Prop :=
  (∀ m l d : Nat, 1 ≤ m → (wordBound m d ≤ l ∧ l < wordBound m (d + 1) ↔ (runCode m l).length = 2 * d + 1)) ∧
  (∀ m l : Nat, 1 ≤ m → (l < m → (runCode m l).length = 1) ∧
    (m ≤ l → (runCode m l).length = (runCode m (l / m - 1)).length + 2)) ∧
  (List.range 5).map (wordBound 4) = [0, 4, 20, 84, 340] ∧ (∀ d, wordBound 1 d = d) ∧
  (∀ m l : Nat, 2 ≤ m → l ≤ 2 ^ 62 - 1 → (runCode m l).length ≤ 123) ∧
  (∃ l, l ≤ 2 ^ 62 - 1 ∧ (runCode 2 l).length = 123) ∧
  (∀ l, l ≤ 2 ^ 62 - 1 → (runCode 3 l).length ≤ 77) ∧ (∃ l, l ≤ 2 ^ 62 - 1 ∧ (runCode 3 l).length = 77) ∧
  (∀ l, l ≤ 2 ^ 62 - 1 → (runCode 65535 l).length ≤ 7) ∧ (∃ l, l ≤ 2 ^ 62 - 1 ∧ (runCode 65535 l).length = 7)

/-- 43_run_length R176, R177: RLE.DSYM, in each phase, where it completes. -/
def Obligations.DsymParsesOneSymbol : Prop :=
  ∀ (s : State) (sym : Sym), s.ready →
    (s.rle.phase = .prefixPhase → sym = s.rle.m → s.rle.depth ≠ 2 ^ 62 - 1 →
      exec (.rleDsym sym) s = .next { s with res := 0, rle := { s.rle with depth := s.rle.depth + 1 } }) ∧
    (s.rle.phase = .prefixPhase → sym.toNat < s.rle.m.toNat → s.rle.depth = 0 →
      exec (.rleDsym sym) s = .next { s with
        res := 1#1 ++ BitVec.ofBool (!s.rle.first) ++ BitVec.ofNat 62 sym.toNat,
        rle := { s.rle with first := false, vacc := 0 } }) ∧
    (s.rle.phase = .prefixPhase → sym.toNat < s.rle.m.toNat → 0 < s.rle.depth →
      exec (.rleDsym sym) s = .next { s with
        res := 0, rle := { s.rle with vacc := sym.toNat, phase := .suffixPhase } }) ∧
    (s.rle.phase = .suffixPhase → sym.toNat < s.rle.m.toNat →
      (s.rle.vacc + 1) * s.rle.m.toNat + sym.toNat ≤ 2 ^ 62 - 1 → 2 ≤ s.rle.depth →
      exec (.rleDsym sym) s = .next { s with
        res := 0,
        rle := { s.rle with
          vacc := (s.rle.vacc + 1) * s.rle.m.toNat + sym.toNat, depth := s.rle.depth - 1 } }) ∧
    (s.rle.phase = .suffixPhase → sym.toNat < s.rle.m.toNat →
      (s.rle.vacc + 1) * s.rle.m.toNat + sym.toNat ≤ 2 ^ 62 - 1 → s.rle.depth = 1 →
      exec (.rleDsym sym) s = .next { s with
        res := 1#1 ++ BitVec.ofBool (!s.rle.first) ++
          BitVec.ofNat 62 ((s.rle.vacc + 1) * s.rle.m.toNat + sym.toNat),
        rle := { s.rle with phase := .prefixPhase, depth := 0, first := false, vacc := 0 } })

/-- 43_run_length R177, 60_exceptions R242, R244: the errors of RLE.DSYM, in order. A DEPTH that needs more than 56 bits is cut to 56
(R242's table; log 8). -/
def Obligations.DsymErrors : Prop :=
  ∀ (s : State) (sym : Sym), s.ready →
    (s.rle.m.toNat < sym.toNat →
      exec (.rleDsym sym) s = .next (s.raised ⟨.malformedStream, 3#8 ++ sym.setWidth 56⟩ (encode (.rleDsym sym)))) ∧
    (s.rle.phase = .suffixPhase → sym = s.rle.m →
      exec (.rleDsym sym) s = .next (s.raised ⟨.malformedStream, 3#8 ++ sym.setWidth 56⟩ (encode (.rleDsym sym)))) ∧
    (s.rle.phase = .prefixPhase → sym = s.rle.m → s.rle.depth = 2 ^ 62 - 1 →
      exec (.rleDsym sym) s =
        .next (s.raised ⟨.malformedStream, 5#8 ++ BitVec.ofNat 56 s.rle.depth⟩ (encode (.rleDsym sym)))) ∧
    (s.rle.phase = .suffixPhase → sym.toNat < s.rle.m.toNat →
      2 ^ 62 - 1 < (s.rle.vacc + 1) * s.rle.m.toNat + sym.toNat →
      exec (.rleDsym sym) s =
        .next (s.raised ⟨.malformedStream, 5#8 ++ BitVec.ofNat 56 s.rle.depth⟩ (encode (.rleDsym sym))))

/-- 43_run_length R179: the word of a run, fed to RLE.DSYM, gives 2d results of 0 and then the run's token. -/
def Obligations.RunWordDecodes : Prop :=
  ∀ (s : State) (l : Nat), s.ready → 1 ≤ s.rle.m.toNat → l ≤ 2 ^ 62 - 1 → s.rle.phase = .prefixPhase → s.rle.depth = 0 →
    ∃ t, execResults ((runCode s.rle.m.toNat l).map fun n => .rleDsym (BitVec.ofNat 16 n)) s =
        some (List.replicate ((runCode s.rle.m.toNat l).length - 1) 0 ++
          [1#1 ++ BitVec.ofBool (!s.rle.first) ++ BitVec.ofNat 62 l], t) ∧
      t = { s with res := t.res, rle := { s.rle with first := false, vacc := 0 } }

/-- 43_run_length R179 (conversely): what the parser accepts from rest to rest is a sequence of words of runs, and its tokens are the
runs. -/
def Obligations.AcceptedSymbolsAreRunWords : Prop :=
  ∀ (s t : State) (syms : List Sym) (rs : List Word64), s.ready → 1 ≤ s.rle.m.toNat → s.rle.phase = .prefixPhase →
    s.rle.depth = 0 → execResults (syms.map .rleDsym) s = some (rs, t) → t.ready → t.rle.phase = .prefixPhase →
    t.rle.depth = 0 →
    ∃ runs : List Nat, (∀ l ∈ runs, l ≤ 2 ^ 62 - 1) ∧ syms.map BitVec.toNat = runs.flatMap (runCode s.rle.m.toNat) ∧
      (rs.filter fun r => r.getLsbD 63).map (fun r => (r.extractLsb' 0 62).toNat) = runs

/-- 43_run_length R181, R182: a binary array, encoded bit by bit with the queue popped empty each time, comes back from the decoder; the
symbols are the words of its runs. Each run is within RUN_MAX, and within 127 where M = 1 (R183). -/
def Obligations.BinaryArrayRoundTrip : Prop :=
  ∀ (bits : List (BitVec 1)) (s u : State), s.ready → u.ready → 1 ≤ s.rle.m.toNat → u.rle.m = s.rle.m →
    s.rle.run = 0 → s.rle.queue = [] → u.rle.phase = .prefixPhase → u.rle.depth = 0 → u.rle.first = true →
    (∀ l ∈ runsFrom 0 bits, l ≤ 2 ^ 62 - 1) → (s.rle.m = 1 → ∀ l ∈ runsFrom 0 bits, l ≤ 127) →
    ∃ (syms tokens : List Word64) (t v : State), encodeArray bits s = some (syms, t) ∧
      syms.map BitVec.toNat = (runsFrom 0 bits).flatMap (runCode s.rle.m.toNat) ∧
      t.rle.run = 0 ∧ t.rle.queue = [] ∧
      execResults (syms.map fun q => .rleDsym (q.setWidth 16)) u = some (tokens, v) ∧ v.ready ∧
      v.rle.phase = .prefixPhase ∧ v.rle.depth = 0 ∧ tokens.flatMap tokenBits = bits

/-! ### The field and the predictor -/

/-- 44_predictor R215, R216, R217: PRD.INIT, FLD.WR and FLD.RD. -/
def Obligations.FieldCommands : Prop :=
  ∀ (s : State) (x y : Nat), s.ready → x = (s.arg.extractLsb' 0 16).toNat → y = (s.arg.extractLsb' 16 16).toNat →
    (∃ t, exec .prdInit s = .next t ∧ (∀ k, t.prd.ctx.find k = none) ∧ t.prd.ctx.length = 0 ∧
      t = { s with prd := { s.prd with ctx := t.prd.ctx, ctxFull := false, pos := 0 } }) ∧
    (∀ v : Colour, s.prd.field.wf → x < s.prd.width.toNat → y < s.prd.height.toNat → ∃ t, exec (.fldWr v) s = .next t ∧
      t.prd.field.read (y * s.prd.width.toNat + x) = v ∧
      (∀ i, i ≠ y * s.prd.width.toNat + x → t.prd.field.read i = s.prd.field.read i) ∧ t.prd.field.wf ∧
      t = { s with prd := { s.prd with field := t.prd.field } }) ∧
    (∀ v : Colour, s.prd.width.toNat ≤ x ∨ s.prd.height.toNat ≤ y →
      exec (.fldWr v) s = .next (s.raised ⟨.fieldOob, s.arg⟩ (encode (.fldWr v)))) ∧
    (x < s.prd.width.toNat → y < s.prd.height.toNat →
      exec .fldRd s = .next (s.setRes ((s.prd.field.read (y * s.prd.width.toNat + x)).setWidth 64))) ∧
    (s.prd.width.toNat ≤ x ∨ s.prd.height.toNat ≤ y → s.prd.cfg.extractLsb' 4 2 = 1 →
      exec .fldRd s = .next (s.setRes ((s.prd.cfg.extractLsb' 6 2).setWidth 64))) ∧
    (s.prd.width.toNat ≤ x ∨ s.prd.height.toNat ≤ y → s.prd.cfg.extractLsb' 4 2 = 0 →
      exec .fldRd s = .next (s.raised ⟨.fieldOob, s.arg⟩ 0x32000000))

/-- 44_predictor R213, R218 to R221: the four cursor commands, where they complete, and CURSOR_END. -/
def Obligations.CursorCommands : Prop :=
  ∀ s : State, s.ready →
    (s.prd.pos < s.prd.width.toNat * s.prd.height.toNat →
      exec .prdForesee s = .next (s.setRes ((foresee s.prd).setWidth 64)) ∧
      (∀ v : Colour, s.prd.field.wf → ∃ t, exec (.prdLearn v) s = .next t ∧ t.prd.field.read s.prd.pos = v ∧
        (∀ i, i ≠ s.prd.pos → t.prd.field.read i = s.prd.field.read i) ∧ t.prd.field.wf ∧
        t = { s with prd := { learn v { s.prd with field := t.prd.field } with pos := s.prd.pos + 1 } }) ∧
      (∀ (m : Mode) (v : Colour), v = s.prd.field.read s.prd.pos → exec (.pxEnc m) s = .next { s with
        res := (forwardTransform m v (foresee s.prd)).setWidth 64,
        prd := { learn v s.prd with pos := s.prd.pos + 1 } }) ∧
      (∀ (m : Mode) (r v : Colour), v = inverseTransform m r (foresee s.prd) → s.prd.field.wf →
        ∃ t, exec (.pxDec m r) s = .next t ∧ t.prd.field.read s.prd.pos = v ∧
          (∀ i, i ≠ s.prd.pos → t.prd.field.read i = s.prd.field.read i) ∧ t.prd.field.wf ∧
          t = { s with
            res := v.setWidth 64,
            prd := { learn v { s.prd with field := t.prd.field } with pos := s.prd.pos + 1 } })) ∧
    (s.prd.width.toNat * s.prd.height.toNat ≤ s.prd.pos →
      ∀ i : Instr, i.opcode ∈ [0x33#8, 0x34#8, 0x35#8, 0x36#8] →
        exec i s = .next (s.raised ⟨.cursorEnd, BitVec.ofNat 64 s.prd.pos⟩ (encode i)))

/-- 44_predictor R195 to R197, R204, R206, R207, R210: what Foresee returns and what Learn observes, by KIND; a Learn leaves all but CTX and
CTXFULL. -/
def Obligations.ForeseeAndLearnByKind : Prop :=
  ∀ (p : PrdUnit) (v : Colour),
    (∃ c f, learn v p = { p with ctx := c, ctxFull := f }) ∧
    (p.cfg.extractLsb' 2 2 = 0 → secondary p = 0) ∧ (p.cfg.extractLsb' 2 2 = 1 → secondary p = predHV p) ∧
    (p.cfg.extractLsb' 0 2 = 0 → foresee p = 0 ∧ learn v p = p) ∧
    (p.cfg.extractLsb' 0 2 = 1 → foresee p = predHV p ∧ learn v p = p) ∧
    (p.cfg.extractLsb' 0 2 = 2 →
      (p.fixedKey = none → foresee p = secondary p ∧ learn v p = p) ∧
      (∀ key, p.fixedKey = some key → learn v p = p.observe key v ∧
        (p.ctx.find key = none → foresee p = secondary p) ∧ (∀ e, p.ctx.find key = some e → foresee p = e.vote))) ∧
    (p.cfg.extractLsb' 0 2 = 3 →
      (∀ (k : Fin 4) (key : CtxKey) (e : CtxEntry), k.val < (p.cfg.extractLsb' 20 3).toNat → p.hashKey k = some key →
        p.ctx.find key = some e → (∀ (j : Fin 4) (key' : CtxKey), j < k → p.hashKey j = some key' → p.ctx.find key' = none) →
        foresee p = e.vote) ∧
      ((∀ (j : Fin 4) (key' : CtxKey), j.val < (p.cfg.extractLsb' 20 3).toNat → p.hashKey j = some key' →
        p.ctx.find key' = none) → foresee p = secondary p) ∧
      learn v p = (((List.finRange 4).filter fun k => k.val < (p.cfg.extractLsb' 20 3).toNat).filterMap p.hashKey).foldl
        (fun q key => q.observe key v) p)

/-- 44_predictor R202, R203: one observation of a colour, and the vote. -/
def Obligations.CounterUpdateAndVote : Prop :=
  (∀ (e : CtxEntry) (v : Colour),
    (e.sat = true → e.update v = e) ∧
    (e.sat = false → (e.count v = (if v = 3 then 2047 else 4095) → e.update v = { e with sat := true }) ∧
      (e.count v ≠ (if v = 3 then 2047 else 4095) → (e.update v).sat = false ∧ (e.update v).count v = e.count v + 1 ∧
        ∀ u, u ≠ v → (e.update v).count u = e.count u)) ∧
    (e.sat = true → (e.update v).vote = e.vote)) ∧
  (∀ e : CtxEntry, e.count 0 = e.c0.toNat ∧ e.count 1 = e.c1.toNat ∧ e.count 2 = e.c2.toNat ∧ e.count 3 = e.c3.toNat) ∧
  (∀ e : CtxEntry, (∀ u : Colour, e.count u ≤ e.count e.vote) ∧ ∀ u : Colour, u < e.vote → e.count u < e.count e.vote) ∧
  (CtxEntry.mk 3 5 5 0 false).vote = 1 ∧ (CtxEntry.mk 0 0 0 0 false).vote = 0 ∧
  (∀ (a b c : BitVec 12) (u : Colour), (CtxEntry.mk a b c 2047 false).update 3 = CtxEntry.mk a b c 2047 true ∧
    ((CtxEntry.mk a b c 2047 false).update 3).update u = CtxEntry.mk a b c 2047 true)

/-- 44_predictor R209: Observe, and that entries stay until PRD.INIT, SRST or reset. -/
def Obligations.ObserveStoresEntries : Prop :=
  (∀ (p : PrdUnit) (k : CtxKey) (v : Colour), p.ctx.wf →
    (p.ctx.find k = none → p.ctx.length = 2 ^ 20 → p.observe k v = { p with ctxFull := true }) ∧
    (p.ctx.find k = none → p.ctx.length ≠ 2 ^ 20 →
      (p.observe k v).ctx.find k = some ((CtxEntry.mk 0 0 0 0 false).update v) ∧
      (p.observe k v).ctx.length = p.ctx.length + 1 ∧ (p.observe k v).ctxFull = p.ctxFull) ∧
    (∀ e, p.ctx.find k = some e → (p.observe k v).ctx.find k = some (e.update v) ∧
      (p.observe k v).ctx.length = p.ctx.length ∧ (p.observe k v).ctxFull = p.ctxFull) ∧
    (∀ k', k' ≠ k → (p.observe k v).ctx.find k' = p.ctx.find k') ∧
    p.observe k v = { p with ctx := (p.observe k v).ctx, ctxFull := (p.observe k v).ctxFull }) ∧
  (∀ (i : Instr) (s t : State), s.prd.ctx.wf → exec i s = .next t → i ≠ .prdInit → i ≠ .srst →
    (∀ (k : CtxKey) (e : CtxEntry), s.prd.ctx.find k = some e → ∃ e', t.prd.ctx.find k = some e') ∧
    (i.opcode ∉ [0x34#8, 0x35#8, 0x36#8] → t.prd.ctx = s.prd.ctx))

/-- 44_predictor R192, R198, R199: what a neighbour read gives, inside the field and out of bounds in each mode; HORZVERT, inside the
field and at its edges; no case reads an unavailable cell, and no prediction raises. -/
def Obligations.HorzVertRule : Prop :=
  (∀ p : PrdUnit,
    (∀ a b : Nat, a < p.width.toNat → b < p.height.toNat → p.nb a b = some (p.field.read (b * p.width.toNat + a))) ∧
    (∀ a b : Int, a < 0 ∨ (p.width.toNat : Int) ≤ a ∨ b < 0 ∨ (p.height.toNat : Int) ≤ b →
      (p.cfg.extractLsb' 4 2 = 1 → p.nb a b = some (p.cfg.extractLsb' 6 2)) ∧
      (p.cfg.extractLsb' 4 2 = 0 → p.nb a b = none))) ∧
  (∀ s : State, s.ready → s.prd.pos < s.prd.width.toNat * s.prd.height.toNat →
    exec .prdForesee s = .next (s.setRes ((foresee s.prd).setWidth 64))) ∧
  (predHV3 1 2 1 = 2 ∧ predHV3 1 2 2 = 1 ∧ predHV3 1 2 3 = 3) ∧
  ∀ p : PrdUnit, p.pos < p.width.toNat * p.height.toNat → (p.cfg.extractLsb' 4 2 = 0 ∨ p.cfg.extractLsb' 4 2 = 1) →
    ∀ x y : Nat, x = p.pos % p.width.toNat → y = p.pos / p.width.toNat →
      (p.cfg.extractLsb' 4 2 = 1 ∨ (0 < x ∧ 0 < y) →
        ∃ l t tl : Colour, p.nb (x - 1) y = some l ∧ p.nb x (y - 1) = some t ∧ p.nb (x - 1) (y - 1) = some tl ∧
          (l = tl → predHV p = t) ∧ (l ≠ tl → t = tl → predHV p = l) ∧ (l ≠ tl → t ≠ tl → predHV p = tl)) ∧
      (p.cfg.extractLsb' 4 2 = 0 → 0 < x → y = 0 → p.nb (x - 1) y = some (predHV p)) ∧
      (p.cfg.extractLsb' 4 2 = 0 → x = 0 → 0 < y → p.nb x (y - 1) = some (predHV p)) ∧
      (p.cfg.extractLsb' 4 2 = 0 → x = 0 → y = 0 → predHV p = 0) ∧
      (p.cfg.extractLsb' 4 2 = 1 → x = 0 → y = 0 → predHV p = p.cfg.extractLsb' 6 2)

/-- 44_predictor R192, R200, R205, R208: the cells each key is made of and their colours, the packing, the CRC, the contents of a FIXED
and of a HASH key; and that two lookups use the same key only with the same kind, the same shape and the same neighbourhood. -/
def Obligations.KeysKeepContextsApart : Prop :=
  (∀ (p : PrdUnit) (offs : List (Int × Int)) (vs : List Colour), p.gather offs = some vs ↔
    offs.map (fun o => p.nb (((p.pos % p.width.toNat : Nat) : Int) + o.1) (((p.pos / p.width.toNat : Nat) : Int) + o.2)) =
      vs.map some) ∧
  (∀ c : BitVec 23, ∀ fw fh xp : Nat, fw = (c.extractLsb' 8 4).toNat → fh = (c.extractLsb' 12 4).toNat →
    xp = (c.extractLsb' 16 4).toNat →
    (fixedOffsets c).length = (fh - 1) * fw + min xp fw ∧
    (∀ r j : Nat, r < fh - 1 → j < fw →
      (fixedOffsets c)[r * fw + j]? = some ((j : Int) - xp, (r : Int) - ((fh - 1 : Nat) : Int))) ∧
    (∀ j : Nat, j < min xp fw → (fixedOffsets c)[(fh - 1) * fw + j]? = some ((j : Int) - xp, 0))) ∧
  (∀ (p : PrdUnit) (k : Fin 4), p.shapeLen[k].toNat ≤ 16 → (p.shapeOffsets k).length = p.shapeLen[k].toNat ∧
    ∀ i : Fin 16, i.val < p.shapeLen[k].toNat → (p.shapeOffsets k)[i.val]? =
      some ((p.shapeCell[k][i].extractLsb' 0 8).toInt, (p.shapeCell[k][i].extractLsb' 8 8).toInt)) ∧
  (∀ vs : List Colour, packColours vs = (vs.zipIdx.map fun q => q.1.toNat <<< (2 * q.2)).sum ∧
    (packBytes vs).length = (vs.length + 3) / 4 ∧
    ∀ j : Nat, j < (vs.length + 3) / 4 →
      (packBytes vs)[j]? = some (BitVec.ofNat 8 (packColours ((vs.drop (4 * j)).take 4)))) ∧
  (crc64 [] = 0 ∧ ∀ (bs : List Byte) (b : Byte), crc64 (bs ++ [b]) =
    (fun c : Word64 => if c.getLsbD 63 then (c <<< 1) ^^^ 0x42F0E1EBA9EA3693#64 else c <<< 1)^[8]
      (crc64 bs ^^^ (b.setWidth 64 <<< 56))) ∧
  (∀ p : PrdUnit, (p.gather (fixedOffsets p.cfg) = none → p.fixedKey = none) ∧
    (∀ vs, p.gather (fixedOffsets p.cfg) = some vs → p.fixedKey = some (0xFF#8 ++ BitVec.ofNat 120 (packColours vs))) ∧
    (∀ k : Fin 4, p.gather (p.shapeOffsets k) = none → p.hashKey k = none) ∧
    (∀ (k : Fin 4) (vs : List Colour), p.gather (p.shapeOffsets k) = some vs →
      p.hashKey k = some (BitVec.ofNat 8 k.val ++ 0#56 ++ crc64 (packBytes vs)))) ∧
  (∀ a b : List Byte, a.length = b.length → a.length ≤ 7 → crc64 a = crc64 b → a = b) ∧
  (∀ (p q : PrdUnit) (vs us : List Colour), p.gather (fixedOffsets p.cfg) = some vs → q.gather (fixedOffsets q.cfg) = some us →
    vs.length = us.length → vs.length ≤ 60 → (p.fixedKey = q.fixedKey ↔ vs = us)) ∧
  (∀ (p q : PrdUnit) (k j : Fin 4) (vs us : List Colour), p.gather (p.shapeOffsets k) = some vs →
    q.gather (q.shapeOffsets j) = some us → vs.length ≤ 16 ∧ us.length ≤ 16 ∧
      (vs.length = us.length → (p.hashKey k = q.hashKey j ↔ k = j ∧ vs = us)) ∧ (k ≠ j → p.hashKey k ≠ q.hashKey j)) ∧
  (∀ (p q : PrdUnit) (k : Fin 4) (key key' : CtxKey), p.fixedKey = some key → q.hashKey k = some key' → key ≠ key') ∧
  crc64 [0x31, 0x32, 0x33, 0x34, 0x35, 0x36, 0x37, 0x38, 0x39] = 0x6C40DF5F0B497347 ∧
  crc64 [0x01] = 0x42F0E1EBA9EA3693 ∧ packBytes [1, 2, 3] = [0x39] ∧
  0x02#8 ++ 0#56 ++ crc64 [0x39] = 0x02000000000000007AD1A461044D611C#128

/-- 44_predictor R211: the transform functions. -/
def Obligations.TransformsInvert : Prop :=
  (∀ v p r : Colour, forwardTransform .xor v p = v ^^^ p ∧ inverseTransform .xor r p = r ^^^ p ∧
    ((forwardTransform .sub v p).toNat : Int) = ((v.toNat : Int) - p.toNat) % 4 ∧
    (inverseTransform .sub r p).toNat = (r.toNat + p.toNat) % 4) ∧
  (∀ (m : Mode) (v p : Colour), inverseTransform m (forwardTransform m v p) p = v) ∧
  forwardTransform .xor 1 3 = 2 ∧ forwardTransform .sub 1 3 = 2 ∧ forwardTransform .xor 2 1 = 3 ∧
  forwardTransform .sub 2 1 = 1

/-- 44_predictor R194, R195, R212: two predictors that agree on the inputs of R195 predict the same and learn the same; in particular a
prediction never depends on the cursor's cell or a later one. -/
def Obligations.PredictionIsCausal : Prop :=
  (∀ (p q : PrdUnit) (v : Colour), (∀ (k : Fin 4) (i : Fin 16), cellCausal p.shapeCell[k][i] = true) → PredictAlike p q →
    foresee p = foresee q ∧ (learn v p).ctx = (learn v q).ctx ∧ (learn v p).ctxFull = (learn v q).ctxFull) ∧
  (∀ (p : PrdUnit) (c v : Colour) (i : Nat), (∀ (k : Fin 4) (j : Fin 16), cellCausal p.shapeCell[k][j] = true) →
    p.field.wf → p.pos ≤ i →
    foresee (p.setCell i c) = foresee p ∧ (learn v (p.setCell i c)).ctx = (learn v p).ctx)

/-- 44_predictor R222: the lockstep of a whole pass: PX.DEC with the residuals of PX.ENC, from PRD.INIT on both sides with the same
configuration, rebuilds the encoder's field, with equal context stores. -/
def Obligations.TransformPassInverts : Prop :=
  ∀ (m : Mode) (s u : State), s.ready → u.ready → PrdInv s.prd → s.prd.field.wf → u.prd.field.wf →
    u.prd.width = s.prd.width → u.prd.height = s.prd.height → u.prd.cfg = s.prd.cfg → u.prd.shapeLen = s.prd.shapeLen →
    u.prd.shapeCell = s.prd.shapeCell →
    ∃ (s0 t u0 v : State) (rs : List Word64), exec .prdInit s = .next s0 ∧ exec .prdInit u = .next u0 ∧
      execResults (List.replicate s.prd.cells (.pxEnc m)) s0 = some (rs, t) ∧
      execAll (rs.map fun r => .pxDec m (r.setWidth 2)) u0 = some v ∧ t.ready ∧ v.ready ∧
      (∀ i, t.prd.field.read i = s.prd.field.read i) ∧
      (∀ i, i < s.prd.cells → v.prd.field.read i = s.prd.field.read i) ∧
      v.prd.ctx = t.prd.ctx ∧ v.prd.pos = t.prd.pos ∧ t.prd.pos = s.prd.cells

/-! ### Host procedures -/

/-- 42_freq_table R161: the quantisation laws. -/
def Obligations.QuantisationLaws : Prop :=
  (∀ f : Nat, (f < 31 → quant f = f ∧ adjust f = f) ∧
    (31 ≤ f → quant f = 31 ∧ side f = f / 31 - 1 ∧ adjust f = f / 31 * 31 ∧ 31 ≤ adjust f) ∧
    expand (quant f) (side f) = adjust f ∧ adjust (adjust f) = adjust f ∧ (adjust f = f ↔ f < 31 ∨ 31 ∣ f)) ∧
  (∀ q v : Nat, (q < 31 → expand q v = q) ∧ (q = 31 → expand q v = (v + 1) * 31)) ∧
  adjust 30 = 30 ∧ adjust 31 = 31 ∧ adjust 61 = 31 ∧ adjust 62 = 62 ∧ adjust 100 = 93 ∧ side 100 = 2 ∧
  adjust 1000 = 992 ∧ side 1000 = 31

/-- 42_freq_table R165, with R162, R163, R164: LoadFreqs of what SaveFreqs wrote gives the adjusted frequencies, whatever bytes follow, for
every legal META_PROBS (R166; log 10). -/
def Obligations.FreqTableRoundTrip : Prop :=
  ∀ (probs : Vector Word64 32) (f : List Nat) (suffix : List Byte) (s u : State), s.ready → u.ready → s.ac.freq.wf →
    u.ac.freq.wf → (∀ q : Fin 32, probs[q] ≠ 0) → (probs.toList.map BitVec.toNat).sum ≤ 2 ^ 30 → f.length < 2 ^ 58 →
    ∃ loaded, loadFreqs probs ((saveFreqs probs f s).bytes ++ suffix) f.length u = some loaded ∧
      (saveFreqs probs f s).adjusted = f.map adjust ∧ loaded.freqs = f.map adjust ∧ (f ≠ [] → loaded.rest = suffix)

/-! ### Invariants -/

/-- Ranges of 10_state R30 to R60, 41_arith_coder R136, R140, and the canonical form of the memories (log 12): every step keeps them. -/
def Obligations.StepsKeepTheInvariant : Prop := ∀ s t : State, s.Inv → step s = .next t → t.Inv

/-- The invariant holds after reset. -/
def Obligations.ResetMeetsTheInvariant : Prop := State.reset.Inv

end
end

