-- ==== Sys2Proof/Laws/Memory.lean ====
section
/-! SUPPORT. The laws of the indexed memories and of the context store: read after write, and that every operation keeps the canonical form. -/

namespace Sys2Proof.Machine

/-! ### Indexed memories -/

@[simp] theorem Memory.read_nil {w : Nat} (a : Nat) : Memory.read ([] : Memory w) a = 0 := rfl

theorem Memory.wf_nil {w : Nat} : Memory.wf ([] : Memory w) := by simp [Memory.wf]

theorem Memory.wf_tail {w : Nat} {c : Nat × BitVec w} {m : Memory w} (h : Memory.wf (c :: m)) : Memory.wf m := by
  obtain ⟨hp, hz⟩ := h
  exact ⟨(List.pairwise_cons.mp hp).2, fun d hd => hz d (List.mem_cons_of_mem _ hd)⟩

/-- Every index listed after the head is higher. -/
theorem Memory.wf_head {w : Nat} {c d : Nat × BitVec w} {m : Memory w} (h : Memory.wf (c :: m)) (hd : d ∈ m) : c.1 < d.1 :=
  (List.pairwise_cons.mp h.1).1 d hd

/-- An index no entry has reads as 0. -/
theorem Memory.read_unlisted {w : Nat} {m : Memory w} {a : Nat} (h : ∀ c ∈ m, c.1 ≠ a) : Memory.read m a = 0 := by
  induction m with
  | nil => rfl
  | cons c m ih =>
    have hc := h c List.mem_cons_self
    simp only [Memory.read, if_neg (Ne.symm hc)]
    exact ih fun d hd => h d (List.mem_cons_of_mem _ hd)

/-- What a write lists: the entry written (when it is not 0), or an entry that was there. -/
theorem Memory.mem_write {w : Nat} {m : Memory w} {a : Nat} {v : BitVec w} {c : Nat × BitVec w} (h : c ∈ Memory.write m a v) :
    (c = (a, v) ∧ v ≠ 0) ∨ c ∈ m := by
  induction m with
  | nil =>
    simp only [Memory.write] at h
    split at h <;> simp_all
  | cons d m ih =>
    simp only [Memory.write] at h
    split at h
    · split at h <;> simp_all
    · split at h
      · split at h
        · exact .inr (List.mem_cons_of_mem _ h)
        · rcases List.mem_cons.mp h with h | h
          · exact .inl ⟨h, by assumption⟩
          · exact .inr (List.mem_cons_of_mem _ h)
      · rcases List.mem_cons.mp h with h | h
        · exact .inr (h ▸ List.mem_cons_self)
        · exact (ih h).imp_right (List.mem_cons_of_mem _)

/-- A write keeps the canonical form. -/
theorem Memory.write_wf {w : Nat} {m : Memory w} (h : Memory.wf m) (a : Nat) (v : BitVec w) : Memory.wf (Memory.write m a v) := by
  induction m with
  | nil =>
    simp only [Memory.write]
    split
    · exact Memory.wf_nil
    · rename_i hv; simpa [Memory.wf] using hv
  | cons d m ih =>
    have ht := Memory.wf_tail h
    simp only [Memory.write]
    split
    · rename_i hlt
      split
      · exact h
      · rename_i hv
        refine ⟨List.pairwise_cons.mpr ⟨fun c hc => ?_, h.1⟩, fun c hc => ?_⟩
        · rcases List.mem_cons.mp hc with rfl | hc
          · exact hlt
          · exact hlt.trans (Memory.wf_head h hc)
        · rcases List.mem_cons.mp hc with rfl | hc
          · exact hv
          · exact h.2 c hc
    · rename_i hlt
      split
      · rename_i heq
        split
        · exact ht
        · rename_i hv
          refine ⟨List.pairwise_cons.mpr ⟨fun c hc => by have := Memory.wf_head h hc; simp only; omega, ht.1⟩, fun c hc => ?_⟩
          rcases List.mem_cons.mp hc with rfl | hc
          · exact hv
          · exact ht.2 c hc
      · rename_i hne
        refine ⟨List.pairwise_cons.mpr ⟨fun c hc => ?_, (ih ht).1⟩, fun c hc => ?_⟩
        · rcases Memory.mem_write hc with ⟨rfl, -⟩ | hc
          · simp only; omega
          · exact Memory.wf_head h hc
        · rcases List.mem_cons.mp hc with rfl | hc
          · exact h.2 _ List.mem_cons_self
          · exact (ih ht).2 c hc

/-- Read after write: the index written gives the value, every other index what it gave. -/
theorem Memory.read_write {w : Nat} {m : Memory w} (h : Memory.wf m) (a b : Nat) (v : BitVec w) :
    Memory.read (Memory.write m a v) b = if b = a then v else Memory.read m b := by
  induction m with
  | nil =>
    simp only [Memory.write]
    split <;> by_cases hb : b = a <;> simp_all [Memory.read]
  | cons d m ih =>
    have unlisted : a ≤ d.1 → Memory.read m a = 0 := fun hle =>
      Memory.read_unlisted fun c hc => by have := Memory.wf_head h hc; omega
    have iht := ih (Memory.wf_tail h)
    obtain ⟨x, u⟩ := d
    simp only [Memory.write]
    split
    · rename_i hlt
      have hz := unlisted (Nat.le_of_lt hlt)
      split
      · rename_i hv
        by_cases hb : b = a
        · subst hb; simp [Memory.read, hv, hz, Nat.ne_of_lt hlt]
        · simp [hb]
      · by_cases hb : b = a <;> simp [Memory.read, hb]
    · split
      · rename_i heq
        subst heq
        have hz := unlisted (Nat.le_refl _)
        split
        · rename_i hv
          by_cases hb : b = a
          · subst hb; simp [hz, hv]
          · simp [Memory.read, hb]
        · by_cases hb : b = a <;> simp [Memory.read, hb]
      · rename_i hne
        simp only [Memory.read, iht]
        by_cases hb : b = a
        · subst hb; simp [hne]
        · simp [hb]

/-- What `findAbove` finds: an index below the limit at which the running sum passes the count. -/
theorem Memory.findAbove_some {w : Nat} {m : Memory w} {n count acc a : Nat} (hm : Memory.wf m) (hacc : acc ≤ count)
    (h : Memory.findAbove n count acc m = some a) :
    a < n ∧ acc + Memory.sumBelow a m ≤ count ∧ count < acc + Memory.sumBelow a m + (Memory.read m a).toNat := by
  induction m generalizing acc with
  | nil => simp [Memory.findAbove] at h
  | cons d m ih =>
    obtain ⟨b, u⟩ := d
    have below : ∀ (l : Memory w), (∀ c ∈ l, b < c.1) → Memory.sumBelow b l = 0 := by
      intro l
      induction l with
      | nil => intro _; rfl
      | cons e l ihl =>
        intro hl
        have he := hl e List.mem_cons_self
        simp [Memory.sumBelow, ihl fun c hc => hl c (List.mem_cons_of_mem _ hc), Nat.not_lt.mpr (Nat.le_of_lt he)]
    have hb := below m fun c hc => Memory.wf_head hm hc
    simp only [Memory.findAbove] at h
    split at h
    · simp at h
    · split at h
      · rename_i hn hlt
        simp only [Option.some.injEq] at h
        subst h
        simp [Memory.sumBelow, Memory.read, hb]
        omega
      · rename_i hn hge
        have := ih (Memory.wf_tail hm) (by omega) h
        have hba : b < a := by
          by_contra hab
          have hz : Memory.sumBelow a m = 0 ∧ Memory.read m a = 0 := by
            have hall : ∀ c ∈ m, a < c.1 := fun c hc => by have := Memory.wf_head hm hc; omega
            refine ⟨?_, Memory.read_unlisted fun c hc => by have := hall c hc; omega⟩
            clear this h ih hm hb below
            induction m with
            | nil => rfl
            | cons e l ihl =>
              have he := hall e List.mem_cons_self
              simp [Memory.sumBelow, ihl fun c hc => hall c (List.mem_cons_of_mem _ hc), Nat.not_lt.mpr (Nat.le_of_lt he)]
          rw [hz.1, hz.2] at this
          simp at this
          omega
        simp only [Memory.sumBelow, Memory.read, if_pos hba, if_neg (Nat.ne_of_gt hba)]
        omega

/-! ### The context store -/

theorem CtxStore.wf_nil : CtxStore.wf [] := List.Pairwise.nil

/-- What putting an entry lists: that entry, or one that was there. -/
theorem CtxStore.mem_put {c : CtxStore} {key : CtxKey} {e : CtxEntry} {x : CtxKey × CtxEntry} (h : x ∈ c.put key e) :
    x = (key, e) ∨ x ∈ c := by
  induction c with
  | nil => simpa [CtxStore.put] using h
  | cons d c ih =>
    obtain ⟨k, u⟩ := d
    simp only [CtxStore.put] at h
    split at h
    · simpa using h
    · split at h
      · rcases List.mem_cons.mp h with h | h
        · exact .inl h
        · exact .inr (List.mem_cons_of_mem _ h)
      · rcases List.mem_cons.mp h with h | h
        · exact .inr (h ▸ List.mem_cons_self)
        · exact (ih h).imp_right (List.mem_cons_of_mem _)

/-- Putting an entry keeps the keys strictly rising. -/
theorem CtxStore.put_wf {c : CtxStore} (h : c.wf) (key : CtxKey) (e : CtxEntry) : (c.put key e).wf := by
  induction c with
  | nil => simp [CtxStore.put, CtxStore.wf]
  | cons d c ih =>
    obtain ⟨k, u⟩ := d
    obtain ⟨hk, hc⟩ := List.pairwise_cons.mp h
    simp only [CtxStore.put]
    split
    · rename_i hlt
      refine List.pairwise_cons.mpr ⟨fun x hx => ?_, h⟩
      rcases List.mem_cons.mp hx with rfl | hx
      · exact hlt
      · exact hlt.trans (hk x hx)
    · split
      · rename_i heq
        exact List.pairwise_cons.mpr ⟨fun x hx => heq ▸ hk x hx, hc⟩
      · rename_i hlt hne
        refine List.pairwise_cons.mpr ⟨fun x hx => ?_, ih hc⟩
        rcases CtxStore.mem_put hx with rfl | hx
        · have : key.toNat ≠ k.toNat := fun he => hne (BitVec.eq_of_toNat_eq he)
          simp only; omega
        · exact hk x hx

/-- A lookup after putting an entry: the key put gives the entry, every other key what it gave. -/
theorem CtxStore.find_put {c : CtxStore} (h : c.wf) (key k' : CtxKey) (e : CtxEntry) :
    (c.put key e).find k' = if k' = key then some e else c.find k' := by
  induction c with
  | nil => simp [CtxStore.put, CtxStore.find]
  | cons d c ih =>
    obtain ⟨k, u⟩ := d
    have hc := (List.pairwise_cons.mp h).2
    simp only [CtxStore.put]
    split
    · simp only [CtxStore.find]
    · split
      · rename_i heq
        subst heq
        by_cases hk : k' = key <;> simp [CtxStore.find, hk]
      · rename_i hne
        simp only [CtxStore.find, ih hc]
        by_cases hk : k' = key
        · subst hk; simp [hne]
        · simp [hk]

/-- Putting an entry lists at most one more. -/
theorem CtxStore.length_put_le (c : CtxStore) (key : CtxKey) (e : CtxEntry) : (c.put key e).length ≤ c.length + 1 := by
  induction c with
  | nil => simp [CtxStore.put]
  | cons d c ih =>
    obtain ⟨k, u⟩ := d
    simp only [CtxStore.put]
    split
    · simp
    · split
      · simp
      · simpa using ih

/-- Putting an entry at a key that is present lists no more. -/
theorem CtxStore.length_put_present {c : CtxStore} (h : c.wf) {key : CtxKey} {e u : CtxEntry} (hk : c.find key = some u) :
    (c.put key e).length = c.length := by
  induction c with
  | nil => simp [CtxStore.find] at hk
  | cons d c ih =>
    obtain ⟨k, v⟩ := d
    obtain ⟨hlow, hc⟩ := List.pairwise_cons.mp h
    have absent : ∀ (l : CtxStore), (∀ x ∈ l, key.toNat < x.1.toNat) → l.find key = none := by
      intro l
      induction l with
      | nil => intro _; rfl
      | cons x l ihl =>
        intro hl
        have hx := hl x List.mem_cons_self
        have : key ≠ x.1 := fun he => by rw [he] at hx; omega
        simp [CtxStore.find, this, ihl fun y hy => hl y (List.mem_cons_of_mem _ hy)]
    simp only [CtxStore.put]
    split
    · rename_i hlt
      have : key ≠ k := fun he => by rw [he] at hlt; omega
      simp only [CtxStore.find, if_neg this] at hk
      rw [absent c fun x hx => by have := hlow x hx; simp only at this; omega] at hk
      simp at hk
    · split
      · simp
      · rename_i hne
        simp only [CtxStore.find, if_neg hne] at hk
        simpa using ih hc hk

end Sys2Proof.Machine
end

