-- ==== Sys2Proof/Laws/State.lean ====
section
/-! SUPPORT. What each field of the state is after each named update: one lemma per field per update, all by definition; and the updates that cancel. -/

namespace Sys2Proof.Machine

variable (s : State)

@[simp] theorem State.setArg_arg (v : Word64) : (s.setArg v).arg = v := rfl
@[simp] theorem State.setArg_res (v : Word64) : (s.setArg v).res = s.res := rfl
@[simp] theorem State.setArg_latch (v : Word64) : (s.setArg v).latch = s.latch := rfl
@[simp] theorem State.setArg_ac (v : Word64) : (s.setArg v).ac = s.ac := rfl
@[simp] theorem State.setArg_rle (v : Word64) : (s.setArg v).rle = s.rle := rfl
@[simp] theorem State.setArg_prd (v : Word64) : (s.setArg v).prd = s.prd := rfl
@[simp] theorem State.setArg_inp (v : Word64) : (s.setArg v).inp = s.inp := rfl
@[simp] theorem State.setArg_out (v : Word64) : (s.setArg v).out = s.out := rfl
@[simp] theorem State.setArg_pending (v : Word64) : (s.setArg v).pending = s.pending := rfl
@[simp] theorem State.setArg_reply (v : Word64) : (s.setArg v).reply = s.reply := rfl
@[simp] theorem State.setArg_draws (v : Word64) : (s.setArg v).draws = s.draws := rfl
@[simp] theorem State.setArg_setArg (v w : Word64) : (s.setArg v).setArg w = s.setArg w := rfl
@[simp] theorem State.setArg_same : s.setArg s.arg = s := rfl

@[simp] theorem State.setRes_arg (v : Word64) : (s.setRes v).arg = s.arg := rfl
@[simp] theorem State.setRes_res (v : Word64) : (s.setRes v).res = v := rfl
@[simp] theorem State.setRes_latch (v : Word64) : (s.setRes v).latch = s.latch := rfl
@[simp] theorem State.setRes_ac (v : Word64) : (s.setRes v).ac = s.ac := rfl
@[simp] theorem State.setRes_rle (v : Word64) : (s.setRes v).rle = s.rle := rfl
@[simp] theorem State.setRes_prd (v : Word64) : (s.setRes v).prd = s.prd := rfl
@[simp] theorem State.setRes_inp (v : Word64) : (s.setRes v).inp = s.inp := rfl
@[simp] theorem State.setRes_out (v : Word64) : (s.setRes v).out = s.out := rfl
@[simp] theorem State.setRes_pending (v : Word64) : (s.setRes v).pending = s.pending := rfl
@[simp] theorem State.setRes_reply (v : Word64) : (s.setRes v).reply = s.reply := rfl
@[simp] theorem State.setRes_draws (v : Word64) : (s.setRes v).draws = s.draws := rfl
@[simp] theorem State.setRes_setRes (v w : Word64) : (s.setRes v).setRes w = s.setRes w := rfl
@[simp] theorem State.setRes_same : s.setRes s.res = s := rfl

@[simp] theorem State.setLatch_arg (v : ErrorLatch) : (s.setLatch v).arg = s.arg := rfl
@[simp] theorem State.setLatch_res (v : ErrorLatch) : (s.setLatch v).res = s.res := rfl
@[simp] theorem State.setLatch_latch (v : ErrorLatch) : (s.setLatch v).latch = v := rfl
@[simp] theorem State.setLatch_ac (v : ErrorLatch) : (s.setLatch v).ac = s.ac := rfl
@[simp] theorem State.setLatch_rle (v : ErrorLatch) : (s.setLatch v).rle = s.rle := rfl
@[simp] theorem State.setLatch_prd (v : ErrorLatch) : (s.setLatch v).prd = s.prd := rfl
@[simp] theorem State.setLatch_inp (v : ErrorLatch) : (s.setLatch v).inp = s.inp := rfl
@[simp] theorem State.setLatch_out (v : ErrorLatch) : (s.setLatch v).out = s.out := rfl
@[simp] theorem State.setLatch_pending (v : ErrorLatch) : (s.setLatch v).pending = s.pending := rfl
@[simp] theorem State.setLatch_reply (v : ErrorLatch) : (s.setLatch v).reply = s.reply := rfl
@[simp] theorem State.setLatch_draws (v : ErrorLatch) : (s.setLatch v).draws = s.draws := rfl
@[simp] theorem State.setLatch_setLatch (v w : ErrorLatch) : (s.setLatch v).setLatch w = s.setLatch w := rfl
@[simp] theorem State.setLatch_same : s.setLatch s.latch = s := rfl

@[simp] theorem State.setAc_arg (v : AcUnit) : (s.setAc v).arg = s.arg := rfl
@[simp] theorem State.setAc_res (v : AcUnit) : (s.setAc v).res = s.res := rfl
@[simp] theorem State.setAc_latch (v : AcUnit) : (s.setAc v).latch = s.latch := rfl
@[simp] theorem State.setAc_ac (v : AcUnit) : (s.setAc v).ac = v := rfl
@[simp] theorem State.setAc_rle (v : AcUnit) : (s.setAc v).rle = s.rle := rfl
@[simp] theorem State.setAc_prd (v : AcUnit) : (s.setAc v).prd = s.prd := rfl
@[simp] theorem State.setAc_inp (v : AcUnit) : (s.setAc v).inp = s.inp := rfl
@[simp] theorem State.setAc_out (v : AcUnit) : (s.setAc v).out = s.out := rfl
@[simp] theorem State.setAc_pending (v : AcUnit) : (s.setAc v).pending = s.pending := rfl
@[simp] theorem State.setAc_reply (v : AcUnit) : (s.setAc v).reply = s.reply := rfl
@[simp] theorem State.setAc_draws (v : AcUnit) : (s.setAc v).draws = s.draws := rfl
@[simp] theorem State.setAc_setAc (v w : AcUnit) : (s.setAc v).setAc w = s.setAc w := rfl
@[simp] theorem State.setAc_same : s.setAc s.ac = s := rfl

@[simp] theorem State.setRle_arg (v : RleUnit) : (s.setRle v).arg = s.arg := rfl
@[simp] theorem State.setRle_res (v : RleUnit) : (s.setRle v).res = s.res := rfl
@[simp] theorem State.setRle_latch (v : RleUnit) : (s.setRle v).latch = s.latch := rfl
@[simp] theorem State.setRle_ac (v : RleUnit) : (s.setRle v).ac = s.ac := rfl
@[simp] theorem State.setRle_rle (v : RleUnit) : (s.setRle v).rle = v := rfl
@[simp] theorem State.setRle_prd (v : RleUnit) : (s.setRle v).prd = s.prd := rfl
@[simp] theorem State.setRle_inp (v : RleUnit) : (s.setRle v).inp = s.inp := rfl
@[simp] theorem State.setRle_out (v : RleUnit) : (s.setRle v).out = s.out := rfl
@[simp] theorem State.setRle_pending (v : RleUnit) : (s.setRle v).pending = s.pending := rfl
@[simp] theorem State.setRle_reply (v : RleUnit) : (s.setRle v).reply = s.reply := rfl
@[simp] theorem State.setRle_draws (v : RleUnit) : (s.setRle v).draws = s.draws := rfl
@[simp] theorem State.setRle_setRle (v w : RleUnit) : (s.setRle v).setRle w = s.setRle w := rfl
@[simp] theorem State.setRle_same : s.setRle s.rle = s := rfl

@[simp] theorem State.setPrd_arg (v : PrdUnit) : (s.setPrd v).arg = s.arg := rfl
@[simp] theorem State.setPrd_res (v : PrdUnit) : (s.setPrd v).res = s.res := rfl
@[simp] theorem State.setPrd_latch (v : PrdUnit) : (s.setPrd v).latch = s.latch := rfl
@[simp] theorem State.setPrd_ac (v : PrdUnit) : (s.setPrd v).ac = s.ac := rfl
@[simp] theorem State.setPrd_rle (v : PrdUnit) : (s.setPrd v).rle = s.rle := rfl
@[simp] theorem State.setPrd_prd (v : PrdUnit) : (s.setPrd v).prd = v := rfl
@[simp] theorem State.setPrd_inp (v : PrdUnit) : (s.setPrd v).inp = s.inp := rfl
@[simp] theorem State.setPrd_out (v : PrdUnit) : (s.setPrd v).out = s.out := rfl
@[simp] theorem State.setPrd_pending (v : PrdUnit) : (s.setPrd v).pending = s.pending := rfl
@[simp] theorem State.setPrd_reply (v : PrdUnit) : (s.setPrd v).reply = s.reply := rfl
@[simp] theorem State.setPrd_draws (v : PrdUnit) : (s.setPrd v).draws = s.draws := rfl
@[simp] theorem State.setPrd_setPrd (v w : PrdUnit) : (s.setPrd v).setPrd w = s.setPrd w := rfl
@[simp] theorem State.setPrd_same : s.setPrd s.prd = s := rfl

@[simp] theorem State.setInp_arg (v : List Byte) : (s.setInp v).arg = s.arg := rfl
@[simp] theorem State.setInp_res (v : List Byte) : (s.setInp v).res = s.res := rfl
@[simp] theorem State.setInp_latch (v : List Byte) : (s.setInp v).latch = s.latch := rfl
@[simp] theorem State.setInp_ac (v : List Byte) : (s.setInp v).ac = s.ac := rfl
@[simp] theorem State.setInp_rle (v : List Byte) : (s.setInp v).rle = s.rle := rfl
@[simp] theorem State.setInp_prd (v : List Byte) : (s.setInp v).prd = s.prd := rfl
@[simp] theorem State.setInp_inp (v : List Byte) : (s.setInp v).inp = v := rfl
@[simp] theorem State.setInp_out (v : List Byte) : (s.setInp v).out = s.out := rfl
@[simp] theorem State.setInp_pending (v : List Byte) : (s.setInp v).pending = s.pending := rfl
@[simp] theorem State.setInp_reply (v : List Byte) : (s.setInp v).reply = s.reply := rfl
@[simp] theorem State.setInp_draws (v : List Byte) : (s.setInp v).draws = s.draws := rfl
@[simp] theorem State.setInp_setInp (v w : List Byte) : (s.setInp v).setInp w = s.setInp w := rfl
@[simp] theorem State.setInp_same : s.setInp s.inp = s := rfl

@[simp] theorem State.setOut_arg (v : List Byte) : (s.setOut v).arg = s.arg := rfl
@[simp] theorem State.setOut_res (v : List Byte) : (s.setOut v).res = s.res := rfl
@[simp] theorem State.setOut_latch (v : List Byte) : (s.setOut v).latch = s.latch := rfl
@[simp] theorem State.setOut_ac (v : List Byte) : (s.setOut v).ac = s.ac := rfl
@[simp] theorem State.setOut_rle (v : List Byte) : (s.setOut v).rle = s.rle := rfl
@[simp] theorem State.setOut_prd (v : List Byte) : (s.setOut v).prd = s.prd := rfl
@[simp] theorem State.setOut_inp (v : List Byte) : (s.setOut v).inp = s.inp := rfl
@[simp] theorem State.setOut_out (v : List Byte) : (s.setOut v).out = v := rfl
@[simp] theorem State.setOut_pending (v : List Byte) : (s.setOut v).pending = s.pending := rfl
@[simp] theorem State.setOut_reply (v : List Byte) : (s.setOut v).reply = s.reply := rfl
@[simp] theorem State.setOut_draws (v : List Byte) : (s.setOut v).draws = s.draws := rfl
@[simp] theorem State.setOut_setOut (v w : List Byte) : (s.setOut v).setOut w = s.setOut w := rfl
@[simp] theorem State.setOut_same : s.setOut s.out = s := rfl

@[simp] theorem State.setPending_arg (v : List HostAction) : (s.setPending v).arg = s.arg := rfl
@[simp] theorem State.setPending_res (v : List HostAction) : (s.setPending v).res = s.res := rfl
@[simp] theorem State.setPending_latch (v : List HostAction) : (s.setPending v).latch = s.latch := rfl
@[simp] theorem State.setPending_ac (v : List HostAction) : (s.setPending v).ac = s.ac := rfl
@[simp] theorem State.setPending_rle (v : List HostAction) : (s.setPending v).rle = s.rle := rfl
@[simp] theorem State.setPending_prd (v : List HostAction) : (s.setPending v).prd = s.prd := rfl
@[simp] theorem State.setPending_inp (v : List HostAction) : (s.setPending v).inp = s.inp := rfl
@[simp] theorem State.setPending_out (v : List HostAction) : (s.setPending v).out = s.out := rfl
@[simp] theorem State.setPending_pending (v : List HostAction) : (s.setPending v).pending = v := rfl
@[simp] theorem State.setPending_reply (v : List HostAction) : (s.setPending v).reply = s.reply := rfl
@[simp] theorem State.setPending_draws (v : List HostAction) : (s.setPending v).draws = s.draws := rfl
@[simp] theorem State.setPending_setPending (v w : List HostAction) : (s.setPending v).setPending w = s.setPending w := rfl
@[simp] theorem State.setPending_same : s.setPending s.pending = s := rfl

@[simp] theorem State.setReply_arg (v : HostReply) : (s.setReply v).arg = s.arg := rfl
@[simp] theorem State.setReply_res (v : HostReply) : (s.setReply v).res = s.res := rfl
@[simp] theorem State.setReply_latch (v : HostReply) : (s.setReply v).latch = s.latch := rfl
@[simp] theorem State.setReply_ac (v : HostReply) : (s.setReply v).ac = s.ac := rfl
@[simp] theorem State.setReply_rle (v : HostReply) : (s.setReply v).rle = s.rle := rfl
@[simp] theorem State.setReply_prd (v : HostReply) : (s.setReply v).prd = s.prd := rfl
@[simp] theorem State.setReply_inp (v : HostReply) : (s.setReply v).inp = s.inp := rfl
@[simp] theorem State.setReply_out (v : HostReply) : (s.setReply v).out = s.out := rfl
@[simp] theorem State.setReply_pending (v : HostReply) : (s.setReply v).pending = s.pending := rfl
@[simp] theorem State.setReply_reply (v : HostReply) : (s.setReply v).reply = v := rfl
@[simp] theorem State.setReply_draws (v : HostReply) : (s.setReply v).draws = s.draws := rfl
@[simp] theorem State.setReply_setReply (v w : HostReply) : (s.setReply v).setReply w = s.setReply w := rfl
@[simp] theorem State.setReply_same : s.setReply s.reply = s := rfl

@[simp] theorem State.setDraws_arg (v : Nat) : (s.setDraws v).arg = s.arg := rfl
@[simp] theorem State.setDraws_res (v : Nat) : (s.setDraws v).res = s.res := rfl
@[simp] theorem State.setDraws_latch (v : Nat) : (s.setDraws v).latch = s.latch := rfl
@[simp] theorem State.setDraws_ac (v : Nat) : (s.setDraws v).ac = s.ac := rfl
@[simp] theorem State.setDraws_rle (v : Nat) : (s.setDraws v).rle = s.rle := rfl
@[simp] theorem State.setDraws_prd (v : Nat) : (s.setDraws v).prd = s.prd := rfl
@[simp] theorem State.setDraws_inp (v : Nat) : (s.setDraws v).inp = s.inp := rfl
@[simp] theorem State.setDraws_out (v : Nat) : (s.setDraws v).out = s.out := rfl
@[simp] theorem State.setDraws_pending (v : Nat) : (s.setDraws v).pending = s.pending := rfl
@[simp] theorem State.setDraws_reply (v : Nat) : (s.setDraws v).reply = s.reply := rfl
@[simp] theorem State.setDraws_draws (v : Nat) : (s.setDraws v).draws = v := rfl
@[simp] theorem State.setDraws_setDraws (v w : Nat) : (s.setDraws v).setDraws w = s.setDraws w := rfl
@[simp] theorem State.setDraws_same : s.setDraws s.draws = s := rfl

end Sys2Proof.Machine
end

