-- ==== Sys2Proof/Laws/Ops.lean ====
section
/-! SUPPORT. What each shared operation of Machine/Ops.lean and Machine/Coder.lean can do, said once: running a command, error entry, counting, the coded-bit ports, and the coder's loops. -/

namespace Sys2Proof.Machine

/-! ### Running a command -/

/-- Error entry with the latch clear sets the latch. -/
theorem enterError_ready {s : State} (h : s.latch.err = .none) (e : Raised) (w : Word32) :
    enterError e w s = s.setLatch { err := e.code, info := e.info, cmd := w } := by simp [enterError, h]

/-- Error entry with the latch set does nothing. -/
theorem enterError_latched {s : State} (h : s.latch.err ≠ .none) (e : Raised) (w : Word32) : enterError e w s = s := by
  simp [enterError, h]

theorem latched_iff (s : State) : s.latched = true ↔ s.latch.err ≠ .none := by simp [State.latched]

/-- A command with the latch clear: its effect, or its error entered. -/
theorem runCommand_ready {s : State} (h : s.latch.err = .none) (i : Instr) (body : Except Raised State) :
    runCommand i s body =
      match body with
      | .ok t => .next t
      | .error e => .next (s.setLatch { err := e.code, info := e.info, cmd := encode i }) := by
  have : s.latched = false := by simp [State.latched, h]
  cases body <;> simp [runCommand, this, enterError_ready h]

/-- A command that the latch blocks does nothing. -/
theorem runCommand_blocked {s : State} (h : s.latch.err ≠ .none) {i : Instr} (hi : opcodeRunsLatched i.opcode = false)
    (body : Except Raised State) : runCommand i s body = .next s := by
  simp [runCommand, (latched_iff s).mpr h, hi]

/-- Everything a command can do: nothing under the latch, its effect, or its error entered. -/
theorem runCommand_cases {i : Instr} {s t : State} {body : Except Raised State} (h : runCommand i s body = .next t) :
    (s.latch.err ≠ .none ∧ t = s) ∨ body = .ok t ∨
      (∃ e, body = .error e ∧ s.latch.err = .none ∧ t = s.setLatch { err := e.code, info := e.info, cmd := encode i }) := by
  unfold runCommand at h
  split at h
  · rename_i hb
    simp only [Bool.and_eq_true] at hb
    simp only [Host.Outcome.next.injEq] at h
    exact .inl ⟨(latched_iff s).mp hb.1, h.symm⟩
  · cases body with
    | ok u =>
      simp only [Host.Outcome.next.injEq] at h
      exact .inr (.inl (by rw [h]))
    | error e =>
      simp only [Host.Outcome.next.injEq] at h
      by_cases hs : s.latch.err = .none
      · exact .inr (.inr ⟨e, rfl, hs, by rw [← h, enterError_ready hs]⟩)
      · exact .inl ⟨hs, by rw [← h, enterError_latched hs]⟩

/-! ### The reset of SRST -/

@[simp] theorem resetEngine_inp (s : State) : (resetEngine s).inp = s.inp := rfl
@[simp] theorem resetEngine_out (s : State) : (resetEngine s).out = s.out := rfl
@[simp] theorem resetEngine_arg (s : State) : (resetEngine s).arg = 0 := rfl
@[simp] theorem resetEngine_res (s : State) : (resetEngine s).res = 0 := rfl
@[simp] theorem resetEngine_latch (s : State) : (resetEngine s).latch = ErrorLatch.reset := rfl
@[simp] theorem resetEngine_ac (s : State) : (resetEngine s).ac = AcUnit.reset := rfl
@[simp] theorem resetEngine_rle (s : State) : (resetEngine s).rle = RleUnit.reset := rfl
@[simp] theorem resetEngine_prd (s : State) : (resetEngine s).prd = PrdUnit.reset := rfl
@[simp] theorem resetEngine_pending (s : State) : (resetEngine s).pending = s.pending := rfl
@[simp] theorem resetEngine_reply (s : State) : (resetEngine s).reply = s.reply := rfl
@[simp] theorem resetEngine_draws (s : State) : (resetEngine s).draws = s.draws := rfl

/-! ### Counting -/

/-- Below the top, counting up adds 1 and draws nothing. -/
theorem countUp_below {v : Word64} (h : v ≠ BitVec.allOnes 64) (d : Nat) : countUp v d = (v + 1, d) := by
  unfold countUp
  rw [if_neg h]

/-! ### What a step of the coder leaves alone -/

/-- What every operation of the coder leaves unchanged, and how it moves the ports: IN loses bytes from its front, OUT gains bytes at its
end. -/
structure CoderStep (s t : State) : Prop where
  arg : t.arg = s.arg
  res : t.res = s.res
  latch : t.latch = s.latch
  rle : t.rle = s.rle
  prd : t.prd = s.prd
  pending : t.pending = s.pending
  reply : t.reply = s.reply
  nsym : t.ac.nsym = s.ac.nsym
  term : t.ac.term = s.ac.term
  sections : t.ac.sections = s.ac.sections
  freq : t.ac.freq = s.ac.freq
  inp : ∃ taken, s.inp = taken ++ t.inp
  out : ∃ new, t.out = s.out ++ new

theorem CoderStep.refl (s : State) : CoderStep s s where
  arg := rfl
  res := rfl
  latch := rfl
  rle := rfl
  prd := rfl
  pending := rfl
  reply := rfl
  nsym := rfl
  term := rfl
  sections := rfl
  freq := rfl
  inp := ⟨[], rfl⟩
  out := ⟨[], by simp⟩

theorem CoderStep.trans {s t u : State} (h : CoderStep s t) (k : CoderStep t u) : CoderStep s u where
  arg := k.arg.trans h.arg
  res := k.res.trans h.res
  latch := k.latch.trans h.latch
  rle := k.rle.trans h.rle
  prd := k.prd.trans h.prd
  pending := k.pending.trans h.pending
  reply := k.reply.trans h.reply
  nsym := k.nsym.trans h.nsym
  term := k.term.trans h.term
  sections := k.sections.trans h.sections
  freq := k.freq.trans h.freq
  inp := by
    obtain ⟨a, ha⟩ := h.inp
    obtain ⟨b, hb⟩ := k.inp
    exact ⟨a ++ b, by rw [ha, hb, List.append_assoc]⟩
  out := by
    obtain ⟨a, ha⟩ := h.out
    obtain ⟨b, hb⟩ := k.out
    exact ⟨a ++ b, by rw [hb, ha, List.append_assoc]⟩

/-- A change of the unit that keeps its configuration and its table is a coder step. -/
theorem CoderStep.setAc (s : State) (a : AcUnit) (hn : a.nsym = s.ac.nsym) (ht : a.term = s.ac.term)
    (hs : a.sections = s.ac.sections) (hf : a.freq = s.ac.freq) : CoderStep s (s.setAc a) where
  arg := rfl
  res := rfl
  latch := rfl
  rle := rfl
  prd := rfl
  pending := rfl
  reply := rfl
  nsym := hn
  term := ht
  sections := hs
  freq := hf
  inp := ⟨[], rfl⟩
  out := ⟨[], by simp⟩

theorem CoderStep.setDraws (s : State) (n : Nat) : CoderStep s (s.setDraws n) := { CoderStep.refl s with }

theorem CoderStep.setInp {s : State} {b : Byte} {rest : List Byte} (h : s.inp = b :: rest) : CoderStep s (s.setInp rest) :=
  { CoderStep.refl s with inp := ⟨[b], by simp [h]⟩ }

theorem CoderStep.setOut (s : State) (bs : List Byte) : CoderStep s (s.setOut (s.out ++ bs)) :=
  { CoderStep.refl s with out := ⟨bs, rfl⟩ }

/-! ### Coded bits out -/

theorem outBit_step (b : Bool) (s : State) : CoderStep s (outBit b s) := by
  unfold outBit
  simp only
  split
  · exact (CoderStep.setAc s { s.ac with bitBuf := 0, bitCnt := 0 } rfl rfl rfl rfl).trans (CoderStep.setOut _ _)
  · exact CoderStep.setAc s _ rfl rfl rfl rfl

theorem outBits_step (b : Bool) (n : Nat) (s : State) : CoderStep s (outBits b n s) := by
  induction n generalizing s with
  | zero => exact CoderStep.refl s
  | succ n ih => exact (outBit_step b s).trans (ih _)

theorem padOut_step (s : State) : CoderStep s (padOut s) := by
  unfold padOut
  refine CoderStep.trans (CoderStep.setAc s { s.ac with bitBuf := 0, bitCnt := 0 } rfl rfl rfl rfl) ?_
  split
  · have := CoderStep.setOut (s.setAc { s.ac with bitBuf := 0, bitCnt := 0 }) []
    simpa using this
  · exact CoderStep.setOut _ _

/-- An output bit does not touch the bounds, the direction or the input side. -/
theorem outBit_bounds (b : Bool) (s : State) :
    (outBit b s).ac.low = s.ac.low ∧ (outBit b s).ac.high = s.ac.high ∧ (outBit b s).ac.dir = s.ac.dir ∧
      (outBit b s).ac.uf = s.ac.uf ∧ (outBit b s).ac.code = s.ac.code ∧ (outBit b s).ac.sectDone = s.ac.sectDone ∧
      (outBit b s).ac.inBuf = s.ac.inBuf ∧ (outBit b s).ac.inCnt = s.ac.inCnt ∧ (outBit b s).ac.inPos = s.ac.inPos ∧
      (outBit b s).ac.pastEnd = s.ac.pastEnd ∧ (outBit b s).inp = s.inp ∧ (outBit b s).draws = s.draws := by
  unfold outBit
  simp only
  split <;> simp

/-- The BITCNT of an output bit stays below 8. -/
theorem outBit_bitCnt (b : Bool) {s : State} (h : s.ac.bitCnt ≤ 7) : (outBit b s).ac.bitCnt ≤ 7 := by
  unfold outBit
  simp only
  split
  · simp
  · simp only [State.setAc_ac]; omega

theorem outBits_bitCnt (b : Bool) (n : Nat) {s : State} (h : s.ac.bitCnt ≤ 7) : (outBits b n s).ac.bitCnt ≤ 7 := by
  induction n generalizing s with
  | zero => exact h
  | succ n ih => exact ih (outBit_bitCnt b h)

/-! ### Coded bits in -/

/-- Everything `inBit` can do: take the next bit of INBUF, take a byte of IN, supply a zero past the end, or raise PAST_END. -/
theorem inBit_cases (s : State) :
    (s.ac.inCnt ≠ 0 ∧ inBit s = .ok (s.ac.inBuf.getLsbD (s.ac.inCnt - 1), s.setAc { s.ac with inCnt := s.ac.inCnt - 1 })) ∨
    (s.ac.inCnt = 0 ∧ ∃ b rest, s.inp = b :: rest ∧ inBit s = .ok (b.getLsbD 7,
        ((s.setAc { s.ac with inBuf := b, inCnt := 7, inPos := (countUp s.ac.inPos s.draws).1 }).setInp rest).setDraws
          (countUp s.ac.inPos s.draws).2)) ∨
    (s.ac.inCnt = 0 ∧ s.inp = [] ∧ s.ac.pastEnd ≠ Config.pastEndLimit ∧
      inBit s = .ok (false, s.setAc { s.ac with pastEnd := s.ac.pastEnd + 1 })) ∨
    (s.ac.inCnt = 0 ∧ s.inp = [] ∧ s.ac.pastEnd = Config.pastEndLimit ∧
      inBit s = .error (.malformed subcausePastEnd s.ac.pastEnd)) := by
  by_cases hc : s.ac.inCnt = 0
  · cases hi : s.inp with
    | cons b rest => exact .inr (.inl ⟨hc, b, rest, rfl, by simp [inBit, hc, hi]⟩)
    | nil =>
      by_cases hp : s.ac.pastEnd = Config.pastEndLimit
      · exact .inr (.inr (.inr ⟨hc, rfl, hp, by simp [inBit, hc, hi, hp]⟩))
      · exact .inr (.inr (.inl ⟨hc, rfl, hp, by simp [inBit, hc, hi, hp]⟩))
  · exact .inl ⟨hc, by simp [inBit, hc]⟩

/-- A bit taken is a coder step that leaves the bounds, the direction, CODE, UF and the output side. -/
theorem inBit_step {s t : State} {b : Bool} (h : inBit s = .ok (b, t)) :
    CoderStep s t ∧ t.ac.low = s.ac.low ∧ t.ac.high = s.ac.high ∧ t.ac.dir = s.ac.dir ∧ t.ac.code = s.ac.code ∧
      t.ac.uf = s.ac.uf ∧ t.ac.sectDone = s.ac.sectDone ∧ t.ac.bitBuf = s.ac.bitBuf ∧ t.ac.bitCnt = s.ac.bitCnt ∧
      t.out = s.out := by
  rcases inBit_cases s with ⟨-, hk⟩ | ⟨-, c, rest, hi, hk⟩ | ⟨-, -, -, hk⟩ | ⟨-, -, -, hk⟩ <;> rw [hk] at h
  · cases h
    exact ⟨CoderStep.setAc s _ rfl rfl rfl rfl, by simp⟩
  · cases h
    refine ⟨?_, by simp⟩
    refine CoderStep.trans (CoderStep.setAc s { s.ac with inBuf := c, inCnt := 7, inPos := (countUp s.ac.inPos s.draws).1 } rfl rfl rfl rfl) ?_
    exact (CoderStep.setInp (b := c) (by simpa using hi)).trans (CoderStep.setDraws _ _)
  · cases h
    exact ⟨CoderStep.setAc s _ rfl rfl rfl rfl, by simp⟩
  · cases h

/-! ### The coder's loops -/

theorem emitWithPending_step (b : Bool) (s : State) : CoderStep s (emitWithPending b s) := by
  unfold emitWithPending
  exact ((outBit_step b s).trans (outBits_step _ _ _)).trans (CoderStep.setAc _ _ rfl rfl rfl rfl)

theorem countUnderflow_eq (s : State) :
    countUnderflow s = (s.setAc { s.ac with uf := (countUp s.ac.uf s.draws).1 }).setDraws (countUp s.ac.uf s.draws).2 := rfl

theorem countUnderflow_step (s : State) : CoderStep s (countUnderflow s) := by
  rw [countUnderflow_eq]
  exact (CoderStep.setAc s { s.ac with uf := (countUp s.ac.uf s.draws).1 } rfl rfl rfl rfl).trans (CoderStep.setDraws _ _)

theorem encRenorm_step (n : Nat) (s : State) : CoderStep s (encRenorm n s) := by
  induction n generalizing s with
  | zero => exact CoderStep.refl s
  | succ n ih =>
    unfold encRenorm
    split
    · exact ((emitWithPending_step (s.ac.high.getLsbD 31) s).trans
        (CoderStep.setAc _ (topShift (emitWithPending (s.ac.high.getLsbD 31) s).ac) rfl rfl rfl rfl)).trans
        (ih ((emitWithPending (s.ac.high.getLsbD 31) s).setAc (topShift (emitWithPending (s.ac.high.getLsbD 31) s).ac)))
    · split
      · exact ((countUnderflow_step s).trans
          (CoderStep.setAc _ (underflowShift (countUnderflow s).ac) rfl rfl rfl rfl)).trans
          (ih ((countUnderflow s).setAc (underflowShift (countUnderflow s).ac)))
      · exact CoderStep.refl s

theorem shiftInCode_step {c : Word32} {s t : State} (h : shiftInCode c s = .ok t) : CoderStep s t := by
  unfold shiftInCode at h
  split at h
  · cases h
  · rename_i b u hu
    cases h
    exact (inBit_step hu).1.trans (CoderStep.setAc _ _ rfl rfl rfl rfl)

theorem decRenorm_step {n : Nat} {s t : State} (h : decRenorm n s = .ok t) : CoderStep s t := by
  induction n generalizing s with
  | zero => cases h; exact CoderStep.refl _
  | succ n ih =>
    unfold decRenorm at h
    split at h
    · split at h
      · cases h
      · rename_i u hu
        exact ((CoderStep.setAc s (topShift s.ac) rfl rfl rfl rfl).trans (shiftInCode_step hu)).trans (ih h)
    · split at h
      · split at h
        · cases h
        · rename_i u hu
          exact ((CoderStep.setAc s (underflowShift s.ac) rfl rfl rfl rfl).trans (shiftInCode_step hu)).trans (ih h)
      · cases h; exact CoderStep.refl _

theorem shiftInBits_step {n : Nat} {s t : State} (h : shiftInBits n s = .ok t) : CoderStep s t := by
  induction n generalizing s with
  | zero => cases h; exact CoderStep.refl _
  | succ n ih =>
    unfold shiftInBits at h
    split at h
    · cases h
    · rename_i u hu
      exact (shiftInCode_step hu).trans (ih h)

theorem prime_step {s t : State} (h : prime s = .ok t) : CoderStep s t := by
  unfold prime at h
  split at h
  · cases h
  · rename_i u hu
    cases h
    exact ((CoderStep.setAc s { s.ac with code := 0 } rfl rfl rfl rfl).trans (shiftInBits_step hu)).trans (CoderStep.setAc _ _ rfl rfl rfl rfl)

theorem lookupSymbol_step (s : State) : CoderStep s (lookupSymbol s).2 := by
  unfold lookupSymbol
  split
  · exact CoderStep.refl s
  · exact CoderStep.setDraws _ _

/-- A section is counted exactly at TERM. -/
theorem countSection_eq (sym : Sym) (s : State) :
    countSection sym s = if sym = s.ac.term then
      (s.setAc { s.ac with sectDone := (countUp s.ac.sectDone s.draws).1 }).setDraws (countUp s.ac.sectDone s.draws).2 else s := rfl

theorem countSection_step (sym : Sym) (s : State) : CoderStep s (countSection sym s) := by
  rw [countSection_eq]
  split
  · exact (CoderStep.setAc s { s.ac with sectDone := (countUp s.ac.sectDone s.draws).1 } rfl rfl rfl rfl).trans
      (CoderStep.setDraws _ _)
  · exact CoderStep.refl s

/-- AC.ENC's effect is a coder step. -/
theorem encodeSymbol_step {sym : Sym} {s t : State} (h : encodeSymbol sym s = .ok t) : CoderStep s t := by
  unfold encodeSymbol at h
  split at h
  · cases h
  · split at h
    · cases h
    · split at h
      · cases h
      · split at h
        · cases h
        · cases h
          exact ((CoderStep.setAc s (intervalUpdate sym { s.ac with dir := .write }) rfl rfl rfl rfl).trans (encRenorm_step _ _)).trans
            (countSection_step _ _)

/-- AC.FLUSH's effect is a coder step. -/
theorem flushCoder_step {s t : State} (h : flushCoder s = .ok t) : CoderStep s t := by
  unfold flushCoder at h
  split at h
  · cases h
  · cases h
    exact ((((CoderStep.setAc s { s.ac with dir := .write } rfl rfl rfl rfl).trans (outBit_step _ _)).trans (outBits_step _ _ _)).trans
      (padOut_step _)).trans (CoderStep.setAc _ _ rfl rfl rfl rfl)

/-- The part of AC.DEC after priming: a coder step, then the result in RES. -/
theorem decodePrimed_step {s t : State} (h : decodePrimed s = .ok t) : CoderStep (s.setRes t.res) t := by
  unfold decodePrimed at h
  simp only at h
  split at h
  · cases h
  · rename_i u hu
    cases h
    have h1 := ((lookupSymbol_step s).trans (CoderStep.setAc _ (intervalUpdate _ _) rfl rfl rfl rfl)).trans (decRenorm_step hu)
    have h2 := countSection_step (lookupSymbol s).1 (u.setRes ((lookupSymbol s).1.setWidth 64))
    have h3 : CoderStep (s.setRes ((lookupSymbol s).1.setWidth 64)) (u.setRes ((lookupSymbol s).1.setWidth 64)) :=
      { h1 with res := rfl }
    rw [h2.res]
    exact h3.trans h2

/-- AC.DEC's effect: a coder step, then the result in RES. -/
theorem decodeSymbol_step {s t : State} (h : decodeSymbol s = .ok t) : CoderStep (s.setRes t.res) t := by
  unfold decodeSymbol at h
  split at h
  · cases h
  · split at h
    · cases h
    · split at h
      · cases h
      · split at h
        · split at h
          · cases h
          · rename_i u hu
            have h1 := prime_step hu
            have h2 := decodePrimed_step h
            have h3 : CoderStep (s.setRes t.res) (u.setRes t.res) := { h1 with res := rfl }
            exact h3.trans h2
        · exact decodePrimed_step h

end Sys2Proof.Machine
end

