-- ==== Sys2Proof/Laws/Bits.lean ====
section
/-! SUPPORT. How many bits renormalisation takes (Safety.lean): the bound, and that only LOW and HIGH matter. -/

namespace Sys2Proof.Machine

/-- Renormalisation takes no more turns than it is given. -/
theorem renormShifts_le (fuel : Nat) (a : AcUnit) : renormShifts fuel a ≤ fuel := by
  induction fuel generalizing a with
  | zero => simp [renormShifts]
  | succ n ih =>
    have h1 := ih (topShift a)
    have h2 := ih (underflowShift a)
    unfold renormShifts
    split
    · omega
    · split <;> omega

/-- The turns depend on LOW and HIGH alone. -/
theorem renormShifts_congr (fuel : Nat) {a b : AcUnit} (hl : a.low = b.low) (hh : a.high = b.high) :
    renormShifts fuel a = renormShifts fuel b := by
  induction fuel generalizing a b with
  | zero => rfl
  | succ n ih =>
    have h1 : renormShifts n (topShift a) = renormShifts n (topShift b) := ih (by simp [topShift, hl]) (by simp [topShift, hh])
    have h2 : renormShifts n (underflowShift a) = renormShifts n (underflowShift b) :=
      ih (by simp [underflowShift, hl]) (by simp [underflowShift, hh])
    have h3 : topBitsAgree a = topBitsAgree b := by simp only [topBitsAgree, hl, hh]
    have h4 : inUnderflow a = inUnderflow b := by simp only [inUnderflow, hl, hh]
    simp only [renormShifts, h1, h2, h3, h4]

end Sys2Proof.Machine
end

