-- ==== Sys2Proof/Laws/Units.lean ====
section
/-! SUPPORT. What the shared operations of the run-length and predictor units and of the control registers can do, said once. -/

namespace Sys2Proof.Machine

/-! ### Run length -/

/-- Everything `emitRun` can do: queue the run's word, or raise RLEQ_OVERFLOW. -/
theorem emitRun_cases (s : State) :
    (s.rle.queue.length + (runCode s.rle.m.toNat s.rle.run).length ≤ Config.rleqDepth ∧
      emitRun s = .ok (s.setRle { s.rle with
        queue := s.rle.queue ++ (runCode s.rle.m.toNat s.rle.run).map (BitVec.ofNat 16), run := 0 })) ∨
    (Config.rleqDepth < s.rle.queue.length + (runCode s.rle.m.toNat s.rle.run).length ∧
      emitRun s = .error (.rleqOverflow (runCode s.rle.m.toNat s.rle.run).length)) := by
  by_cases h : s.rle.queue.length + (runCode s.rle.m.toNat s.rle.run).length > Config.rleqDepth
  · exact .inr ⟨h, by simp only [emitRun, if_pos h]⟩
  · exact .inl ⟨by omega, by simp only [emitRun, if_neg h]⟩

/-- The token read back: VALID is 1. -/
theorem runToken_valid (sep : Bool) (len : Nat) : (runToken sep len).getLsbD 63 = true := by
  have h := BitVec.getLsbD_append (x := 1#1 ++ BitVec.ofBool sep) (y := BitVec.ofNat 62 len) (i := 63)
  unfold runToken
  rw [h]
  cases sep <;> rfl

/-! ### The predictor -/

/-- What an observation leaves unchanged: all but the context store and CTXFULL (44_predictor R195). -/
theorem observe_frame (p : PrdUnit) (k : CtxKey) (v : Colour) :
    p.observe k v = { p with ctx := (p.observe k v).ctx, ctxFull := (p.observe k v).ctxFull } := by
  unfold PrdUnit.observe
  split
  · rfl
  · split <;> rfl

theorem observeKey_frame (p : PrdUnit) (key : Option CtxKey) (v : Colour) :
    p.observeKey key v = { p with ctx := (p.observeKey key v).ctx, ctxFull := (p.observeKey key v).ctxFull } := by
  cases key with
  | none => rfl
  | some k => exact observe_frame p k v

theorem learnHash_frame (v : Colour) (p : PrdUnit) :
    learnHash v p = { p with ctx := (learnHash v p).ctx, ctxFull := (learnHash v p).ctxFull } := by
  unfold learnHash
  induction p.shapesInUse generalizing p with
  | nil => rfl
  | cons k ks ih =>
    simp only [List.foldl_cons]
    rw [ih (p.observeKey (p.hashKey k) v), observeKey_frame p (p.hashKey k) v]

/-- What Learn leaves unchanged: all but the context store and CTXFULL (44_predictor R195, R210). -/
theorem learn_frame (v : Colour) (p : PrdUnit) : learn v p = { p with ctx := (learn v p).ctx, ctxFull := (learn v p).ctxFull } := by
  unfold learn
  split
  · rfl
  · rfl
  · exact observeKey_frame p _ v
  · exact learnHash_frame v p

@[simp] theorem learn_field (v : Colour) (p : PrdUnit) : (learn v p).field = p.field := by rw [learn_frame]
@[simp] theorem learn_pos (v : Colour) (p : PrdUnit) : (learn v p).pos = p.pos := by rw [learn_frame]
@[simp] theorem learn_width (v : Colour) (p : PrdUnit) : (learn v p).width = p.width := by rw [learn_frame]
@[simp] theorem learn_height (v : Colour) (p : PrdUnit) : (learn v p).height = p.height := by rw [learn_frame]
@[simp] theorem learn_cfg (v : Colour) (p : PrdUnit) : (learn v p).cfg = p.cfg := by rw [learn_frame]
@[simp] theorem learn_shapeLen (v : Colour) (p : PrdUnit) : (learn v p).shapeLen = p.shapeLen := by rw [learn_frame]
@[simp] theorem learn_shapeCell (v : Colour) (p : PrdUnit) : (learn v p).shapeCell = p.shapeCell := by rw [learn_frame]

/-- An observation of a present key updates its entry; of an absent key, adds one, or sets CTXFULL when the store is full
(44_predictor R209). -/
theorem observe_cases (p : PrdUnit) (k : CtxKey) (v : Colour) :
    (∃ e, p.ctx.find k = some e ∧ p.observe k v = { p with ctx := p.ctx.put k (e.update v) }) ∨
    (p.ctx.find k = none ∧ p.ctx.length = Config.ctxCap ∧ p.observe k v = { p with ctxFull := true }) ∨
    (p.ctx.find k = none ∧ p.ctx.length ≠ Config.ctxCap ∧
      p.observe k v = { p with ctx := p.ctx.put k (CtxEntry.fresh.update v) }) := by
  unfold PrdUnit.observe
  cases h : p.ctx.find k with
  | some e => exact .inl ⟨e, rfl, rfl⟩
  | none =>
    by_cases hc : p.ctx.length = Config.ctxCap
    · exact .inr (.inl ⟨rfl, hc, by simp [hc]⟩)
    · exact .inr (.inr ⟨rfl, hc, by simp [hc]⟩)

/-- An observation keeps the context store canonical. -/
theorem observe_wf {p : PrdUnit} (h : p.ctx.wf) (k : CtxKey) (v : Colour) : (p.observe k v).ctx.wf := by
  rcases observe_cases p k v with ⟨e, -, ho⟩ | ⟨-, -, ho⟩ | ⟨-, -, ho⟩ <;> rw [ho]
  · exact CtxStore.put_wf h _ _
  · exact h
  · exact CtxStore.put_wf h _ _

/-- An observation keeps the context store within its capacity. -/
theorem observe_bounded {p : PrdUnit} (h : p.ctx.wf) (hb : p.ctx.length ≤ Config.ctxCap) (k : CtxKey) (v : Colour) :
    (p.observe k v).ctx.length ≤ Config.ctxCap := by
  rcases observe_cases p k v with ⟨e, he, ho⟩ | ⟨-, -, ho⟩ | ⟨-, hc, ho⟩ <;> rw [ho]
  · simpa [CtxStore.length_put_present h he] using hb
  · exact hb
  · have := CtxStore.length_put_le p.ctx k (CtxEntry.fresh.update v)
    simp only; omega

/-- The cursor check: CURSOR_END at the end of the field, the effect otherwise. -/
theorem atCursor_cases (s t : State) :
    (s.prd.pos < s.prd.cells ∧ atCursor s t = .ok t) ∨ (s.prd.cells ≤ s.prd.pos ∧ atCursor s t = .error (.cursorEnd s.prd.pos)) := by
  by_cases h : s.prd.cells ≤ s.prd.pos
  · exact .inr ⟨h, by simp [atCursor, h]⟩
  · exact .inl ⟨by omega, by simp [atCursor, h]⟩

/-! ### Control registers -/

/-- A write of a control register leaves ARG, RES, the latch, the ports and the model's own fields. -/
theorem csrWrite_frame (c : Csr) (v : Word64) (s : State) :
    csrWrite c v s = (((s.setAc (csrWrite c v s).ac).setRle (csrWrite c v s).rle).setPrd (csrWrite c v s).prd) := by
  cases c <;> rfl

end Sys2Proof.Machine
end

