-- ==== Sys2Proof/Machine/Assembly.lean ====
section
/-! DEFINITION. The assembler's notation (30_encoding R97) for commands and host actions, with the register names of 10_state R62; and the byte lanes of a host bus (20_memory R75). Nothing the engine does depends on either. -/

namespace Sys2Proof.Machine

/-- The name of a control register (10_state R62; SHAPE_LEN[k] and SHAPE_CELL[k][i] as 30_encoding R97 writes them). -/
def csrName (c : Csr) : String :=
  match c with
  | .id => "ID"
  | .status => "STATUS"
  | .errInfo => "ERRINFO"
  | .errCmd => "ERRCMD"
  | .acNsym => "AC_NSYM"
  | .acTerm => "AC_TERM"
  | .acSections => "AC_SECTIONS"
  | .acSectDone => "AC_SECTDONE"
  | .acLow => "AC_LOW"
  | .acHigh => "AC_HIGH"
  | .acUf => "AC_UF"
  | .acCode => "AC_CODE"
  | .acTotal => "AC_TOTAL"
  | .acBits => "AC_BITS"
  | .acInPos => "AC_INPOS"
  | .acPastEnd => "AC_PASTEND"
  | .rleM => "RLE_M"
  | .rleRun => "RLE_RUN"
  | .rleQlen => "RLE_QLEN"
  | .rlePstate => "RLE_PSTATE"
  | .rleDepth => "RLE_DEPTH"
  | .rleVacc => "RLE_VACC"
  | .fldDim => "FLD_DIM"
  | .prdCfg => "PRD_CFG"
  | .prdPos => "PRD_POS"
  | .ctxCount => "CTX_COUNT"
  | .shapeLen k => "SHAPE_LEN[" ++ Nat.repr k.val ++ "]"
  | .shapeCell k i => "SHAPE_CELL[" ++ Nat.repr k.val ++ "][" ++ Nat.repr i.val ++ "]"

/-- A CSR operand: its name, or the number where it has none (30_encoding R97). -/
def csrOperandText (n : BitVec 8) : String :=
  match Csr.ofNumber n with
  | some c => csrName c
  | none => Nat.repr n.toNat

/-- `xor` or `sub` (30_encoding R97). -/
def modeText (m : Mode) : String :=
  match m with
  | .xor => "xor"
  | .sub => "sub"

/-- The operands of a command as text, in order (30_encoding R97). -/
def operandTexts (i : Instr) : List String :=
  match i with
  | .csrr n | .csrw n => [csrOperandText n]
  | .acEnc s | .freqWr s | .freqRd s | .cumRd s | .rleDsym s => [Nat.repr s.toNat]
  | .rleEbit b => [Nat.repr b.toNat]
  | .fldWr v | .prdLearn v => [Nat.repr v.toNat]
  | .pxEnc m => [modeText m]
  | .pxDec m v => [modeText m, Nat.repr v.toNat]
  | .nop | .srst | .acInit | .acDec | .acFlush | .freqClr | .rleInit | .rleEend | .rlePop | .rleDend | .prdInit | .fldRd
  | .prdForesee => []

/-- A command as one line: `MNEMONIC [operand[, operand]]` (30_encoding R97). -/
def commandText (i : Instr) : String :=
  match operandTexts i with
  | [] => i.mnemonic
  | ops => i.mnemonic ++ " " ++ String.intercalate ", " ops

/-- A host action as one line (30_encoding R97), where R97 writes one: a write to CMD is the command of its word. -/
def hostActionText (a : HostAction) : Option String :=
  match a with
  | .windowWrite 0x00 8 v =>
    match decode (v.setWidth 32) with
    | .ok i => some (commandText i)
    | .error _ => none
  | .windowWrite 0x08 8 v => some ("ARG " ++ Nat.repr v.toNat)
  | .windowRead 0x10 8 => some "READ RES"
  | .windowRead 0x18 8 => some "READ STATUS"
  | .attachIn bs => some ("ATTACH [" ++ String.intercalate ", " (bs.map fun b => Nat.repr b.toNat) ++ "]")
  | .takeOut => some "TAKE"
  | .windowWrite _ _ _ | .windowRead _ _ | .systemReset => none

/-! ### Byte lanes of a host bus (20_memory R75) -/

/-- The bytes of a 64-bit value on a bus: the byte at offset + j carries bits [8j+7 : 8j] (20_memory R75). -/
def busBytes (v : Word64) : List Byte := (List.range 8).map fun j => v.extractLsb' (8 * j) 8

/-- The value whose bytes stand at rising offsets (20_memory R75). -/
def busValue : List Byte → Word64
  | [] => 0
  | b :: bs => (busValue bs <<< 8) ||| b.setWidth 64

end Sys2Proof.Machine
end

