-- ==== Sys2Proof/Laws/Host.lean ====
section
/-! SUPPORT. What the host side can do, said once: a command word, a host action, a step. -/

namespace Sys2Proof.Machine

/-- A command word runs the command it selects, or is illegal. -/
theorem writeCommand_cases (w : Word32) (s : State) :
    (∃ i, decode w = .ok i ∧ writeCommand w s = exec i s) ∨
      (∃ e, decode w = .error e ∧ writeCommand w s = .next (runIllegal w s)) := by
  unfold writeCommand
  cases decode w with
  | ok i => exact .inl ⟨i, rfl, rfl⟩
  | error e => exact .inr ⟨e, rfl, rfl⟩

/-- An illegal word changes at most the latch. -/
theorem runIllegal_cases (w : Word32) (s : State) :
    (s.latch.err ≠ .none ∧ runIllegal w s = s) ∨
      (s.latch.err = .none ∧
        runIllegal w s = s.setLatch { err := .illegalCommand, info := w.setWidth 64, cmd := w }) := by
  by_cases h : s.latch.err = .none
  · exact .inr ⟨h, by simp [runIllegal, State.latched, h, enterError, Raised.illegalCommand]⟩
  · refine .inl ⟨h, ?_⟩
    unfold runIllegal
    split
    · rfl
    · exact enterError_latched h _ _

/-- Everything a write to the window can do. -/
theorem windowWrite_cases (o b : Nat) (v : Word64) (s : State) :
    (b = 8 ∧ o = 0x00 ∧ windowWrite o b v s = writeCommand (v.setWidth 32) s) ∨
      (b = 8 ∧ o = 0x08 ∧ windowWrite o b v s = .next (s.setArg v)) ∨
      (¬(b = 8 ∧ (o = 0x00 ∨ o = 0x08)) ∧ windowWrite o b v s = .refused .windowAccess) := by
  unfold windowWrite
  split
  · rename_i h; exact .inl ⟨h.1, h.2, rfl⟩
  · split
    · rename_i h; exact .inr (.inl ⟨h.1, h.2, rfl⟩)
    · rename_i h k; exact .inr (.inr ⟨by tauto, rfl⟩)

/-- A step with nothing to come. -/
theorem step_waits {s : State} (h : s.pending = []) : step s = .next s := by simp [step, hostStep, h]

/-- A step with an action to come performs it. -/
theorem step_performs {s : State} {a : HostAction} {rest : List HostAction} (h : s.pending = a :: rest) :
    step s = perform a ((s.setPending rest).setReply .nothing) := by simp [step, hostStep, h]

/-- TAKE returns OUT and leaves it empty (20_memory R72); nothing else changes but the answer. -/
@[simp] theorem hostTake_eq (s : State) : hostTake s = (s.out, (s.setOut []).setReply (.bytes s.out)) := rfl

/-- What SaveFreqs gives, in terms of the engine after each of its two command sequences (42_freq_table R162). -/
theorem saveFreqs_eq (probs : Vector Word64 32) (f : List Nat) (s : State) :
    let t := actAll (saveFreqsSetup probs) s
    let u := actAll (metaStreamActions f) ((t.setOut []).setReply (.bytes t.out))
    saveFreqs probs f s =
      { older := t.out, bytes := u.out ++ sideChannel f, adjusted := f.map adjust, after := (u.setOut []).setReply (.bytes u.out) } := by
  simp [saveFreqs]

/-- A value put on a bus byte by byte is taken off it whole (20_memory R75). -/
theorem busValue_busBytes (v : Word64) : busValue (busBytes v) = v := by
  have h : busBytes v = [v.extractLsb' 0 8, v.extractLsb' 8 8, v.extractLsb' 16 8, v.extractLsb' 24 8, v.extractLsb' 32 8,
      v.extractLsb' 40 8, v.extractLsb' 48 8, v.extractLsb' 56 8] := rfl
  rw [h]
  simp only [busValue]
  apply BitVec.eq_of_getLsbD_eq
  intro i hi
  interval_cases i <;> simp

end Sys2Proof.Machine
end

