-- ==== Sys2Proof/Laws/PerInstr.lean ====
section
/-! SUPPORT. Lemmas about every command as syntax, one per constructor: its word's fields are its opcode (30_encoding R90, R93) and its operand field (R91). -/

namespace Sys2Proof

/-- The opcode byte of a word built from an opcode and an operand field. -/
theorem opcodeField_append (a : BitVec 8) (b : BitVec 24) : opcodeField (a ++ b) = a := by
  apply BitVec.eq_of_getLsbD_eq
  intro i hi
  have := BitVec.getLsbD_append (x := a) (y := b) (i := 24 + i)
  simp only [opcodeField, BitVec.getLsbD_extractLsb']
  rw [this]
  simp [hi]

/-- The operand field of a word built from an opcode and an operand field. -/
theorem operandField_append (a : BitVec 8) (b : BitVec 24) : operandField (a ++ b) = b := by
  apply BitVec.eq_of_getLsbD_eq
  intro i hi
  have := BitVec.getLsbD_append (x := a) (y := b) (i := i)
  simp only [operandField, BitVec.getLsbD_extractLsb', Nat.zero_add]
  rw [this]
  simp [hi]

/-- The word of a command splits into its opcode and its operand field. -/
def Laws.WordFields.Statement (i : Instr) : Prop := opcodeField (encode i) = i.opcode ∧ operandField (encode i) = i.operand

theorem Laws.WordFields.all (i : Instr) : Laws.WordFields.Statement i := ⟨opcodeField_append _ _, operandField_append _ _⟩

theorem Laws.WordFields.nop : Laws.WordFields.Statement .nop := Laws.WordFields.all _
theorem Laws.WordFields.csrr (n : BitVec 8) : Laws.WordFields.Statement (.csrr n) := Laws.WordFields.all _
theorem Laws.WordFields.csrw (n : BitVec 8) : Laws.WordFields.Statement (.csrw n) := Laws.WordFields.all _
theorem Laws.WordFields.srst : Laws.WordFields.Statement .srst := Laws.WordFields.all _
theorem Laws.WordFields.acInit : Laws.WordFields.Statement .acInit := Laws.WordFields.all _
theorem Laws.WordFields.acEnc (s : Sym) : Laws.WordFields.Statement (.acEnc s) := Laws.WordFields.all _
theorem Laws.WordFields.acDec : Laws.WordFields.Statement .acDec := Laws.WordFields.all _
theorem Laws.WordFields.acFlush : Laws.WordFields.Statement .acFlush := Laws.WordFields.all _
theorem Laws.WordFields.freqWr (s : Sym) : Laws.WordFields.Statement (.freqWr s) := Laws.WordFields.all _
theorem Laws.WordFields.freqRd (s : Sym) : Laws.WordFields.Statement (.freqRd s) := Laws.WordFields.all _
theorem Laws.WordFields.freqClr : Laws.WordFields.Statement .freqClr := Laws.WordFields.all _
theorem Laws.WordFields.cumRd (s : Sym) : Laws.WordFields.Statement (.cumRd s) := Laws.WordFields.all _
theorem Laws.WordFields.rleInit : Laws.WordFields.Statement .rleInit := Laws.WordFields.all _
theorem Laws.WordFields.rleEbit (b : BitVec 1) : Laws.WordFields.Statement (.rleEbit b) := Laws.WordFields.all _
theorem Laws.WordFields.rleEend : Laws.WordFields.Statement .rleEend := Laws.WordFields.all _
theorem Laws.WordFields.rlePop : Laws.WordFields.Statement .rlePop := Laws.WordFields.all _
theorem Laws.WordFields.rleDsym (s : Sym) : Laws.WordFields.Statement (.rleDsym s) := Laws.WordFields.all _
theorem Laws.WordFields.rleDend : Laws.WordFields.Statement .rleDend := Laws.WordFields.all _
theorem Laws.WordFields.prdInit : Laws.WordFields.Statement .prdInit := Laws.WordFields.all _
theorem Laws.WordFields.fldWr (v : Colour) : Laws.WordFields.Statement (.fldWr v) := Laws.WordFields.all _
theorem Laws.WordFields.fldRd : Laws.WordFields.Statement .fldRd := Laws.WordFields.all _
theorem Laws.WordFields.prdForesee : Laws.WordFields.Statement .prdForesee := Laws.WordFields.all _
theorem Laws.WordFields.prdLearn (v : Colour) : Laws.WordFields.Statement (.prdLearn v) := Laws.WordFields.all _
theorem Laws.WordFields.pxEnc (m : Mode) : Laws.WordFields.Statement (.pxEnc m) := Laws.WordFields.all _
theorem Laws.WordFields.pxDec (m : Mode) (v : Colour) : Laws.WordFields.Statement (.pxDec m v) := Laws.WordFields.all _

end Sys2Proof
end

