-- ==== Sys2Proof/Tests/Slice0.lean ====
section
/-! SUPPORT. Tests: ill-formed terms refused, a word written out for every command, one-step examples of spec/ (the rule or vector each comes from is named), and for every statement with hypotheses a state and operands that meet them. -/

namespace Sys2Proof.Machine

/-! ### Helpers -/

/-- The state after a command. -/
def after (i : Instr) (s : State) : State :=
  match exec i s with
  | .next t => t
  | .fault _ => s
  | .refused _ => s

/-- The table with FREQ[0], FREQ[1], ... -/
def testTable (fs : List Word64) : Memory 64 := fs.zipIdx.foldl (fun m (f, k) => m.write k f) []

/-- A reset machine with NSYM and FREQ set. -/
def testCoder (n : BitVec 17) (fs : List Word64) : State :=
  State.reset.setAc { AcUnit.reset with nsym := n, freq := testTable fs }

/-- A reset machine with a field of the given size and configuration. -/
def testField (w h : BitVec 16) (c : BitVec 23) (cells : Memory 2) : State :=
  State.reset.setPrd { PrdUnit.reset with width := w, height := h, cfg := c, field := cells }

/-- A reset machine with the run-length ceiling set. -/
def testRuns (m : BitVec 16) : State := State.reset.setRle { RleUnit.reset with m := m }

/-- A reset machine with an error latched: ZERO_PROBABILITY of AC.ENC 0 (60_exceptions R259). -/
def testLatched : State := State.reset.setLatch { err := .zeroProbability, info := 0, cmd := 0x11000000 }

/-! ### Well-formedness: each check refuses an ill-formed term -/

theorem test_csrr_unassigned_refused : (Instr.csrr 0x16).wellFormed = false := by decide
theorem test_csrr_hole_refused : (Instr.csrr 0x28).wellFormed = false ∧ (Instr.csrr 0x80).wellFormed = false := by decide
theorem test_csrw_readonly_refused : (Instr.csrw 0x08).wellFormed = false ∧ (Instr.csrw 0x00).wellFormed = false := by decide
theorem test_csrw_unassigned_refused : (Instr.csrw 0x3F).wellFormed = false := by decide
theorem test_csr_wellFormed : (Instr.csrr 0x15).wellFormed = true ∧ (Instr.csrw 0x7F).wellFormed = true := by decide

/-! ### Decoding: the word of every command, written out from 30_encoding R91 and R93 -/

theorem test_decode_nop : decode 0b00000000000000000000000000000000 = .ok .nop := by decide
theorem test_decode_csrr : decode 0b00000001000000000000000000001001 = .ok (.csrr 0x09) := by decide
theorem test_decode_csrw : decode 0b00000010000000000000000001010010 = .ok (.csrw 0x52) := by decide
theorem test_decode_srst : decode 0b00001111000000000000000000000000 = .ok .srst := by decide
theorem test_decode_acInit : decode 0b00010000000000000000000000000000 = .ok .acInit := by decide
theorem test_decode_acEnc : decode 0b00010001000000001000000000000101 = .ok (.acEnc 0x8005) := by decide
theorem test_decode_acDec : decode 0b00010010000000000000000000000000 = .ok .acDec := by decide
theorem test_decode_acFlush : decode 0b00010011000000000000000000000000 = .ok .acFlush := by decide
theorem test_decode_freqWr : decode 0b00010100000000000000000100000010 = .ok (.freqWr 0x0102) := by decide
theorem test_decode_freqRd : decode 0b00010101000000001111111111111111 = .ok (.freqRd 0xFFFF) := by decide
theorem test_decode_freqClr : decode 0b00010110000000000000000000000000 = .ok .freqClr := by decide
theorem test_decode_cumRd : decode 0b00010111000000000000000000000011 = .ok (.cumRd 3) := by decide
theorem test_decode_rleInit : decode 0b00100000000000000000000000000000 = .ok .rleInit := by decide
theorem test_decode_rleEbit : decode 0b00100001000000000000000000000001 = .ok (.rleEbit 1) := by decide
theorem test_decode_rleEend : decode 0b00100010000000000000000000000000 = .ok .rleEend := by decide
theorem test_decode_rlePop : decode 0b00100011000000000000000000000000 = .ok .rlePop := by decide
theorem test_decode_rleDsym : decode 0b00100100000000000100000000000001 = .ok (.rleDsym 0x4001) := by decide
theorem test_decode_rleDend : decode 0b00100101000000000000000000000000 = .ok .rleDend := by decide
theorem test_decode_prdInit : decode 0b00110000000000000000000000000000 = .ok .prdInit := by decide
theorem test_decode_fldWr : decode 0b00110001000000000000000000000010 = .ok (.fldWr 2) := by decide
theorem test_decode_fldRd : decode 0b00110010000000000000000000000000 = .ok .fldRd := by decide
theorem test_decode_prdForesee : decode 0b00110011000000000000000000000000 = .ok .prdForesee := by decide
theorem test_decode_prdLearn : decode 0b00110100000000000000000000000001 = .ok (.prdLearn 1) := by decide
theorem test_decode_pxEnc : decode 0b00110101000000000000000100000000 = .ok (.pxEnc .sub) := by decide
theorem test_decode_pxDec : decode 0b00110110000000000000000100000011 = .ok (.pxDec .sub 3) := by decide

/-- 30_encoding R95: reserved bits and unassigned opcodes at the edges of each hole. -/
theorem test_decode_refuses :
    (([0x03000000, 0x0E000000, 0x18000000, 0x1F000000, 0x26000000, 0x2F000000, 0x37000000, 0xFF000000] : List Word32).all
      fun w => decode w == .error .unassignedOpcode) = true ∧
    (([0x00000001, 0x01000100, 0x02800000, 0x11010005, 0x12000001, 0x21000002, 0x31000004, 0x35000001, 0x35000200,
      0x36000004, 0x36000200] : List Word32).all fun w => decode w == .error .reservedBitSet) = true := by decide

/-! ### One step each -/

/-- 40_control R110. -/
theorem test_nop : after .nop State.reset = State.reset := by decide
/-- 40_control R111, its example. -/
theorem test_csrr_high : (after (.csrr 0x09) State.reset).res = 0x00000000FFFFFFFF := by decide
/-- 10_state R56, R33. -/
theorem test_csrr_cfg : (after (.csrr 0x21) State.reset).res = 0x312310 ∧ (after (.csrr 0x00) State.reset).res = 0x49344301 := by
  decide
/-- 40_control R112, its example: NSYM = 4, then ARG 0 is refused. -/
theorem test_csrw_nsym :
    (after (.csrw 0x04) (State.reset.setArg 4)).ac.nsym = 4 ∧
    (after (.csrw 0x04) State.reset).latch = ⟨.configInvalid, 0, 0x02000004⟩ := by decide
/-- 40_control R113: FLD_DIM clears the field and the cursor. -/
theorem test_csrw_fldDim :
    (after (.csrw 0x20) ((testField 4 3 0x312310 [(11, 2)]).setArg 0x00020005)).prd =
      { PrdUnit.reset with width := 5, height := 2 } := by decide
/-- 40_control R114: SRST under the latch. -/
theorem test_srst : after .srst testLatched = State.reset := by decide
/-- 41_arith_coder R124. -/
theorem test_acInit : (after .acInit (State.reset.setAc { AcUnit.reset with low := 5, dir := .read, inCnt := 3 })).ac = AcUnit.reset := by
  decide
/-- 41_arith_coder R130, its example: one UnderflowShift, no bit out. -/
theorem test_acEnc_underflow :
    ((after (.acEnc 1) (testCoder 3 [1, 2, 1])).ac.low, (after (.acEnc 1) (testCoder 3 [1, 2, 1])).ac.high,
      (after (.acEnc 1) (testCoder 3 [1, 2, 1])).ac.uf, (after (.acEnc 1) (testCoder 3 [1, 2, 1])).ac.bitCnt) =
      (0, 0xFFFFFFFF, 1, 0) := by decide
/-- 95_test_vectors, the row [1,1,1], symbol 1: the bounds before the flush. -/
theorem test_acEnc_thirds :
    ((after (.acEnc 1) (testCoder 3 [1, 1, 1])).ac.low, (after (.acEnc 1) (testCoder 3 [1, 1, 1])).ac.high) =
      (0x2AAAAAAA, 0xD5555553) := by decide
/-- 41_arith_coder R138, its example. -/
theorem test_acDec_first :
    ((after .acDec ((testCoder 4 [1, 1, 1, 1]).setInp [0x18, 0x6D])).res,
      (after .acDec ((testCoder 4 [1, 1, 1, 1]).setInp [0x18, 0x6D])).ac.code,
      (after .acDec ((testCoder 4 [1, 1, 1, 1]).setInp [0x18, 0x6D])).ac.pastEnd) = (0, 0x61B40000, 18) := by decide +kernel
/-- 95_test_vectors: NSYM 2, FREQ [1, 1], IN = [0x80]. -/
theorem test_acDec_half :
    ((after .acDec ((testCoder 2 [1, 1]).setInp [0x80])).res, (after .acDec ((testCoder 2 [1, 1]).setInp [0x80])).ac.inPos,
      (after .acDec ((testCoder 2 [1, 1]).setInp [0x80])).ac.pastEnd) = (1, 1, 25) := by decide +kernel
/-- 41_arith_coder R133, its example. -/
theorem test_acFlush_reset : (after .acFlush State.reset).out = [0x40] := by decide
/-- 41_arith_coder R126, its example. -/
theorem test_freqWr : (after (.freqWr 2) (State.reset.setArg 3)).ac.freq.read 2 = 3 := by decide
/-- 41_arith_coder R127. -/
theorem test_freqRd : (after (.freqRd 3) (testCoder 1 [2, 1, 1, 3])).res = 3 ∧ (after (.freqRd 65535) State.reset).res = 0 := by decide
/-- 41_arith_coder R128. -/
theorem test_freqClr : (after .freqClr (testCoder 4 [2, 1, 1, 3])).ac.total = 0 := by decide
/-- 41_arith_coder R129, its example. -/
theorem test_cumRd :
    (after (.cumRd 3) (testCoder 4 [2, 1, 1, 3])).res = 4 ∧ (after (.cumRd 4) (testCoder 4 [2, 1, 1, 3])).res = 7 ∧
    (after (.cumRd 5) (testCoder 4 [2, 1, 1, 3])).latch = ⟨.invalidSymbol, 5, 0x17000005⟩ := by decide
/-- 43_run_length R172, its example. -/
theorem test_rleInit : (after (.csrr 0x13) (after .rleInit State.reset)).res = 2 := by decide
/-- 43_run_length R173, R171: seven zeros and a one, M = 4. -/
theorem test_rleEbit :
    (after (.rleEbit 1) (State.reset.setRle { RleUnit.reset with m := 4, run := 7 })).rle.queue = [4, 0, 3] ∧
    (after (.rleEbit 0) (testRuns 4)).rle.run = 1 := by decide
/-- 43_run_length R174, its example. -/
theorem test_rleEend : (after .rleEend (testRuns 4)).rle.queue = [0] := by decide
/-- 43_run_length R175. -/
theorem test_rlePop :
    (after .rlePop State.reset).res = 0xFFFFFFFFFFFFFFFF ∧
    (after .rlePop (State.reset.setRle { RleUnit.reset with queue := [4, 0, 3] })).res = 4 := by decide
/-- 43_run_length R177, its example: the last of DSYM 4, 0, 3. -/
theorem test_rleDsym :
    (after (.rleDsym 3) (State.reset.setRle { RleUnit.reset with m := 4, phase := .suffixPhase, depth := 1 })).res =
      0x8000000000000007 := by decide
/-- 43_run_length R178, its example. -/
theorem test_rleDend :
    (after .rleDend (after (.rleDsym 4) (testRuns 4))).latch = ⟨.malformedStream, 0x0400000000000001, 0x25000000⟩ := by decide
/-- 44_predictor R215. -/
theorem test_prdInit : (after .prdInit (State.reset.setPrd { PrdUnit.reset with pos := 1, ctxFull := true })).prd = PrdUnit.reset := by
  decide
/-- 44_predictor R216, its examples. -/
theorem test_fldWr :
    (after (.fldWr 2) ((testField 4 3 0x312310 []).setArg 0x00020003)).prd.field = [(11, 2)] ∧
    (after (.fldWr 1) ((testField 4 3 0x312310 []).setArg 4)).latch = ⟨.fieldOob, 4, 0x31000001⟩ := by decide
/-- 44_predictor R217, its examples. -/
theorem test_fldRd :
    (after .fldRd ((testField 4 3 0x312310 [(11, 2)]).setArg 0x00020003)).res = 2 ∧
    (after .fldRd (State.reset.setArg 5)).latch.err = .none := by decide
/-- 44_predictor R199, its example: L = 1, T = 2, TL = 1 gives 2, on a 2 × 2 field at its last cell. -/
theorem test_prdForesee :
    (after .prdForesee (State.reset.setPrd { PrdUnit.reset with
      width := 2, height := 2, cfg := 0x312301, field := [(0, 1), (1, 2), (2, 1)], pos := 3 })).res = 2 := by decide
/-- 44_predictor R219, its example: three entries at the first pixel of a HASH pass. -/
theorem test_prdLearn :
    (after (.prdLearn 1) (testField 4 3 0x312313 [])).prd.ctx.length = 3 ∧
    (after (.prdLearn 1) (testField 4 3 0x312313 [])).prd.pos = 1 := by decide +kernel
/-- 44_predictor R220, its example. -/
theorem test_pxEnc :
    (after (.pxEnc .xor) (testField 1 1 0x312310 [(0, 3)])).res = 3 ∧
    (after (.pxEnc .xor) (testField 1 1 0x312310 [(0, 3)])).prd.pos = 1 := by decide
/-- 44_predictor R221, its example. -/
theorem test_pxDec :
    (after (.pxDec .sub 3) State.reset).res = 3 ∧ (after (.pxDec .sub 3) State.reset).prd.field = [(0, 3)] := by decide
/-- 60_exceptions R259: the latch keeps the first error and blocks AC.INIT. -/
theorem test_latch :
    after (.acEnc 0) State.reset = testLatched ∧ after .acInit testLatched = testLatched ∧
    (after (.csrr 0x01) testLatched).res = 2 := by decide
/-- 42_freq_table R163, its examples. -/
theorem test_varint :
    varint 0 = [0x00] ∧ varint 127 = [0x7F] ∧ varint 128 = [0x80, 0x01] ∧ varint 300 = [0xAC, 0x02] := by decide

/-- 30_encoding R97, R99: two commands as text. -/
theorem test_commandText :
    commandText (.csrw 0x52) = "CSRW SHAPE_CELL[1][2]" ∧ commandText (.pxDec .xor 3) = "PX.DEC xor, 3" := by decide
/-- 20_memory R75: bits [7:0] at the lowest offset. -/
theorem test_busBytes : busBytes 0x0102030405060708 = [8, 7, 6, 5, 4, 3, 2, 1] := by decide

/-- 44_predictor R200, its example: the default window with colours 0, 0, 1, 0. -/
theorem test_fixedKey :
    ({ PrdUnit.reset with width := 3, height := 2, field := [(2, 1)], pos := 4 } : PrdUnit).fixedKey =
      some 0xFF000000000000000000000000000010 := by decide

/-- The memories after reset are in canonical form. -/
theorem reset_memories_wf :
    State.reset.ac.freq.wf ∧ State.reset.prd.field.wf ∧ State.reset.prd.ctx.wf := by decide

/-! ### Witnesses: for every statement with hypotheses, a state and operands that meet them -/

/-- A coder in the middle of writing: NSYM 3, FREQ [1, 2, 1], one pending bit, two bits in BITBUF. -/
def testWriter : State :=
  State.reset.setAc { AcUnit.reset with
    nsym := 3, freq := testTable [1, 2, 1], dir := .write, uf := 1, bitBuf := 0x40, bitCnt := 2, low := 0x10000000, high := 0xE0000000 }

/-- A coder in the middle of reading: NSYM 4, FREQ [1, 1, 1, 1], TERM 3, one section, four bits left of a byte and twelve bytes to come. -/
def testReader : State :=
  (State.reset.setAc { AcUnit.reset with
    nsym := 4, freq := testTable [1, 1, 1, 1], dir := .read, code := 0x186D0000, term := 3, sections := 1, inBuf := 0x5A, inCnt := 4, inPos := 1 }).setInp
    [0, 0, 0, 0, 0, 0, 0, 0, 0, 0, 0, 0]

/-- A field of 4 × 3 cells in the middle of a pass, HASH with fallback HORZVERT, with one context learned. -/
def testPass : State :=
  State.reset.setPrd { PrdUnit.reset with
    width := 4, height := 3, cfg := 0x312307, field := [(0, 1), (5, 2), (11, 3)], pos := 6,
    ctx := [(0x00000000000000000000000000000005, { c0 := 0, c1 := 2, c2 := 0, c3 := 0, sat := false })] }

theorem testReader_coderInv : CoderInv testReader.ac :=
  ⟨⟨by decide, by decide, by decide⟩, by decide, by decide, by decide, by decide, by decide, by decide, by decide⟩

theorem testPass_prdInv : PrdInv testPass.prd :=
  ⟨by decide, by decide, by decide, by decide, by decide, by decide, by decide⟩

/-- A machine that is not the reset one, with all three units in use and a host action to come, meets the invariant. -/
def testBusy : State :=
  ((testReader.setPrd testPass.prd).setRle { RleUnit.reset with m := 4, run := 9, queue := [4, 0, 3], depth := 1, phase := .suffixPhase }).setPending
    [.windowWrite 0x00 8 0x12000000]

theorem witness_StepsKeepTheInvariant : testBusy.Inv ∧ step testBusy = .next (after .acDec (testBusy.setPending [])) :=
  ⟨⟨⟨by decide, by decide, by decide, by decide, by decide, by decide⟩, testReader_coderInv,
    ⟨by decide, by decide, by decide, by decide, by decide, by decide⟩, testPass_prdInv, ⟨by decide, by decide⟩⟩, rfl⟩

theorem witness_DecodeEncodeAgree : decode 0x1100FFFF = .ok (.acEnc 0xFFFF) := by decide

theorem witness_DecodeFollowsMaskTable :
    (⟨"PX.DEC", 0x36000000, 0xFFFFFEFC⟩ : MaskRow) ∈ maskTable ∧ (0x36000103#32 &&& 0xFFFFFEFC#32 = 0x36000000#32) := by decide

theorem witness_StepRunsCommandWritten :
    (testBusy.pending = .windowWrite 0x00 8 0x12000000 :: [] ∧ decode ((0x12000000 : Word64).setWidth 32) = .ok .acDec) ∧
    decodeTableWord 32 0x11000005 = some (.acEnc 5) := by decide

theorem witness_IllegalWordsRaise :
    decode 0x03000000 = .error .unassignedOpcode ∧ State.reset.ready ∧ testLatched.latch.err ≠ .none := by decide

theorem witness_LatchBlocksCommands :
    testLatched.latch.err ≠ .none ∧
    (opcodeField 0x00000000 ≠ 0x01 ∧ opcodeField 0x00000000 ≠ 0x0F) ∧ (opcodeField 0x10000000 ≠ 0x01 ∧ opcodeField 0x10000000 ≠ 0x0F) ∧
    Csr.ofNumber 0x15 = some .rleVacc ∧ Csr.ofNumber 0x16 = none ∧ decode 0x01000100 = .error .reservedBitSet := by decide

theorem witness_HostWindowAccesses :
    ¬(8 = 8 ∧ (0x10 = 0x00 ∨ 0x10 = 0x08)) ∧ ¬(4 = 8 ∧ (0x08 = 0x00 ∨ 0x08 = 0x08)) ∧
    ¬(8 = 8 ∧ (0x20 = 0x00 ∨ 0x20 = 0x08 ∨ 0x20 = 0x10 ∨ 0x20 = 0x18)) ∧
    ¬(8 = 8 ∧ (0x04 = 0x00 ∨ 0x04 = 0x08 ∨ 0x04 = 0x10 ∨ 0x04 = 0x18)) := by decide

theorem witness_PortAndResetActions :
    State.reset.pending = [] ∧ (State.reset.setPending [.takeOut]).pending = .takeOut :: [] := by decide

theorem witness_ArgAndResWriters :
    exec (.acEnc 1) testWriter = .next (after (.acEnc 1) testWriter) ∧ Instr.acEnc 1 ≠ .srst ∧
    (Instr.acEnc 1).opcode ∉ [0x01#8, 0x12#8, 0x15#8, 0x17#8, 0x23#8, 0x24#8, 0x32#8, 0x33#8, 0x35#8, 0x36#8] :=
  ⟨rfl, by decide, by decide⟩

theorem witness_UnitsAreSeparate :
    exec (.csrw 0x10) (State.reset.setArg 4) = .next (after (.csrw 0x10) (State.reset.setArg 4)) ∧
    exec (.csrw 0x0F) State.reset = .next (after (.csrw 0x0F) State.reset) ∧
    exec (.csrw 0x20) State.reset = .next (after (.csrw 0x20) State.reset) ∧
    (0x10 ≤ Instr.acInit.opcode.toNat ∧ (Instr.cumRd 0).opcode.toNat ≤ 0x17) ∧
    (0x20 ≤ Instr.rleInit.opcode.toNat ∧ Instr.rleDend.opcode.toNat ≤ 0x25) ∧
    (0x30 ≤ Instr.prdInit.opcode.toNat ∧ (Instr.pxDec .xor 0).opcode.toNat ≤ 0x36) :=
  ⟨rfl, rfl, rfl, by decide, by decide, by decide⟩

theorem witness_PortsMoveForward :
    exec .acDec testReader = .next (after .acDec testReader) ∧ exec .nop testReader = .next testReader ∧ Instr.nop ≠ .acDec ∧
    Instr.nop.opcode ≠ 0x11 ∧ Instr.nop.opcode ≠ 0x13 :=
  ⟨rfl, rfl, by decide, by decide, by decide⟩

theorem witness_NopChangesNothing :
    State.reset.ready ∧ opcodeField 0x00800000 = 0x00 ∧ operandField 0x00800000 ≠ 0 := by decide

theorem witness_CsrrReadsEachRegister :
    (State.reset.setRle { RleUnit.reset with queue := List.replicate 256 7 }).rle.queue.length ≤ 256 := by decide +kernel

theorem witness_CsrwTakesLegalValues :
    State.reset.ready ∧ LegalCsrValue .acNsym 65536 ∧ LegalCsrValue .acNsym 1 ∧ LegalCsrValue .acTerm 65535 ∧
    LegalCsrValue .acSections 0xFFFFFFFF ∧ LegalCsrValue .rleM 65535 ∧ LegalCsrValue .fldDim 0x10001000 ∧
    LegalCsrValue .prdCfg 0x4F3F07 ∧ LegalCsrValue (.shapeLen 3) 16 ∧ LegalCsrValue (.shapeCell 3 15) 0x00FF ∧
    LegalCsrValue (.shapeCell 0 0) 0xFF7F := by
  refine ⟨rfl, ?_, ?_, ?_, ?_, ?_, ?_, ?_, ?_, ?_, ?_⟩ <;> simp only [LegalCsrValue] <;> decide

theorem witness_CsrAccessErrors :
    State.reset.ready ∧ Csr.ofNumber 0x16 = none ∧ Csr.ofNumber 0xFF = none ∧
    (Csr.ofNumber 0x07 = some .acSectDone ∧ csrWritable .acSectDone = false) ∧
    (Csr.ofNumber 0x04 = some .acNsym ∧ csrWritable .acNsym = true ∧ ¬LegalCsrValue .acNsym 65537) ∧
    (Csr.ofNumber 0x40 = some (.shapeCell 0 0) ∧ csrWritable (.shapeCell 0 0) = true ∧ ¬LegalCsrValue (.shapeCell 0 0) 0) := by
  refine ⟨rfl, rfl, rfl, ⟨rfl, rfl⟩, ⟨rfl, rfl, ?_⟩, ⟨rfl, rfl, ?_⟩⟩ <;> simp only [LegalCsrValue] <;> decide

theorem witness_CsrwReadsBack :
    (State.reset.setArg 65536).ready ∧
    exec (.csrw 0x04) (State.reset.setArg 65536) = .next (after (.csrw 0x04) (State.reset.setArg 65536)) ∧
    (after (.csrw 0x04) (State.reset.setArg 65536)).ready := ⟨rfl, rfl, rfl⟩

theorem witness_OnlyResetClearsLatch :
    testLatched.latch.err ≠ .none ∧ exec .acInit testLatched = .next testLatched ∧
    (testLatched.setPending [.systemReset]).latch.err ≠ .none ∧
    step (testLatched.setPending [.systemReset]) = .next State.reset ∧
    State.reset.latch ≠ (testLatched.setPending [.systemReset]).latch := ⟨by decide, rfl, by decide, rfl, by decide⟩

theorem witness_AcInitStartsCoder : testWriter.ready := rfl

theorem witness_FreqTableCommands : (testWriter.setArg 0xFFFFFFFFFFFFFFFF).ready ∧ testWriter.ac.freq.wf := by decide

theorem witness_CumRdReturnsPrefixSum :
    testWriter.ready ∧ testWriter.ac.freq.wf ∧ (3 : Sym).toNat ≤ testWriter.ac.nsym.toNat ∧
    testWriter.ac.nsym.toNat < (4 : Sym).toNat := by decide

theorem witness_IntervalUpdateStaysInside :
    testWriter.ac.freq.wf ∧ testWriter.ac.total ≤ 2 ^ 30 ∧ testWriter.ac.low.toNat + 2 ^ 30 ≤ testWriter.ac.high.toNat + 1 ∧
    (1 : Sym).toNat < (2 : Sym).toNat ∧ (2 : Sym).toNat < testWriter.ac.nsym.toNat ∧ testWriter.ac.freq.read 1 ≠ 0 ∧
    testWriter.ac.freq.read 2 ≠ 0 := by decide

/-- Bounds in the underflow state. -/
theorem witness_ShiftsDoubleTheInterval :
    (0x40000000 : Word32).toNat ≤ (0xBFFFFFFF : Word32).toNat ∧
    (0x40000000 : Word32).getLsbD 31 ≠ (0xBFFFFFFF : Word32).getLsbD 31 ∧ (0x40000000 : Word32).getLsbD 30 = true ∧
    (0xBFFFFFFF : Word32).getLsbD 30 = false := by decide

theorem witness_EncRenormFollowsItsLoop :
    ((0x80000000 : Word32).toNat ≤ (0x80000000 : Word32).toNat ∧ (0x80000000 : Word32).getLsbD 31 = true) ∧
    ((0x7FFFFFFF : Word32).toNat ≤ (0x80000000 : Word32).toNat ∧ (0x7FFFFFFF : Word32).getLsbD 31 ≠ (0x80000000 : Word32).getLsbD 31 ∧
      (0x7FFFFFFF : Word32).getLsbD 30 = true ∧ (0x80000000 : Word32).getLsbD 30 = false ∧ State.reset.ac.uf ≠ BitVec.allOnes 64) ∧
    (testWriter.ac.low.toNat ≤ testWriter.ac.high.toNat ∧ testWriter.ac.low.getLsbD 31 ≠ testWriter.ac.high.getLsbD 31 ∧
      ¬(testWriter.ac.low.getLsbD 30 = true ∧ testWriter.ac.high.getLsbD 30 = false)) := by decide

theorem witness_DecRenormFollowsItsLoop :
    testReader.ac.low.toNat ≤ testReader.ac.high.toNat ∧ decRenorm 32 testReader = .ok testReader ∧
    inBit testReader = .ok (true, testReader.setAc { testReader.ac with inCnt := 3 }) ∧
    inBit (State.reset.setAc { AcUnit.reset with pastEnd := 32 }) = .error (.malformed subcausePastEnd 32) := ⟨by decide, rfl, rfl, rfl⟩

theorem witness_OutBitAppendsOneBit :
    testWriter.ac.bitCnt ≤ 7 ∧ (∀ j, j < 8 - testWriter.ac.bitCnt → testWriter.ac.bitBuf.getLsbD j = false) ∧
    (7 ≤ 7 ∧ ∀ j, j < 8 - 7 → (0xFE : BitVec 8).getLsbD j = false) := by decide

theorem witness_InBitTakesTheNextBit :
    (testReader.ac.inCnt ≤ 8 ∧ testReader.inBitsLeft.head? = some true ∧ testReader.ac.inPos ≠ BitVec.allOnes 64) ∧
    (State.reset.inBitsLeft = [] ∧ State.reset.ac.pastEnd < 32) ∧
    ((State.reset.setAc { AcUnit.reset with pastEnd := 32 }).inBitsLeft = [] ∧
      (State.reset.setAc { AcUnit.reset with pastEnd := 32 }).ac.pastEnd = 32) := by decide

theorem witness_PrimingLoadsThirtyTwoBits :
    (State.reset.ac.inCnt ≤ 8 ∧ State.reset.ac.pastEnd ≤ 32 ∧ 32 ≤ State.reset.bitsAvailable) ∧
    ((State.reset.setAc { AcUnit.reset with pastEnd := 1 }).bitsAvailable < 32) := by decide

theorem witness_AcEncCodesTheSymbol :
    testWriter.ready ∧ testWriter.ac.dir ≠ .read ∧ (1 : Sym).toNat < testWriter.ac.nsym.toNat ∧ testWriter.ac.freq.read 1 ≠ 0 ∧
    testWriter.ac.total ≤ 2 ^ 30 ∧ (1 : Sym) ≠ testWriter.ac.term ∧ (0 : Sym) = testWriter.ac.term ∧
    testWriter.ac.freq.read 0 ≠ 0 ∧ testWriter.ac.sectDone ≠ BitVec.allOnes 64 := by decide

theorem witness_AcFlushEndsTheStream :
    testWriter.ready ∧ testWriter.ac.dir ≠ .read ∧ testWriter.ac.bitCnt ≤ 7 ∧
    (∀ j, j < 8 - testWriter.ac.bitCnt → testWriter.ac.bitBuf.getLsbD j = false) := by decide

theorem witness_CoderCommandErrors :
    (testReader.ready ∧ testReader.ac.dir = .read ∧ testWriter.ac.dir = .write) ∧
    (testWriter.ready ∧ testWriter.ac.dir ≠ .read ∧ testWriter.ac.nsym.toNat ≤ (3 : Sym).toNat) ∧
    ((testCoder 3 [1, 0, 1]).ac.dir ≠ .read ∧ (1 : Sym).toNat < (testCoder 3 [1, 0, 1]).ac.nsym.toNat ∧
      (testCoder 3 [1, 0, 1]).ac.freq.read 1 = 0) ∧
    ((testCoder 1 [0x40000001]).ac.dir ≠ .read ∧ (0 : Sym).toNat < (testCoder 1 [0x40000001]).ac.nsym.toNat ∧
      (testCoder 1 [0x40000001]).ac.freq.read 0 ≠ 0 ∧ 2 ^ 30 < (testCoder 1 [0x40000001]).ac.total) ∧
    ((testReader.setAc { testReader.ac with sectDone := 1 }).ac.dir ≠ .write ∧ testReader.ac.sections ≠ 0 ∧
      testReader.ac.sections.toNat ≤ (1 : Word64).toNat) ∧
    (State.reset.ac.dir ≠ .write ∧ State.reset.ac.sections = 0 ∧ State.reset.ac.total = 0) ∧
    ((testCoder 1 [1]).ac.dir = .idle ∧ (testCoder 1 [1]).ac.sections = 0 ∧ 0 < (testCoder 1 [1]).ac.total ∧
      (testCoder 1 [1]).ac.total ≤ 2 ^ 30 ∧
      ((testCoder 1 [1]).setAc { (testCoder 1 [1]).ac with pastEnd := 1 }).bitsAvailable < 32) := by decide

theorem witness_LookupFindsTheSymbol :
    testReader.ac.freq.wf ∧ testReader.ac.nsym.toNat ≤ 65536 ∧ 0 < testReader.ac.total ∧ testReader.ac.total ≤ 2 ^ 30 ∧
    testReader.ac.low.toNat + 2 ^ 30 ≤ testReader.ac.high.toNat + 1 ∧ testReader.ac.low.toNat ≤ testReader.ac.code.toNat ∧
    testReader.ac.code.toNat ≤ testReader.ac.high.toNat := by decide

/-- An idle coder with two bytes to come (41_arith_coder R138, its example). -/
def testIdle : State := (testCoder 4 [1, 1, 1, 1]).setInp [0x18, 0x6D]

/-- A reader with nothing left to take but two of the zero bits past the end: as many as its next symbol takes. -/
def testLastBits : State := (testReader.setInp []).setAc { testReader.ac with inCnt := 0, pastEnd := 30 }

theorem testIdle_coderInv : CoderInv testIdle.ac :=
  ⟨⟨by decide, by decide, by decide⟩, by decide, by decide, by decide, by decide, by decide, by decide, by decide⟩

theorem testLastBits_coderInv : CoderInv testLastBits.ac :=
  ⟨⟨by decide, by decide, by decide⟩, by decide, by decide, by decide, by decide, by decide, by decide, by decide⟩

theorem witness_AcDecReturnsTheSymbol :
    (testLastBits.ready ∧ testLastBits.ac.dir ≠ .write ∧
      (testLastBits.ac.sections = 0 ∨ testLastBits.ac.sectDone.toNat < testLastBits.ac.sections.toNat) ∧
      0 < testLastBits.ac.total ∧ testLastBits.ac.total ≤ 2 ^ 30 ∧ testLastBits.ac.freq.wf ∧ testLastBits.decodeBitsNeeded = 2 ∧
      testLastBits.bitsAvailable = 2 ∧ testLastBits.ac.dir = .read ∧ testLastBits.ac.sectDone ≠ BitVec.allOnes 64) ∧
    CoderInv testLastBits.ac :=
  ⟨by decide +kernel, testLastBits_coderInv⟩

theorem witness_AcDecReturnsTheSymbol_idle :
    (testIdle.ready ∧ testIdle.ac.dir = .idle ∧ testIdle.ac.sections = 0 ∧ 0 < testIdle.ac.total ∧ testIdle.ac.total ≤ 2 ^ 30 ∧
      testIdle.ac.freq.wf ∧ testIdle.decodeBitsNeeded = 34 ∧ 34 ≤ testIdle.bitsAvailable ∧
      testIdle.ac.sectDone ≠ BitVec.allOnes 64) ∧ CoderInv testIdle.ac :=
  ⟨by decide +kernel, testIdle_coderInv⟩

/-- PAST_END in renormalisation: from IDLE with exactly the 32 bits priming takes, and from READ with one bit too few. -/
theorem witness_CoderCommandErrors_pastEnd :
    (let s := testCoder 4 [1, 1, 1, 1]
     s.ready ∧ s.ac.dir ≠ .write ∧ s.ac.sections = 0 ∧ 0 < s.ac.total ∧ s.ac.total ≤ 2 ^ 30 ∧ s.ac.inCnt ≤ 8 ∧ s.ac.pastEnd ≤ 32 ∧
       s.bitsAvailable = 32 ∧ s.bitsAvailable < s.decodeBitsNeeded) ∧
    (let s := testLastBits.setAc { testLastBits.ac with pastEnd := 31 }
     s.ready ∧ s.ac.dir = .read ∧ s.ac.sectDone.toNat < s.ac.sections.toNat ∧ 0 < s.ac.total ∧ s.ac.total ≤ 2 ^ 30 ∧
       s.ac.inCnt ≤ 8 ∧ s.ac.pastEnd ≤ 32 ∧ s.bitsAvailable < s.decodeBitsNeeded) := by decide +kernel

theorem witness_DirectionLatchTable :
    testWriter.ready ∧ exec (.acEnc 1) testWriter = .next (after (.acEnc 1) testWriter) ∧
    (after (.acEnc 1) testWriter).ready ∧ testWriter.ac.dir = .write ∧ testReader.ready ∧ testReader.ac.dir = .read ∧
    exec .acDec testReader = .next (after .acDec testReader) ∧ (after .acDec testReader).ready :=
  ⟨rfl, rfl, by decide +kernel, rfl, rfl, rfl, rfl, by decide +kernel⟩

/-- A stream of three positions, the table changing on the way. -/
def testStream : List CodingStep :=
  [{ nsym := 3, freq := testTable [1, 2, 1], sym := 1 }, { nsym := 3, freq := testTable [1, 2, 1], sym := 0 },
    { nsym := 2, freq := testTable [0, 7], sym := 1 }]

theorem testStream_codable : ∀ c ∈ testStream, c.Codable := by
  intro c hc
  simp only [testStream, List.mem_cons, List.not_mem_nil, or_false] at hc
  rcases hc with rfl | rfl | rfl <;> exact ⟨by decide, by decide, by decide, by decide, by decide⟩

theorem witness_CoderRoundTrip :
    testWriter.ready ∧ testReader.ready ∧ (∀ c ∈ testStream, c.Codable) ∧ testStream.length < 2 ^ 58 ∧
    sectionsSuffice testReader.ac testStream :=
  ⟨rfl, rfl, testStream_codable, by decide, .inr (by decide)⟩

/-- By hand: AC.ENC 1 leaves one bit pending, AC.ENC 0 puts out 0, 1, 0, the last symbol nothing, the flush 0, 1: the byte 0x48. -/
theorem witness_CountersGiveStreamLength :
    (testWriter.ready ∧ testReader.ready ∧ (∀ c ∈ testStream, c.Codable) ∧ testStream ≠ [] ∧ testStream.length < 2 ^ 58 ∧
      sectionsSuffice testReader.ac testStream) ∧
    exec .acInit testWriter = .next (after .acInit testWriter) ∧
    (encodeStream testStream (after .acInit testWriter)).map (fun s1 => (after .acFlush s1).out) = some (testWriter.out ++ [0x48]) ∧
    exec .acInit (testReader.setInp ([0x48] ++ [9])) = .next (after .acInit (testReader.setInp ([0x48] ++ [9]))) ∧
    (decodeStream testStream (after .acInit (testReader.setInp ([0x48] ++ [9])))).map (fun r => r.1) = some [1, 0, 1] :=
  ⟨⟨rfl, rfl, testStream_codable, by decide, by decide, .inr (by decide)⟩, rfl, by decide +kernel, rfl, by decide +kernel⟩

theorem witness_RleControlCommands :
    State.reset.ready ∧ State.reset.rle.queue = [] ∧ testBusy.rle.queue = 4 :: [0, 3] ∧
    (State.reset.rle.phase = .prefixPhase ∧ State.reset.rle.depth = 0) ∧ testBusy.rle.phase = .suffixPhase := by decide

theorem witness_RleEncoderCommands :
    (testRuns 4).ready ∧ (testRuns 4).rle.run ≠ 2 ^ 62 - 1 ∧
    (State.reset.setRle { RleUnit.reset with run := 2 ^ 62 - 1 }).rle.run = 2 ^ 62 - 1 ∧
    (testRuns 4).rle.queue.length + (runCode (testRuns 4).rle.m.toNat (testRuns 4).rle.run).length ≤ 256 ∧
    256 < (List.replicate 256 (0 : Sym)).length + (runCode 4 0).length := by decide +kernel

theorem witness_RunWordGrammar : 1 ≤ 4 ∧ 3 < 4 ∧ 4 ≤ 4 := by decide

theorem witness_RunWordLength :
    (1 ≤ 4 ∧ wordBound 4 1 ≤ 4 ∧ 4 < wordBound 4 2) ∧ (2 ≤ 2 ∧ 2 ^ 62 - 1 ≤ 2 ^ 62 - 1) := by decide

theorem witness_DsymParsesOneSymbol :
    ((testRuns 4).ready ∧ (testRuns 4).rle.phase = .prefixPhase ∧ (4 : Sym) = (testRuns 4).rle.m ∧
      (testRuns 4).rle.depth ≠ 2 ^ 62 - 1) ∧
    ((3 : Sym).toNat < (testRuns 4).rle.m.toNat ∧ (testRuns 4).rle.depth = 0) ∧
    (0 < (after (.rleDsym 4) (testRuns 4)).rle.depth ∧ (after (.rleDsym 4) (testRuns 4)).rle.phase = .prefixPhase) ∧
    (testBusy.rle.phase = .suffixPhase ∧ (3 : Sym).toNat < testBusy.rle.m.toNat ∧
      (testBusy.rle.vacc + 1) * testBusy.rle.m.toNat + (3 : Sym).toNat ≤ 2 ^ 62 - 1 ∧ testBusy.rle.depth = 1) ∧
    (2 ≤ ({ testBusy.rle with depth := 2 } : RleUnit).depth) := by decide

theorem witness_DsymErrors :
    ((testRuns 4).ready ∧ (testRuns 4).rle.m.toNat < (5 : Sym).toNat) ∧
    (testBusy.ready ∧ testBusy.rle.phase = .suffixPhase ∧ (4 : Sym) = testBusy.rle.m) ∧
    (({ (testRuns 4).rle with depth := 2 ^ 62 - 1 } : RleUnit).phase = .prefixPhase ∧
      ({ (testRuns 4).rle with depth := 2 ^ 62 - 1 } : RleUnit).depth = 2 ^ 62 - 1) ∧
    (2 ^ 62 - 1 < (({ testBusy.rle with vacc := 2 ^ 62 - 1 } : RleUnit).vacc + 1) * testBusy.rle.m.toNat + (0 : Sym).toNat ∧
      (0 : Sym).toNat < testBusy.rle.m.toNat) := by decide

theorem witness_RunWordDecodes :
    (testRuns 4).ready ∧ 1 ≤ (testRuns 4).rle.m.toNat ∧ 2 ^ 62 - 1 ≤ 2 ^ 62 - 1 ∧ (testRuns 4).rle.phase = .prefixPhase ∧
    (testRuns 4).rle.depth = 0 := by decide

theorem witness_AcceptedSymbolsAreRunWords :
    (testRuns 4).ready ∧ 1 ≤ (testRuns 4).rle.m.toNat ∧ (testRuns 4).rle.phase = .prefixPhase ∧ (testRuns 4).rle.depth = 0 ∧
    (execResults (([4, 0, 3, 2] : List Sym).map .rleDsym) (testRuns 4)).map
      (fun r => (r.2.latch.err, r.2.rle.phase, r.2.rle.depth)) = some (.none, .prefixPhase, 0) := by decide

theorem witness_BinaryArrayRoundTrip :
    (testRuns 1).ready ∧ 1 ≤ (testRuns 1).rle.m.toNat ∧ (testRuns 1).rle.run = 0 ∧ (testRuns 1).rle.queue = [] ∧
    (testRuns 1).rle.phase = .prefixPhase ∧ (testRuns 1).rle.depth = 0 ∧ (testRuns 1).rle.first = true ∧
    (let bits : List (BitVec 1) := List.replicate 127 0 ++ [1] ++ List.replicate 127 0
     (∀ l ∈ runsFrom 0 bits, l ≤ 2 ^ 62 - 1) ∧ (testRuns 1).rle.m = 1 ∧ ∀ l ∈ runsFrom 0 bits, l ≤ 127) := by decide +kernel

theorem witness_FieldCommands :
    ((testField 4 3 0x312310 [(11, 2)]).ready ∧ (testField 4 3 0x312310 [(11, 2)]).prd.field.wf ∧
      ((0x00020003 : Word64).extractLsb' 0 16).toNat < 4 ∧ ((0x00020003 : Word64).extractLsb' 16 16).toNat < 3) ∧
    (4 ≤ ((0x00000004 : Word64).extractLsb' 0 16).toNat ∧ (testField 4 3 0x312310 []).prd.cfg.extractLsb' 4 2 = 1 ∧
      (testField 4 3 0x312300 []).prd.cfg.extractLsb' 4 2 = 0) := by decide

theorem witness_CursorCommands :
    (testPass.ready ∧ testPass.prd.pos < testPass.prd.width.toNat * testPass.prd.height.toNat ∧ testPass.prd.field.wf) ∧
    (let s := testPass.setPrd { testPass.prd with pos := 12 }
     s.prd.width.toNat * s.prd.height.toNat ≤ s.prd.pos) ∧
    (Instr.pxDec .sub 3).opcode ∈ [0x33#8, 0x34#8, 0x35#8, 0x36#8] := by decide

theorem witness_ForeseeAndLearnByKind :
    testPass.prd.cfg.extractLsb' 0 2 = 3 ∧ testPass.prd.cfg.extractLsb' 2 2 = 1 ∧
    (PrdUnit.reset.cfg.extractLsb' 0 2 = 0 ∧ PrdUnit.reset.cfg.extractLsb' 2 2 = 0) ∧
    (0x312311#23).extractLsb' 0 2 = 1 ∧ (0x312316#23).extractLsb' 0 2 = 2 ∧
    ({ PrdUnit.reset with cfg := 0x312306 } : PrdUnit).fixedKey = none ∧
    (∃ key e, ({ PrdUnit.reset with cfg := 0x312316, ctx := [(0xFF000000000000000000000000000000, CtxEntry.fresh)] } : PrdUnit).fixedKey = some key ∧
      CtxStore.find [(0xFF000000000000000000000000000000, CtxEntry.fresh)] key = some e) ∧
    (∃ key e, ({ PrdUnit.reset with cfg := 0x312313 } : PrdUnit).hashKey 2 = some key ∧
      CtxStore.find [(0x02000000000000000000000000000000, CtxEntry.fresh)] key = some e) := by
  refine ⟨by decide, by decide, by decide, by decide, by decide, by decide, ⟨0xFF000000000000000000000000000000, CtxEntry.fresh, ?_, ?_⟩,
    ⟨0x02000000000000000000000000000000, CtxEntry.fresh, ?_, ?_⟩⟩ <;> decide +kernel

theorem witness_CounterUpdateAndVote :
    ({ c0 := 1, c1 := 0, c2 := 0, c3 := 0, sat := true } : CtxEntry).sat = true ∧
    ({ c0 := 4095, c1 := 0, c2 := 0, c3 := 2047, sat := false } : CtxEntry).count 0 = 4095 ∧
    ({ c0 := 4095, c1 := 0, c2 := 0, c3 := 2047, sat := false } : CtxEntry).count 3 = 2047 ∧
    CtxEntry.fresh.sat = false ∧ CtxEntry.fresh.count 3 ≠ 2047 := by decide

theorem witness_ObserveStoresEntries :
    testPass.prd.ctx.wf ∧ testPass.prd.ctx.find 7 = none ∧ testPass.prd.ctx.length ≠ 2 ^ 20 ∧
    (testPass.prd.ctx.find 5).isSome = true ∧ (7 : CtxKey) ≠ 5 ∧
    (∃ t, exec (.prdLearn 1) testPass = .next t) ∧ Instr.prdLearn 1 ≠ .prdInit ∧ Instr.prdLearn 1 ≠ .srst :=
  ⟨by decide, by decide, by decide, by decide, by decide, ⟨_, rfl⟩, by decide, by decide⟩

theorem witness_HorzVertRule :
    (testPass.prd.pos < testPass.prd.width.toNat * testPass.prd.height.toNat ∧ testPass.prd.cfg.extractLsb' 4 2 = 0 ∧
      0 < testPass.prd.pos % testPass.prd.width.toNat ∧ 0 < testPass.prd.pos / testPass.prd.width.toNat) ∧
    (0 < 3 % 4 ∧ 3 / 4 = 0) ∧ (8 % 4 = 0 ∧ 0 < 8 / 4) ∧ (0 % 4 = 0 ∧ 0 / 4 = 0) ∧ PrdUnit.reset.cfg.extractLsb' 4 2 = 1 ∧
    (3 < testPass.prd.width.toNat ∧ 2 < testPass.prd.height.toNat) ∧
    ((-1 : Int) < 0 ∧ (testPass.prd.width.toNat : Int) ≤ 4 ∧ (testPass.prd.height.toNat : Int) ≤ 3) ∧ testPass.ready := by decide

theorem witness_KeysKeepContextsApart :
    (∃ vs, (PrdUnit.reset.gather (fixedOffsets PrdUnit.reset.cfg) = some vs ∧ vs.length ≤ 60) ∧
      (PrdUnit.reset.fixedKey).isSome = true) ∧
    (∃ vs, testPass.prd.gather (testPass.prd.shapeOffsets 2) = some vs ∧ (testPass.prd.hashKey 2).isSome = true) ∧
    testPass.prd.gather (testPass.prd.shapeOffsets 0) = none ∧
    ({ testPass.prd with pos := 0 } : PrdUnit).gather (fixedOffsets testPass.prd.cfg) = none ∧
    testPass.prd.shapeLen[0].toNat ≤ 16 ∧ (11 : Fin 16).val < testPass.prd.shapeLen[0].toNat ∧
    ([1, 2, 3, 4, 5, 6, 7] : List Byte).length = ([1, 2, 3, 4, 5, 6, 8] : List Byte).length ∧
    ([1, 2, 3, 4, 5, 6, 7] : List Byte).length ≤ 7 ∧ (0 : Fin 4) ≠ 1 :=
  ⟨⟨_, ⟨rfl, by decide⟩, by decide⟩, ⟨_, rfl, by decide +kernel⟩, by decide, by decide, by decide, by decide, by decide, by decide,
    by decide⟩

theorem witness_PredictionIsCausal :
    (∀ (k : Fin 4) (i : Fin 16), cellCausal testPass.prd.shapeCell[k][i] = true) ∧ testPass.prd.field.wf ∧ testPass.prd.pos ≤ 6 ∧
    PredictAlike testPass.prd { testPass.prd with field := [(0, 1), (5, 2)] } := by
  refine ⟨by decide, by decide, by decide, ⟨rfl, rfl, rfl, rfl, rfl, rfl, rfl, rfl, ?_⟩⟩
  decide

/-- A second unit with the first one's configuration, in another place of another pass. -/
def testOtherSide : State :=
  testWriter.setPrd { testPass.prd with field := [(3, 2)], pos := 3, ctx := [], ctxFull := true }

theorem witness_TransformPassInverts :
    testPass.ready ∧ testOtherSide.ready ∧ PrdInv testPass.prd ∧ testPass.prd.field.wf ∧ testOtherSide.prd.field.wf ∧
    testOtherSide.prd.width = testPass.prd.width ∧ testOtherSide.prd.height = testPass.prd.height ∧
    testOtherSide.prd.cfg = testPass.prd.cfg ∧ testOtherSide.prd.shapeLen = testPass.prd.shapeLen ∧
    testOtherSide.prd.shapeCell = testPass.prd.shapeCell :=
  ⟨rfl, rfl, testPass_prdInv, by decide, by decide, rfl, rfl, rfl, rfl, rfl⟩

theorem witness_QuantisationLaws : 30 < 31 ∧ 31 ≤ 31 := by decide

theorem witness_FreqTableRoundTrip :
    testWriter.ready ∧ testReader.ready ∧ testWriter.ac.freq.wf ∧ testReader.ac.freq.wf ∧
    (∀ q : Fin 32, (Vector.replicate 32 (1 : Word64))[q] ≠ 0) ∧
    ((Vector.replicate 32 (1 : Word64)).toList.map BitVec.toNat).sum ≤ 2 ^ 30 ∧ ([0, 5, 31, 100, 62] : List Nat).length < 2 ^ 58 := by
  decide

end Sys2Proof.Machine
end

section
/-! The host side: a step at a write to CMD, and a command word put in front of the host's actions. -/

namespace Sys2Proof.Machine

/-- A word that selects a command runs it (30_encoding R95). -/
theorem writeCommand_of_decode {w : Word32} {i : Instr} (h : decode w = .ok i) (s : State) : writeCommand w s = exec i s := by
  simp [writeCommand, h]

/-- A 64-bit write at offset 0x00 is a write to CMD, whose upper half is ignored (20_memory R71). -/
theorem perform_write_cmd (v : Word64) (s : State) : perform (.windowWrite 0x00 8 v) s = writeCommand (v.setWidth 32) s := rfl

/-- With a write to CMD to come, a step runs the command its low half selects (20_memory R72, R84). -/
theorem step_of_write_cmd {s : State} {v : Word64} {rest : List HostAction} {i : Instr} (hp : s.pending = .windowWrite 0x00 8 v :: rest)
    (hi : decode (v.setWidth 32) = .ok i) : step s = exec i ((s.setPending rest).setReply .nothing) := by
  rw [step_performs hp, perform_write_cmd, writeCommand_of_decode hi]

/-- A command word passes through the 64-bit CMD register unchanged. -/
theorem setWidth_cmd_word (w : Word32) : (w.setWidth 64).setWidth 32 = w := by
  rw [BitVec.setWidth_setWidth_of_le w (by decide), BitVec.setWidth_eq]

@[simp] theorem issueWord_pending (w : Word32) (s : State) :
    (issueWord w s).pending = .windowWrite 0x00 8 (w.setWidth 64) :: s.pending := rfl

/-- Taking the issued word off the list again gives back the state it was put into. -/
@[simp] theorem issueWord_setPending (w : Word32) (s : State) (as : List HostAction) :
    (issueWord w s).setPending as = s.setPending as := rfl

/-- A step from a state with a command word in front runs its command, at the state without it. -/
theorem step_issueWord {w : Word32} {i : Instr} (hi : decode w = .ok i) (s : State) :
    step (issueWord w s) = exec i (s.setReply .nothing) := by
  have hdec : decode ((w.setWidth 64).setWidth 32) = .ok i := by rw [setWidth_cmd_word, hi]
  rw [step_of_write_cmd (issueWord_pending w s) hdec, issueWord_setPending, State.setPending_same]

/-- What the table's reading of a word's bits says of the decoder. -/
theorem decodeTableWord_eq_some {nbits w : Nat} {i : Instr} :
    decodeTableWord nbits w = some i ↔ decode (BitVec.ofNat 32 (w % 2 ^ nbits)) = .ok i := by
  unfold decodeTableWord
  cases decode (BitVec.ofNat 32 (w % 2 ^ nbits)) <;> simp

/-- Settles O4: the host's write is performed by the step, and `State.withFetchWord` is such a write. -/
theorem stepRunsCommandWritten : Obligations.StepRunsCommandWritten := by
  unfold Obligations.StepRunsCommandWritten
  constructor
  · intro s v rest i hp hi
    exact step_of_write_cmd hp hi
  · intro s nbits w i hi
    exact step_issueWord (decodeTableWord_eq_some.mp hi) s

end Sys2Proof.Machine
end

section
/-! The effect of each command, and the one way `exec` uses it. -/

namespace Sys2Proof.Machine

/-- The effect of each command on a state, before the latch gate and error entry (60_exceptions R246, R247) act on it. -/
def commandEffect (i : Instr) (s : State) : Except Raised State :=
  match i with
  | .nop => .ok s
  | .csrr n => readControl n s
  | .csrw n => writeControl n s
  | .srst => .ok (resetEngine s)
  | .acInit => .ok (s.setAc s.ac.init)
  | .acEnc sym => encodeSymbol sym s
  | .acDec => decodeSymbol s
  | .acFlush => flushCoder s
  | .freqWr sym => .ok (s.setAc { s.ac with freq := s.ac.freq.write sym.toNat s.arg })
  | .freqRd sym => .ok (s.setRes (s.ac.freq.read sym.toNat))
  | .freqClr => .ok (s.setAc { s.ac with freq := [] })
  | .cumRd sym => readCumulative sym s
  | .rleInit => .ok (s.setRle s.rle.init)
  | .rleEbit b => encodeBit b s
  | .rleEend => emitRun s
  | .rlePop => .ok (popSymbol s)
  | .rleDsym sym => parseSymbol sym s
  | .rleDend => endRuns s
  | .prdInit => .ok (s.setPrd { s.prd with ctx := [], ctxFull := false, pos := 0 })
  | .fldWr v => writeField v s
  | .fldRd => readField s
  | .prdForesee => atCursor s (s.setRes ((foresee s.prd).setWidth 64))
  | .prdLearn v => atCursor s (s.setPrd (s.prd.record v))
  | .pxEnc m => atCursor s (encodePixel m s)
  | .pxDec m r => atCursor s (decodePixel m r s)

/-- Every command runs its effect through `runCommand`. -/
theorem exec_eq_runCommand (i : Instr) (s : State) : exec i s = runCommand i s (commandEffect i s) := by
  cases i <;> rfl

/-- A command with the latch clear whose effect completes. -/
theorem exec_of_effect_ok {i : Instr} {s t : State} (hs : s.ready) (h : commandEffect i s = .ok t) : exec i s = .next t := by
  rw [exec_eq_runCommand, runCommand_ready hs, h]

/-- A command with the latch clear whose effect raises an error: the latch takes it, with the command's word (60_exceptions R246). -/
theorem exec_of_effect_error {i : Instr} {s : State} {e : Raised} (hs : s.ready) (h : commandEffect i s = .error e) :
    exec i s = .next (s.raised e (encode i)) := by
  rw [exec_eq_runCommand, runCommand_ready hs, h]
  rfl

/-- Everything `exec` can do: nothing under the latch, the command's effect, or its error in the latch. -/
theorem exec_cases {i : Instr} {s t : State} (h : exec i s = .next t) :
    (s.latch.err ≠ .none ∧ t = s) ∨ commandEffect i s = .ok t ∨
      (∃ e, commandEffect i s = .error e ∧ s.ready ∧ t = s.raised e (encode i)) :=
  runCommand_cases (exec_eq_runCommand i s ▸ h)

/-! ### What the effects leave of the host's registers and fields (10_state R31, R32) -/

/-- The host's side of the state is kept: ARG, RES and the model's own host fields. -/
structure HostSideKept (s t : State) : Prop where
  arg : t.arg = s.arg
  res : t.res = s.res
  pending : t.pending = s.pending
  reply : t.reply = s.reply

theorem HostSideKept.refl (s : State) : HostSideKept s s := ⟨rfl, rfl, rfl, rfl⟩

theorem HostSideKept.setAc (s : State) (a : AcUnit) : HostSideKept s (s.setAc a) := ⟨rfl, rfl, rfl, rfl⟩

theorem HostSideKept.setRle (s : State) (r : RleUnit) : HostSideKept s (s.setRle r) := ⟨rfl, rfl, rfl, rfl⟩

theorem HostSideKept.setPrd (s : State) (p : PrdUnit) : HostSideKept s (s.setPrd p) := ⟨rfl, rfl, rfl, rfl⟩

theorem HostSideKept.raised (s : State) (e : Raised) (w : Word32) : HostSideKept s (s.raised e w) := ⟨rfl, rfl, rfl, rfl⟩

/-- The coder's operations keep the host's side. -/
theorem CoderStep.hostSideKept {s t : State} (h : CoderStep s t) : HostSideKept s t := ⟨h.arg, h.res, h.pending, h.reply⟩

/-- Kept but for RES: the host's side after a command that answers in RES. -/
abbrev HostSideButRes (s t : State) : Prop := HostSideKept (s.setRes t.res) t

theorem HostSideKept.setRes {s t : State} (h : HostSideKept s t) (v : Word64) : HostSideButRes s (t.setRes v) :=
  ⟨h.arg, rfl, h.pending, h.reply⟩

theorem csrWrite_hostSide (c : Csr) (v : Word64) (s : State) : HostSideKept s (csrWrite c v s) := by
  rw [csrWrite_frame]
  exact ⟨rfl, rfl, rfl, rfl⟩

theorem readControl_hostSide {n : BitVec 8} {s t : State} (h : readControl n s = .ok t) : HostSideButRes s t := by
  unfold readControl at h
  split at h
  · cases h
  · cases h
    exact (HostSideKept.refl s).setRes _

theorem writeControl_hostSide {n : BitVec 8} {s t : State} (h : writeControl n s = .ok t) : HostSideKept s t := by
  unfold writeControl at h
  split at h
  · cases h
  · split at h
    · cases h
    · split at h
      · cases h
      · cases h
        exact csrWrite_hostSide _ _ s

theorem readCumulative_hostSide {sym : Sym} {s t : State} (h : readCumulative sym s = .ok t) : HostSideButRes s t := by
  unfold readCumulative at h
  split at h
  · cases h
  · cases h
    exact (HostSideKept.refl s).setRes _

theorem emitRun_hostSide {s t : State} (h : emitRun s = .ok t) : HostSideKept s t := by
  rcases emitRun_cases s with ⟨-, he⟩ | ⟨-, he⟩ <;> rw [he] at h
  · cases h
    exact HostSideKept.setRle s _
  · cases h

theorem encodeBit_hostSide {b : BitVec 1} {s t : State} (h : encodeBit b s = .ok t) : HostSideKept s t := by
  unfold encodeBit at h
  split at h
  · split at h
    · cases h
    · cases h
      exact HostSideKept.setRle s _
  · exact emitRun_hostSide h

theorem popSymbol_hostSide (s : State) : HostSideButRes s (popSymbol s) := by
  unfold popSymbol
  split
  · exact (HostSideKept.refl s).setRes _
  · exact (HostSideKept.setRle s _).setRes _

theorem finishRun_hostSide (vacc : Nat) (r : RleUnit) (s : State) : HostSideButRes s (finishRun vacc r s) :=
  (HostSideKept.setRle s _).setRes _

theorem parsePrefix_hostSide {sym : Sym} {s t : State} (h : parsePrefix sym s = .ok t) : HostSideButRes s t := by
  unfold parsePrefix at h
  simp only at h
  split at h
  · split at h
    · cases h
    · cases h
      exact (HostSideKept.setRle s _).setRes _
  · split at h
    · cases h
      exact finishRun_hostSide _ _ s
    · cases h
      exact (HostSideKept.setRle s _).setRes _

theorem parseSuffix_hostSide {sym : Sym} {s t : State} (h : parseSuffix sym s = .ok t) : HostSideButRes s t := by
  unfold parseSuffix at h
  simp only at h
  split at h
  · cases h
  · split at h
    · cases h
    · split at h
      · cases h
        exact finishRun_hostSide _ _ s
      · cases h
        exact (HostSideKept.setRle s _).setRes _

theorem parseSymbol_hostSide {sym : Sym} {s t : State} (h : parseSymbol sym s = .ok t) : HostSideButRes s t := by
  unfold parseSymbol at h
  split at h
  · cases h
  · split at h
    · exact parsePrefix_hostSide h
    · exact parseSuffix_hostSide h

theorem endRuns_hostSide {s t : State} (h : endRuns s = .ok t) : HostSideKept s t := by
  unfold endRuns at h
  split at h
  · cases h
  · cases h
    exact HostSideKept.setRle s _

theorem writeField_hostSide {v : Colour} {s t : State} (h : writeField v s = .ok t) : HostSideKept s t := by
  unfold writeField at h
  split at h
  · cases h
    exact HostSideKept.setPrd s _
  · cases h

theorem readField_hostSide {s t : State} (h : readField s = .ok t) : HostSideButRes s t := by
  unfold readField at h
  split at h
  · cases h
    exact (HostSideKept.refl s).setRes _
  · split at h
    · cases h
      exact (HostSideKept.refl s).setRes _
    · cases h

/-- A cursor command that completes has its effect. -/
theorem atCursor_eq_ok {s t u : State} (h : atCursor s t = .ok u) : u = t := by
  rcases atCursor_cases s t with ⟨-, ha⟩ | ⟨-, ha⟩ <;> rw [ha] at h
  · cases h
    rfl
  · cases h

/-! ### The writers of RES -/

/-- The commands that answer in RES (10_state R32). -/
def writesRes : Instr → Bool
  | .csrr _ | .acDec | .freqRd _ | .cumRd _ | .rlePop | .rleDsym _ | .fldRd | .prdForesee | .pxEnc _ | .pxDec _ _ => true
  | .nop | .csrw _ | .srst | .acInit | .acEnc _ | .acFlush | .freqWr _ | .freqClr | .rleInit | .rleEbit _ | .rleEend | .rleDend
  | .prdInit | .fldWr _ | .prdLearn _ => false

/-- The commands that answer in RES are known by their opcodes. -/
theorem writesRes_iff_opcode (i : Instr) : writesRes i = true ↔
    i.opcode ∈ [0x01#8, 0x12#8, 0x15#8, 0x17#8, 0x23#8, 0x24#8, 0x32#8, 0x33#8, 0x35#8, 0x36#8] := by
  cases i <;> simp [writesRes, Instr.opcode]

/-- The effect of every command but SRST keeps the host's side, but for RES if the command answers there. -/
theorem commandEffect_hostSide {i : Instr} {s t : State} (hi : i ≠ .srst) (h : commandEffect i s = .ok t) :
    HostSideKept s t ∨ (writesRes i = true ∧ HostSideButRes s t) := by
  cases i with
  | srst => exact absurd rfl hi
  | nop => cases h; exact .inl (.refl s)
  | csrr n => exact .inr ⟨rfl, readControl_hostSide h⟩
  | csrw n => exact .inl (writeControl_hostSide h)
  | acInit => cases h; exact .inl (.setAc s _)
  | acEnc sym => exact .inl (encodeSymbol_step h).hostSideKept
  | acDec => exact .inr ⟨rfl, (decodeSymbol_step h).hostSideKept⟩
  | acFlush => exact .inl (flushCoder_step h).hostSideKept
  | freqWr sym => cases h; exact .inl (.setAc s _)
  | freqRd sym => cases h; exact .inr ⟨rfl, (HostSideKept.refl s).setRes _⟩
  | freqClr => cases h; exact .inl (.setAc s _)
  | cumRd sym => exact .inr ⟨rfl, readCumulative_hostSide h⟩
  | rleInit => cases h; exact .inl (.setRle s _)
  | rleEbit b => exact .inl (encodeBit_hostSide h)
  | rleEend => exact .inl (emitRun_hostSide h)
  | rlePop => cases h; exact .inr ⟨rfl, popSymbol_hostSide s⟩
  | rleDsym sym => exact .inr ⟨rfl, parseSymbol_hostSide h⟩
  | rleDend => exact .inl (endRuns_hostSide h)
  | prdInit => cases h; exact .inl (.setPrd s _)
  | fldWr v => exact .inl (writeField_hostSide h)
  | fldRd => exact .inr ⟨rfl, readField_hostSide h⟩
  | prdForesee => cases atCursor_eq_ok h; exact .inr ⟨rfl, (HostSideKept.refl s).setRes _⟩
  | prdLearn v => cases atCursor_eq_ok h; exact .inl (.setPrd s _)
  | pxEnc m => cases atCursor_eq_ok h; exact .inr ⟨rfl, (HostSideKept.setPrd s _).setRes _⟩
  | pxDec m r => cases atCursor_eq_ok h; exact .inr ⟨rfl, (HostSideKept.setPrd s _).setRes _⟩

/-- Settles O10: an effect, error entry and the latch gate each keep the host's side, but for RES where the command answers there. -/
theorem argAndResWriters : Obligations.ArgAndResWriters := by
  unfold Obligations.ArgAndResWriters
  intro i s t h hi
  have kept : HostSideKept s t ∨ (writesRes i = true ∧ HostSideButRes s t) := by
    rcases exec_cases h with ⟨-, rfl⟩ | heff | ⟨e, -, -, rfl⟩
    · exact .inl (.refl t)
    · exact commandEffect_hostSide hi heff
    · exact .inl (.raised s e _)
  rcases kept with ⟨harg, hres, hpending, hreply⟩ | ⟨hw, harg, -, hpending, hreply⟩
  · exact ⟨harg, hpending, hreply, fun _ => hres⟩
  · exact ⟨harg, hpending, hreply, fun hop => absurd ((writesRes_iff_opcode i).mp hw) hop⟩

end Sys2Proof.Machine
end

section
/-! The numbers of the control registers (10_state R61, R62). -/

namespace Sys2Proof

/-- The unassigned numbers are the holes 0x16-0x1F, 0x28-0x3F and 0x80-0xFF (10_state R61). -/
theorem Csr.ofNumber_eq_none_iff (n : BitVec 8) : Csr.ofNumber n = none ↔
    (0x16 ≤ n.toNat ∧ n.toNat ≤ 0x1F) ∨ (0x28 ≤ n.toNat ∧ n.toNat ≤ 0x3F) ∨ 0x80 ≤ n.toNat := by
  have hn : n.toNat < 256 := n.isLt
  unfold Csr.ofNumber
  split
  case h_31 =>
    split
    · simp only [reduceCtorEq, false_iff]
      omega
    · simp only [imp_false, true_iff] at *
      omega
  all_goals
    simp only [reduceCtorEq, false_iff]
    omega

/-- The register of a number has that number. -/
theorem Csr.number_of_ofNumber {n : BitVec 8} {c : Csr} (h : Csr.ofNumber n = some c) : c.number = n := by
  apply BitVec.eq_of_toNat_eq
  unfold Csr.ofNumber at h
  split at h
  case h_31 =>
    split at h
    · cases h
      simp only [Csr.number, BitVec.toNat_ofNat, Fin.val_ofNat]
      omega
    · cases h
  all_goals
    rename_i hn
    cases h
    exact hn.symm

/-- Each register is found under its number. -/
theorem Csr.ofNumber_number (c : Csr) : Csr.ofNumber c.number = some c := by
  cases c with
  | shapeLen k => revert k; decide
  | shapeCell k i => revert k i; decide
  | _ => rfl

/-- The read-write registers are those whose numbers R62 marks so (10_state R62, the access column). -/
theorem csrWritable_iff_number (c : Csr) : Machine.csrWritable c = true ↔
    c.number ∈ [0x04#8, 0x05#8, 0x06#8, 0x10#8, 0x20#8, 0x21#8] ∨ (0x24 ≤ c.number.toNat ∧ c.number.toNat ≤ 0x27) ∨
      (0x40 ≤ c.number.toNat ∧ c.number.toNat ≤ 0x7F) := by
  cases c with
  | shapeLen k => revert k; decide
  | shapeCell k i => revert k i; decide
  | _ => decide

end Sys2Proof
end

section
/-! The legal values of the control registers, what CSRR and CSRW can do, and reading back what was written (10_state R42 to R62,
40_control R111, R112). -/

namespace Sys2Proof.Machine

/-! ### Values that fit a field -/

/-- A value below 2^k is one whose bits from k on are 0. -/
theorem toNat_lt_iff_high_bits_zero (v : Word64) {k m : Nat} (hkm : k + m = 64) : v.toNat < 2 ^ k ↔ v.extractLsb' k m = 0 := by
  have hv : v.toNat < 2 ^ k * 2 ^ m := by rw [← pow_add, hkm]; exact v.isLt
  have hdiv : v.toNat / 2 ^ k < 2 ^ m := Nat.div_lt_of_lt_mul hv
  have hfield : (v.extractLsb' k m).toNat = v.toNat / 2 ^ k := by
    rw [BitVec.extractLsb'_toNat, Nat.shiftRight_eq_div_pow, Nat.mod_eq_of_lt hdiv]
  have hzero : (0 : BitVec m).toNat = 0 := BitVec.toNat_zero
  rw [← BitVec.toNat_inj, hfield, hzero, Nat.div_eq_zero_iff_lt (by positivity)]

/-- A value that fits a register's width is read back whole. -/
theorem setWidth_back_of_lt {v : Word64} {k : Nat} (h : v.toNat < 2 ^ k) : (v.setWidth k).setWidth 64 = v := by
  apply BitVec.eq_of_toNat_eq
  rw [BitVec.toNat_setWidth, BitVec.toNat_setWidth, Nat.mod_eq_of_lt h, Nat.mod_eq_of_lt v.isLt]

/-- A value below 2^32 is its two halves put together. -/
theorem append_halves_of_lt {v : Word64} (h : v.toNat < 2 ^ 32) : 0#32 ++ v.extractLsb' 16 16 ++ v.extractLsb' 0 16 = v := by
  have hz : 0#32 = v.extractLsb' 32 32 := ((toNat_lt_iff_high_bits_zero v (by decide)).mp h).symm
  calc 0#32 ++ v.extractLsb' 16 16 ++ v.extractLsb' 0 16
      = v.extractLsb' 16 48 ++ v.extractLsb' 0 16 := by
        rw [hz, BitVec.extractLsb'_append_extractLsb'_eq_extractLsb' (by decide)]
    _ = v := BitVec.extractLsb'_append_extractLsb'

/-! ### Legal values -/

/-- The check that CSRW makes passes exactly the values that R42 to R60 list. -/
theorem csrLegal_iff (c : Csr) (v : Word64) : csrLegal c v = true ↔ LegalCsrValue c v := by
  cases c with
  | fldDim =>
    simp only [csrLegal, Bool.and_eq_true, decide_eq_true_eq]
    simp only [LegalCsrValue, argX, argY, Config.fieldCap, toNat_lt_iff_high_bits_zero v (show 32 + 32 = 64 from rfl)]
    tauto
  | prdCfg =>
    simp only [csrLegal, cfgLegal, Bool.and_eq_true, decide_eq_true_eq]
    simp only [LegalCsrValue, cfgFallback, cfgOobMode, cfgFixW, cfgFixH, cfgShapes, cfgFixCells, cfgFixXpos, Config.fixMaxCells,
      toNat_lt_iff_high_bits_zero v (show 23 + 41 = 64 from rfl), BitVec.extractLsb'_setWidth_of_le, Nat.reduceAdd,
      Nat.reduceLeDiff]
    tauto
  | shapeCell k i =>
    simp [csrLegal, LegalCsrValue, cellCausal, cellDx, cellDy, BitVec.extractLsb'_setWidth_of_le]
  | _ => simp [csrLegal, LegalCsrValue]

/-- Only a read-write register has legal values. -/
theorem csrWritable_of_legal {c : Csr} {v : Word64} (h : LegalCsrValue c v) : csrWritable c = true := by
  cases c with
  | acNsym | acTerm | acSections | rleM | fldDim | prdCfg | shapeLen | shapeCell => rfl
  | _ => exact h.elim

/-! ### CSRR and CSRW -/

theorem readControl_unassigned {n : BitVec 8} (h : Csr.ofNumber n = none) (s : State) :
    readControl n s = .error (.illegalCommand (encode (.csrr n))) := by simp only [readControl, h]

theorem readControl_assigned {n : BitVec 8} {c : Csr} (h : Csr.ofNumber n = some c) (s : State) :
    readControl n s = .ok (s.setRes (csrRead c s)) := by simp only [readControl, h]

/-- CSRR of an assigned number answers in every state, latched or not (60_exceptions R247). -/
theorem exec_csrr_assigned {n : BitVec 8} {c : Csr} (h : Csr.ofNumber n = some c) (s : State) :
    exec (.csrr n) s = .next (s.setRes (csrRead c s)) := by
  have hopen : opcodeRunsLatched (Instr.csrr n).opcode = true := rfl
  simp only [exec_eq_runCommand, runCommand, hopen, commandEffect, readControl_assigned h, Bool.not_true, Bool.and_false,
    Bool.false_eq_true, if_false]

theorem writeControl_unassigned {n : BitVec 8} (h : Csr.ofNumber n = none) (s : State) :
    writeControl n s = .error (.illegalCommand (encode (.csrw n))) := by simp only [writeControl, h]

theorem writeControl_readOnly {n : BitVec 8} {c : Csr} (h : Csr.ofNumber n = some c) (hw : csrWritable c = false) (s : State) :
    writeControl n s = .error (.illegalCommand (encode (.csrw n))) := by simp [writeControl, h, hw]

theorem writeControl_illegalValue {n : BitVec 8} {c : Csr} {s : State} (h : Csr.ofNumber n = some c) (hw : csrWritable c = true)
    (hv : ¬LegalCsrValue c s.arg) : writeControl n s = .error (.configInvalid s.arg) := by
  have hl : csrLegal c s.arg = false := by simpa [← csrLegal_iff] using hv
  simp [writeControl, h, hw, hl]

theorem writeControl_legalValue {n : BitVec 8} {c : Csr} {s : State} (h : Csr.ofNumber n = some c)
    (hv : LegalCsrValue c s.arg) : writeControl n s = .ok (csrWrite c s.arg s) := by
  simp [writeControl, h, csrWritable_of_legal hv, (csrLegal_iff c s.arg).mpr hv]

/-- Everything CSRW can do, in the order of its checks (40_control R112). -/
theorem writeControl_cases (n : BitVec 8) (s : State) :
    ((Csr.ofNumber n = none ∨ ∃ c, Csr.ofNumber n = some c ∧ csrWritable c = false) ∧
      writeControl n s = .error (.illegalCommand (encode (.csrw n)))) ∨
    (∃ c, Csr.ofNumber n = some c ∧ csrWritable c = true ∧ ¬LegalCsrValue c s.arg ∧
      writeControl n s = .error (.configInvalid s.arg)) ∨
    (∃ c, Csr.ofNumber n = some c ∧ LegalCsrValue c s.arg ∧ writeControl n s = .ok (csrWrite c s.arg s)) := by
  cases hn : Csr.ofNumber n with
  | none => exact .inl ⟨.inl rfl, writeControl_unassigned hn s⟩
  | some c =>
    cases hw : csrWritable c with
    | false => exact .inl ⟨.inr ⟨c, rfl, hw⟩, writeControl_readOnly hn hw s⟩
    | true =>
      by_cases hv : LegalCsrValue c s.arg
      · exact .inr (.inr ⟨c, rfl, hv, writeControl_legalValue hn hv⟩)
      · exact .inr (.inl ⟨c, rfl, hw, hv, writeControl_illegalValue hn hw hv⟩)

/-- Settles O16: the numbering, register by register, and the checks of CSRR and CSRW in their order. -/
theorem csrAccessErrors : Obligations.CsrAccessErrors := by
  unfold Obligations.CsrAccessErrors
  refine ⟨fun n => ⟨Csr.ofNumber_eq_none_iff n, fun c => Csr.number_of_ofNumber⟩,
    fun c => ⟨Csr.ofNumber_number c, csrWritable_iff_number c⟩, fun s n hs => ⟨fun hn => ⟨?_, ?_⟩, ?_, ?_⟩⟩
  · exact exec_of_effect_error hs (readControl_unassigned hn s)
  · exact exec_of_effect_error hs (writeControl_unassigned hn s)
  · intro c hn hw
    exact exec_of_effect_error hs (writeControl_readOnly hn hw s)
  · intro c hn hw hv
    exact exec_of_effect_error hs (writeControl_illegalValue hn hw hv)

/-! ### Reading back what was written -/

/-- A legal value is taken whole: the register reads it back (10_state R61). -/
theorem csrRead_csrWrite {c : Csr} {v : Word64} (h : LegalCsrValue c v) (s : State) : csrRead c (csrWrite c v s) = v := by
  cases c with
  | acNsym => exact setWidth_back_of_lt (k := 17) (by obtain ⟨-, hv⟩ := h; omega)
  | acTerm => exact setWidth_back_of_lt (k := 16) (Nat.lt_succ_of_le h)
  | acSections => exact setWidth_back_of_lt h
  | rleM => exact setWidth_back_of_lt (k := 16) (by obtain ⟨-, hv⟩ := h; omega)
  | fldDim =>
    obtain ⟨-, -, -, hv⟩ := h
    exact append_halves_of_lt ((toNat_lt_iff_high_bits_zero v (by decide)).mpr hv)
  | prdCfg =>
    obtain ⟨-, -, -, -, -, hv, -⟩ := h
    exact setWidth_back_of_lt ((toNat_lt_iff_high_bits_zero v (by decide)).mpr hv)
  | shapeLen k =>
    have hv : v.toNat ≤ 16 := h
    have hread : csrRead (.shapeLen k) (csrWrite (.shapeLen k) v s) = (v.setWidth 5).setWidth 64 := by simp [csrRead, csrWrite]
    rw [hread, setWidth_back_of_lt (by omega)]
  | shapeCell k i =>
    obtain ⟨hv, -⟩ := h
    have hread : csrRead (.shapeCell k i) (csrWrite (.shapeCell k i) v s) = (v.setWidth 16).setWidth 64 := by
      simp [csrRead, csrWrite]
    rw [hread, setWidth_back_of_lt hv]
  | _ => exact h.elim

/-- Settles O17: a CSRW that raised nothing wrote a legal value, and a legal value reads back. -/
theorem csrwReadsBack : Obligations.CsrwReadsBack := by
  unfold Obligations.CsrwReadsBack
  intro n s t hs hexec ht
  rcases writeControl_cases n s with ⟨-, hw⟩ | ⟨c, -, -, -, hw⟩ | ⟨c, hn, hv, hw⟩
  · cases (exec_of_effect_error (i := .csrw n) hs hw).symm.trans hexec
    cases ht
  · cases (exec_of_effect_error (i := .csrw n) hs hw).symm.trans hexec
    cases ht
  · cases (exec_of_effect_ok (i := .csrw n) hs hw).symm.trans hexec
    rw [exec_csrr_assigned hn, csrRead_csrWrite hv]

end Sys2Proof.Machine
end

section
/-! The host window, the ports and the reset input: one host action at a time (20_memory R71 to R74, 70_reset R260). -/

namespace Sys2Proof.Machine

/-- Every write but the 64-bit ones of CMD and ARG is refused (20_memory R71). -/
theorem windowWrite_refused {offset bytes : Nat} (h : ¬(bytes = 8 ∧ (offset = 0x00 ∨ offset = 0x08))) (v : Word64) (s : State) :
    windowWrite offset bytes v s = .refused .windowAccess := by
  rcases windowWrite_cases offset bytes v s with ⟨hb, ho, -⟩ | ⟨hb, ho, -⟩ | ⟨-, hw⟩
  · exact absurd ⟨hb, .inl ho⟩ h
  · exact absurd ⟨hb, .inr ho⟩ h
  · exact hw

/-- Every read but the 64-bit ones of the four registers has no answer (20_memory R71). -/
theorem windowRead_eq_none {offset bytes : Nat}
    (h : ¬(bytes = 8 ∧ (offset = 0x00 ∨ offset = 0x08 ∨ offset = 0x10 ∨ offset = 0x18))) (s : State) :
    windowRead offset bytes s = none := by
  unfold windowRead
  split
  · rfl
  · split
    case h_5 => rfl
    all_goals omega

/-- A read with no answer is refused. -/
theorem perform_read_refused {offset bytes : Nat} {s : State} (h : windowRead offset bytes s = none) :
    perform (.windowRead offset bytes) s = .refused .windowAccess := by
  simp only [perform, h]

/-- Settles O8: the four registers answer as they are laid out, and what is left of the window is refused. -/
theorem hostWindowAccesses : Obligations.HostWindowAccesses := by
  unfold Obligations.HostWindowAccesses
  intro s
  refine ⟨fun v => perform_write_cmd v s, fun _ => rfl, rfl, rfl, rfl, rfl, ?_, ?_⟩
  · intro offset bytes v h
    exact windowWrite_refused h v s
  · intro offset bytes h
    exact perform_read_refused (windowRead_eq_none h s)

/-- The reset input leaves only OUT and the model's own fields (70_reset R260; log 6). -/
theorem systemReset_eq (s : State) : systemReset s =
    { State.reset with out := s.out, pending := s.pending, reply := s.reply, draws := s.draws } := rfl

/-- Settles O9: a step waits or performs the host's next action, and each action on the ports does what it is there for. -/
theorem portAndResetActions : Obligations.PortAndResetActions := by
  unfold Obligations.PortAndResetActions
  refine ⟨fun s => step_waits, fun s a rest => step_performs, fun _ _ => rfl, fun _ => rfl, ?_⟩
  intro s
  exact congrArg Host.Outcome.next (systemReset_eq s)

end Sys2Proof.Machine
end

section
/-! The coded bits of the ports, one bit at a time (20_memory R76, R77, R79). -/

namespace Sys2Proof.Machine

/-! ### The bits of a byte -/

/-- The first `k` bits of a byte, bit 7 first. -/
theorem byteBits_take {k : Nat} (h : k ≤ 8) (x : Byte) :
    (byteBits x).take k = (List.range k).map fun i => x.getLsbD (7 - i) := by
  rw [byteBits, ← List.map_take, List.take_range, Nat.min_eq_left h]

/-- With `n` bits of a byte still to come, the next one is bit `n - 1`. -/
theorem byteBits_drop_cons {n : Nat} (h0 : n ≠ 0) (h8 : n ≤ 8) (x : Byte) :
    (byteBits x).drop (8 - n) = x.getLsbD (n - 1) :: (byteBits x).drop (8 - (n - 1)) := by
  have hlen : 8 - n < (byteBits x).length := by simp only [byteBits, List.length_map, List.length_range]; omega
  have hbit : (byteBits x)[8 - n] = x.getLsbD (n - 1) := by
    simp only [byteBits, List.getElem_map, List.getElem_range]
    congr 1
    omega
  have hnext : 8 - n + 1 = 8 - (n - 1) := by omega
  rw [List.drop_eq_getElem_cons hlen, hbit, hnext]

/-! ### One bit out -/

/-- BITBUF with bit `b` put behind its `k` coded bits (20_memory R77). -/
def placeBit (b : Bool) (k : Nat) (buf : Byte) : Byte := buf ||| ((BitVec.ofBool b).setWidth 8 <<< (7 - k))

/-- Everything `outBit` can do: the eighth bit completes a byte of OUT, an earlier one stays in BITBUF. -/
theorem outBit_cases (b : Bool) (s : State) :
    (s.ac.bitCnt = 7 ∧
      outBit b s = (s.setAc { s.ac with bitBuf := 0, bitCnt := 0 }).setOut (s.out ++ [placeBit b s.ac.bitCnt s.ac.bitBuf])) ∨
    (s.ac.bitCnt ≠ 7 ∧
      outBit b s = s.setAc { s.ac with bitBuf := placeBit b s.ac.bitCnt s.ac.bitBuf, bitCnt := s.ac.bitCnt + 1 }) := by
  by_cases h : s.ac.bitCnt + 1 = 8
  · exact .inl ⟨by omega, if_pos h⟩
  · exact .inr ⟨by omega, if_neg h⟩

/-- The bit placed is ORed into bit `7 - k`; the other bits stay. -/
theorem placeBit_getLsbD (b : Bool) {k : Nat} (buf : Byte) {j : Nat} (hj : j < 8) :
    (placeBit b k buf).getLsbD j = (buf.getLsbD j || (decide (j = 7 - k) && b)) := by
  unfold placeBit
  rw [BitVec.getLsbD_or, BitVec.getLsbD_shiftLeft, BitVec.getLsbD_setWidth, BitVec.getLsbD_ofBool]
  by_cases hlt : j < 7 - k
  · have hne : j ≠ 7 - k := by omega
    simp [hlt, hne]
  · have hzero : j - (7 - k) = 0 ↔ j = 7 - k := by omega
    have hlt8 : j - (7 - k) < 8 := by omega
    simp [hj, hlt, hlt8, hzero]

/-- A bit placed behind `k` coded bits adds itself at their end. -/
theorem byteBits_placeBit (b : Bool) {k : Nat} {buf : Byte} (hk : k ≤ 7) (h : ∀ j, j < 8 - k → buf.getLsbD j = false) :
    (byteBits (placeBit b k buf)).take (k + 1) = (byteBits buf).take k ++ [b] := by
  have earlier : ∀ i ∈ List.range k, (placeBit b k buf).getLsbD (7 - i) = buf.getLsbD (7 - i) := by
    intro i hi
    have hik : i < k := List.mem_range.mp hi
    have hne : 7 - i ≠ 7 - k := by omega
    simp [placeBit_getLsbD b buf (show 7 - i < 8 by omega), hne]
  have last : (placeBit b k buf).getLsbD (7 - k) = b := by
    simp [placeBit_getLsbD b buf (show 7 - k < 8 by omega), h (7 - k) (by omega)]
  rw [byteBits_take (by omega), byteBits_take (by omega), List.range_succ, List.map_append, List.map_congr_left earlier,
    List.map_singleton, last]

/-- The bits below the one placed stay 0. -/
theorem placeBit_low_bits (b : Bool) {k : Nat} {buf : Byte} (h : ∀ j, j < 8 - k → buf.getLsbD j = false) {j : Nat}
    (hj : j < 8 - (k + 1)) : (placeBit b k buf).getLsbD j = false := by
  have hne : j ≠ 7 - k := by omega
  simp [placeBit_getLsbD b buf (show j < 8 by omega), h j (by omega), hne]

/-- The coded bits so far gain the bit put out (20_memory R76, R77). -/
theorem outBit_outBitsSoFar (b : Bool) {s : State} (hcnt : s.ac.bitCnt ≤ 7)
    (hlow : ∀ j, j < 8 - s.ac.bitCnt → s.ac.bitBuf.getLsbD j = false) : (outBit b s).outBitsSoFar = s.outBitsSoFar ++ [b] := by
  have hbits := byteBits_placeBit b hcnt hlow
  rcases outBit_cases b s with ⟨h7, ho⟩ | ⟨-, ho⟩ <;> rw [ho]
  · have hwhole : byteBits (placeBit b 7 s.ac.bitBuf) = (byteBits s.ac.bitBuf).take 7 ++ [b] := by rw [h7] at hbits; exact hbits
    simp [State.outBitsSoFar, h7, hwhole]
  · simp [State.outBitsSoFar, hbits]

/-- BITBUF's unused bits stay 0 (10_state R40). -/
theorem outBit_low_bits (b : Bool) {s : State} (hlow : ∀ j, j < 8 - s.ac.bitCnt → s.ac.bitBuf.getLsbD j = false) :
    ∀ j, j < 8 - (outBit b s).ac.bitCnt → (outBit b s).ac.bitBuf.getLsbD j = false := by
  intro j hj
  rcases outBit_cases b s with ⟨-, ho⟩ | ⟨-, ho⟩ <;> rw [ho] at hj ⊢
  · exact BitVec.getLsbD_zero
  · exact placeBit_low_bits b hlow hj

/-- Only OUT, BITBUF and BITCNT change. -/
theorem outBit_frame (b : Bool) (s : State) : outBit b s =
    { s with
      out := (outBit b s).out, ac := { s.ac with bitBuf := (outBit b s).ac.bitBuf, bitCnt := (outBit b s).ac.bitCnt } } := by
  rcases outBit_cases b s with ⟨-, ho⟩ | ⟨-, ho⟩ <;> rw [ho] <;> rfl

/-- Settles O27: the bit goes behind the coded bits of BITBUF, whether it completes a byte or not. -/
theorem outBitAppendsOneBit : Obligations.OutBitAppendsOneBit := by
  unfold Obligations.OutBitAppendsOneBit
  intro b s hcnt hlow
  exact ⟨outBit_outBitsSoFar b hcnt hlow, outBit_bitCnt b hcnt, outBit_low_bits b hlow, outBit_frame b s⟩

/-! ### One bit in -/

/-- With bits left in INBUF, the next one is bit INCNT - 1. -/
theorem inBitsLeft_buffered {s : State} (h0 : s.ac.inCnt ≠ 0) (h8 : s.ac.inCnt ≤ 8) :
    s.inBitsLeft = s.ac.inBuf.getLsbD (s.ac.inCnt - 1) :: (s.setAc { s.ac with inCnt := s.ac.inCnt - 1 }).inBitsLeft := by
  simp only [State.inBitsLeft, byteBits_drop_cons h0 h8, List.cons_append, State.setAc_ac, State.setAc_inp]

/-- With INBUF used up, the coded bits left are those of IN. -/
theorem inBitsLeft_unbuffered {s : State} (h0 : s.ac.inCnt = 0) : s.inBitsLeft = s.inp.flatMap byteBits := by
  have hnone : (byteBits s.ac.inBuf).drop 8 = [] := rfl
  simp only [State.inBitsLeft, h0, Nat.sub_zero, hnone, List.nil_append]

/-- With INBUF used up, the next bit is bit 7 of the byte taken from IN. -/
theorem inBitsLeft_byte_taken {s : State} {b : Byte} {rest : List Byte} (h0 : s.ac.inCnt = 0) (hi : s.inp = b :: rest) (pos : Word64)
    (d : Nat) : s.inBitsLeft = b.getLsbD 7 ::
      (((s.setAc { s.ac with inBuf := b, inCnt := 7, inPos := pos }).setInp rest).setDraws d).inBitsLeft := by
  have hbyte : byteBits b = b.getLsbD 7 :: (byteBits b).drop 1 := rfl
  rw [inBitsLeft_unbuffered h0, hi, List.flatMap_cons, hbyte]
  rfl

/-- No coded bit is left exactly when INBUF is used up and IN is empty. -/
theorem inBitsLeft_empty {s : State} (h0 : s.ac.inCnt = 0) (hi : s.inp = []) : s.inBitsLeft = [] := by
  rw [inBitsLeft_unbuffered h0, hi, List.flatMap_nil]

/-- What taking a coded bit does (20_memory R79, 10_state R48). -/
structure BitTaken (s t : State) : Prop where
  inCnt : t.ac.inCnt ≤ 8
  inPos : s.ac.inPos ≠ BitVec.allOnes 64 → 8 * t.ac.inPos.toNat + s.ac.inCnt = 8 * s.ac.inPos.toNat + t.ac.inCnt + 1
  frame : t = { s with
    inp := t.inp, draws := t.draws,
    ac := { s.ac with inBuf := t.ac.inBuf, inCnt := t.ac.inCnt, inPos := t.ac.inPos } }

theorem BitTaken.of_buffer {s : State} (h0 : s.ac.inCnt ≠ 0) (h8 : s.ac.inCnt ≤ 8) :
    BitTaken s (s.setAc { s.ac with inCnt := s.ac.inCnt - 1 }) where
  inCnt := by simp only [State.setAc_ac]; omega
  inPos := by intro _; simp only [State.setAc_ac]; omega
  frame := rfl

theorem BitTaken.of_byte {s : State} (h0 : s.ac.inCnt = 0) (b : Byte) (rest : List Byte) :
    BitTaken s (((s.setAc { s.ac with inBuf := b, inCnt := 7, inPos := (countUp s.ac.inPos s.draws).1 }).setInp rest).setDraws
      (countUp s.ac.inPos s.draws).2) where
  inCnt := by simp
  inPos := by
    intro hpos
    have hne : s.ac.inPos.toNat ≠ 2 ^ 64 - 1 := fun h => hpos (BitVec.eq_of_toNat_eq (h.trans BitVec.toNat_allOnes.symm))
    have hnext : (s.ac.inPos + 1).toNat = s.ac.inPos.toNat + 1 :=
      BitVec.toNat_add_of_lt (show s.ac.inPos.toNat + 1 < 2 ^ 64 by omega)
    simp only [State.setDraws_ac, State.setInp_ac, State.setAc_ac, countUp_below hpos, h0, hnext]
    omega
  frame := rfl

/-- While coded bits are left, `inBit` takes the first of them. -/
theorem inBit_of_bits_left {s : State} (h8 : s.ac.inCnt ≤ 8) {b : Bool} {rest : List Bool} (h : s.inBitsLeft = b :: rest) :
    ∃ t, inBit s = .ok (b, t) ∧ t.inBitsLeft = rest ∧ BitTaken s t := by
  rcases inBit_cases s with ⟨h0, hb⟩ | ⟨h0, c, inp, hi, hb⟩ | ⟨h0, hi, -, -⟩ | ⟨h0, hi, -, -⟩
  · obtain ⟨hbit, hrest⟩ := List.cons.inj ((inBitsLeft_buffered h0 h8).symm.trans h)
    exact ⟨_, hbit ▸ hb, hrest, .of_buffer h0 h8⟩
  · obtain ⟨hbit, hrest⟩ := List.cons.inj ((inBitsLeft_byte_taken h0 hi _ _).symm.trans h)
    exact ⟨_, hbit ▸ hb, hrest, .of_byte h0 c inp⟩
  · cases (inBitsLeft_empty h0 hi).symm.trans h
  · cases (inBitsLeft_empty h0 hi).symm.trans h

/-- With no coded bit left, `inBit` supplies a zero as long as PASTEND is below 32, and raises PAST_END then. -/
theorem inBit_of_no_bits_left {s : State} (h8 : s.ac.inCnt ≤ 8) (h : s.inBitsLeft = []) :
    (s.ac.pastEnd ≠ Config.pastEndLimit ∧ inBit s = .ok (false, s.setAc { s.ac with pastEnd := s.ac.pastEnd + 1 })) ∨
      (s.ac.pastEnd = Config.pastEndLimit ∧ inBit s = .error (.malformed subcausePastEnd Config.pastEndLimit)) := by
  rcases inBit_cases s with ⟨h0, -⟩ | ⟨h0, c, inp, hi, -⟩ | ⟨-, -, hp, hb⟩ | ⟨-, -, hp, hb⟩
  · cases (inBitsLeft_buffered h0 h8).symm.trans h
  · cases (inBitsLeft_byte_taken h0 hi 0 0).symm.trans h
  · exact .inl ⟨hp, hb⟩
  · exact .inr ⟨hp, hp ▸ hb⟩

/-- Settles O28: a bit left is taken from INBUF or IN; past the end PASTEND alone decides. -/
theorem inBitTakesTheNextBit : Obligations.InBitTakesTheNextBit := by
  unfold Obligations.InBitTakesTheNextBit
  intro s h8
  refine ⟨?_, ?_, ?_⟩
  · intro b rest h
    obtain ⟨t, hb, hrest, hcnt, hpos, hframe⟩ := inBit_of_bits_left h8 h
    exact ⟨t, hb, hrest, hcnt, hpos, hframe⟩
  · intro h hlt
    rcases inBit_of_no_bits_left h8 h with ⟨-, hb⟩ | ⟨hp, -⟩
    · exact hb
    · exact absurd hp (Nat.ne_of_lt hlt)
  · intro h hp
    rcases inBit_of_no_bits_left h8 h with ⟨hne, -⟩ | ⟨-, hb⟩
    · exact absurd hp hne
    · exact hb

end Sys2Proof.Machine
end

section
/-! What each command may do to the ports IN and OUT (20_memory R73, R74). -/

namespace Sys2Proof.Machine

/-! ### The encoder's operations keep IN -/

@[simp] theorem outBit_inp (b : Bool) (s : State) : (outBit b s).inp = s.inp := by
  rcases outBit_cases b s with ⟨-, ho⟩ | ⟨-, ho⟩ <;> rw [ho] <;> rfl

@[simp] theorem outBits_inp (b : Bool) (n : Nat) (s : State) : (outBits b n s).inp = s.inp := by
  induction n generalizing s with
  | zero => rfl
  | succ n ih => exact (ih (outBit b s)).trans (outBit_inp b s)

@[simp] theorem padOut_inp (s : State) : (padOut s).inp = s.inp := rfl

@[simp] theorem emitWithPending_inp (b : Bool) (s : State) : (emitWithPending b s).inp = s.inp := by simp [emitWithPending]

@[simp] theorem countUnderflow_inp (s : State) : (countUnderflow s).inp = s.inp := rfl

@[simp] theorem encRenorm_inp (n : Nat) (s : State) : (encRenorm n s).inp = s.inp := by
  induction n generalizing s with
  | zero => rfl
  | succ n ih =>
    unfold encRenorm
    split
    · simp [ih]
    · split
      · simp [ih]
      · rfl

@[simp] theorem countSection_inp (sym : Sym) (s : State) : (countSection sym s).inp = s.inp := by
  rw [countSection_eq]
  split <;> rfl

@[simp] theorem countSection_out (sym : Sym) (s : State) : (countSection sym s).out = s.out := by
  rw [countSection_eq]
  split <;> rfl

theorem encodeSymbol_inp {sym : Sym} {s t : State} (h : encodeSymbol sym s = .ok t) : t.inp = s.inp := by
  unfold encodeSymbol at h
  split_ifs at h
  cases h
  simp

theorem flushCoder_inp {s t : State} (h : flushCoder s = .ok t) : t.inp = s.inp := by
  unfold flushCoder at h
  split_ifs at h
  cases h
  simp

/-! ### The decoder's operations keep OUT -/

theorem inBit_out {s t : State} {b : Bool} (h : inBit s = .ok (b, t)) : t.out = s.out := by
  obtain ⟨-, -, -, -, -, -, -, -, -, hout⟩ := inBit_step h
  exact hout

theorem shiftInCode_out {c : Word32} {s t : State} (h : shiftInCode c s = .ok t) : t.out = s.out := by
  unfold shiftInCode at h
  split at h
  · cases h
  · rename_i b u hu
    cases h
    simpa using inBit_out hu

theorem decRenorm_out {n : Nat} {s t : State} (h : decRenorm n s = .ok t) : t.out = s.out := by
  induction n generalizing s with
  | zero => cases h; rfl
  | succ n ih =>
    unfold decRenorm at h
    split at h
    · split at h
      · cases h
      · rename_i u hu
        simpa using (ih h).trans (shiftInCode_out hu)
    · split at h
      · split at h
        · cases h
        · rename_i u hu
          simpa using (ih h).trans (shiftInCode_out hu)
      · cases h
        rfl

theorem shiftInBits_out {n : Nat} {s t : State} (h : shiftInBits n s = .ok t) : t.out = s.out := by
  induction n generalizing s with
  | zero => cases h; rfl
  | succ n ih =>
    unfold shiftInBits at h
    split at h
    · cases h
    · rename_i u hu
      exact (ih h).trans (shiftInCode_out hu)

theorem prime_out {s t : State} (h : prime s = .ok t) : t.out = s.out := by
  unfold prime at h
  split at h
  · cases h
  · rename_i u hu
    cases h
    simpa using shiftInBits_out hu

@[simp] theorem lookupSymbol_out (s : State) : (lookupSymbol s).2.out = s.out := by
  unfold lookupSymbol
  split <;> rfl

theorem decodePrimed_out {s t : State} (h : decodePrimed s = .ok t) : t.out = s.out := by
  unfold decodePrimed at h
  simp only at h
  split at h
  · cases h
  · rename_i u hu
    cases h
    simpa using decRenorm_out hu

theorem decodeSymbol_out {s t : State} (h : decodeSymbol s = .ok t) : t.out = s.out := by
  unfold decodeSymbol at h
  split_ifs at h
  · split at h
    · cases h
    · rename_i u hu
      exact (decodePrimed_out h).trans (prime_out hu)
  · exact decodePrimed_out h

/-! ### The effects of the other two units -/

/-- A change of the run-length unit and RES, and of nothing else (43_run_length R170). -/
def RleStep (s t : State) : Prop := ∃ r v, t = (s.setRle r).setRes v

theorem RleStep.setRle (s : State) (r : RleUnit) : RleStep s (s.setRle r) := ⟨r, s.res, rfl⟩

theorem emitRun_rleStep {s t : State} (h : emitRun s = .ok t) : RleStep s t := by
  rcases emitRun_cases s with ⟨-, he⟩ | ⟨-, he⟩ <;> rw [he] at h <;> cases h
  exact .setRle s _

theorem encodeBit_rleStep {b : BitVec 1} {s t : State} (h : encodeBit b s = .ok t) : RleStep s t := by
  unfold encodeBit at h
  split_ifs at h
  · cases h
    exact .setRle s _
  · exact emitRun_rleStep h

theorem popSymbol_rleStep (s : State) : RleStep s (popSymbol s) := by
  unfold popSymbol
  split
  · exact ⟨s.rle, _, rfl⟩
  · exact ⟨_, _, rfl⟩

theorem finishRun_rleStep (vacc : Nat) (r : RleUnit) (s : State) : RleStep s (finishRun vacc r s) := ⟨_, _, rfl⟩

theorem parsePrefix_rleStep {sym : Sym} {s t : State} (h : parsePrefix sym s = .ok t) : RleStep s t := by
  unfold parsePrefix at h
  simp only at h
  split_ifs at h <;> cases h
  · exact ⟨_, _, rfl⟩
  · exact finishRun_rleStep _ _ s
  · exact ⟨_, _, rfl⟩

theorem parseSuffix_rleStep {sym : Sym} {s t : State} (h : parseSuffix sym s = .ok t) : RleStep s t := by
  unfold parseSuffix at h
  simp only at h
  split_ifs at h <;> cases h
  · exact finishRun_rleStep _ _ s
  · exact ⟨_, _, rfl⟩

theorem parseSymbol_rleStep {sym : Sym} {s t : State} (h : parseSymbol sym s = .ok t) : RleStep s t := by
  unfold parseSymbol at h
  split_ifs at h
  split at h
  · exact parsePrefix_rleStep h
  · exact parseSuffix_rleStep h

theorem endRuns_rleStep {s t : State} (h : endRuns s = .ok t) : RleStep s t := by
  unfold endRuns at h
  split_ifs at h
  cases h
  exact .setRle s _

/-- A change of the predictor unit and RES, and of nothing else (44_predictor R190). -/
def PrdStep (s t : State) : Prop := ∃ p v, t = (s.setPrd p).setRes v

theorem PrdStep.setPrd (s : State) (p : PrdUnit) : PrdStep s (s.setPrd p) := ⟨p, s.res, rfl⟩

theorem writeField_prdStep {v : Colour} {s t : State} (h : writeField v s = .ok t) : PrdStep s t := by
  unfold writeField at h
  split_ifs at h
  cases h
  exact .setPrd s _

theorem readField_prdStep {s t : State} (h : readField s = .ok t) : PrdStep s t := by
  unfold readField at h
  split_ifs at h <;> cases h <;> exact ⟨s.prd, _, rfl⟩

theorem encodePixel_prdStep (m : Mode) (s : State) : PrdStep s (encodePixel m s) := ⟨_, _, rfl⟩

theorem decodePixel_prdStep (m : Mode) (r : Colour) (s : State) : PrdStep s (decodePixel m r s) := ⟨_, _, rfl⟩

/-! ### The ports, command by command -/

/-- Neither port moves. -/
structure PortsKept (s t : State) : Prop where
  inp : t.inp = s.inp
  out : t.out = s.out

/-- Bytes may go from the front of IN; OUT does not move (20_memory R73). -/
structure TakesFromIn (s t : State) : Prop where
  inp : ∃ taken, s.inp = taken ++ t.inp
  out : t.out = s.out

/-- Bytes may come at the end of OUT; IN does not move (20_memory R74). -/
structure AppendsToOut (s t : State) : Prop where
  inp : t.inp = s.inp
  out : ∃ added, t.out = s.out ++ added

theorem RleStep.portsKept {s t : State} (h : RleStep s t) : PortsKept s t := by
  obtain ⟨r, v, rfl⟩ := h
  exact ⟨rfl, rfl⟩

theorem PrdStep.portsKept {s t : State} (h : PrdStep s t) : PortsKept s t := by
  obtain ⟨p, v, rfl⟩ := h
  exact ⟨rfl, rfl⟩

theorem readControl_portsKept {n : BitVec 8} {s t : State} (h : readControl n s = .ok t) : PortsKept s t := by
  unfold readControl at h
  split at h <;> cases h
  exact ⟨rfl, rfl⟩

theorem writeControl_portsKept {n : BitVec 8} {s t : State} (h : writeControl n s = .ok t) : PortsKept s t := by
  rcases writeControl_cases n s with ⟨-, hw⟩ | ⟨c, -, -, -, hw⟩ | ⟨c, -, -, hw⟩ <;> rw [hw] at h <;> cases h
  rw [csrWrite_frame]
  exact ⟨rfl, rfl⟩

theorem readCumulative_portsKept {sym : Sym} {s t : State} (h : readCumulative sym s = .ok t) : PortsKept s t := by
  unfold readCumulative at h
  split_ifs at h
  cases h
  exact ⟨rfl, rfl⟩

theorem decodeSymbol_takesFromIn {s t : State} (h : decodeSymbol s = .ok t) : TakesFromIn s t :=
  ⟨(decodeSymbol_step h).inp, decodeSymbol_out h⟩

theorem encodeSymbol_appendsToOut {sym : Sym} {s t : State} (h : encodeSymbol sym s = .ok t) : AppendsToOut s t :=
  ⟨encodeSymbol_inp h, (encodeSymbol_step h).out⟩

theorem flushCoder_appendsToOut {s t : State} (h : flushCoder s = .ok t) : AppendsToOut s t :=
  ⟨flushCoder_inp h, (flushCoder_step h).out⟩

/-- Everything the effect of a command can do to the ports: only AC.DEC takes bytes, only AC.ENC and AC.FLUSH add them. -/
theorem commandEffect_ports {i : Instr} {s t : State} (h : commandEffect i s = .ok t) :
    PortsKept s t ∨ (i = .acDec ∧ TakesFromIn s t) ∨ ((i.opcode = 0x11 ∨ i.opcode = 0x13) ∧ AppendsToOut s t) := by
  cases i with
  | acDec => exact .inr (.inl ⟨rfl, decodeSymbol_takesFromIn h⟩)
  | acEnc sym => exact .inr (.inr ⟨.inl rfl, encodeSymbol_appendsToOut h⟩)
  | acFlush => exact .inr (.inr ⟨.inr rfl, flushCoder_appendsToOut h⟩)
  | nop | srst | acInit | freqWr | freqRd | freqClr | rleInit | prdInit => cases h; exact .inl ⟨rfl, rfl⟩
  | csrr n => exact .inl (readControl_portsKept h)
  | csrw n => exact .inl (writeControl_portsKept h)
  | cumRd sym => exact .inl (readCumulative_portsKept h)
  | rleEbit b => exact .inl (encodeBit_rleStep h).portsKept
  | rleEend => exact .inl (emitRun_rleStep h).portsKept
  | rlePop => cases h; exact .inl (popSymbol_rleStep s).portsKept
  | rleDsym sym => exact .inl (parseSymbol_rleStep h).portsKept
  | rleDend => exact .inl (endRuns_rleStep h).portsKept
  | fldWr v => exact .inl (writeField_prdStep h).portsKept
  | fldRd => exact .inl (readField_prdStep h).portsKept
  | prdForesee | prdLearn => cases atCursor_eq_ok h; exact .inl ⟨rfl, rfl⟩
  | pxEnc m => cases atCursor_eq_ok h; exact .inl (encodePixel_prdStep m s).portsKept
  | pxDec m r => cases atCursor_eq_ok h; exact .inl (decodePixel_prdStep m r s).portsKept

/-- Everything a command can do to the ports: the latch gate and error entry keep both. -/
theorem exec_ports {i : Instr} {s t : State} (h : exec i s = .next t) :
    PortsKept s t ∨ (i = .acDec ∧ TakesFromIn s t) ∨ ((i.opcode = 0x11 ∨ i.opcode = 0x13) ∧ AppendsToOut s t) := by
  rcases exec_cases h with ⟨-, rfl⟩ | heff | ⟨e, -, -, rfl⟩
  · exact .inl ⟨rfl, rfl⟩
  · exact commandEffect_ports heff
  · exact .inl ⟨rfl, rfl⟩

/-- Settles O12: the three things a command can do to the ports, by the commands that do them. -/
theorem portsMoveForward : Obligations.PortsMoveForward := by
  unfold Obligations.PortsMoveForward
  intro i s t h
  rcases exec_ports h with ⟨hin, hout⟩ | ⟨rfl, hin, hout⟩ | ⟨hop, hin, hout⟩
  · exact ⟨⟨[], hin.symm⟩, ⟨[], by rw [hout, List.append_nil]⟩, fun _ => hin, fun _ _ => hout⟩
  · exact ⟨hin, ⟨[], by rw [hout, List.append_nil]⟩, fun hi => absurd rfl hi, fun _ _ => hout⟩
  · exact ⟨⟨[], hin.symm⟩, hout, fun _ => hin, fun h11 h13 => absurd hop (not_or.mpr ⟨h11, h13⟩)⟩

end Sys2Proof.Machine
end

section
/-! Decoding and encoding agree (30_encoding R90, R91, R93): each format's decoder by the layout it accepts, then every command. -/

namespace Sys2Proof

/-! ### Words in two parts -/

/-- A word is `a ++ b` when its upper part is `a` and its lower part is `b`. -/
theorem eq_append_iff {m n : Nat} {w : BitVec (m + n)} {a : BitVec m} {b : BitVec n} :
    w = a ++ b ↔ w.extractLsb' n m = a ∧ w.extractLsb' 0 n = b := by
  constructor
  · rintro rfl
    exact ⟨BitVec.extractLsb'_append_eq_left, BitVec.extractLsb'_append_eq_right⟩
  · rintro ⟨rfl, rfl⟩
    exact BitVec.extractLsb'_append_extractLsb'.symm

/-- A part of a part of a word is a part of the word. -/
theorem extractLsb'_of_extractLsb' {k : Nat} {w : BitVec k} {start len start' len' : Nat} (h : start + len ≤ len') :
    (w.extractLsb' start' len').extractLsb' start len = w.extractLsb' (start' + start) len := by
  apply BitVec.eq_of_getLsbD_eq
  intro j hj
  simp [hj, show start + j < len' by omega, Nat.add_assoc]

/-- A command's word is the one whose opcode byte and operand field are the command's (30_encoding R90). -/
theorem encode_eq_iff {i : Instr} {w : Word32} : encode i = w ↔ opcodeField w = i.opcode ∧ operandField w = i.operand :=
  eq_comm.trans (eq_append_iff (m := 8) (n := 24))

/-! ### The transform's bit (30_encoding R92) -/

@[simp] theorem Mode.ofBit_bit (m : Mode) : Mode.ofBit m.bit = m := by cases m <;> rfl

@[simp] theorem Mode.bit_ofBit (b : BitVec 1) : (Mode.ofBit b).bit = b := by revert b; decide

theorem Mode.eq_bit_iff {b : BitVec 1} {m : Mode} : b = m.bit ↔ Mode.ofBit b = m :=
  ⟨fun h => h ▸ m.ofBit_bit, fun h => h ▸ (Mode.bit_ofBit b).symm⟩

theorem Mode.exists_bit_iff {p : BitVec 1 → Prop} : (∃ m : Mode, p m.bit) ↔ ∃ b, p b :=
  (Function.RightInverse.surjective Mode.bit_ofBit).exists.symm

/-! ### The formats (30_encoding R91) -/

/-- How every format's decoder answers: the command when the reserved bits are zero, an error otherwise. -/
theorem guard_eq_ok {p : Prop} [Decidable p] {c i : Instr} {e : IllegalWord} :
    (if p then Except.ok c else .error e) = .ok i ↔ p ∧ c = i := by
  split <;> simp [*]

theorem decodeN_eq_ok {op : BitVec 24} {c i : Instr} : decodeN op c = .ok i ↔ op = 0 ∧ c = i := guard_eq_ok

theorem decodeC_eq_ok {op : BitVec 24} {f : BitVec 8 → Instr} {i : Instr} :
    decodeC op f = .ok i ↔ ∃ n, op = 0#16 ++ n ∧ f n = i := by
  simp [decodeC, guard_eq_ok, eq_append_iff (m := 16) (n := 8), and_assoc]

theorem decodeS_eq_ok {op : BitVec 24} {f : Sym → Instr} {i : Instr} :
    decodeS op f = .ok i ↔ ∃ s, op = 0#8 ++ s ∧ f s = i := by
  simp [decodeS, guard_eq_ok, eq_append_iff (m := 8) (n := 16), and_assoc]

theorem decodeB_eq_ok {op : BitVec 24} {f : BitVec 1 → Instr} {i : Instr} :
    decodeB op f = .ok i ↔ ∃ b, op = 0#23 ++ b ∧ f b = i := by
  simp [decodeB, guard_eq_ok, eq_append_iff (m := 23) (n := 1), and_assoc]

theorem decodeV_eq_ok {op : BitVec 24} {f : Colour → Instr} {i : Instr} :
    decodeV op f = .ok i ↔ ∃ v, op = 0#22 ++ v ∧ f v = i := by
  simp [decodeV, guard_eq_ok, eq_append_iff (m := 22) (n := 2), and_assoc]

theorem decodeME_eq_ok {op : BitVec 24} {f : Mode → Instr} {i : Instr} :
    decodeME op f = .ok i ↔ ∃ m : Mode, op = 0#15 ++ m.bit ++ 0#8 ∧ f m = i := by
  simp [decodeME, guard_eq_ok, eq_append_iff (m := 16) (n := 8), eq_append_iff (m := 15) (n := 1),
    extractLsb'_of_extractLsb', Mode.eq_bit_iff, and_assoc, and_left_comm]

theorem decodeMD_eq_ok {op : BitVec 24} {f : Mode → Colour → Instr} {i : Instr} :
    decodeMD op f = .ok i ↔ ∃ (m : Mode) (v : Colour), op = 0#15 ++ m.bit ++ 0#6 ++ v ∧ f m v = i := by
  simp [decodeMD, guard_eq_ok, eq_append_iff (m := 22) (n := 2), eq_append_iff (m := 16) (n := 6), eq_append_iff (m := 15) (n := 1),
    extractLsb'_of_extractLsb', Mode.eq_bit_iff, and_assoc, and_left_comm]

/-! ### Every command -/

/-- No bit of an encoding is dropped: the decoder finds the opcode's row, and the row's format takes the operand field apart again. -/
theorem decode_encode (i : Instr) : decode (encode i) = .ok i := by
  obtain ⟨hopc, hop⟩ := Laws.WordFields.all i
  unfold decode
  rw [hopc, hop]
  cases i with
  | csrr n | csrw n => exact decodeC_eq_ok.mpr ⟨n, rfl, rfl⟩
  | acEnc s | freqWr s | freqRd s | cumRd s | rleDsym s => exact decodeS_eq_ok.mpr ⟨s, rfl, rfl⟩
  | rleEbit b => exact decodeB_eq_ok.mpr ⟨b, rfl, rfl⟩
  | fldWr v | prdLearn v => exact decodeV_eq_ok.mpr ⟨v, rfl, rfl⟩
  | pxEnc m => exact decodeME_eq_ok.mpr ⟨m, rfl, rfl⟩
  | pxDec m v => exact decodeMD_eq_ok.mpr ⟨m, v, rfl, rfl⟩
  | _ => exact decodeN_eq_ok.mpr ⟨rfl, rfl⟩

/-- No two words are one command: each row's format determines the operand field, and the row the opcode. -/
theorem encode_of_decode {w : Word32} {i : Instr} (h : decode w = .ok i) : encode i = w := by
  rw [encode_eq_iff, ← BitVec.toNat_inj]
  unfold decode at h
  split at h
  case h_2 hopc | h_3 hopc => obtain ⟨n, hop, rfl⟩ := decodeC_eq_ok.mp h; exact ⟨hopc, hop⟩
  case h_6 hopc | h_9 hopc | h_10 hopc | h_12 hopc | h_17 hopc => obtain ⟨s, hop, rfl⟩ := decodeS_eq_ok.mp h; exact ⟨hopc, hop⟩
  case h_14 hopc => obtain ⟨b, hop, rfl⟩ := decodeB_eq_ok.mp h; exact ⟨hopc, hop⟩
  case h_20 hopc | h_23 hopc => obtain ⟨v, hop, rfl⟩ := decodeV_eq_ok.mp h; exact ⟨hopc, hop⟩
  case h_24 hopc => obtain ⟨m, hop, rfl⟩ := decodeME_eq_ok.mp h; exact ⟨hopc, hop⟩
  case h_25 hopc => obtain ⟨m, v, hop, rfl⟩ := decodeMD_eq_ok.mp h; exact ⟨hopc, hop⟩
  case h_26 => cases h
  all_goals
    rename_i hopc
    obtain ⟨hop, rfl⟩ := decodeN_eq_ok.mp h
    exact ⟨hopc, hop⟩

theorem decode_eq_ok_iff {w : Word32} {i : Instr} : decode w = .ok i ↔ encode i = w :=
  ⟨encode_of_decode, fun h => h ▸ decode_encode i⟩

end Sys2Proof

namespace Sys2Proof.Machine

/-- Settles O1: each direction is a case split over the rows of the opcode map, by format. -/
theorem decodeEncodeAgree : Obligations.DecodeEncodeAgree :=
  ⟨decode_encode, fun _ _ => encode_of_decode⟩

/-- Settles O3: each legal word is the encoding of its command. -/
theorem specExampleWordsDecode : Obligations.SpecExampleWordsDecode :=
  ⟨decode_encode (.acEnc 5), decode_encode (.csrw Csr.acNsym.number), decode_encode (.rleEbit 1), decode_encode (.fldWr 2),
    decode_encode (.pxEnc .sub), decode_encode (.pxDec .xor 3), rfl, decode_encode (.csrw (Csr.shapeCell 1 2).number), rfl, rfl⟩

end Sys2Proof.Machine
end

section
/-! Words that select no command (30_encoding R95, 60_exceptions R241, R246). -/

namespace Sys2Proof.Machine

/-- A word that selects no command is illegal (30_encoding R95). -/
theorem writeCommand_of_illegal {w : Word32} {e : IllegalWord} (h : decode w = .error e) (s : State) :
    writeCommand w s = .next (runIllegal w s) := by
  simp [writeCommand, h]

/-- Settles O5: the write is `runIllegal`, which error entry makes a change of the latch or of nothing. -/
theorem illegalWordsRaise : Obligations.IllegalWordsRaise := by
  unfold Obligations.IllegalWordsRaise
  intro w e s hw
  rw [writeCommand_of_illegal hw]
  rcases runIllegal_cases w s with ⟨hlatched, hsame⟩ | ⟨hready, hset⟩
  · exact ⟨fun h => absurd h hlatched, fun _ => congrArg _ hsame⟩
  · exact ⟨fun _ => congrArg _ hset, fun h => absurd hready h⟩

end Sys2Proof.Machine
end

section
/-! The match and mask table (30_encoding R94): the row of each command, and which words that row matches. -/

namespace Sys2Proof

/-! ### The row of a command -/

/-- The bits of the operand field that must be zero: the dual of `Instr.operand`, format by format (30_encoding R91, R95). -/
def Instr.reservedBits : Instr → BitVec 24
  | .csrr _ | .csrw _ => BitVec.allOnes 16 ++ 0#8
  | .acEnc _ | .freqWr _ | .freqRd _ | .cumRd _ | .rleDsym _ => BitVec.allOnes 8 ++ 0#16
  | .rleEbit _ => BitVec.allOnes 23 ++ 0#1
  | .fldWr _ | .prdLearn _ => BitVec.allOnes 22 ++ 0#2
  | .pxEnc _ => BitVec.allOnes 15 ++ 0#1 ++ BitVec.allOnes 8
  | .pxDec _ _ => BitVec.allOnes 15 ++ 0#1 ++ BitVec.allOnes 6 ++ 0#2
  | .nop | .srst | .acInit | .acDec | .acFlush | .freqClr | .rleInit | .rleEend | .rlePop | .rleDend | .prdInit | .fldRd
  | .prdForesee => BitVec.allOnes 24

/-- The row a command has in the table: a word of it has the command's opcode and no reserved bit set. -/
def Instr.maskRow (i : Instr) : MaskRow := ⟨i.mnemonic, i.opcode ++ 0#24, BitVec.allOnes 8 ++ i.reservedBits⟩

/-- One command of each row, in the table's order. -/
def rowCommands : List Instr := [.nop, .csrr 0, .csrw 0, .srst, .acInit, .acEnc 0, .acDec, .acFlush, .freqWr 0, .freqRd 0, .freqClr,
  .cumRd 0, .rleInit, .rleEbit 0, .rleEend, .rlePop, .rleDsym 0, .rleDend, .prdInit, .fldWr 0, .fldRd, .prdForesee, .prdLearn 0,
  .pxEnc .xor, .pxDec .xor 0]

/-- `Instr.maskRow` gives the table of R94, row by row. -/
theorem maskTable_eq_map : maskTable = rowCommands.map Instr.maskRow := rfl

theorem exists_maskRow_eq {r : MaskRow} (hr : r ∈ maskTable) : ∃ i : Instr, i.maskRow = r := by
  rw [maskTable_eq_map, List.mem_map] at hr
  obtain ⟨i, -, hi⟩ := hr
  exact ⟨i, hi⟩

/-- A command's row does not depend on its operand values. -/
theorem exists_rowCommand (i : Instr) : ∃ c ∈ rowCommands, c.maskRow = i.maskRow := by
  cases i with
  | csrr => exact ⟨.csrr 0, by decide, rfl⟩
  | csrw => exact ⟨.csrw 0, by decide, rfl⟩
  | acEnc => exact ⟨.acEnc 0, by decide, rfl⟩
  | freqWr => exact ⟨.freqWr 0, by decide, rfl⟩
  | freqRd => exact ⟨.freqRd 0, by decide, rfl⟩
  | cumRd => exact ⟨.cumRd 0, by decide, rfl⟩
  | rleEbit => exact ⟨.rleEbit 0, by decide, rfl⟩
  | rleDsym => exact ⟨.rleDsym 0, by decide, rfl⟩
  | fldWr => exact ⟨.fldWr 0, by decide, rfl⟩
  | prdLearn => exact ⟨.prdLearn 0, by decide, rfl⟩
  | pxEnc => exact ⟨.pxEnc .xor, by decide, rfl⟩
  | pxDec => exact ⟨.pxDec .xor 0, by decide, rfl⟩
  | _ => exact ⟨_, by decide, rfl⟩

theorem maskRow_mem (i : Instr) : i.maskRow ∈ maskTable := by
  rw [maskTable_eq_map, List.mem_map]
  exact exists_rowCommand i

/-- No two rows have one mnemonic. -/
theorem eq_of_mnemonic_eq {r r' : MaskRow} (hr : r ∈ maskTable) (hr' : r' ∈ maskTable) (h : r.mnemonic = r'.mnemonic) : r = r' :=
  List.inj_on_of_nodup_map (f := MaskRow.mnemonic) (by decide) hr hr' h

/-! ### The words that set no reserved bit, by format -/

theorem and_append_eq_append_iff {m n : Nat} {w : BitVec (m + n)} {a c : BitVec m} {b d : BitVec n} :
    w &&& (a ++ b) = c ++ d ↔ w.extractLsb' n m &&& a = c ∧ w.extractLsb' 0 n &&& b = d := by
  simp [eq_append_iff, BitVec.extractLsb'_and, BitVec.extractLsb'_append_eq_left, BitVec.extractLsb'_append_eq_right]

theorem and_append_eq_zero_iff {m n : Nat} {w : BitVec (m + n)} {a : BitVec m} {b : BitVec n} :
    w &&& (a ++ b) = 0#(m + n) ↔ w.extractLsb' n m &&& a = 0#m ∧ w.extractLsb' 0 n &&& b = 0#n := by
  rw [← BitVec.zero_append_zero, and_append_eq_append_iff]

/-- Formats C, S, B and V: the reserved bits are those above the one field. -/
theorem reservedAbove_clear_iff {m n : Nat} {op : BitVec (m + n)} :
    op &&& (BitVec.allOnes m ++ 0#n) = 0#(m + n) ↔ ∃ x : BitVec n, op = 0#m ++ x := by
  simp [and_append_eq_zero_iff, eq_append_iff]

/-- Format ME: the reserved bits are those on both sides of MODE. -/
theorem reservedME_clear_iff {op : BitVec 24} :
    op &&& (BitVec.allOnes 15 ++ 0#1 ++ BitVec.allOnes 8) = 0 ↔ ∃ m : Mode, op = 0#15 ++ m.bit ++ 0#8 := by
  refine (and_append_eq_zero_iff (m := 16) (n := 8)).trans ?_
  rw [reservedAbove_clear_iff (m := 15) (n := 1), BitVec.and_allOnes, Mode.exists_bit_iff (p := fun b => op = 0#15 ++ b ++ 0#8)]
  simp [eq_append_iff (m := 16) (n := 8)]

/-- Format MD: the reserved bits are those on both sides of MODE, above VAL. -/
theorem reservedMD_clear_iff {op : BitVec 24} :
    op &&& (BitVec.allOnes 15 ++ 0#1 ++ BitVec.allOnes 6 ++ 0#2) = 0 ↔
      ∃ (m : Mode) (v : Colour), op = 0#15 ++ m.bit ++ 0#6 ++ v := by
  refine (and_append_eq_zero_iff (m := 22) (n := 2)).trans ?_
  rw [and_append_eq_zero_iff (m := 16) (n := 6), reservedAbove_clear_iff (m := 15) (n := 1), BitVec.and_allOnes,
    Mode.exists_bit_iff (p := fun b => ∃ v : Colour, op = 0#15 ++ b ++ 0#6 ++ v)]
  simp [eq_append_iff (m := 22) (n := 2), eq_append_iff (m := 16) (n := 6)]

/-- A command's own operand field sets no reserved bit. -/
theorem operand_reservedBits_clear (i : Instr) : i.operand &&& i.reservedBits = 0 := by
  cases i with
  | csrr n | csrw n => exact reservedAbove_clear_iff.mpr ⟨n, rfl⟩
  | acEnc s | freqWr s | freqRd s | cumRd s | rleDsym s => exact reservedAbove_clear_iff.mpr ⟨s, rfl⟩
  | rleEbit b => exact reservedAbove_clear_iff.mpr ⟨b, rfl⟩
  | fldWr v | prdLearn v => exact reservedAbove_clear_iff.mpr ⟨v, rfl⟩
  | pxEnc m => exact reservedME_clear_iff.mpr ⟨m, rfl⟩
  | pxDec m v => exact reservedMD_clear_iff.mpr ⟨m, v, rfl⟩
  | _ => rfl

/-- An operand field that sets no reserved bit of a command is the operand field of a command of the same row. -/
theorem exists_operand_of_reservedBits_clear {i : Instr} {op : BitVec 24} (h : op &&& i.reservedBits = 0) :
    ∃ i' : Instr, i'.maskRow = i.maskRow ∧ i'.opcode = i.opcode ∧ op = i'.operand := by
  cases i with
  | csrr => exact (reservedAbove_clear_iff (m := 16).mp h).imp' Instr.csrr fun _ hop => ⟨rfl, rfl, hop⟩
  | csrw => exact (reservedAbove_clear_iff (m := 16).mp h).imp' Instr.csrw fun _ hop => ⟨rfl, rfl, hop⟩
  | acEnc => exact (reservedAbove_clear_iff (m := 8).mp h).imp' Instr.acEnc fun _ hop => ⟨rfl, rfl, hop⟩
  | freqWr => exact (reservedAbove_clear_iff (m := 8).mp h).imp' Instr.freqWr fun _ hop => ⟨rfl, rfl, hop⟩
  | freqRd => exact (reservedAbove_clear_iff (m := 8).mp h).imp' Instr.freqRd fun _ hop => ⟨rfl, rfl, hop⟩
  | cumRd => exact (reservedAbove_clear_iff (m := 8).mp h).imp' Instr.cumRd fun _ hop => ⟨rfl, rfl, hop⟩
  | rleDsym => exact (reservedAbove_clear_iff (m := 8).mp h).imp' Instr.rleDsym fun _ hop => ⟨rfl, rfl, hop⟩
  | rleEbit => exact (reservedAbove_clear_iff (m := 23).mp h).imp' Instr.rleEbit fun _ hop => ⟨rfl, rfl, hop⟩
  | fldWr => exact (reservedAbove_clear_iff (m := 22).mp h).imp' Instr.fldWr fun _ hop => ⟨rfl, rfl, hop⟩
  | prdLearn => exact (reservedAbove_clear_iff (m := 22).mp h).imp' Instr.prdLearn fun _ hop => ⟨rfl, rfl, hop⟩
  | pxEnc => exact (reservedME_clear_iff.mp h).imp' Instr.pxEnc fun _ hop => ⟨rfl, rfl, hop⟩
  | pxDec =>
    obtain ⟨m, v, hop⟩ := reservedMD_clear_iff.mp h
    exact ⟨.pxDec m v, rfl, rfl, hop⟩
  | _ => exact ⟨_, rfl, rfl, BitVec.and_allOnes.symm.trans h⟩

/-! ### The words a row matches -/

theorem matches_maskRow_iff {w : Word32} {i : Instr} :
    w &&& i.maskRow.mask = i.maskRow.matchWord ↔ opcodeField w = i.opcode ∧ operandField w &&& i.reservedBits = 0 := by
  rw [← BitVec.and_allOnes (x := opcodeField w)]
  exact and_append_eq_append_iff (m := 8) (n := 24)

/-- A row matches the words of the commands with its mnemonic, and no others. -/
theorem matches_iff_exists_encode {w : Word32} {r : MaskRow} (hr : r ∈ maskTable) :
    w &&& r.mask = r.matchWord ↔ ∃ i : Instr, encode i = w ∧ i.mnemonic = r.mnemonic := by
  constructor
  · obtain ⟨i, rfl⟩ := exists_maskRow_eq hr
    intro h
    obtain ⟨hopc, hclear⟩ := matches_maskRow_iff.mp h
    obtain ⟨i', hrow, hopc', hop⟩ := exists_operand_of_reservedBits_clear hclear
    exact ⟨i', encode_eq_iff.mpr ⟨hopc.trans hopc'.symm, hop⟩, congrArg MaskRow.mnemonic hrow⟩
  · rintro ⟨i, rfl, hi⟩
    obtain rfl : i.maskRow = r := eq_of_mnemonic_eq (maskRow_mem i) hr hi
    obtain ⟨hopc, hop⟩ := Laws.WordFields.all i
    exact matches_maskRow_iff.mpr ⟨hopc, hop ▸ operand_reservedBits_clear i⟩

/-- R94's rule for the decoder, which accepts exactly the encodings. -/
theorem matches_iff_decode {w : Word32} {r : MaskRow} (hr : r ∈ maskTable) :
    w &&& r.mask = r.matchWord ↔ ∃ i, decode w = .ok i ∧ i.mnemonic = r.mnemonic := by
  simp only [matches_iff_exists_encode hr, decode_eq_ok_iff]

/-- A word decodes if and only if some row matches it: the row of its command. -/
theorem decodes_iff_exists_matches (w : Word32) : (∃ i, decode w = .ok i) ↔ ∃ r ∈ maskTable, w &&& r.mask = r.matchWord := by
  constructor
  · rintro ⟨i, hi⟩
    exact ⟨i.maskRow, maskRow_mem i, (matches_iff_decode (maskRow_mem i)).mpr ⟨i, hi, rfl⟩⟩
  · rintro ⟨r, hr, hmatch⟩
    obtain ⟨i, hi, -⟩ := (matches_iff_decode hr).mp hmatch
    exact ⟨i, hi⟩

/-- Two rows that match one word are both the row of its command. -/
theorem eq_of_matches {w : Word32} {r r' : MaskRow} (hr : r ∈ maskTable) (hr' : r' ∈ maskTable) (h : w &&& r.mask = r.matchWord)
    (h' : w &&& r'.mask = r'.matchWord) : r = r' := by
  obtain ⟨i, hi, hmn⟩ := (matches_iff_decode hr).mp h
  obtain ⟨i', hi', hmn'⟩ := (matches_iff_decode hr').mp h'
  cases hi.symm.trans hi'
  exact eq_of_mnemonic_eq hr hr' (hmn.symm.trans hmn')

/-! ### The bits a mask leaves out -/

/-- The match word has no bit outside the mask. -/
theorem matchWord_and_mask {r : MaskRow} (hr : r ∈ maskTable) : r.matchWord &&& r.mask = r.matchWord := by
  revert r
  decide

/-- A bit of the mask is a bit all words of the row share with the match word. -/
theorem getLsbD_of_matches {w : Word32} {r : MaskRow} {j : Nat} (h : w &&& r.mask = r.matchWord) (hj : r.mask.getLsbD j = true) :
    w.getLsbD j = r.matchWord.getLsbD j := by
  rw [← h, BitVec.getLsbD_and, hj, Bool.and_true]

/-- A bit the mask leaves out differs between two words of the row: the match word, and the match word with all those bits set. -/
theorem mask_bit_false_iff {r : MaskRow} (hr : r ∈ maskTable) {j : Nat} (hj : j < 32) : r.mask.getLsbD j = false ↔
    ∃ i i' : Instr, i.mnemonic = r.mnemonic ∧ i'.mnemonic = r.mnemonic ∧ (encode i).getLsbD j ≠ (encode i').getLsbD j := by
  have hmatch := matchWord_and_mask hr
  constructor
  · intro hbit
    have hall : (r.matchWord ||| ~~~r.mask) &&& r.mask = r.matchWord := by
      rw [BitVec.and_or_distrib_right, hmatch]
      simp
    obtain ⟨i, hi, hmn⟩ := (matches_iff_exists_encode hr).mp hmatch
    obtain ⟨i', hi', hmn'⟩ := (matches_iff_exists_encode hr).mp hall
    refine ⟨i, i', hmn, hmn', ?_⟩
    have hlow : r.matchWord.getLsbD j = false := by rw [← hmatch, BitVec.getLsbD_and, hbit, Bool.and_false]
    rw [hi, hi', BitVec.getLsbD_or, BitVec.getLsbD_not, hlow, hbit]
    simp [hj]
  · rintro ⟨i, i', hmn, hmn', hne⟩
    by_contra hbit
    rw [Bool.not_eq_false] at hbit
    have hi := (matches_iff_exists_encode hr).mpr ⟨i, rfl, hmn⟩
    have hi' := (matches_iff_exists_encode hr).mpr ⟨i', rfl, hmn'⟩
    exact hne ((getLsbD_of_matches hi hbit).trans (getLsbD_of_matches hi' hbit).symm)

end Sys2Proof

namespace Sys2Proof.Machine

/-- Settles O2: a row matches exactly the encodings of its commands; the rest follows, since the rows' mnemonics differ. -/
theorem decodeFollowsMaskTable : Obligations.DecodeFollowsMaskTable :=
  ⟨fun _ _ hr => matches_iff_decode hr, decodes_iff_exists_matches, fun _ hr _ hj => mask_bit_false_iff hr hj,
    fun _ _ hr _ hr' => eq_of_matches hr hr'⟩

end Sys2Proof.Machine
end

section
/-! NOP, and the words of its opcode (40_control R110). -/

namespace Sys2Proof.Machine

/-- NOP changes nothing: its effect is the state itself, and under the latch it is ignored (40_control R110). -/
theorem exec_nop (s : State) : exec .nop s = .next s := by
  by_cases hs : s.ready
  · exact exec_of_effect_ok hs rfl
  · rw [exec_eq_runCommand]
    exact runCommand_blocked hs rfl _

theorem encode_nop : encode .nop = 0 := rfl

/-- Format N has no operand: the operand field of an opcode-0x00 word must be all zero (30_encoding R91, R95). -/
theorem decode_nop_opcode {w : Word32} (hopc : opcodeField w = 0x00) (hop : operandField w ≠ 0) :
    decode w = .error .reservedBitSet := by
  have hnot : ¬operandField w = 0#24 := hop
  simp [decode, hopc, decodeN, hnot]

/-- Settles O13: NOP's effect is the identity, 0 is NOP's word, and a word of its opcode with an operand bit set is illegal. -/
theorem nopChangesNothing : Obligations.NopChangesNothing := by
  unfold Obligations.NopChangesNothing
  refine ⟨exec_nop, fun w => ?_, fun s w hs hopc hop => ?_⟩
  · rw [decode_eq_ok_iff, encode_nop, eq_comm]
  · obtain ⟨raises, -⟩ := illegalWordsRaise w .reservedBitSet s (decode_nop_opcode hopc hop)
    exact raises hs

end Sys2Proof.Machine
end

section
/-! What CSRR of each register returns, and the fields of STATUS (10_state R33 to R60, 40_control R111). -/

namespace Sys2Proof.Machine

/-- CSRR under a register's own number answers with that register, in every state (60_exceptions R247). -/
theorem exec_csrr_number (c : Csr) (s : State) : exec (.csrr c.number) s = .next (s.setRes (csrRead c s)) :=
  exec_csrr_assigned c.ofNumber_number s

/-- Bit 0 of RLE_PSTATE is PHASE, bit 1 is FIRST (10_state R53). -/
theorem csrRead_rlePstate (s : State) : csrRead .rlePstate s =
    0#62 ++ BitVec.ofBool s.rle.first ++ BitVec.ofBool (decide (s.rle.phase = .suffixPhase)) := by
  rw [← beq_eq_decide]
  rfl

/-! ### The fields of STATUS (10_state R34)

STATUS is its fields put together from the top down, so a field is the right end of what is left when the fields below it are taken off. -/

/-- A field of one bit, as a bit. -/
theorem getLsbD_of_field {k j : Nat} {w : BitVec k} {b : Bool} (h : w.extractLsb' j 1 = BitVec.ofBool b) : w.getLsbD j = b := by
  have hbit : (w.extractLsb' j 1).getLsbD 0 = w.getLsbD j := by simp
  rw [← hbit, h]
  simp

theorem statusWord_fields (s : State) :
    (statusWord s).extractLsb' 0 8 = s.latch.err.code ∧ (statusWord s).extractLsb' 8 2 = s.ac.dir.code ∧
    (statusWord s).extractLsb' 10 1 = BitVec.ofBool s.prd.ctxFull ∧
    (statusWord s).extractLsb' 11 1 = BitVec.ofBool (flagPastEnd s) ∧
    (statusWord s).extractLsb' 12 1 = BitVec.ofBool (flagRleBusy s) ∧ (statusWord s).extractLsb' 13 3 = 0 ∧
    (statusWord s).extractLsb' 16 9 = BitVec.ofNat 9 s.rle.queue.length ∧ (statusWord s).extractLsb' 25 39 = 0 := by
  simp (disch := decide) only [statusWord, BitVec.extractLsb'_append_eq_of_le, Nat.reduceSub]
  exact ⟨BitVec.extractLsb'_append_eq_right, BitVec.extractLsb'_append_eq_right, BitVec.extractLsb'_append_eq_right,
    BitVec.extractLsb'_append_eq_right, BitVec.extractLsb'_append_eq_right, BitVec.extractLsb'_append_eq_right,
    BitVec.extractLsb'_append_eq_right, BitVec.extractLsb'_zero⟩

theorem flagPastEnd_eq (s : State) : flagPastEnd s = decide (0 < s.ac.pastEnd) := by
  rw [Bool.eq_iff_iff]
  simp [flagPastEnd, Nat.pos_iff_ne_zero]

theorem flagRleBusy_eq (s : State) : flagRleBusy s = decide (s.rle.phase = .suffixPhase ∨ 0 < s.rle.depth) := by
  rw [Bool.eq_iff_iff]
  simp [flagRleBusy, Nat.pos_iff_ne_zero]

/-- Settles O14: each number is its register's own and CSRR reads that register; STATUS field by field; the codes by definition. -/
theorem csrrReadsEachRegister : Obligations.CsrrReadsEachRegister := by
  unfold Obligations.CsrrReadsEachRegister
  refine ⟨fun s => ?_, fun s hqlen => ?_, by decide, rfl, rfl, rfl⟩
  · refine ⟨exec_csrr_number .id s, exec_csrr_number .status s, exec_csrr_number .errInfo s, exec_csrr_number .errCmd s,
      exec_csrr_number .acNsym s, exec_csrr_number .acTerm s, exec_csrr_number .acSections s, exec_csrr_number .acSectDone s,
      exec_csrr_number .acLow s, exec_csrr_number .acHigh s, exec_csrr_number .acUf s, exec_csrr_number .acCode s,
      exec_csrr_number .acTotal s, exec_csrr_number .acBits s, exec_csrr_number .acInPos s, exec_csrr_number .acPastEnd s,
      exec_csrr_number .rleM s, exec_csrr_number .rleRun s, exec_csrr_number .rleQlen s, ?rlePstate,
      exec_csrr_number .rleDepth s, exec_csrr_number .rleVacc s, exec_csrr_number .fldDim s, exec_csrr_number .prdCfg s,
      exec_csrr_number .prdPos s, exec_csrr_number .ctxCount s, fun k => exec_csrr_number (.shapeLen k) s,
      fun k i => exec_csrr_number (.shapeCell k i) s⟩
    case rlePstate =>
      rw [← csrRead_rlePstate]
      exact exec_csrr_number .rlePstate s
  · obtain ⟨herr, hdir, hctx, hpast, hbusy, hgap, hq, htop⟩ := statusWord_fields s
    have hlen : ((statusWord s).extractLsb' 16 9).toNat = s.rle.queue.length := by
      rw [hq, BitVec.toNat_ofNat, Nat.mod_eq_of_lt (by omega)]
    exact ⟨herr, hdir, getLsbD_of_field hctx, (getLsbD_of_field hpast).trans (flagPastEnd_eq s),
      (getLsbD_of_field hbusy).trans (flagRleBusy_eq s), hgap, hlen, htop⟩

end Sys2Proof.Machine
end

section
/-! What CSRW of a legal value does, register by register (40_control R112, R113). -/

namespace Sys2Proof.Machine

/-- With the latch clear, CSRW of a legal value under a register's own number is the register's write. -/
theorem exec_csrw_legal {c : Csr} {s : State} (hs : s.ready) (hv : LegalCsrValue c s.arg) :
    exec (.csrw c.number) s = .next (csrWrite c s.arg s) :=
  exec_of_effect_ok hs (writeControl_legalValue c.ofNumber_number hv)

/-- A legal length fits the register's five bits (10_state R59). -/
theorem csrWrite_shapeLen_same {k : Fin 4} {v : Word64} (hv : LegalCsrValue (.shapeLen k) v) (s : State) :
    (csrWrite (.shapeLen k) v s).prd.shapeLen[k].toNat = v.toNat := by
  have hlen : v.toNat ≤ 16 := hv
  have hwritten : (csrWrite (.shapeLen k) v s).prd.shapeLen[k] = v.setWidth 5 := by simp [csrWrite]
  rw [hwritten, BitVec.toNat_setWidth, Nat.mod_eq_of_lt (by omega)]

theorem csrWrite_shapeLen_other {k j : Fin 4} (hj : j ≠ k) (v : Word64) (s : State) :
    (csrWrite (.shapeLen k) v s).prd.shapeLen[j] = s.prd.shapeLen[j] :=
  Vector.getElem_set_ne k.isLt j.isLt fun h => hj (Fin.ext h.symm)

/-- A legal cell fits the register's sixteen bits (10_state R60). -/
theorem csrWrite_shapeCell_same {k : Fin 4} {i : Fin 16} {v : Word64} (hv : LegalCsrValue (.shapeCell k i) v) (s : State) :
    (csrWrite (.shapeCell k i) v s).prd.shapeCell[k][i].toNat = v.toNat := by
  obtain ⟨hcell, -⟩ := hv
  have hwritten : (csrWrite (.shapeCell k i) v s).prd.shapeCell[k][i] = v.setWidth 16 := by simp [csrWrite]
  rw [hwritten, BitVec.toNat_setWidth, Nat.mod_eq_of_lt hcell]

/-- A cell's write keeps the other shapes, and in its own shape the other cells. -/
theorem csrWrite_shapeCell_other {k k' : Fin 4} {i i' : Fin 16} (hne : (k', i') ≠ (k, i)) (v : Word64) (s : State) :
    (csrWrite (.shapeCell k i) v s).prd.shapeCell[k'][i'] = s.prd.shapeCell[k'][i'] := by
  by_cases hk : k' = k
  · subst hk
    have hi : i.val ≠ i'.val := fun h => hne (by rw [Fin.ext h])
    simp [csrWrite, Vector.getElem_set_ne, hi]
  · have hk' : k.val ≠ k'.val := fun h => hk (Fin.ext h.symm)
    simp [csrWrite, Vector.getElem_set_ne, hk']

/-- Settles O15: CSRW is the register's write, whose frame is its own definition; the table registers index by index. -/
theorem csrwTakesLegalValues : Obligations.CsrwTakesLegalValues := by
  unfold Obligations.CsrwTakesLegalValues
  intro s hs
  refine ⟨exec_csrw_legal hs, exec_csrw_legal hs, exec_csrw_legal hs, exec_csrw_legal hs, fun hv => ?fldDim, exec_csrw_legal hs,
    fun k hv => ?shapeLen, fun k i hv => ?shapeCell⟩
  case fldDim => exact ⟨_, exec_csrw_legal hs hv, fun _ => rfl, rfl⟩
  case shapeLen =>
    exact ⟨_, exec_csrw_legal hs hv, csrWrite_shapeLen_same hv s, fun j hj => csrWrite_shapeLen_other hj s.arg s, rfl⟩
  case shapeCell =>
    exact ⟨_, exec_csrw_legal hs hv, csrWrite_shapeCell_same hv s, fun _ _ hne => csrWrite_shapeCell_other hne s.arg s, rfl⟩

end Sys2Proof.Machine
end

section
/-! The coder's table: AC.INIT, FREQ.WR, FREQ.RD, FREQ.CLR, CUM.RD, and the sums over FREQ (41_arith_coder R121, R124, R126 to R129). -/

namespace Sys2Proof.Machine

/-! ### Sums over an indexed memory -/

/-- Indices at or above the limit do not count. -/
theorem Memory.sumBelow_of_le {w : Nat} {m : Memory w} {n : Nat} (h : ∀ c ∈ m, n ≤ c.1) : m.sumBelow n = 0 := by
  induction m with
  | nil => rfl
  | cons c m ih =>
    have hc : ¬c.1 < n := Nat.not_lt.mpr (h c List.mem_cons_self)
    rw [Memory.sumBelow, if_neg hc, ih fun d hd => h d (List.mem_cons_of_mem _ hd)]

/-- One index more adds its value: the listed indices are distinct (41_arith_coder R121). -/
theorem Memory.sumBelow_succ {w : Nat} {m : Memory w} (h : m.wf) (n : Nat) :
    m.sumBelow (n + 1) = m.sumBelow n + (m.read n).toNat := by
  induction m with
  | nil => simp [Memory.sumBelow]
  | cons c m ih =>
    obtain ⟨a, v⟩ := c
    have ih' := ih (Memory.wf_tail h)
    rcases Nat.lt_trichotomy a n with hlt | rfl | hgt
    · simp only [Memory.sumBelow, Memory.read, if_pos hlt, if_pos (Nat.lt_succ_of_lt hlt), if_neg (Nat.ne_of_gt hlt), ih']
      omega
    · have habove : ∀ c ∈ m, a + 1 ≤ c.1 := fun c hc => Memory.wf_head h hc
      simp [Memory.sumBelow, Memory.read, Memory.sumBelow_of_le habove,
        Memory.sumBelow_of_le fun c hc => Nat.le_of_succ_le (habove c hc)]
    · have hn : ¬a < n := by omega
      have hn1 : ¬a < n + 1 := by omega
      simp [Memory.sumBelow, Memory.read, Nat.ne_of_lt hgt, hn, hn1, ih']

/-- The sum below `n` is the sum of what the indices read. -/
theorem Memory.sumBelow_eq_sum {w : Nat} {m : Memory w} (h : m.wf) (n : Nat) :
    m.sumBelow n = (Finset.range n).sum fun k => (m.read k).toNat := by
  induction n with
  | zero => rw [Memory.sumBelow_of_le fun _ _ => Nat.zero_le _, Finset.sum_range_zero]
  | succ n ih => rw [Memory.sumBelow_succ h, ih, Finset.sum_range_succ]

/-- A higher limit gives no smaller sum. -/
theorem Memory.sumBelow_mono {w : Nat} (m : Memory w) {n k : Nat} (h : n ≤ k) : m.sumBelow n ≤ m.sumBelow k := by
  induction m with
  | nil => exact Nat.le_refl _
  | cons c m ih =>
    simp only [Memory.sumBelow]
    split_ifs <;> omega

/-! ### The commands -/

/-- Settles O20: AC.INIT raises nothing. -/
theorem acInitStartsCoder : Obligations.AcInitStartsCoder := by
  unfold Obligations.AcInitStartsCoder
  intro s hs
  exact exec_of_effect_ok (i := .acInit) hs rfl

/-- Settles O21, by the laws of the indexed memory. -/
theorem freqTableCommands : Obligations.FreqTableCommands := by
  unfold Obligations.FreqTableCommands
  refine ⟨fun s sym hs hwf => ?write, fun s sym hs => exec_of_effect_ok (i := .freqRd sym) hs rfl, fun s hs => ?clear⟩
  case write =>
    refine ⟨_, exec_of_effect_ok (i := .freqWr sym) hs rfl, ?_, fun k hk => ?_, Memory.write_wf hwf _ _, rfl⟩
    · exact (Memory.read_write hwf _ _ _).trans (if_pos rfl)
    · exact (Memory.read_write hwf _ _ _).trans (if_neg hk)
  case clear => exact ⟨_, exec_of_effect_ok (i := .freqClr) hs rfl, fun _ => rfl, rfl, rfl⟩

/-- Settles O22: the running sum of CUM.RD is the sum over the symbols below. -/
theorem cumRdReturnsPrefixSum : Obligations.CumRdReturnsPrefixSum := by
  unfold Obligations.CumRdReturnsPrefixSum
  intro s sym hs hwf
  refine ⟨fun hle => ?_, fun hlt => ?_⟩
  · have heff : commandEffect (.cumRd sym) s = .ok (s.setRes (saturate64 (s.ac.cum sym.toNat))) := if_neg (Nat.not_lt.mpr hle)
    rw [exec_of_effect_ok hs heff, saturate64, AcUnit.cum, Memory.sumBelow_eq_sum hwf]
  · exact exec_of_effect_error (i := .cumRd sym) hs (if_pos hlt)

end Sys2Proof.Machine
end

section
/-! The interval update and the decoder's lookup (41_arith_coder R122, R135, R137, R140, R145). -/

namespace Sys2Proof.Machine

/-! ### The cumulative sums of a table -/

/-- A symbol's share of the total stands right above those of the symbols below it. -/
theorem cum_succ {a : AcUnit} (hwf : a.freq.wf) (n : Nat) : a.cum (n + 1) = a.cum n + (a.freq.read n).toNat :=
  Memory.sumBelow_succ hwf n

theorem cum_mono (a : AcUnit) {n k : Nat} (h : n ≤ k) : a.cum n ≤ a.cum k := Memory.sumBelow_mono a.freq h

/-- A lower symbol's share ends where a higher one's begins, or before. -/
theorem cum_add_read_le {a : AcUnit} (hwf : a.freq.wf) {n k : Nat} (h : n < k) : a.cum n + (a.freq.read n).toNat ≤ a.cum k :=
  cum_succ hwf n ▸ cum_mono a h

/-- A symbol of the alphabet has its share inside TOTAL. -/
theorem cum_add_read_le_total {a : AcUnit} (hwf : a.freq.wf) {n : Nat} (h : n < a.nsym.toNat) :
    a.cum n + (a.freq.read n).toNat ≤ a.total := cum_add_read_le hwf h

theorem read_pos {a : AcUnit} {n : Nat} (h : a.freq.read n ≠ 0) : 0 < (a.freq.read n).toNat :=
  Nat.pos_of_ne_zero fun hz => h (BitVec.eq_of_toNat_eq hz)

/-! ### The interval update -/

/-- What the interval update needs: a canonical table whose total fits the range (41_arith_coder R135, R145). -/
structure UpdateReady (a : AcUnit) : Prop where
  canonical : a.freq.wf
  totalBound : a.total ≤ 2 ^ 30
  rangeBound : a.low.toNat + 2 ^ 30 ≤ a.high.toNat + 1

/-- A symbol the coder can code: in the alphabet, with a frequency. -/
structure Codes (a : AcUnit) (sym : Sym) : Prop where
  inAlphabet : sym.toNat < a.nsym.toNat
  hasFrequency : a.freq.read sym.toNat ≠ 0

/-- A share of at least 1 of a total that fits the range takes at least one unit of the range. -/
theorem mul_div_lt_mul_add_div {r c f t : Nat} (hf : 0 < f) (ht : 0 < t) (htr : t ≤ r) : r * c / t + 1 ≤ r * (c + f) / t := by
  have hshare : r * c + t ≤ r * (c + f) := by nlinarith
  calc r * c / t + 1 = (r * c + t) / t := (Nat.add_div_right _ ht).symm
    _ ≤ r * (c + f) / t := Nat.div_le_div_right hshare

/-- The share of at most the total takes at most the range. -/
theorem mul_div_le_of_le {r c t : Nat} (h : c ≤ t) : r * c / t ≤ r :=
  Nat.div_le_of_le_mul (by rw [Nat.mul_comm t r]; exact Nat.mul_le_mul_left r h)

section
variable {a : AcUnit} {sym : Sym} (ha : UpdateReady a) (hsym : Codes a sym)
include ha hsym

/-- The updated bounds, before they are put into 32 bits: the new bounds lie in order inside the old ones. -/
theorem intervalUpdate_quotients_inside :
    a.range * a.cum sym.toNat / a.total + 1 ≤ a.range * (a.cum sym.toNat + (a.freq.read sym.toNat).toNat) / a.total ∧
      a.range * (a.cum sym.toNat + (a.freq.read sym.toNat).toNat) / a.total ≤ a.range := by
  obtain ⟨hwf, htotal, hrange⟩ := ha
  have hfreq := read_pos hsym.hasFrequency
  have hshare := cum_add_read_le_total hwf hsym.inAlphabet
  have hr : a.total ≤ a.range := by unfold AcUnit.range; omega
  exact ⟨mul_div_lt_mul_add_div hfreq (by omega) hr, mul_div_le_of_le hshare⟩

/-- The new LOW is the exact quotient (41_arith_coder R122). -/
theorem intervalUpdate_low : (intervalUpdate sym a).low.toNat = a.range * a.cum sym.toNat / a.total + a.low.toNat := by
  obtain ⟨hlt, hle⟩ := intervalUpdate_quotients_inside ha hsym
  have hhigh := a.high.isLt
  have hr : a.range = a.high.toNat + 1 - a.low.toNat := rfl
  have := ha.rangeBound
  exact (BitVec.toNat_ofNat _ _).trans (Nat.mod_eq_of_lt (by omega))

/-- The new HIGH is the exact quotient less 1 (41_arith_coder R122). -/
theorem intervalUpdate_high : (intervalUpdate sym a).high.toNat + 1 =
    a.range * (a.cum sym.toNat + (a.freq.read sym.toNat).toNat) / a.total + a.low.toNat := by
  obtain ⟨hlt, hle⟩ := intervalUpdate_quotients_inside ha hsym
  have hhigh := a.high.isLt
  have hr : a.range = a.high.toNat + 1 - a.low.toNat := rfl
  have := ha.rangeBound
  have hexact : (intervalUpdate sym a).high.toNat =
      a.range * (a.cum sym.toNat + (a.freq.read sym.toNat).toNat) / a.total + a.low.toNat - 1 :=
    (BitVec.toNat_ofNat _ _).trans (Nat.mod_eq_of_lt (by omega))
  have hone := Nat.le_of_add_left_le hlt
  omega

/-- The new interval is not empty and lies inside the old one (41_arith_coder R135). -/
theorem intervalUpdate_inside : a.low.toNat ≤ (intervalUpdate sym a).low.toNat ∧
    (intervalUpdate sym a).low.toNat ≤ (intervalUpdate sym a).high.toNat ∧ (intervalUpdate sym a).high.toNat ≤ a.high.toNat := by
  obtain ⟨hlt, hle⟩ := intervalUpdate_quotients_inside ha hsym
  have hlow := intervalUpdate_low ha hsym
  have hhigh := intervalUpdate_high ha hsym
  have hr : a.range = a.high.toNat + 1 - a.low.toNat := rfl
  have hold := ha.rangeBound
  have habove : a.low.toNat ≤ (intervalUpdate sym a).low.toNat := hlow ▸ Nat.le_add_left _ _
  omega

/-- The intervals of two symbols stand in symbol order and do not meet (41_arith_coder R145). -/
theorem intervalUpdate_ordered {sym' : Sym} (hsym' : Codes a sym') (h : sym.toNat < sym'.toNat) :
    (intervalUpdate sym a).high.toNat < (intervalUpdate sym' a).low.toNat := by
  have hhigh := intervalUpdate_high ha hsym
  have hlow := intervalUpdate_low ha hsym'
  have hshares : a.range * (a.cum sym.toNat + (a.freq.read sym.toNat).toNat) / a.total ≤ a.range * a.cum sym'.toNat / a.total :=
    Nat.div_le_div_right (Nat.mul_le_mul_left _ (cum_add_read_le ha.canonical h))
  omega

end

/-- Settles O23, from the exact quotients. -/
theorem intervalUpdateStaysInside : Obligations.IntervalUpdateStaysInside := by
  unfold Obligations.IntervalUpdateStaysInside
  intro a hwf htotal hrange
  have ha : UpdateReady a := ⟨hwf, htotal, hrange⟩
  have hr : a.high.toNat - a.low.toNat + 1 = a.range := by unfold AcUnit.range; omega
  rw [hr]
  refine ⟨fun sym hn hf => ?_, fun sym sym' hlt hn' hf hf' => ?_⟩
  · have hsym : Codes a sym := ⟨hn, hf⟩
    exact ⟨intervalUpdate_low ha hsym, intervalUpdate_high ha hsym, intervalUpdate_inside ha hsym⟩
  · exact intervalUpdate_ordered ha ⟨by omega, hf⟩ ⟨hn', hf'⟩ hlt

/-! ### The lookup -/

/-- The running sum passes the count at some index below the limit, if it passes it by the limit. -/
theorem Memory.exists_findAbove {w : Nat} {m : Memory w} {n count acc : Nat} (hwf : m.wf) (h : count < acc + m.sumBelow n)
    (hacc : acc ≤ count) : ∃ k, m.findAbove n count acc = some k := by
  induction m generalizing acc with
  | nil => simp only [Memory.sumBelow] at h; omega
  | cons c m ih =>
    obtain ⟨b, v⟩ := c
    have hb : b < n := by
      by_contra hge
      have hnone : Memory.sumBelow n ((b, v) :: m) = 0 := Memory.sumBelow_of_le fun c hc => by
        rcases List.mem_cons.mp hc with rfl | hc
        · exact Nat.not_lt.mp hge
        · exact Nat.le_trans (Nat.not_lt.mp hge) (Nat.le_of_lt (Memory.wf_head hwf hc))
      omega
    simp only [Memory.findAbove, if_neg (Nat.not_le.mpr hb)]
    split_ifs with hpass
    · exact ⟨b, rfl⟩
    · rw [Memory.sumBelow, if_pos hb] at h
      exact ih (Memory.wf_tail hwf) (by omega) (Nat.not_lt.mp hpass)

/-- The lookup of a count below TOTAL: the symbol whose share holds the count (41_arith_coder R137). -/
theorem lookupSymbol_of_count_lt {s : State} (hwf : s.ac.freq.wf) (hn : s.ac.nsym.toNat ≤ 65536) (hc : s.ac.count < s.ac.total) :
    ∃ sym : Sym, lookupSymbol s = (sym, s) ∧ sym.toNat < s.ac.nsym.toNat ∧ s.ac.cum sym.toNat ≤ s.ac.count ∧
      s.ac.count < s.ac.cum sym.toNat + (s.ac.freq.read sym.toNat).toNat := by
  obtain ⟨k, hk⟩ := Memory.exists_findAbove (acc := 0) hwf (by rw [Nat.zero_add]; exact hc) (Nat.zero_le _)
  obtain ⟨hkn, hle, hlt⟩ := Memory.findAbove_some hwf (Nat.zero_le _) hk
  have hsym : (BitVec.ofNat 16 k).toNat = k := (BitVec.toNat_ofNat _ _).trans (Nat.mod_eq_of_lt (by omega))
  refine ⟨BitVec.ofNat 16 k, by simp only [lookupSymbol, hk], ?_⟩
  rw [hsym]
  rw [Nat.zero_add] at hle hlt
  exact ⟨hkn, hle, hlt⟩

/-- CODE lies in the interval (41_arith_coder R140). -/
structure CodeInside (a : AcUnit) : Prop where
  low_le : a.low.toNat ≤ a.code.toNat
  le_high : a.code.toNat ≤ a.high.toNat

/-- A window inside the interval counts below TOTAL (41_arith_coder R137). -/
theorem count_lt_total {a : AcUnit} (hpos : 0 < a.total) (hcode : CodeInside a) : a.count < a.total := by
  obtain ⟨hlow, hhigh⟩ := hcode
  have hv : a.code.toNat + 1 - a.low.toNat ≤ a.range := by unfold AcUnit.range; omega
  have hmul : (a.code.toNat + 1 - a.low.toNat) * a.total ≤ a.total * a.range := by rw [Nat.mul_comm]; exact Nat.mul_le_mul_left _ hv
  have hv0 : 0 < (a.code.toNat + 1 - a.low.toNat) * a.total := Nat.mul_pos (by omega) hpos
  exact Nat.div_lt_of_lt_mul (by rw [Nat.mul_comm a.range]; omega)

/-- A symbol whose share holds the count has CODE in its interval (41_arith_coder R137, R140). -/
theorem code_inside_of_count {a : AcUnit} {sym : Sym} (ha : UpdateReady a) (hsym : Codes a sym) (hcode : CodeInside a)
    (hle : a.cum sym.toNat ≤ a.count) (hlt : a.count < a.cum sym.toNat + (a.freq.read sym.toNat).toNat) :
    (intervalUpdate sym a).low.toNat ≤ a.code.toNat ∧ a.code.toNat ≤ (intervalUpdate sym a).high.toNat := by
  obtain ⟨hcl, hch⟩ := hcode
  have hr : 0 < a.range := by unfold AcUnit.range; omega
  have ht : 0 < a.total := by have := read_pos hsym.hasFrequency; have := cum_add_read_le_total ha.canonical hsym.inAlphabet; omega
  have hv0 : 0 < (a.code.toNat + 1 - a.low.toNat) * a.total := Nat.mul_pos (by omega) ht
  have hbelow : a.range * a.cum sym.toNat / a.total < a.code.toNat + 1 - a.low.toNat := by
    have := (Nat.le_div_iff_mul_le hr).mp hle
    exact Nat.div_lt_of_lt_mul (by rw [Nat.mul_comm a.range, Nat.mul_comm a.total]; omega)
  have habove : a.code.toNat + 1 - a.low.toNat ≤ a.range * (a.cum sym.toNat + (a.freq.read sym.toNat).toNat) / a.total := by
    have := (Nat.div_lt_iff_lt_mul hr).mp hlt
    exact (Nat.le_div_iff_mul_le ht).mpr (by rw [Nat.mul_comm a.range]; omega)
  have hlow := intervalUpdate_low ha hsym
  have hhigh := intervalUpdate_high ha hsym
  omega

/-- The lookup of a window inside the interval: it draws no free value, and finds a symbol that can be coded, whose share holds the count
and whose interval holds CODE (41_arith_coder R137, R140). -/
theorem lookupSymbol_finds {s : State} (ha : UpdateReady s.ac) (hn : s.ac.nsym.toNat ≤ 65536) (hpos : 0 < s.ac.total)
    (hcode : CodeInside s.ac) :
    ∃ sym : Sym, lookupSymbol s = (sym, s) ∧ Codes s.ac sym ∧
      (s.ac.cum sym.toNat ≤ s.ac.count ∧ s.ac.count < s.ac.cum sym.toNat + (s.ac.freq.read sym.toNat).toNat) ∧
      CodeInside (intervalUpdate sym s.ac) := by
  obtain ⟨sym, hlook, hlt, hcum, hcount⟩ := lookupSymbol_of_count_lt ha.canonical hn (count_lt_total hpos hcode)
  have hfreq : s.ac.freq.read sym.toNat ≠ 0 := fun hz => by
    have hzero : (s.ac.freq.read sym.toNat).toNat = 0 := by rw [hz]; rfl
    omega
  obtain ⟨hl, hh⟩ := code_inside_of_count ha ⟨hlt, hfreq⟩ hcode hcum hcount
  exact ⟨sym, hlook, ⟨hlt, hfreq⟩, ⟨hcum, hcount⟩, ⟨hl, hh⟩⟩

/-- The lookup finds the one symbol whose interval holds CODE (41_arith_coder R145). -/
theorem lookupSymbol_eq {s : State} {sym : Sym} (ha : UpdateReady s.ac) (hn : s.ac.nsym.toNat ≤ 65536) (hsym : Codes s.ac sym)
    (hcode : CodeInside (intervalUpdate sym s.ac)) : lookupSymbol s = (sym, s) := by
  obtain ⟨hl, hh⟩ := hcode
  obtain ⟨hlow, -, hhigh⟩ := intervalUpdate_inside ha hsym
  have hpos : 0 < s.ac.total := by
    have := read_pos hsym.hasFrequency
    have := cum_add_read_le_total ha.canonical hsym.inAlphabet
    omega
  obtain ⟨sym', hlook, hsym', -, ⟨hl', hh'⟩⟩ := lookupSymbol_finds ha hn hpos ⟨hlow.trans hl, hh.trans hhigh⟩
  suffices sym' = sym by rw [hlook, this]
  rcases Nat.lt_trichotomy sym'.toNat sym.toNat with hlt | heq | hgt
  · exact absurd (intervalUpdate_ordered ha hsym' hsym hlt) (Nat.not_lt.mpr (hl.trans hh'))
  · exact BitVec.eq_of_toNat_eq heq
  · exact absurd (intervalUpdate_ordered ha hsym hsym' hgt) (Nat.not_lt.mpr (hl'.trans hh))

/-- Settles O33: the lookup's symbol is the least, since every lower one's share ends below the count. -/
theorem lookupFindsTheSymbol : Obligations.LookupFindsTheSymbol := by
  unfold Obligations.LookupFindsTheSymbol
  intro s hwf hn hpos htotal hrange hcl hch
  have hcode : CodeInside s.ac := ⟨hcl, hch⟩
  obtain ⟨sym, hlook, hsym, ⟨hle, hlt⟩, hin⟩ := lookupSymbol_finds ⟨hwf, htotal, hrange⟩ hn hpos hcode
  have hcount : s.ac.count =
      ((s.ac.code.toNat - s.ac.low.toNat + 1) * s.ac.total - 1) / (s.ac.high.toNat - s.ac.low.toNat + 1) := by
    rw [AcUnit.count, AcUnit.range, Nat.sub_add_comm hcl, Nat.sub_add_comm (hcl.trans hch)]
  refine ⟨sym, s.ac.count, hcount, count_lt_total hpos hcode, hlook, hsym.inAlphabet, hle, ?_, hsym.hasFrequency, fun k hk => ?_,
    hin.low_le, hin.le_high⟩
  · rw [cum_succ hwf]; exact hlt
  · exact (cum_mono s.ac hk).trans hle

end Sys2Proof.Machine
end

section
/-! LOW, HIGH and CODE as numbers: the bits that renormalisation reads, and the two shifts (41_arith_coder R123, R131, R136, R139). -/

namespace Sys2Proof.Machine

/-! ### Bits of a word -/

/-- A bit of a word, read off its number. -/
theorem getLsbD_eq_decide_div {w : Nat} (x : BitVec w) (i : Nat) : x.getLsbD i = decide (x.toNat / 2 ^ i % 2 = 1) :=
  Nat.testBit_eq_decide_div_mod_eq

theorem getLsbD_iff_div {w : Nat} {x : BitVec w} {i : Nat} : x.getLsbD i = true ↔ x.toNat / 2 ^ i % 2 = 1 := by
  rw [getLsbD_eq_decide_div, decide_eq_true_iff]

/-- The top bit of a word: the upper half of the numbers. -/
theorem topBit_iff {x : Word32} : x.getLsbD 31 = true ↔ 2 ^ 31 ≤ x.toNat := by
  rw [getLsbD_iff_div]
  omega

theorem topBit_clear_iff {x : Word32} : x.getLsbD 31 = false ↔ x.toNat < 2 ^ 31 := by
  rw [← Bool.not_eq_true, topBit_iff, Nat.not_le]

/-- A word doubled, with a bit put in at the low end. -/
theorem toNat_shiftIn (x : Word32) (b : Bool) :
    ((x <<< 1) ||| (BitVec.ofBool b).setWidth 32).toNat = x.toNat * 2 % 2 ^ 32 + b.toNat := by
  have hdouble : (x <<< 1).toNat = (x.toNat % 2 ^ 31) <<< 1 := by
    rw [BitVec.toNat_shiftLeft, Nat.shiftLeft_eq, Nat.shiftLeft_eq]
    omega
  have hb : b.toNat < 2 ^ 1 := Bool.toNat_lt b
  have hbit : ((BitVec.ofBool b).setWidth 32).toNat = b.toNat := by cases b <;> rfl
  rw [BitVec.toNat_or, hbit, hdouble, ← Nat.shiftLeft_add_eq_or_of_lt hb, Nat.shiftLeft_eq]
  omega

theorem toNat_shiftLeft_one (x : Word32) : (x <<< 1).toNat = x.toNat * 2 % 2 ^ 32 := by
  rw [BitVec.toNat_shiftLeft, Nat.shiftLeft_eq, pow_one]

theorem toNat_shiftLeft_one_or_one (x : Word32) : ((x <<< 1) ||| 1).toNat = x.toNat * 2 % 2 ^ 32 + 1 := toNat_shiftIn x true

/-- Masking off the two top bits leaves the number mod 2^30. -/
theorem toNat_and_low30 (x : Word32) : (x &&& 0x3FFFFFFF#32).toNat = x.toNat % 2 ^ 30 := by
  rw [BitVec.toNat_and]
  exact Nat.and_two_pow_sub_one_eq_mod x.toNat 30

/-- Complementing bit 30 where it is set. -/
theorem toNat_xor_bit30_of_set {x : Word32} (h : x.toNat / 2 ^ 30 % 2 = 1) : (x ^^^ 0x40000000#32).toNat + 2 ^ 30 = x.toNat := by
  have hhigh : (x ^^^ 0x40000000#32).toNat / 2 ^ 30 = (x.toNat / 2 ^ 30) ^^^ 1 := by
    rw [BitVec.toNat_xor, Nat.xor_div_two_pow]; rfl
  have hlow : (x ^^^ 0x40000000#32).toNat % 2 ^ 30 = x.toNat % 2 ^ 30 := by
    rw [BitVec.toNat_xor, Nat.xor_mod_two_pow]; exact Nat.xor_zero _
  have hquot : x.toNat / 2 ^ 30 = 1 ∨ x.toNat / 2 ^ 30 = 3 := by have := x.isLt; omega
  rcases hquot with hq | hq <;> rw [hq] at hhigh <;> simp only [Nat.xor_self, Nat.reduceXor] at hhigh <;> omega

/-- Complementing bit 30 where it is clear. -/
theorem toNat_xor_bit30_of_clear {x : Word32} (h : x.toNat / 2 ^ 30 % 2 = 0) : (x ^^^ 0x40000000#32).toNat = x.toNat + 2 ^ 30 := by
  have hset : (x ^^^ 0x40000000#32).toNat / 2 ^ 30 % 2 = 1 := by
    have hhigh : (x ^^^ 0x40000000#32).toNat / 2 ^ 30 = (x.toNat / 2 ^ 30) ^^^ 1 := by
      rw [BitVec.toNat_xor, Nat.xor_div_two_pow]; rfl
    have hquot : x.toNat / 2 ^ 30 = 0 ∨ x.toNat / 2 ^ 30 = 2 := by have := x.isLt; omega
    rcases hquot with hq | hq <;> rw [hhigh, hq] <;> rfl
  have hback := toNat_xor_bit30_of_set hset
  rw [BitVec.xor_assoc, BitVec.xor_self, BitVec.xor_zero] at hback
  exact hback.symm

/-- Setting bit 30 where it is clear complements it. -/
theorem or_bit30_of_clear {x : Word32} (h : x.getLsbD 30 = false) : x ||| 0x40000000#32 = x ^^^ 0x40000000#32 := by
  apply BitVec.eq_of_getLsbD_eq
  intro i hi
  have hmask : (0x40000000#32).getLsbD i = decide (30 = i) := by
    rw [show 0x40000000#32 = BitVec.twoPow 32 30 from rfl, BitVec.getLsbD_twoPow]
    simp
  rw [BitVec.getLsbD_or, BitVec.getLsbD_xor, hmask]
  by_cases h30 : 30 = i
  · subst h30; rw [h, decide_eq_true rfl]; rfl
  · rw [decide_eq_false h30, Bool.or_false, Bool.xor_false]

/-! ### The shifts -/

theorem topShift_low (a : AcUnit) : (topShift a).low.toNat = a.low.toNat * 2 % 2 ^ 32 := toNat_shiftLeft_one a.low

theorem topShift_high (a : AcUnit) : (topShift a).high.toNat = a.high.toNat * 2 % 2 ^ 32 + 1 := toNat_shiftLeft_one_or_one a.high

theorem underflowShift_low (a : AcUnit) : (underflowShift a).low.toNat = (a.low &&& 0x3FFFFFFF#32).toNat * 2 % 2 ^ 32 :=
  toNat_shiftLeft_one _

theorem underflowShift_high (a : AcUnit) : (underflowShift a).high.toNat = (a.high ||| 0x40000000#32).toNat * 2 % 2 ^ 32 + 1 :=
  toNat_shiftLeft_one_or_one _

/-- `a'` has the bounds of `a` after one turn of renormalisation: doubled and moved down by `δ`, HIGH gaining a 1. -/
structure Doubled (δ : Nat) (a a' : AcUnit) : Prop where
  low : a'.low.toNat + δ = 2 * a.low.toNat
  high : a'.high.toNat + δ = 2 * a.high.toNat + 1

/-- The underflow state: LOW[31:30] = 01 and HIGH[31:30] = 10 (41_arith_coder R131). -/
structure Straddling (a : AcUnit) : Prop where
  low : 2 ^ 30 ≤ a.low.toNat ∧ a.low.toNat < 2 ^ 31
  high : 2 ^ 31 ≤ a.high.toNat ∧ a.high.toNat < 2 ^ 31 + 2 ^ 30

theorem topShift_doubled_lower {a : AcUnit} (h : a.high.toNat < 2 ^ 31) (hle : a.low.toNat ≤ a.high.toNat) :
    Doubled 0 a (topShift a) where
  low := by rw [topShift_low]; omega
  high := by rw [topShift_high]; omega

theorem topShift_doubled_upper {a : AcUnit} (h : 2 ^ 31 ≤ a.low.toNat) (hle : a.low.toNat ≤ a.high.toNat) :
    Doubled (2 ^ 32) a (topShift a) where
  low := by rw [topShift_low]; omega
  high := by rw [topShift_high]; omega

theorem underflowShift_doubled {a : AcUnit} (h : Straddling a) : Doubled (2 ^ 31) a (underflowShift a) := by
  obtain ⟨⟨hl, hl'⟩, hh, hh'⟩ := h
  have hclear : a.high.getLsbD 30 = false := by rw [getLsbD_eq_decide_div, decide_eq_false_iff_not]; omega
  refine ⟨?_, ?_⟩
  · rw [underflowShift_low, toNat_and_low30]
    omega
  · rw [underflowShift_high, or_bit30_of_clear hclear, toNat_xor_bit30_of_clear (by omega)]
    omega

/-! ### The three turns of renormalisation -/

/-- Bounds whose top bits agree are doubled and moved down by that bit's worth. -/
theorem topShift_doubled {a : AcUnit} (hle : a.low.toNat ≤ a.high.toNat) (h : topBitsAgree a = true) :
    Doubled ((a.high.getLsbD 31).toNat * 2 ^ 32) a (topShift a) := by
  have hagree : a.low.getLsbD 31 = a.high.getLsbD 31 := beq_iff_eq.mp h
  cases hhigh : a.high.getLsbD 31
  · exact topShift_doubled_lower (topBit_clear_iff.mp hhigh) hle
  · exact topShift_doubled_upper (topBit_iff.mp (hagree.trans hhigh)) hle

/-- The underflow state, for bounds in order (41_arith_coder R131). -/
theorem straddling_of_underflow {a : AcUnit} (hle : a.low.toNat ≤ a.high.toNat) (hagree : topBitsAgree a = false)
    (hu : inUnderflow a = true) : Straddling a := by
  obtain ⟨hl30, hh30⟩ : a.low.getLsbD 30 = true ∧ a.high.getLsbD 30 = false := by
    rw [inUnderflow] at hu
    simpa only [Bool.and_eq_true, Bool.not_eq_true'] using hu
  have hne : a.low.getLsbD 31 ≠ a.high.getLsbD 31 := beq_eq_false_iff_ne.mp hagree
  rw [Ne, Bool.eq_iff_iff, topBit_iff, topBit_iff] at hne
  rw [getLsbD_iff_div] at hl30
  rw [getLsbD_eq_decide_div, decide_eq_false_iff_not] at hh30
  have := a.high.isLt
  exact ⟨by omega, by omega⟩

/-- Bounds in order at which the loop ends are renormalised (41_arith_coder R136). -/
theorem renormalised_of_no_turn {a : AcUnit} (hle : a.low.toNat ≤ a.high.toNat) (hagree : topBitsAgree a = false)
    (hu : inUnderflow a = false) : Renormalised a := by
  have hne : a.low.getLsbD 31 ≠ a.high.getLsbD 31 := beq_eq_false_iff_ne.mp hagree
  rw [Ne, Bool.eq_iff_iff, topBit_iff, topBit_iff] at hne
  refine ⟨topBit_clear_iff.mpr (by omega), topBit_iff.mpr (by omega), ?_⟩
  rw [inUnderflow] at hu
  simpa only [Bool.and_eq_false_imp, Bool.not_eq_false', not_and, Bool.not_eq_false] using hu

/-- Everything renormalisation can meet, for bounds in order (41_arith_coder R131): top bits that agree, the underflow state, or bounds
that are renormalised. -/
theorem bounds_cases {a : AcUnit} (hle : a.low.toNat ≤ a.high.toNat) :
    (topBitsAgree a = true ∧ Doubled ((a.high.getLsbD 31).toNat * 2 ^ 32) a (topShift a)) ∨
    (topBitsAgree a = false ∧ inUnderflow a = true ∧ Straddling a) ∨
    (topBitsAgree a = false ∧ inUnderflow a = false ∧ Renormalised a) := by
  cases hagree : topBitsAgree a
  · cases hu : inUnderflow a
    · exact .inr (.inr ⟨rfl, rfl, renormalised_of_no_turn hle hagree hu⟩)
    · exact .inr (.inl ⟨rfl, rfl, straddling_of_underflow hle hagree hu⟩)
  · exact .inl ⟨rfl, topShift_doubled hle hagree⟩

/-- Renormalised bounds as numbers (41_arith_coder R136). -/
theorem renormalised_iff {a : AcUnit} : Renormalised a ↔
    a.low.toNat < 2 ^ 31 ∧ 2 ^ 31 ≤ a.high.toNat ∧ (a.low.toNat < 2 ^ 30 ∨ 2 ^ 31 + 2 ^ 30 ≤ a.high.toNat) := by
  have h30 : ¬(a.low.getLsbD 30 = true ∧ a.high.getLsbD 30 = false) ↔
      ¬(a.low.toNat / 2 ^ 30 % 2 = 1 ∧ ¬a.high.toNat / 2 ^ 30 % 2 = 1) := by
    rw [getLsbD_iff_div, getLsbD_eq_decide_div a.high, decide_eq_false_iff_not]
  have hl := a.low.isLt
  have hh := a.high.isLt
  constructor
  · rintro ⟨hlow, hhigh, hno⟩
    rw [topBit_clear_iff] at hlow
    rw [topBit_iff] at hhigh
    rw [h30] at hno
    exact ⟨hlow, hhigh, by omega⟩
  · rintro ⟨hlow, hhigh, hno⟩
    exact ⟨topBit_clear_iff.mpr hlow, topBit_iff.mpr hhigh, h30.mpr (by omega)⟩

/-- Renormalised bounds leave a range above 2^30 (41_arith_coder R136). -/
theorem Renormalised.range {a : AcUnit} (h : Renormalised a) : a.low.toNat + 2 ^ 30 ≤ a.high.toNat + 1 := by
  rw [renormalised_iff] at h
  have := a.high.isLt
  omega

theorem Renormalised.low_le_high {a : AcUnit} (h : Renormalised a) : a.low.toNat ≤ a.high.toNat := by
  have := h.range
  omega

/-- The bounds of a coder that starts are renormalised. -/
theorem Renormalised.of_start {a : AcUnit} (hl : a.low = 0) (hh : a.high = 0xFFFFFFFF) : Renormalised a := by
  rw [renormalised_iff, hl, hh]
  decide

/-- Settles O24: the shifts as numbers; in the underflow state, bit 30 is set in LOW and clear in HIGH. -/
theorem shiftsDoubleTheInterval : Obligations.ShiftsDoubleTheInterval := by
  unfold Obligations.ShiftsDoubleTheInterval
  intro a
  refine ⟨topShift_low a, topShift_high a, underflowShift_low a, underflowShift_high a, rfl, rfl, fun hle hne hl30 hh30 => ?_⟩
  have hu : inUnderflow a = true := by rw [inUnderflow, hl30, hh30]; rfl
  have hstraddle : Straddling a := straddling_of_underflow hle (beq_eq_false_iff_ne.mpr hne) hu
  obtain ⟨hlow, hhigh⟩ := underflowShift_doubled hstraddle
  obtain ⟨⟨hl, hl'⟩, hh, hh'⟩ := hstraddle
  have hxorlow : a.low &&& 0x3FFFFFFF#32 = a.low ^^^ 0x40000000#32 := by
    apply BitVec.eq_of_toNat_eq
    have hx := toNat_xor_bit30_of_set (x := a.low) (by omega)
    rw [toNat_and_low30]
    omega
  refine ⟨?_, ?_, ?_, by omega, by omega⟩
  · apply BitVec.eq_of_toNat_eq
    rw [BitVec.extractLsb'_toNat, Nat.shiftRight_eq_div_pow]
    have hone : (1 : BitVec 2).toNat = 1 := rfl
    omega
  · apply BitVec.eq_of_toNat_eq
    rw [BitVec.extractLsb'_toNat, Nat.shiftRight_eq_div_pow]
    have htwo : (2 : BitVec 2).toNat = 2 := rfl
    omega
  · rw [← hxorlow, ← or_bit30_of_clear hh30]
    rfl

end Sys2Proof.Machine
end

section
/-! The renormalisation loops, turn by turn, and that 32 turns are enough (41_arith_coder R131, R136, R139). -/

namespace Sys2Proof.Machine

/-! ### What the loops change -/

/-- A change of the output side of the coder alone: OUT, BITBUF and BITCNT (20_memory R77). -/
def OutStep (s t : State) : Prop :=
  ∃ out buf cnt, t = { s with out := out, ac := { s.ac with bitBuf := buf, bitCnt := cnt } }

theorem OutStep.refl (s : State) : OutStep s s := ⟨s.out, s.ac.bitBuf, s.ac.bitCnt, rfl⟩

theorem OutStep.trans {s t u : State} : OutStep s t → OutStep t u → OutStep s u := by
  rintro ⟨_, _, _, rfl⟩ ⟨_, _, _, rfl⟩
  exact ⟨_, _, _, rfl⟩

theorem outBit_outStep (b : Bool) (s : State) : OutStep s (outBit b s) := ⟨_, _, _, outBit_frame b s⟩

theorem outBits_outStep (b : Bool) (n : Nat) (s : State) : OutStep s (outBits b n s) := by
  induction n generalizing s with
  | zero => exact .refl s
  | succ n ih => exact (outBit_outStep b s).trans (ih _)

/-- What the encoder's loop changes: the output side, the bounds, UF, and the count of free values drawn (41_arith_coder R131). -/
def EncStep (s t : State) : Prop :=
  ∃ out draws low high uf buf cnt, t = { s with
    out := out, draws := draws, ac := { s.ac with low := low, high := high, uf := uf, bitBuf := buf, bitCnt := cnt } }

theorem EncStep.refl (s : State) : EncStep s s := ⟨s.out, s.draws, s.ac.low, s.ac.high, s.ac.uf, s.ac.bitBuf, s.ac.bitCnt, rfl⟩

theorem EncStep.trans {s t u : State} : EncStep s t → EncStep t u → EncStep s u := by
  rintro ⟨_, _, _, _, _, _, _, rfl⟩ ⟨_, _, _, _, _, _, _, rfl⟩
  exact ⟨_, _, _, _, _, _, _, rfl⟩

/-- What the decoder's loop changes: the input side, the bounds, CODE, and the count of free values drawn (41_arith_coder R139). -/
def DecStep (s t : State) : Prop :=
  ∃ inp draws low high code inBuf inCnt inPos pastEnd, t = { s with
    inp := inp, draws := draws, ac := { s.ac with
      low := low, high := high, code := code, inBuf := inBuf, inCnt := inCnt, inPos := inPos, pastEnd := pastEnd } }

theorem DecStep.refl (s : State) : DecStep s s :=
  ⟨s.inp, s.draws, s.ac.low, s.ac.high, s.ac.code, s.ac.inBuf, s.ac.inCnt, s.ac.inPos, s.ac.pastEnd, rfl⟩

theorem DecStep.trans {s t u : State} : DecStep s t → DecStep t u → DecStep s u := by
  rintro ⟨_, _, _, _, _, _, _, _, _, rfl⟩ ⟨_, _, _, _, _, _, _, _, _, rfl⟩
  exact ⟨_, _, _, _, _, _, _, _, _, rfl⟩

/-- A bit in changes the input side alone (20_memory R79). -/
theorem inBit_frame {s t : State} {b : Bool} (h : inBit s = .ok (b, t)) : t = { s with
    inp := t.inp, draws := t.draws,
    ac := { s.ac with inBuf := t.ac.inBuf, inCnt := t.ac.inCnt, inPos := t.ac.inPos, pastEnd := t.ac.pastEnd } } := by
  rcases inBit_cases s with ⟨-, hk⟩ | ⟨-, c, rest, -, hk⟩ | ⟨-, -, -, hk⟩ | ⟨-, -, -, hk⟩ <;> rw [hk] at h <;> cases h <;> rfl

theorem inBit_decStep {s t : State} {b : Bool} (h : inBit s = .ok (b, t)) : DecStep s t :=
  ⟨_, _, _, _, _, _, _, _, _, inBit_frame h⟩

/-- Shifting a bit into CODE: the bit taken, then CODE (41_arith_coder R138, R139). -/
theorem shiftInCode_of_inBit (c : Word32) {s t : State} {b : Bool} (h : inBit s = .ok (b, t)) :
    shiftInCode c s = .ok (t.setAc { t.ac with code := (c <<< 1) ||| (BitVec.ofBool b).setWidth 32 }) := by
  simp only [shiftInCode, h]

theorem shiftInCode_of_error (c : Word32) {s : State} {e : Raised} (h : inBit s = .error e) : shiftInCode c s = .error e := by
  simp only [shiftInCode, h]

theorem shiftInCode_eq_ok {c : Word32} {s t : State} (h : shiftInCode c s = .ok t) : ∃ b u, inBit s = .ok (b, u) ∧
    t = u.setAc { u.ac with code := (c <<< 1) ||| (BitVec.ofBool b).setWidth 32 } := by
  cases hb : inBit s with
  | error e => cases (shiftInCode_of_error c hb).symm.trans h
  | ok r => exact ⟨r.1, r.2, rfl, by cases (shiftInCode_of_inBit c hb).symm.trans h; rfl⟩

theorem shiftInCode_bounds {c : Word32} {s t : State} (h : shiftInCode c s = .ok t) :
    t.ac.low = s.ac.low ∧ t.ac.high = s.ac.high := by
  obtain ⟨b, u, hb, rfl⟩ := shiftInCode_eq_ok h
  rw [inBit_frame hb]
  exact ⟨rfl, rfl⟩

theorem shiftInCode_decStep {c : Word32} {s t : State} (h : shiftInCode c s = .ok t) : DecStep s t := by
  obtain ⟨b, u, hb, rfl⟩ := shiftInCode_eq_ok h
  exact (inBit_decStep hb).trans ⟨_, _, _, _, _, _, _, _, _, rfl⟩

/-! ### One turn -/

/-- The encoder's turn where the top bits agree: the bit with its pending complements, then TopShift (41_arith_coder R131). -/
def encTopTurn (s : State) : State :=
  (emitWithPending (s.ac.high.getLsbD 31) s).setAc (topShift (emitWithPending (s.ac.high.getLsbD 31) s).ac)

/-- The encoder's turn in the underflow state: one more pending bit, then UnderflowShift (41_arith_coder R131). -/
def encUnderflowTurn (s : State) : State := (countUnderflow s).setAc (underflowShift (countUnderflow s).ac)

/-- The decoder's turn where the top bits agree (41_arith_coder R139). -/
def decTopTurn (s : State) : Except Raised State := shiftInCode s.ac.code (s.setAc (topShift s.ac))

/-- The decoder's turn in the underflow state (41_arith_coder R139). -/
def decUnderflowTurn (s : State) : Except Raised State :=
  shiftInCode (s.ac.code ^^^ 0x40000000) (s.setAc (underflowShift s.ac))

/-- One emission of a bit with its pending complements. -/
theorem emitWithPending_eq (b : Bool) (s : State) : emitWithPending b s =
    (outBits (!b) s.ac.uf.toNat (outBit b s)).setAc { (outBits (!b) s.ac.uf.toNat (outBit b s)).ac with uf := 0 } := rfl

theorem encTopTurn_eq (s : State) : ∃ out buf cnt, encTopTurn s = { s with
    out := out, ac := { topShift s.ac with uf := 0, bitBuf := buf, bitCnt := cnt } } := by
  obtain ⟨out, buf, cnt, h⟩ := (outBit_outStep (s.ac.high.getLsbD 31) s).trans
    (outBits_outStep (!s.ac.high.getLsbD 31) s.ac.uf.toNat _)
  refine ⟨out, buf, cnt, ?_⟩
  rw [encTopTurn, emitWithPending_eq, h]
  rfl

theorem encTopTurn_bounds (s : State) :
    (encTopTurn s).ac.low = (topShift s.ac).low ∧ (encTopTurn s).ac.high = (topShift s.ac).high := by
  obtain ⟨out, buf, cnt, h⟩ := encTopTurn_eq s
  rw [h]
  exact ⟨rfl, rfl⟩

theorem encUnderflowTurn_bounds (s : State) :
    (encUnderflowTurn s).ac.low = (underflowShift s.ac).low ∧ (encUnderflowTurn s).ac.high = (underflowShift s.ac).high := ⟨rfl, rfl⟩

theorem encTopTurn_encStep (s : State) : EncStep s (encTopTurn s) := by
  obtain ⟨out, buf, cnt, h⟩ := encTopTurn_eq s
  rw [h]
  exact ⟨_, _, _, _, _, _, _, rfl⟩

theorem encUnderflowTurn_encStep (s : State) : EncStep s (encUnderflowTurn s) := ⟨_, _, _, _, _, _, _, rfl⟩

theorem Doubled.congr {δ : Nat} {a b b' : AcUnit} (h : Doubled δ a b) (hb : b'.low = b.low ∧ b'.high = b.high) : Doubled δ a b' := by
  obtain ⟨hl, hh⟩ := hb
  exact ⟨hl ▸ h.low, hh ▸ h.high⟩

/-- The top bits of both bounds, in one spelling. -/
theorem topBitsAgree_iff {a : AcUnit} : topBitsAgree a = true ↔ a.low.getLsbD 31 = a.high.getLsbD 31 := beq_iff_eq

theorem inUnderflow_iff {a : AcUnit} : inUnderflow a = true ↔ a.low.getLsbD 30 = true ∧ a.high.getLsbD 30 = false := by
  rw [inUnderflow, Bool.and_eq_true, Bool.not_eq_true']

/-- Renormalised bounds take no turn. -/
theorem Renormalised.no_turn {a : AcUnit} (h : Renormalised a) : topBitsAgree a = false ∧ inUnderflow a = false := by
  refine ⟨?_, Bool.eq_false_iff.mpr fun hu => h.noUnderflow (inUnderflow_iff.mp hu)⟩
  rw [topBitsAgree, h.lowTop, h.highTop]
  rfl

theorem encRenorm_of_renormalised {s : State} (h : Renormalised s.ac) (n : Nat) : encRenorm n s = s := by
  obtain ⟨ha, hu⟩ := h.no_turn
  cases n <;> simp [encRenorm, ha, hu]

theorem decRenorm_of_renormalised {s : State} (h : Renormalised s.ac) (n : Nat) : decRenorm n s = .ok s := by
  obtain ⟨ha, hu⟩ := h.no_turn
  cases n <;> simp [decRenorm, ha, hu]

/-- Everything the encoder's loop can do next, for bounds in order (41_arith_coder R131). -/
theorem encRenorm_cases {s : State} (hle : s.ac.low.toNat ≤ s.ac.high.toNat) :
    (Doubled ((s.ac.high.getLsbD 31).toNat * 2 ^ 32) s.ac (encTopTurn s).ac ∧ topBitsAgree s.ac = true ∧
      ∀ n, encRenorm (n + 1) s = encRenorm n (encTopTurn s)) ∨
    (Doubled (2 ^ 31) s.ac (encUnderflowTurn s).ac ∧ (topBitsAgree s.ac = false ∧ inUnderflow s.ac = true) ∧
      ∀ n, encRenorm (n + 1) s = encRenorm n (encUnderflowTurn s)) ∨
    (Renormalised s.ac ∧ (topBitsAgree s.ac = false ∧ inUnderflow s.ac = false) ∧ ∀ n, encRenorm n s = s) := by
  rcases bounds_cases hle with ⟨ha, hd⟩ | ⟨ha, hu, hs⟩ | ⟨ha, hu, hr⟩
  · exact .inl ⟨hd.congr (encTopTurn_bounds s), ha, fun n => if_pos ha⟩
  · refine .inr (.inl ⟨(underflowShift_doubled hs).congr (encUnderflowTurn_bounds s), ⟨ha, hu⟩, fun n => ?_⟩)
    simp only [encRenorm, ha, hu, Bool.false_eq_true, if_false, if_true]
    rfl
  · exact .inr (.inr ⟨hr, ⟨ha, hu⟩, encRenorm_of_renormalised hr⟩)

/-- Everything the decoder's loop can do next, for bounds in order (41_arith_coder R139). -/
theorem decRenorm_cases {s : State} (hle : s.ac.low.toNat ≤ s.ac.high.toNat) :
    ((∀ t, decTopTurn s = .ok t → Doubled ((s.ac.high.getLsbD 31).toNat * 2 ^ 32) s.ac t.ac) ∧ topBitsAgree s.ac = true ∧
      ∀ n, decRenorm (n + 1) s = (decTopTurn s).bind (decRenorm n)) ∨
    ((∀ t, decUnderflowTurn s = .ok t → Doubled (2 ^ 31) s.ac t.ac) ∧ (topBitsAgree s.ac = false ∧ inUnderflow s.ac = true) ∧
      ∀ n, decRenorm (n + 1) s = (decUnderflowTurn s).bind (decRenorm n)) ∨
    (Renormalised s.ac ∧ (topBitsAgree s.ac = false ∧ inUnderflow s.ac = false) ∧ ∀ n, decRenorm n s = .ok s) := by
  rcases bounds_cases hle with ⟨ha, hd⟩ | ⟨ha, hu, hs⟩ | ⟨ha, hu, hr⟩
  · refine .inl ⟨fun t ht => hd.congr (shiftInCode_bounds ht), ha, fun n => ?_⟩
    simp only [decRenorm, decTopTurn, ha, if_true]
    cases shiftInCode s.ac.code (s.setAc (topShift s.ac)) <;> rfl
  · refine .inr (.inl ⟨fun t ht => (underflowShift_doubled hs).congr (shiftInCode_bounds ht), ⟨ha, hu⟩, fun n => ?_⟩)
    simp only [decRenorm, decUnderflowTurn, ha, hu, Bool.false_eq_true, if_false, if_true]
    cases shiftInCode (s.ac.code ^^^ 0x40000000) (s.setAc (underflowShift s.ac)) <;> rfl
  · exact .inr (.inr ⟨hr, ⟨ha, hu⟩, decRenorm_of_renormalised hr⟩)

/-! ### Enough turns -/

/-- `n` more turns are enough: each doubles the range, which never passes 2^32 (41_arith_coder R136). -/
structure EnoughTurns (n : Nat) (a : AcUnit) : Prop where
  ordered : a.low.toNat ≤ a.high.toNat
  range : 2 ^ 32 ≤ (a.high.toNat + 1 - a.low.toNat) * 2 ^ n

theorem EnoughTurns.all {a : AcUnit} (h : a.low.toNat ≤ a.high.toNat) : EnoughTurns 32 a := ⟨h, by omega⟩

theorem EnoughTurns.next {n δ : Nat} {a a' : AcUnit} (h : EnoughTurns (n + 1) a) (hd : Doubled δ a a') : EnoughTurns n a' := by
  obtain ⟨hle, hr⟩ := h
  obtain ⟨hl, hh⟩ := hd
  have hrange : a'.high.toNat + 1 - a'.low.toNat = 2 * (a.high.toNat + 1 - a.low.toNat) := by omega
  refine ⟨by omega, ?_⟩
  calc 2 ^ 32 ≤ (a.high.toNat + 1 - a.low.toNat) * 2 ^ (n + 1) := hr
    _ = (a'.high.toNat + 1 - a'.low.toNat) * 2 ^ n := by rw [hrange, pow_succ]; ring

/-- With no turn left the range is whole, and the bounds are renormalised. -/
theorem EnoughTurns.renormalised {a : AcUnit} (h : EnoughTurns 0 a) : Renormalised a := by
  obtain ⟨hle, hr⟩ := h
  have := a.high.isLt
  rw [renormalised_iff]
  omega

/-- The encoder's loop leaves the bounds renormalised (41_arith_coder R136). -/
theorem encRenorm_renormalised {n : Nat} {s : State} (h : EnoughTurns n s.ac) : Renormalised (encRenorm n s).ac := by
  induction n generalizing s with
  | zero => exact h.renormalised
  | succ n ih =>
    rcases encRenorm_cases h.ordered with ⟨hd, -, he⟩ | ⟨hd, -, he⟩ | ⟨hr, -, he⟩ <;> rw [he]
    · exact ih (h.next hd)
    · exact ih (h.next hd)
    · exact hr

/-- One turn more than enough changes nothing. -/
theorem encRenorm_succ {n : Nat} {s : State} (h : EnoughTurns n s.ac) : encRenorm (n + 1) s = encRenorm n s := by
  induction n generalizing s with
  | zero => rw [encRenorm_of_renormalised h.renormalised, encRenorm_of_renormalised h.renormalised]
  | succ n ih =>
    rcases encRenorm_cases h.ordered with ⟨hd, -, he⟩ | ⟨hd, -, he⟩ | ⟨-, -, he⟩
    · rw [he, he, ih (h.next hd)]
    · rw [he, he, ih (h.next hd)]
    · rw [he, he]

theorem encRenorm_encStep (n : Nat) (s : State) : EncStep s (encRenorm n s) := by
  induction n generalizing s with
  | zero => exact .refl s
  | succ n ih =>
    unfold encRenorm
    split
    · exact (encTopTurn_encStep s).trans (ih (encTopTurn s))
    · split
      · exact (encUnderflowTurn_encStep s).trans (ih (encUnderflowTurn s))
      · exact .refl s

theorem bind_eq_ok {α β : Type} {r : Except Raised α} {f : α → Except Raised β} {v : β} (h : r.bind f = .ok v) :
    ∃ u, r = .ok u ∧ f u = .ok v := by
  cases r with
  | error e => cases h
  | ok u => exact ⟨u, rfl, h⟩

/-- Two continuations that agree on the value a computation gives. -/
theorem bind_congr_of_ok {α β : Type} {r : Except Raised α} {f g : α → Except Raised β} (h : ∀ u, r = .ok u → f u = g u) :
    r.bind f = r.bind g := by
  cases r with
  | error e => rfl
  | ok u => exact h u rfl

/-- The decoder's loop, where it ends without error, leaves the bounds renormalised (41_arith_coder R136). -/
theorem decRenorm_renormalised {n : Nat} {s t : State} (h : EnoughTurns n s.ac) (ht : decRenorm n s = .ok t) : Renormalised t.ac := by
  induction n generalizing s with
  | zero => cases ht; exact h.renormalised
  | succ n ih =>
    rcases decRenorm_cases h.ordered with ⟨hd, -, he⟩ | ⟨hd, -, he⟩ | ⟨hr, -, he⟩ <;> rw [he] at ht
    · obtain ⟨u, hu, ht⟩ := bind_eq_ok ht
      exact ih (h.next (hd u hu)) ht
    · obtain ⟨u, hu, ht⟩ := bind_eq_ok ht
      exact ih (h.next (hd u hu)) ht
    · cases ht
      exact hr

/-- One turn more than enough changes nothing. -/
theorem decRenorm_succ {n : Nat} {s : State} (h : EnoughTurns n s.ac) : decRenorm (n + 1) s = decRenorm n s := by
  induction n generalizing s with
  | zero => rw [decRenorm_of_renormalised h.renormalised, decRenorm_of_renormalised h.renormalised]
  | succ n ih =>
    rcases decRenorm_cases h.ordered with ⟨hd, -, he⟩ | ⟨hd, -, he⟩ | ⟨-, -, he⟩
    · rw [he, he]
      exact bind_congr_of_ok fun u hu => ih (h.next (hd u hu))
    · rw [he, he]
      exact bind_congr_of_ok fun u hu => ih (h.next (hd u hu))
    · rw [he, he]

/-! ### The loops as R131 and R139 write them -/

/-- Settles O25: each turn leaves bounds for which 31 turns, and so 32, are enough. -/
theorem encRenormFollowsItsLoop : Obligations.EncRenormFollowsItsLoop := by
  unfold Obligations.EncRenormFollowsItsLoop
  intro s hle
  have henough := EnoughTurns.all hle
  refine ⟨fun b hl hh => ?agree, fun hne hl hh huf => ?underflow, fun hne hno => ?done, encRenorm_renormalised henough⟩
  case agree =>
    have hagree : topBitsAgree s.ac = true := topBitsAgree_iff.mpr (hl.trans hh.symm)
    have hturn : encTopTurn s = (outBits (!b) s.ac.uf.toNat (outBit b s)).setAc
        (topShift { (outBits (!b) s.ac.uf.toNat (outBit b s)).ac with uf := 0 }) := by rw [encTopTurn, hh]; rfl
    have hnext := henough.next ((topShift_doubled hle hagree).congr (encTopTurn_bounds s))
    rw [← hturn]
    exact (if_pos hagree).trans (encRenorm_succ hnext).symm
  case underflow =>
    have hagree : topBitsAgree s.ac = false := Bool.eq_false_iff.mpr fun h => hne (topBitsAgree_iff.mp h)
    have hunder : inUnderflow s.ac = true := inUnderflow_iff.mpr ⟨hl, hh⟩
    have hturn : encUnderflowTurn s = s.setAc (underflowShift { s.ac with uf := s.ac.uf + 1 }) := by
      rw [encUnderflowTurn, countUnderflow_eq, countUp_below huf]; rfl
    rcases encRenorm_cases hle with ⟨-, ha, -⟩ | ⟨hd, -, he⟩ | ⟨-, ⟨-, hu⟩, -⟩
    · cases hagree.symm.trans ha
    · rw [← hturn, he, encRenorm_succ (henough.next hd)]
    · cases hu.symm.trans hunder
  case done =>
    rcases encRenorm_cases hle with ⟨-, ha, -⟩ | ⟨-, ⟨-, hu⟩, -⟩ | ⟨-, -, he⟩
    · exact absurd (topBitsAgree_iff.mp ha) hne
    · exact absurd (inUnderflow_iff.mp hu) hno
    · exact he 32

/-- A word doubled with a bit at the low end, as a number mod 2^32. -/
theorem shiftIn_eq_ofNat (c : Word32) (b : Bool) :
    (c <<< 1) ||| (BitVec.ofBool b).setWidth 32 = BitVec.ofNat 32 (2 * c.toNat + b.toNat) := by
  apply BitVec.eq_of_toNat_eq
  have hb := Bool.toNat_lt b
  rw [toNat_shiftIn, BitVec.toNat_ofNat]
  omega

/-- Settles O26, as the encoder's loop; an error of InBit goes through. -/
theorem decRenormFollowsItsLoop : Obligations.DecRenormFollowsItsLoop := by
  unfold Obligations.DecRenormFollowsItsLoop
  refine ⟨fun s hle => ?_, fun c b s t hb => ?_, fun c s e hb => shiftInCode_of_error c hb⟩
  · have henough := EnoughTurns.all hle
    refine ⟨fun hagree => ?agree, fun hne hl hh => ?underflow, fun hne hno => ?done, fun t ht => decRenorm_renormalised henough ht⟩
    case agree =>
      rcases decRenorm_cases hle with ⟨hd, -, he⟩ | ⟨-, ⟨ha, -⟩, -⟩ | ⟨-, ⟨ha, -⟩, -⟩
      · exact (he 31).trans (bind_congr_of_ok fun u hu => (decRenorm_succ (henough.next (hd u hu))).symm)
      · cases ha.symm.trans (topBitsAgree_iff.mpr hagree)
      · cases ha.symm.trans (topBitsAgree_iff.mpr hagree)
    case underflow =>
      rcases decRenorm_cases hle with ⟨-, ha, -⟩ | ⟨hd, -, he⟩ | ⟨-, ⟨-, hu⟩, -⟩
      · exact absurd (topBitsAgree_iff.mp ha) hne
      · exact (he 31).trans (bind_congr_of_ok fun u hu => (decRenorm_succ (henough.next (hd u hu))).symm)
      · cases hu.symm.trans (inUnderflow_iff.mpr ⟨hl, hh⟩)
    case done =>
      rcases decRenorm_cases hle with ⟨-, ha, -⟩ | ⟨-, ⟨-, hu⟩, -⟩ | ⟨-, -, he⟩
      · exact absurd (topBitsAgree_iff.mp ha) hne
      · exact absurd (inUnderflow_iff.mp hu) hno
      · exact he 32
  · rw [shiftInCode_of_inBit c hb, shiftIn_eq_ofNat]

end Sys2Proof.Machine
end

section
/-! The coded bits a decoder takes, one after the other, and priming (20_memory R79, 41_arith_coder R138). -/

namespace Sys2Proof.Machine

/-! ### Bit sequences as numbers -/

@[simp] theorem bitsValue_nil : bitsValue [] = 0 := rfl

theorem bitsValue_concat (bs : List Bool) (b : Bool) : bitsValue (bs ++ [b]) = 2 * bitsValue bs + b.toNat := by
  simp only [bitsValue, List.foldl_append, List.foldl_cons, List.foldl_nil]

/-- The first bit is the most significant. -/
theorem bitsValue_cons (b : Bool) (bs : List Bool) : bitsValue (b :: bs) = b.toNat * 2 ^ bs.length + bitsValue bs := by
  induction bs using List.reverseRecOn with
  | nil => simp [bitsValue]
  | append_singleton bs c ih =>
    rw [← List.cons_append, bitsValue_concat, bitsValue_concat, ih, List.length_append, List.length_singleton, pow_succ]
    ring

theorem bitsValue_lt (bs : List Bool) : bitsValue bs < 2 ^ bs.length := by
  induction bs with
  | nil => decide
  | cons b bs ih =>
    have hb : b.toNat * 2 ^ bs.length ≤ 1 * 2 ^ bs.length := Nat.mul_le_mul_right _ (Bool.toNat_le b)
    rw [bitsValue_cons, List.length_cons, pow_succ]
    omega

/-! ### One bit in -/

/-- A change of the input side and CODE alone (41_arith_coder R138). -/
def InStep (s t : State) : Prop :=
  ∃ inp draws code inBuf inCnt inPos pastEnd, t = { s with
    inp := inp, draws := draws, ac := { s.ac with code := code, inBuf := inBuf, inCnt := inCnt, inPos := inPos, pastEnd := pastEnd } }

theorem InStep.refl (s : State) : InStep s s :=
  ⟨s.inp, s.draws, s.ac.code, s.ac.inBuf, s.ac.inCnt, s.ac.inPos, s.ac.pastEnd, rfl⟩

theorem InStep.trans {s t u : State} : InStep s t → InStep t u → InStep s u := by
  rintro ⟨_, _, _, _, _, _, _, rfl⟩ ⟨_, _, _, _, _, _, _, rfl⟩
  exact ⟨_, _, _, _, _, _, _, rfl⟩

theorem InStep.setCode (s : State) (c : Word32) : InStep s (s.setAc { s.ac with code := c }) :=
  ⟨s.inp, s.draws, c, s.ac.inBuf, s.ac.inCnt, s.ac.inPos, s.ac.pastEnd, rfl⟩

theorem inBit_inStep {s t : State} {b : Bool} (h : inBit s = .ok (b, t)) : InStep s t := ⟨_, _, _, _, _, _, _, inBit_frame h⟩

theorem shiftInCode_inStep {c : Word32} {s t : State} (h : shiftInCode c s = .ok t) : InStep s t := by
  obtain ⟨b, u, hb, rfl⟩ := shiftInCode_eq_ok h
  exact (inBit_inStep hb).trans (.setCode u _)

/-- The input side as the ranges of 10_state R40, R48 have it. -/
structure InputReady (s : State) : Prop where
  inCnt : s.ac.inCnt ≤ 8
  pastEnd : s.ac.pastEnd ≤ Config.pastEndLimit

/-- From `s` to `t`, `n` coded bits were taken, zeros standing for those past the end (20_memory R79). INPOS counts in bytes; past
2^64 - 1 it is free (log 3). -/
structure BitsTaken (n : Nat) (s t : State) : Prop where
  left : t.inBitsLeft = s.inBitsLeft.drop n
  pastEnd : t.ac.pastEnd = s.ac.pastEnd + (n - s.inBitsLeft.length)
  inCnt : t.ac.inCnt ≤ 8
  position : s.ac.inPos.toNat + n < 2 ^ 64 →
    8 * t.ac.inPos.toNat + t.ac.pastEnd + s.ac.inCnt = 8 * s.ac.inPos.toNat + s.ac.pastEnd + t.ac.inCnt + n

theorem BitsTaken.zero {s : State} (h : s.ac.inCnt ≤ 8) : BitsTaken 0 s s where
  left := rfl
  pastEnd := by omega
  inCnt := h
  position := fun _ => rfl

theorem BitsTaken.cons {n : Nat} {s t u : State} (h : BitsTaken 1 s t) (k : BitsTaken n t u) : BitsTaken (n + 1) s u where
  left := by rw [k.left, h.left, List.drop_drop, Nat.add_comm]
  pastEnd := by
    have := h.pastEnd
    rw [k.pastEnd, h.left, List.length_drop]
    omega
  inCnt := k.inCnt
  position := fun hlt => by
    have h1 := h.position (by omega)
    have hp := h.pastEnd
    have hc := h.inCnt
    have h2 := k.position (by omega)
    omega

/-- Two states with the same input side. -/
structure SameInput (s t : State) : Prop where
  inp : t.inp = s.inp
  inBuf : t.ac.inBuf = s.ac.inBuf
  inCnt : t.ac.inCnt = s.ac.inCnt
  inPos : t.ac.inPos = s.ac.inPos
  pastEnd : t.ac.pastEnd = s.ac.pastEnd

theorem SameInput.setAc (s : State) (a : AcUnit) (hb : a.inBuf = s.ac.inBuf := by rfl) (hc : a.inCnt = s.ac.inCnt := by rfl)
    (hp : a.inPos = s.ac.inPos := by rfl) (he : a.pastEnd = s.ac.pastEnd := by rfl) : SameInput s (s.setAc a) := ⟨rfl, hb, hc, hp, he⟩

theorem SameInput.inBitsLeft {s t : State} (h : SameInput s t) : t.inBitsLeft = s.inBitsLeft := by
  rw [State.inBitsLeft, h.inp, h.inBuf, h.inCnt, State.inBitsLeft]

theorem SameInput.bitsAvailable {s t : State} (h : SameInput s t) : t.bitsAvailable = s.bitsAvailable := by
  rw [State.bitsAvailable, h.inBitsLeft, h.pastEnd, State.bitsAvailable]

theorem SameInput.inputReady {s t : State} (h : SameInput s t) (hs : InputReady s) : InputReady t :=
  ⟨h.inCnt ▸ hs.inCnt, h.pastEnd ▸ hs.pastEnd⟩

theorem SameInput.bitsTaken_left {n : Nat} {s t u : State} (h : SameInput s t) (k : BitsTaken n t u) : BitsTaken n s u where
  left := by rw [k.left, h.inBitsLeft]
  pastEnd := by rw [k.pastEnd, h.pastEnd, h.inBitsLeft]
  inCnt := k.inCnt
  position := by rw [← h.inPos, ← h.pastEnd, ← h.inCnt]; exact k.position

theorem SameInput.bitsTaken_right {n : Nat} {s t u : State} (h : SameInput t u) (k : BitsTaken n s t) : BitsTaken n s u where
  left := by rw [h.inBitsLeft, k.left]
  pastEnd := by rw [h.pastEnd, k.pastEnd]
  inCnt := h.inCnt ▸ k.inCnt
  position := by rw [h.inPos, h.pastEnd, h.inCnt]; exact k.position

/-- As many bits fewer can be had as were taken. -/
theorem BitsTaken.bitsAvailable {n : Nat} {s t : State} (h : BitsTaken n s t) (hs : s.ac.pastEnd ≤ Config.pastEndLimit)
    (hn : n ≤ s.bitsAvailable) : t.bitsAvailable + n = s.bitsAvailable ∧ t.ac.pastEnd ≤ Config.pastEndLimit := by
  have hp := h.pastEnd
  simp only [State.bitsAvailable, h.left, List.length_drop, Config.pastEndLimit] at hs hn ⊢
  omega

theorem BitsTaken.inputReady {n : Nat} {s t : State} (h : BitsTaken n s t) (hs : InputReady s) (hn : n ≤ s.bitsAvailable) :
    InputReady t := ⟨h.inCnt, (h.bitsAvailable hs.pastEnd hn).2⟩

/-- A bit that can be had is taken: the next of those left, or a zero past the end (20_memory R79). -/
theorem inBit_of_available {s : State} (hs : InputReady s) (h : 0 < s.bitsAvailable) :
    ∃ t, inBit s = .ok (s.inBitsLeft.headD false, t) ∧ BitsTaken 1 s t := by
  cases hl : s.inBitsLeft with
  | cons b rest =>
    obtain ⟨t, hb, hrest, hcnt, hpos, hframe⟩ := inBit_of_bits_left hs.inCnt hl
    have hpast : t.ac.pastEnd = s.ac.pastEnd := by rw [hframe]
    refine ⟨t, hb, ?_, ?_, hcnt, fun hlt => ?_⟩
    · rw [hrest, hl, List.drop_one, List.tail_cons]
    · rw [hpast, hl, List.length_cons]
      omega
    · have := hpos fun htop => by rw [htop, BitVec.toNat_allOnes] at hlt; omega
      omega
  | nil =>
    rcases inBit_of_no_bits_left hs.inCnt hl with ⟨-, hb⟩ | ⟨hp, -⟩
    · refine ⟨_, hb, ?_, ?_, hs.inCnt, fun _ => by simp only [State.setAc_ac]; omega⟩
      · rw [hl]
        exact hl
      · rw [hl]
        rfl
    · simp only [State.bitsAvailable, hl, hp, List.length_nil] at h
      omega

/-- No bit can be had: PAST_END (20_memory R79). -/
theorem inBit_of_none_available {s : State} (hs : InputReady s) (h : s.bitsAvailable = 0) :
    inBit s = .error (.malformed subcausePastEnd Config.pastEndLimit) := by
  have hp := hs.pastEnd
  simp only [State.bitsAvailable, Nat.add_eq_zero_iff, List.length_eq_zero_iff] at h
  obtain ⟨hl, hfull⟩ := h
  rcases inBit_of_no_bits_left hs.inCnt hl with ⟨hne, -⟩ | ⟨-, hb⟩
  · omega
  · exact hb

/-- Shifting in a bit that can be had. -/
theorem shiftInCode_of_available (c : Word32) {s : State} (hs : InputReady s) (h : 0 < s.bitsAvailable) :
    ∃ t, shiftInCode c s = .ok t ∧ BitsTaken 1 s t ∧
      t.ac.code.toNat = (2 * c.toNat + (s.inBitsLeft.headD false).toNat) % 2 ^ 32 := by
  obtain ⟨u, hb, htaken⟩ := inBit_of_available hs h
  refine ⟨_, shiftInCode_of_inBit c hb, (SameInput.setAc u _).bitsTaken_right htaken, ?_⟩
  rw [shiftIn_eq_ofNat]
  exact BitVec.toNat_ofNat _ _

/-! ### Priming -/

/-- The next `n` coded bits, zeros standing for those past the end (20_memory R79). -/
def State.nextBits (s : State) (n : Nat) : List Bool := s.inBitsLeft.take n ++ List.replicate (n - s.inBitsLeft.length) false

theorem nextBits_length (s : State) (n : Nat) : (s.nextBits n).length = n := by
  simp only [State.nextBits, List.length_append, List.length_take, List.length_replicate]
  omega

theorem nextBits_eq_take (s : State) (n : Nat) : s.nextBits n = (s.inBitsLeft ++ List.replicate n false).take n := by
  rw [List.take_append, List.take_replicate, Nat.min_eq_left (Nat.sub_le _ _), State.nextBits]

/-- The next `n + 1` bits are the next one and the `n` after it. -/
theorem nextBits_succ {s t : State} (h : BitsTaken 1 s t) (n : Nat) :
    s.nextBits (n + 1) = s.inBitsLeft.headD false :: t.nextBits n := by
  simp only [State.nextBits, h.left, List.drop_one]
  cases s.inBitsLeft with
  | nil => simp [List.replicate_succ]
  | cons b rest => simp

/-- Shifting `n` bits into CODE (41_arith_coder R138). -/
theorem shiftInBits_of_available {n : Nat} {s : State} (hs : InputReady s) (h : n ≤ s.bitsAvailable) :
    ∃ t, shiftInBits n s = .ok t ∧ BitsTaken n s t ∧ InStep s t ∧
      t.ac.code.toNat = (s.ac.code.toNat * 2 ^ n + bitsValue (s.nextBits n)) % 2 ^ 32 := by
  induction n generalizing s with
  | zero =>
    refine ⟨s, rfl, .zero hs.inCnt, .refl s, ?_⟩
    have := s.ac.code.isLt
    simp only [State.nextBits, List.take_zero, Nat.zero_sub, List.replicate_zero, List.append_nil, bitsValue_nil]
    omega
  | succ n ih =>
    obtain ⟨t, ht, htaken, hcode⟩ := shiftInCode_of_available s.ac.code hs (by omega)
    obtain ⟨hav, -⟩ := htaken.bitsAvailable hs.pastEnd (by omega)
    obtain ⟨u, hu, hutaken, hustep, hucode⟩ := ih (htaken.inputReady hs (by omega)) (by omega)
    refine ⟨u, by simp only [shiftInBits, ht, hu], htaken.cons hutaken, (shiftInCode_inStep ht).trans hustep, ?_⟩
    rw [hucode, hcode, nextBits_succ htaken, bitsValue_cons, nextBits_length, Nat.add_mod, Nat.mod_mul_mod, ← Nat.add_mod, pow_succ]
    congr 1
    ring

/-- Too few bits for a priming: PAST_END (20_memory R79). -/
theorem shiftInBits_of_too_few {n : Nat} {s : State} (hs : InputReady s) (h : s.bitsAvailable < n) :
    shiftInBits n s = .error (.malformed subcausePastEnd Config.pastEndLimit) := by
  induction n generalizing s with
  | zero => omega
  | succ n ih =>
    rcases Nat.eq_zero_or_pos s.bitsAvailable with h0 | hpos
    · simp only [shiftInBits, shiftInCode_of_error _ (inBit_of_none_available hs h0)]
    · obtain ⟨t, ht, htaken, -⟩ := shiftInCode_of_available s.ac.code hs hpos
      obtain ⟨hav, -⟩ := htaken.bitsAvailable hs.pastEnd hpos
      simp only [shiftInBits, ht, ih (htaken.inputReady hs hpos) (by omega)]

/-- Priming with 32 bits to be had (41_arith_coder R138). -/
theorem prime_of_available {s : State} (hs : InputReady s) (h : 32 ≤ s.bitsAvailable) :
    ∃ p, prime s = .ok p ∧ BitsTaken 32 s p ∧ p.ac.dir = .read ∧ InStep (s.setAc { s.ac with dir := .read }) p ∧
      p.ac.code.toNat = bitsValue (s.nextBits 32) := by
  have hclear : SameInput s (s.setAc { s.ac with code := 0 }) := .setAc s _
  obtain ⟨t, ht, htaken, htstep, htcode⟩ := shiftInBits_of_available (hclear.inputReady hs) (hclear.bitsAvailable ▸ h)
  refine ⟨t.setAc { t.ac with dir := .read }, by simp only [prime, ht], ?_, rfl, ?_, ?_⟩
  · exact (SameInput.setAc t _).bitsTaken_right (hclear.bitsTaken_left htaken)
  · obtain ⟨_, _, _, _, _, _, _, rfl⟩ := htstep
    exact ⟨_, _, _, _, _, _, _, rfl⟩
  · have hlt := bitsValue_lt (s.nextBits 32)
    have hzero : (0 : Word32).toNat = 0 := rfl
    rw [nextBits_length] at hlt
    have hsame : (s.setAc { s.ac with code := 0 }).nextBits 32 = s.nextBits 32 := by rw [State.nextBits, hclear.inBitsLeft, State.nextBits]
    simp only [State.setAc_ac, hzero, Nat.zero_mul, Nat.zero_add, hsame, Nat.mod_eq_of_lt hlt] at htcode
    exact htcode

theorem prime_of_too_few {s : State} (hs : InputReady s) (h : s.bitsAvailable < 32) :
    prime s = .error (.malformed subcausePastEnd Config.pastEndLimit) := by
  have hclear : SameInput s (s.setAc { s.ac with code := 0 }) := .setAc s _
  simp only [prime, shiftInBits_of_too_few (hclear.inputReady hs) (hclear.bitsAvailable ▸ h)]

/-- Settles O29, from the bits taken one after the other. -/
theorem primingLoadsThirtyTwoBits : Obligations.PrimingLoadsThirtyTwoBits := by
  unfold Obligations.PrimingLoadsThirtyTwoBits
  intro s hcnt hpast
  have hs : InputReady s := ⟨hcnt, hpast⟩
  refine ⟨fun h => ?_, fun h => prime_of_too_few hs h⟩
  obtain ⟨p, hp, htaken, hdir, hstep, hcode⟩ := prime_of_available hs h
  refine ⟨p, hp, hdir, by rw [hcode, nextBits_eq_take], htaken.left, htaken.pastEnd, ?_⟩
  obtain ⟨_, _, _, _, _, _, _, rfl⟩ := hstep
  rfl

end Sys2Proof.Machine
end

section
/-! AC.ENC and AC.FLUSH: the bits they put out, their effect and their frame (41_arith_coder R130 to R133, 20_memory R78). -/

namespace Sys2Proof.Machine

/-! ### Section counting -/

/-- A count of sections changes SECTDONE alone, and the count of free values drawn (41_arith_coder R132). -/
theorem countSection_frame (sym : Sym) (s : State) : countSection sym s =
    { s with draws := (countSection sym s).draws, ac := { s.ac with sectDone := (countSection sym s).ac.sectDone } } := by
  rw [countSection_eq]
  split_ifs <;> rfl

theorem countSection_other {sym : Sym} {s : State} (h : sym ≠ s.ac.term) : (countSection sym s).ac.sectDone = s.ac.sectDone := by
  rw [countSection_eq, if_neg h]

/-- Below the top, TERM adds 1 to SECTDONE. -/
theorem countSection_term {sym : Sym} {s : State} (h : sym = s.ac.term) (htop : s.ac.sectDone ≠ BitVec.allOnes 64) :
    (countSection sym s).ac.sectDone = s.ac.sectDone + 1 := by
  rw [countSection_eq, if_pos h, countUp_below htop]
  rfl

/-- What a count does to SECTDONE, for a state that has TERM and SECTDONE as some other one. -/
theorem countSection_sectDone {sym : Sym} {u : State} {term : BitVec 16} {done : Word64} (hterm : u.ac.term = term)
    (hdone : u.ac.sectDone = done) : (sym ≠ term → (countSection sym u).ac.sectDone = done) ∧
      (sym = term → done ≠ BitVec.allOnes 64 → (countSection sym u).ac.sectDone = done + 1) := by
  subst hterm hdone
  exact ⟨countSection_other, countSection_term⟩

/-! ### AC.ENC -/

/-- The state after AC.ENC of a symbol (41_arith_coder R130, R132). -/
def encoded (sym : Sym) (s : State) : State :=
  countSection sym (encRenorm 32 (s.setAc (intervalUpdate sym { s.ac with dir := .write })))

/-- AC.ENC completes exactly when none of its checks fails (41_arith_coder R130). -/
theorem encodeSymbol_eq_ok_iff {sym : Sym} {s t : State} : encodeSymbol sym s = .ok t ↔
    s.ac.dir ≠ .read ∧ Codes s.ac sym ∧ s.ac.total ≤ 2 ^ 30 ∧ t = encoded sym s := by
  constructor
  · intro h
    unfold encodeSymbol at h
    split_ifs at h with hd hn hf ht
    cases h
    exact ⟨hd, ⟨Nat.not_le.mp hn, hf⟩, Nat.not_lt.mp ht, rfl⟩
  · rintro ⟨hd, ⟨hn, hf⟩, ht, rfl⟩
    have ht' : ¬Config.maxTotal < s.ac.total := Nat.not_lt.mpr ht
    simp only [encodeSymbol, if_neg hd, if_neg (Nat.not_le.mpr hn), if_neg hf, if_neg ht']
    rfl

/-- From the interval update to its end, AC.ENC's loop changes what R131 says, and nothing of the table or the input side. -/
theorem encoded_loop_frame (sym : Sym) (s : State) :
    EncStep (s.setAc { s.ac with dir := .write }) (encRenorm 32 (s.setAc (intervalUpdate sym { s.ac with dir := .write }))) :=
  EncStep.trans ⟨_, _, _, _, _, _, _, rfl⟩ (encRenorm_encStep 32 _)

/-- Settles O30: the checks pass; the loop, then the section count, keep all that R131 and R132 do not name. -/
theorem acEncCodesTheSymbol : Obligations.AcEncCodesTheSymbol := by
  unfold Obligations.AcEncCodesTheSymbol
  intro s sym hs hd hn hf ht
  have heff : encodeSymbol sym s = .ok (encoded sym s) := encodeSymbol_eq_ok_iff.mpr ⟨hd, ⟨hn, hf⟩, ht, rfl⟩
  have hout := (encodeSymbol_appendsToOut heff).out
  have hframe := encoded_loop_frame sym s
  refine ⟨encoded sym s, _, rfl, exec_of_effect_ok (i := .acEnc sym) hs heff, ?_⟩
  unfold encoded at hout ⊢
  generalize encRenorm 32 (s.setAc (intervalUpdate sym { s.ac with dir := .write })) = u at hout hframe ⊢
  obtain ⟨hterm, hdone, hdir⟩ : u.ac.term = s.ac.term ∧ u.ac.sectDone = s.ac.sectDone ∧ u.ac.dir = .write := by
    obtain ⟨_, _, _, _, _, _, _, rfl⟩ := hframe
    exact ⟨rfl, rfl, rfl⟩
  obtain ⟨hother, hcounted⟩ := countSection_sectDone (sym := sym) hterm hdone
  rw [countSection_frame] at hout ⊢
  refine ⟨hdir, rfl, rfl, rfl, rfl, rfl, rfl, hout, hother, hcounted, ?_⟩
  obtain ⟨_, _, _, _, _, _, _, rfl⟩ := hframe
  rfl

/-! ### AC.FLUSH -/

/-- The output side as the ranges of 10_state R40 have it: fewer than 8 bits in BITBUF, zeros below them. -/
structure OutputReady (s : State) : Prop where
  bitCnt : s.ac.bitCnt ≤ 7
  padded : ∀ j, j < 8 - s.ac.bitCnt → s.ac.bitBuf.getLsbD j = false

theorem OutputReady.outBit {s : State} (h : OutputReady s) (b : Bool) : OutputReady (outBit b s) :=
  ⟨outBit_bitCnt b h.bitCnt, outBit_low_bits b h.padded⟩

theorem OutputReady.outBits {s : State} (h : OutputReady s) (b : Bool) (n : Nat) : OutputReady (outBits b n s) := by
  induction n generalizing s with
  | zero => exact h
  | succ n ih => exact ih (h.outBit b)

/-- `n` equal bits go behind the coded bits so far. -/
theorem outBits_outBitsSoFar (b : Bool) (n : Nat) {s : State} (h : OutputReady s) :
    (outBits b n s).outBitsSoFar = s.outBitsSoFar ++ List.replicate n b := by
  induction n generalizing s with
  | zero => exact (List.append_nil _).symm
  | succ n ih =>
    rw [outBits, ih (h.outBit b), outBit_outBitsSoFar b h.bitCnt h.padded, List.append_assoc]
    rfl

/-- A byte whose low bits are 0 is its first bits and zeros. -/
theorem byteBits_of_padded {k : Nat} {x : Byte} (hk : k ≤ 8) (h : ∀ j, j < 8 - k → x.getLsbD j = false) :
    byteBits x = (byteBits x).take k ++ List.replicate (8 - k) false := by
  have hdrop : (byteBits x).drop k = List.replicate (8 - k) false := by
    refine List.eq_replicate_iff.mpr ⟨by simp [byteBits], fun b hb => ?_⟩
    rw [byteBits, ← List.map_drop, List.mem_map] at hb
    obtain ⟨i, hi, rfl⟩ := hb
    have hki : k ≤ i ∧ i < 8 := by
      rw [List.range_eq_range', List.drop_range', List.mem_range'_1] at hi
      omega
    exact h (7 - i) (by omega)
  rw [← hdrop, List.take_append_drop]

/-- Padding adds fewer than 8 zeros, and leaves whole bytes (20_memory R78). -/
theorem padOut_bits {s : State} (h : OutputReady s) :
    ∃ pad < 8, (padOut s).out.flatMap byteBits = s.outBitsSoFar ++ List.replicate pad false := by
  obtain ⟨hcnt, hpad⟩ := h
  by_cases h0 : s.ac.bitCnt = 0
  · refine ⟨0, by decide, ?_⟩
    simp [padOut, h0, State.outBitsSoFar]
  · refine ⟨8 - s.ac.bitCnt, by omega, ?_⟩
    have hout : (padOut s).out = s.out ++ [s.ac.bitBuf] := by simp [padOut, h0]
    rw [hout, State.outBitsSoFar, List.flatMap_append, List.flatMap_singleton, List.append_assoc, ← byteBits_of_padded (by omega) hpad]

/-- What AC.FLUSH has put out before the padding (41_arith_coder R133). -/
def flushedBits (s : State) : State :=
  outBits (!s.ac.low.getLsbD 30) (s.ac.uf.toNat + 1) (outBit (s.ac.low.getLsbD 30) (s.setAc { s.ac with dir := .write }))

/-- The state after AC.FLUSH (41_arith_coder R133). -/
def flushed (s : State) : State :=
  (padOut (flushedBits s)).setAc { (padOut (flushedBits s)).ac with low := 0, high := 0xFFFFFFFF, uf := 0 }

/-- AC.FLUSH completes exactly when DIR is not READ. -/
theorem flushCoder_eq_ok_iff {s t : State} : flushCoder s = .ok t ↔ s.ac.dir ≠ .read ∧ t = flushed s := by
  constructor
  · intro h
    unfold flushCoder at h
    split_ifs at h with hd
    cases h
    exact ⟨hd, rfl⟩
  · rintro ⟨hd, rfl⟩
    exact if_neg hd

/-- Everything but the start values and OUT is kept. -/
theorem flushed_frame (s : State) : flushed s = { s with
    out := (flushed s).out, ac := { s.ac with low := 0, high := 0xFFFFFFFF, uf := 0, bitBuf := 0, bitCnt := 0, dir := .write } } := by
  obtain ⟨out, buf, cnt, h⟩ := (outBit_outStep (s.ac.low.getLsbD 30) (s.setAc { s.ac with dir := .write })).trans
    (outBits_outStep (!s.ac.low.getLsbD 30) (s.ac.uf.toNat + 1) _)
  rw [flushed, flushedBits, h]
  rfl

/-- The bits of OUT after AC.FLUSH (41_arith_coder R133, 20_memory R78). -/
theorem flushed_bits {s : State} (h : OutputReady s) : ∃ pad < 8, (flushed s).out.flatMap byteBits =
    s.outBitsSoFar ++ [s.ac.low.getLsbD 30] ++ List.replicate (s.ac.uf.toNat + 1) (!s.ac.low.getLsbD 30) ++
      List.replicate pad false := by
  have hs : OutputReady (s.setAc { s.ac with dir := .write }) := ⟨h.bitCnt, h.padded⟩
  obtain ⟨pad, hlt, hpad⟩ := padOut_bits ((hs.outBit (s.ac.low.getLsbD 30)).outBits (!s.ac.low.getLsbD 30) (s.ac.uf.toNat + 1))
  refine ⟨pad, hlt, hpad.trans ?_⟩
  rw [outBits_outBitsSoFar _ _ (hs.outBit _), outBit_outBitsSoFar _ hs.bitCnt hs.padded]
  rfl

/-- Settles O31, from the bits put out one after the other. -/
theorem acFlushEndsTheStream : Obligations.AcFlushEndsTheStream := by
  unfold Obligations.AcFlushEndsTheStream
  intro s hs hd hcnt hpad
  have heff : flushCoder s = .ok (flushed s) := flushCoder_eq_ok_iff.mpr ⟨hd, rfl⟩
  obtain ⟨pad, hlt, hbits⟩ := flushed_bits ⟨hcnt, hpad⟩
  exact ⟨flushed s, pad, exec_of_effect_ok (i := .acFlush) hs heff, hlt, hbits, (flushCoder_appendsToOut heff).out, flushed_frame s⟩

end Sys2Proof.Machine
end

section
/-! AC.DEC: when its loop ends, the window inside the interval, its effect and its frame (41_arith_coder R132, R138 to R140). -/

namespace Sys2Proof.Machine

/-! ### The window under a turn -/

/-- `Doubled`, and CODE doubled with it, the bit taken put in (41_arith_coder R139). -/
structure DoubledWindow (δ : Nat) (b : Bool) (a a' : AcUnit) : Prop extends Doubled δ a a' where
  code : a'.code.toNat + δ = 2 * a.code.toNat + b.toNat

theorem DoubledWindow.codeInside {δ : Nat} {b : Bool} {a a' : AcUnit} (h : DoubledWindow δ b a a') (hc : CodeInside a) :
    CodeInside a' := by
  obtain ⟨⟨hl, hh⟩, hcode⟩ := h
  obtain ⟨hcl, hch⟩ := hc
  have := Bool.toNat_le b
  exact ⟨by omega, by omega⟩

theorem CodeInside.low_le_high {a : AcUnit} (h : CodeInside a) : a.low.toNat ≤ a.high.toNat := h.low_le.trans h.le_high

/-- Where the top bits agree CODE has the same top bit, and the doubling drops it. -/
theorem doubled_code_of_agree {a : AcUnit} (hc : CodeInside a) (h : topBitsAgree a = true) (b : Bool) :
    (2 * a.code.toNat + b.toNat) % 2 ^ 32 + (a.high.getLsbD 31).toNat * 2 ^ 32 = 2 * a.code.toNat + b.toNat := by
  obtain ⟨hcl, hch⟩ := hc
  have hagree := topBitsAgree_iff.mp h
  have hb := Bool.toNat_le b
  have hlt := a.code.isLt
  cases hhigh : a.high.getLsbD 31
  · have := topBit_clear_iff.mp hhigh
    rw [Bool.toNat_false]
    omega
  · have := topBit_iff.mp (hagree.trans hhigh)
    rw [Bool.toNat_true]
    omega

/-- In the underflow state complementing bit 30 of CODE moves it down by 2^30, or up by 2^30 past the doubling. -/
theorem doubled_code_of_straddling {a : AcUnit} (hc : CodeInside a) (h : Straddling a) (b : Bool) :
    (2 * (a.code ^^^ 0x40000000#32).toNat + b.toNat) % 2 ^ 32 + 2 ^ 31 = 2 * a.code.toNat + b.toNat := by
  obtain ⟨hcl, hch⟩ := hc
  obtain ⟨⟨hl, hl'⟩, hh, hh'⟩ := h
  have hb := Bool.toNat_le b
  by_cases hhalf : a.code.toNat < 2 ^ 31
  · have := toNat_xor_bit30_of_set (x := a.code) (by omega)
    omega
  · have := toNat_xor_bit30_of_clear (x := a.code) (by omega)
    omega

theorem shiftInCode_code {c : Word32} {s t : State} (h : shiftInCode c s = .ok t) :
    ∃ b : Bool, t.ac.code.toNat = (2 * c.toNat + b.toNat) % 2 ^ 32 := by
  obtain ⟨b, u, -, rfl⟩ := shiftInCode_eq_ok h
  exact ⟨b, by rw [shiftIn_eq_ofNat]; exact BitVec.toNat_ofNat _ _⟩

/-- A turn of the decoder that completes and puts in the bit `b`. -/
theorem decTopTurn_window {s t : State} {b : Bool} (hc : CodeInside s.ac) (hagree : topBitsAgree s.ac = true)
    (h : decTopTurn s = .ok t) (hcode : t.ac.code.toNat = (2 * s.ac.code.toNat + b.toNat) % 2 ^ 32) :
    DoubledWindow ((s.ac.high.getLsbD 31).toNat * 2 ^ 32) b s.ac t.ac :=
  ⟨(topShift_doubled hc.low_le_high hagree).congr (shiftInCode_bounds h), hcode ▸ doubled_code_of_agree hc hagree b⟩

theorem decUnderflowTurn_window {s t : State} {b : Bool} (hc : CodeInside s.ac) (hs : Straddling s.ac)
    (h : decUnderflowTurn s = .ok t) (hcode : t.ac.code.toNat = (2 * (s.ac.code ^^^ 0x40000000#32).toNat + b.toNat) % 2 ^ 32) :
    DoubledWindow (2 ^ 31) b s.ac t.ac :=
  ⟨(underflowShift_doubled hs).congr (shiftInCode_bounds h), hcode ▸ doubled_code_of_straddling hc hs b⟩

/-- The decoder's loop keeps the window inside the interval (41_arith_coder R140). -/
theorem decRenorm_codeInside {n : Nat} {s t : State} (hc : CodeInside s.ac) (h : decRenorm n s = .ok t) : CodeInside t.ac := by
  induction n generalizing s with
  | zero => cases h; exact hc
  | succ n ih =>
    rcases decRenorm_cases hc.low_le_high with ⟨-, hagree, he⟩ | ⟨-, ⟨hno, hu⟩, he⟩ | ⟨-, -, he⟩ <;> rw [he] at h
    · obtain ⟨u, hturn, h⟩ := bind_eq_ok h
      obtain ⟨b, hcode⟩ := shiftInCode_code hturn
      exact ih ((decTopTurn_window hc hagree hturn hcode).codeInside hc) h
    · obtain ⟨u, hturn, h⟩ := bind_eq_ok h
      obtain ⟨b, hcode⟩ := shiftInCode_code hturn
      exact ih ((decUnderflowTurn_window hc (straddling_of_underflow hc.low_le_high hno hu) hturn hcode).codeInside hc) h
    · cases h
      exact hc

/-! ### What a completed loop keeps -/

theorem inBit_inputReady {s t : State} {b : Bool} (hs : InputReady s) (h : inBit s = .ok (b, t)) : InputReady t := by
  obtain ⟨hcnt, hpast⟩ := hs
  rcases inBit_cases s with ⟨-, hk⟩ | ⟨-, c, rest, -, hk⟩ | ⟨-, -, hp, hk⟩ | ⟨-, -, -, hk⟩ <;> rw [hk] at h <;> cases h
  · exact ⟨Nat.sub_le_of_le_add (Nat.le_succ_of_le hcnt), hpast⟩
  · exact ⟨(by decide : 7 ≤ 8), hpast⟩
  · exact ⟨hcnt, Nat.lt_of_le_of_ne hpast hp⟩

theorem shiftInCode_inputReady {c : Word32} {s t : State} (hs : InputReady s) (h : shiftInCode c s = .ok t) : InputReady t := by
  obtain ⟨b, u, hb, rfl⟩ := shiftInCode_eq_ok h
  exact (SameInput.setAc u _).inputReady (inBit_inputReady hs hb)

theorem shiftInBits_inputReady {n : Nat} {s t : State} (hs : InputReady s) (h : shiftInBits n s = .ok t) : InputReady t := by
  induction n generalizing s with
  | zero => cases h; exact hs
  | succ n ih =>
    unfold shiftInBits at h
    split at h
    · cases h
    · rename_i u hu
      exact ih (shiftInCode_inputReady hs hu) h

theorem shiftInBits_inStep {n : Nat} {s t : State} (h : shiftInBits n s = .ok t) : InStep s t := by
  induction n generalizing s with
  | zero => cases h; exact .refl _
  | succ n ih =>
    unfold shiftInBits at h
    split at h
    · cases h
    · rename_i u hu
      exact (shiftInCode_inStep hu).trans (ih h)

/-- What every turn of the decoder's loop does, a completed loop does, whatever the bounds. -/
theorem decRenorm_relates {R : State → State → Prop} (hrefl : ∀ s, R s s) (htrans : ∀ s t u, R s t → R t u → R s u)
    (hturn : ∀ s t, decTopTurn s = .ok t ∨ decUnderflowTurn s = .ok t → R s t) {n : Nat} {s t : State}
    (h : decRenorm n s = .ok t) : R s t := by
  induction n generalizing s with
  | zero => cases h; exact hrefl _
  | succ n ih =>
    unfold decRenorm at h
    split at h
    · split at h
      · cases h
      · rename_i u hu
        exact htrans _ _ _ (hturn s u (.inl hu)) (ih h)
    · split at h
      · split at h
        · cases h
        · rename_i u hu
          exact htrans _ _ _ (hturn s u (.inr hu)) (ih h)
      · cases h
        exact hrefl _

theorem decRenorm_decStep {n : Nat} {s t : State} (h : decRenorm n s = .ok t) : DecStep s t := by
  refine decRenorm_relates DecStep.refl (fun _ _ _ => DecStep.trans) (fun s t ht => ?_) h
  rcases ht with ht | ht
  · exact DecStep.trans ⟨_, _, _, _, _, _, _, _, _, rfl⟩ (shiftInCode_decStep ht)
  · exact DecStep.trans ⟨_, _, _, _, _, _, _, _, _, rfl⟩ (shiftInCode_decStep ht)

theorem decRenorm_inputReady {n : Nat} {s t : State} (hs : InputReady s) (h : decRenorm n s = .ok t) : InputReady t := by
  refine decRenorm_relates (R := fun s t => InputReady s → InputReady t) (fun _ => id) (fun _ _ _ h k => k ∘ h) (fun s t ht hs => ?_) h hs
  rcases ht with ht | ht
  · exact shiftInCode_inputReady ((SameInput.setAc s _).inputReady hs) ht
  · exact shiftInCode_inputReady ((SameInput.setAc s _).inputReady hs) ht

/-! ### When the loop completes -/

/-- A turn whose bit can be had completes, whatever the unit is before it, if its input side is the same. -/
theorem shiftInCode_setAc_of_available (c : Word32) {s : State} {a : AcUnit} (ha : SameInput s (s.setAc a)) (hs : InputReady s)
    (h : 0 < s.bitsAvailable) : ∃ t, shiftInCode c (s.setAc a) = .ok t ∧ BitsTaken 1 s t ∧
      t.ac.code.toNat = (2 * c.toNat + (s.inBitsLeft.headD false).toNat) % 2 ^ 32 := by
  obtain ⟨t, ht, htaken, hcode⟩ := shiftInCode_of_available c (ha.inputReady hs) (ha.bitsAvailable ▸ h)
  exact ⟨t, ht, ha.bitsTaken_left htaken, ha.inBitsLeft ▸ hcode⟩

theorem decTopTurn_of_available {s : State} (hs : InputReady s) (h : 0 < s.bitsAvailable) : ∃ t, decTopTurn s = .ok t ∧
    BitsTaken 1 s t ∧ t.ac.code.toNat = (2 * s.ac.code.toNat + (s.inBitsLeft.headD false).toNat) % 2 ^ 32 :=
  shiftInCode_setAc_of_available _ (SameInput.setAc s (topShift s.ac)) hs h

theorem decUnderflowTurn_of_available {s : State} (hs : InputReady s) (h : 0 < s.bitsAvailable) : ∃ t, decUnderflowTurn s = .ok t ∧
    BitsTaken 1 s t ∧
      t.ac.code.toNat = (2 * (s.ac.code ^^^ 0x40000000#32).toNat + (s.inBitsLeft.headD false).toNat) % 2 ^ 32 :=
  shiftInCode_setAc_of_available _ (SameInput.setAc s (underflowShift s.ac)) hs h

/-- The decoder's loop completes when a bit for each of its turns can be had (41_arith_coder R139). -/
theorem decRenorm_of_available {n : Nat} {s : State} (hle : s.ac.low.toNat ≤ s.ac.high.toNat) (hs : InputReady s)
    (h : renormShifts n s.ac ≤ s.bitsAvailable) : ∃ u, decRenorm n s = .ok u := by
  induction n generalizing s with
  | zero => exact ⟨s, rfl⟩
  | succ n ih =>
    rcases decRenorm_cases hle with ⟨hd, hagree, he⟩ | ⟨hd, ⟨hno, hu⟩, he⟩ | ⟨-, -, he⟩
    · rw [renormShifts, if_pos hagree] at h
      obtain ⟨t, ht, htaken, -⟩ := decTopTurn_of_available hs (by omega)
      obtain ⟨hav, -⟩ := htaken.bitsAvailable hs.pastEnd (by omega)
      obtain ⟨hlow, hhigh⟩ := shiftInCode_bounds ht
      obtain ⟨hdl, hdh⟩ := hd t ht
      have hsame : renormShifts n t.ac = renormShifts n (topShift s.ac) := renormShifts_congr n hlow hhigh
      rw [he, ht]
      exact ih (by omega) (htaken.inputReady hs (by omega)) (by omega)
    · rw [renormShifts, if_neg (Bool.eq_false_iff.mp hno), if_pos hu] at h
      obtain ⟨t, ht, htaken, -⟩ := decUnderflowTurn_of_available hs (by omega)
      obtain ⟨hav, -⟩ := htaken.bitsAvailable hs.pastEnd (by omega)
      obtain ⟨hlow, hhigh⟩ := shiftInCode_bounds ht
      obtain ⟨hdl, hdh⟩ := hd t ht
      have hsame : renormShifts n t.ac = renormShifts n (underflowShift s.ac) := renormShifts_congr n hlow hhigh
      rw [he, ht]
      exact ih (by omega) (htaken.inputReady hs (by omega)) (by omega)
    · exact ⟨s, he _⟩

/-! ### Priming, or a window primed before -/

/-- Priming that completes: the input side and CODE, then DIR (41_arith_coder R138). -/
theorem prime_eq_ok {s p : State} (h : prime s = .ok p) :
    InStep (s.setAc { s.ac with dir := .read }) p ∧ p.ac.dir = .read ∧ (InputReady s → InputReady p) := by
  unfold prime at h
  split at h
  · cases h
  · rename_i u hu
    cases h
    refine ⟨?_, rfl, fun hs => (SameInput.setAc u _).inputReady (shiftInBits_inputReady ((SameInput.setAc s _).inputReady hs) hu)⟩
    obtain ⟨_, _, _, _, _, _, _, rfl⟩ := shiftInBits_inStep hu
    exact ⟨_, _, _, _, _, _, _, rfl⟩

/-- The state whose window AC.DEC looks up: from IDLE the primed one, from READ the state itself (41_arith_coder R138). -/
structure Primed (s p : State) : Prop where
  idle : s.ac.dir = .idle → prime s = .ok p
  read : s.ac.dir = .read → p = s

theorem Primed.inStep {s p : State} (h : Primed s p) (hd : s.ac.dir ≠ .write) :
    InStep (s.setAc { s.ac with dir := .read }) p ∧ (InputReady s → InputReady p) := by
  cases hdir : s.ac.dir with
  | idle =>
    obtain ⟨hstep, -, hready⟩ := prime_eq_ok (h.idle hdir)
    exact ⟨hstep, hready⟩
  | write => exact absurd hdir hd
  | read =>
    have hsame : s.setAc { s.ac with dir := .read } = s := by rw [← hdir]; rfl
    rw [h.read hdir, hsame]
    exact ⟨.refl s, id⟩

/-- A primed window keeps the table and the bounds, and lies inside them (41_arith_coder R140). -/
structure WindowReady (s p : State) : Prop where
  table : p.ac.freq = s.ac.freq ∧ p.ac.nsym = s.ac.nsym
  renormalised : Renormalised p.ac
  codeInside : CodeInside p.ac

theorem Primed.windowReady {s p : State} (h : Primed s p) (hd : s.ac.dir ≠ .write) (hc : CoderInv s.ac) : WindowReady s p := by
  obtain ⟨⟨inp, draws, code, inBuf, inCnt, inPos, pastEnd, hp⟩, -⟩ := h.inStep hd
  refine ⟨by rw [hp]; exact ⟨rfl, rfl⟩, ?_, ?_⟩
  · rw [hp]
    exact ⟨hc.renormalised.lowTop, hc.renormalised.highTop, hc.renormalised.noUnderflow⟩
  · cases hdir : s.ac.dir with
    | idle =>
      obtain ⟨hl, hh⟩ := hc.idleBounds hdir
      have hpl : p.ac.low = 0 := by rw [hp]; exact hl
      have hph : p.ac.high = 0xFFFFFFFF := by rw [hp]; exact hh
      exact ⟨by rw [hpl]; exact Nat.zero_le _, by rw [hph]; exact Nat.le_of_lt_succ p.ac.code.isLt⟩
    | write => exact absurd hdir hd
    | read =>
      rw [h.read hdir]
      exact ⟨(hc.codeInside hdir).1, (hc.codeInside hdir).2⟩

/-! ### AC.DEC -/

theorem sectionLimitReached_eq_false_iff {a : AcUnit} :
    sectionLimitReached a = false ↔ a.sections = 0 ∨ a.sectDone.toNat < a.sections.toNat := by
  rw [sectionLimitReached, Bool.and_eq_false_iff, bne_eq_false_iff_eq, decide_eq_false_iff_not, Nat.not_le]

/-- AC.DEC completes exactly when none of its checks fails, the window can be primed, and the rest of it completes. -/
theorem decodeSymbol_eq_ok_iff {s t : State} : decodeSymbol s = .ok t ↔
    s.ac.dir ≠ .write ∧ (s.ac.sections = 0 ∨ s.ac.sectDone.toNat < s.ac.sections.toNat) ∧
      (0 < s.ac.total ∧ s.ac.total ≤ 2 ^ 30) ∧ ∃ p, Primed s p ∧ decodePrimed p = .ok t := by
  rw [← sectionLimitReached_eq_false_iff]
  constructor
  · intro h
    unfold decodeSymbol at h
    split_ifs at h with hd hl ht hi
    · refine ⟨hd, Bool.eq_false_iff.mpr hl, by simp only [Config.maxTotal] at ht; omega, ?_⟩
      split at h
      · cases h
      · rename_i p hp
        exact ⟨p, ⟨fun _ => hp, fun hr => by cases hi.symm.trans hr⟩, h⟩
    · exact ⟨hd, Bool.eq_false_iff.mpr hl, by simp only [Config.maxTotal] at ht; omega, s, ⟨fun h => absurd h hi, fun _ => rfl⟩, h⟩
  · rintro ⟨hd, hl, ⟨hpos, htot⟩, p, hprimed, h⟩
    have ht : ¬(s.ac.total = 0 ∨ Config.maxTotal < s.ac.total) := by simp only [Config.maxTotal]; omega
    simp only [decodeSymbol, if_neg hd, hl, Bool.false_eq_true, if_false, if_neg ht]
    cases hdir : s.ac.dir with
    | idle => simp only [if_true, hprimed.idle hdir, h]
    | write => exact absurd hdir hd
    | read =>
      rw [hprimed.read hdir] at h
      simp only [reduceCtorEq, if_false, h]

/-- The state after AC.DEC's loop has ended in `u` (41_arith_coder R138, R132). -/
def decoded (sym : Sym) (u : State) : State := countSection sym (u.setRes (sym.setWidth 64))

/-- The part of AC.DEC after priming completes exactly when its loop does. -/
theorem decodePrimed_eq_ok_iff {p t : State} {sym : Sym} (hlook : lookupSymbol p = (sym, p)) : decodePrimed p = .ok t ↔
    ∃ u, decRenorm 32 (p.setAc (intervalUpdate sym p.ac)) = .ok u ∧ t = decoded sym u := by
  simp only [decodePrimed, hlook, Config.maxShifts]
  cases hu : decRenorm 32 (p.setAc (intervalUpdate sym p.ac)) with
  | error e => simp
  | ok u => simp [decoded, eq_comm]

/-- The window of a primed state, looked up: the symbol can be coded and its interval holds CODE (41_arith_coder R137, R140). -/
theorem WindowReady.lookup {s p : State} (h : WindowReady s p) (hwf : s.ac.freq.wf) (hn : s.ac.nsym.toNat ≤ 65536)
    (hpos : 0 < s.ac.total) (htot : s.ac.total ≤ 2 ^ 30) :
    ∃ sym, lookupSymbol p = (sym, p) ∧ Codes s.ac sym ∧ CodeInside (intervalUpdate sym p.ac) := by
  obtain ⟨⟨hfreq, hnsym⟩, hr, hcode⟩ := h
  have htotal : p.ac.total = s.ac.total := by simp only [AcUnit.total, AcUnit.cum, hfreq, hnsym]
  obtain ⟨sym, hlook, ⟨hlt, hf⟩, -, hin⟩ :=
    lookupSymbol_finds (s := p) ⟨hfreq ▸ hwf, htotal ▸ htot, hr.range⟩ (hnsym ▸ hn) (htotal ▸ hpos) hcode
  exact ⟨sym, hlook, ⟨hnsym ▸ hlt, hfreq ▸ hf⟩, hin⟩

/-- The bits AC.DEC takes, in the window it looks up: when they can be had, the window can be primed and the turns done. -/
theorem primed_of_available {s : State} (hs : InputReady s) (hd : s.ac.dir ≠ .write) (h : s.decodeBitsNeeded ≤ s.bitsAvailable) :
    ∃ p, Primed s p ∧ p.symbolShifts ≤ p.bitsAvailable := by
  cases hdir : s.ac.dir with
  | idle =>
    have hneed : 32 ≤ s.decodeBitsNeeded := by
      rw [State.decodeBitsNeeded, if_pos hdir]
      split <;> omega
    obtain ⟨p, hp, htaken, -⟩ := prime_of_available hs (hneed.trans h)
    obtain ⟨hav, -⟩ := htaken.bitsAvailable hs.pastEnd (hneed.trans h)
    rw [State.decodeBitsNeeded, if_pos hdir, hp] at h
    exact ⟨p, ⟨fun _ => hp, fun hr => by cases hdir.symm.trans hr⟩, by simp only at h; omega⟩
  | write => exact absurd hdir hd
  | read =>
    rw [State.decodeBitsNeeded, if_neg (by rw [hdir]; decide)] at h
    exact ⟨s, ⟨fun hi => (by cases hdir.symm.trans hi), fun _ => rfl⟩, h⟩

/-- AC.DEC takes at most the 32 bits of a priming and one bit for each of 32 turns. -/
theorem decodeBitsNeeded_le (s : State) : s.decodeBitsNeeded ≤ if s.ac.dir = .idle then 64 else 32 := by
  have hturns : ∀ p : State, p.symbolShifts ≤ 32 := fun p => renormShifts_le 32 _
  unfold State.decodeBitsNeeded
  split_ifs with hdir
  · split
    · have := hturns ‹_›
      omega
    · omega
  · exact hturns s

/-- Settles O34: the window is primed, the lookup finds its symbol, and the loop has its bits; all of it keeps what R138 does not name. -/
theorem acDecReturnsTheSymbol : Obligations.AcDecReturnsTheSymbol := by
  unfold Obligations.AcDecReturnsTheSymbol
  refine ⟨decodeBitsNeeded_le, fun s hs hd hsec hpos htot hwf hinv hbits => ?_⟩
  obtain ⟨p, hprimed, hav⟩ := primed_of_available ⟨hinv.inCntRange, hinv.pastEndRange⟩ hd hbits
  obtain ⟨hpstep, hpready⟩ := hprimed.inStep hd
  have hwindow := hprimed.windowReady hd hinv
  obtain ⟨sym, hlook, ⟨hlt, hf⟩, hin⟩ := hwindow.lookup hwf hinv.nsymRange.2 hpos htot
  have hupdate : SameInput p (p.setAc (intervalUpdate sym p.ac)) := .setAc p _
  rw [State.symbolShifts, hlook] at hav
  obtain ⟨u, hu⟩ := decRenorm_of_available (s := p.setAc (intervalUpdate sym p.ac)) hin.low_le_high
    (hupdate.inputReady (hpready ⟨hinv.inCntRange, hinv.pastEndRange⟩)) (hupdate.bitsAvailable ▸ hav)
  have heff : decodeSymbol s = .ok (decoded sym u) :=
    decodeSymbol_eq_ok_iff.mpr ⟨hd, hsec, ⟨hpos, htot⟩, p, hprimed, (decodePrimed_eq_ok_iff hlook).mpr ⟨u, hu, rfl⟩⟩
  obtain ⟨hcl, hch⟩ := decRenorm_codeInside hin hu
  have hustep := decRenorm_decStep hu
  obtain ⟨hterm, hdone, hdir⟩ : u.ac.term = s.ac.term ∧ u.ac.sectDone = s.ac.sectDone ∧ u.ac.dir = .read := by
    obtain ⟨_, _, _, _, _, _, _, rfl⟩ := hpstep
    obtain ⟨_, _, _, _, _, _, _, _, _, rfl⟩ := hustep
    exact ⟨rfl, rfl, rfl⟩
  obtain ⟨hother, hcounted⟩ := countSection_sectDone (sym := sym) (u := u.setRes (sym.setWidth 64)) hterm hdone
  refine ⟨p, u, decoded sym u, sym, hprimed.idle, hprimed.read, hlook, hu, exec_of_effect_ok (i := .acDec) hs heff, ?_⟩
  unfold decoded
  rw [countSection_frame] at hother hcounted ⊢
  refine ⟨rfl, hlt, hf, hdir, rfl, rfl, rfl, rfl, rfl, rfl, rfl, rfl, hcl, hch, hother, hcounted, ?_⟩
  obtain ⟨_, _, _, _, _, _, _, rfl⟩ := hpstep
  obtain ⟨_, _, _, _, _, _, _, _, _, rfl⟩ := hustep
  rfl

end Sys2Proof.Machine
end

section
/-! The errors of the commands, and DIR command by command (41_arith_coder R125, 60_exceptions R241, R243). -/

namespace Sys2Proof.Machine

/-! ### Which errors a command can raise -/

/-- An error of 60_exceptions R241 that may be raised: not NONE, and not the reserved code 5 (R243). -/
structure Raised.Proper (e : Raised) : Prop where
  set : e.code ≠ .none
  implemented : e.code ≠ .unimplemented

/-- A computation that raises proper errors only. -/
def RaisesProperly {α : Type} (r : Except Raised α) : Prop := ∀ e, r = .error e → e.Proper

theorem RaisesProperly.ok {α : Type} (v : α) : RaisesProperly (.ok v : Except Raised α) := by
  intro e h
  cases h

theorem RaisesProperly.error {α : Type} {e : Raised} (h : e.Proper) : RaisesProperly (.error e : Except Raised α) := by
  intro e' h'
  cases h'
  exact h

theorem Raised.Proper.invalidSymbol (s : Sym) : (Raised.invalidSymbol s).Proper := ⟨nofun, nofun⟩
theorem Raised.Proper.zeroProbability (s : Sym) : (Raised.zeroProbability s).Proper := ⟨nofun, nofun⟩
theorem Raised.Proper.directionMisuse (d : Dir) : (Raised.directionMisuse d).Proper := ⟨nofun, nofun⟩
theorem Raised.Proper.malformed (c : BitVec 8) (n : Nat) : (Raised.malformed c n).Proper := ⟨nofun, nofun⟩
theorem Raised.Proper.illegalCommand (w : Word32) : (Raised.illegalCommand w).Proper := ⟨nofun, nofun⟩
theorem Raised.Proper.freqTotal (n : Nat) : (Raised.freqTotal n).Proper := ⟨nofun, nofun⟩
theorem Raised.Proper.configInvalid (v : Word64) : (Raised.configInvalid v).Proper := ⟨nofun, nofun⟩
theorem Raised.Proper.fieldOob (v : Word64) : (Raised.fieldOob v).Proper := ⟨nofun, nofun⟩
theorem Raised.Proper.cursorEnd (n : Nat) : (Raised.cursorEnd n).Proper := ⟨nofun, nofun⟩
theorem Raised.Proper.rleOverflow (n : Nat) : (Raised.rleOverflow n).Proper := ⟨nofun, nofun⟩
theorem Raised.Proper.rleqOverflow (n : Nat) : (Raised.rleqOverflow n).Proper := ⟨nofun, nofun⟩

theorem inBit_raisesProperly (s : State) : RaisesProperly (inBit s) := by
  rcases inBit_cases s with ⟨-, hk⟩ | ⟨-, c, rest, -, hk⟩ | ⟨-, -, -, hk⟩ | ⟨-, -, -, hk⟩ <;> rw [hk]
  · exact .ok _
  · exact .ok _
  · exact .ok _
  · exact .error (.malformed _ _)

theorem shiftInCode_raisesProperly (c : Word32) (s : State) : RaisesProperly (shiftInCode c s) := by
  cases hb : inBit s with
  | error e => exact shiftInCode_of_error c hb ▸ .error (inBit_raisesProperly s e hb)
  | ok r => exact shiftInCode_of_inBit c hb ▸ .ok _

theorem shiftInBits_raisesProperly (n : Nat) (s : State) : RaisesProperly (shiftInBits n s) := by
  induction n generalizing s with
  | zero => exact .ok _
  | succ n ih =>
    unfold shiftInBits
    split
    · exact .error (shiftInCode_raisesProperly _ _ _ ‹_›)
    · exact ih _

theorem prime_raisesProperly (s : State) : RaisesProperly (prime s) := by
  unfold prime
  split
  · exact .error (shiftInBits_raisesProperly _ _ _ ‹_›)
  · exact .ok _

theorem decRenorm_raisesProperly (n : Nat) (s : State) : RaisesProperly (decRenorm n s) := by
  induction n generalizing s with
  | zero => exact .ok _
  | succ n ih =>
    unfold decRenorm
    split
    · split
      · exact .error (shiftInCode_raisesProperly _ _ _ ‹_›)
      · exact ih _
    · split
      · split
        · exact .error (shiftInCode_raisesProperly _ _ _ ‹_›)
        · exact ih _
      · exact .ok _

theorem decodePrimed_raisesProperly (s : State) : RaisesProperly (decodePrimed s) := by
  unfold decodePrimed
  simp only
  split
  · exact .error (decRenorm_raisesProperly _ _ _ ‹_›)
  · exact .ok _

theorem decodeSymbol_raisesProperly (s : State) : RaisesProperly (decodeSymbol s) := by
  unfold decodeSymbol
  split_ifs
  · exact .error (.directionMisuse _)
  · exact .error (.malformed _ _)
  · exact .error (.freqTotal _)
  · split
    · exact .error (prime_raisesProperly _ _ ‹_›)
    · exact decodePrimed_raisesProperly _
  · exact decodePrimed_raisesProperly _

theorem encodeSymbol_raisesProperly (sym : Sym) (s : State) : RaisesProperly (encodeSymbol sym s) := by
  unfold encodeSymbol
  split_ifs
  · exact .error (.directionMisuse _)
  · exact .error (.invalidSymbol _)
  · exact .error (.zeroProbability _)
  · exact .error (.freqTotal _)
  · exact .ok _

theorem flushCoder_raisesProperly (s : State) : RaisesProperly (flushCoder s) := by
  unfold flushCoder
  split_ifs
  · exact .error (.directionMisuse _)
  · exact .ok _

theorem readControl_raisesProperly (n : BitVec 8) (s : State) : RaisesProperly (readControl n s) := by
  unfold readControl
  split
  · exact .error (.illegalCommand _)
  · exact .ok _

theorem writeControl_raisesProperly (n : BitVec 8) (s : State) : RaisesProperly (writeControl n s) := by
  rcases writeControl_cases n s with ⟨-, hw⟩ | ⟨c, -, -, -, hw⟩ | ⟨c, -, -, hw⟩ <;> rw [hw]
  · exact .error (.illegalCommand _)
  · exact .error (.configInvalid _)
  · exact .ok _

theorem readCumulative_raisesProperly (sym : Sym) (s : State) : RaisesProperly (readCumulative sym s) := by
  unfold readCumulative
  split_ifs
  · exact .error (.invalidSymbol _)
  · exact .ok _

theorem emitRun_raisesProperly (s : State) : RaisesProperly (emitRun s) := by
  rcases emitRun_cases s with ⟨-, he⟩ | ⟨-, he⟩ <;> rw [he]
  · exact .ok _
  · exact .error (.rleqOverflow _)

theorem encodeBit_raisesProperly (b : BitVec 1) (s : State) : RaisesProperly (encodeBit b s) := by
  unfold encodeBit
  split_ifs
  · exact .error (.rleOverflow _)
  · exact .ok _
  · exact emitRun_raisesProperly s

theorem parsePrefix_raisesProperly (sym : Sym) (s : State) : RaisesProperly (parsePrefix sym s) := by
  unfold parsePrefix
  simp only
  split_ifs
  · exact .error (.malformed _ _)
  · exact .ok _
  · exact .ok _
  · exact .ok _

theorem parseSuffix_raisesProperly (sym : Sym) (s : State) : RaisesProperly (parseSuffix sym s) := by
  unfold parseSuffix
  simp only
  split_ifs
  · exact .error (.malformed _ _)
  · exact .error (.malformed _ _)
  · exact .ok _
  · exact .ok _

theorem parseSymbol_raisesProperly (sym : Sym) (s : State) : RaisesProperly (parseSymbol sym s) := by
  unfold parseSymbol
  split_ifs
  · exact .error (.malformed _ _)
  · split
    · exact parsePrefix_raisesProperly sym s
    · exact parseSuffix_raisesProperly sym s

theorem endRuns_raisesProperly (s : State) : RaisesProperly (endRuns s) := by
  unfold endRuns
  split_ifs
  · exact .error (.malformed _ _)
  · exact .ok _

theorem writeField_raisesProperly (v : Colour) (s : State) : RaisesProperly (writeField v s) := by
  unfold writeField
  split_ifs
  · exact .ok _
  · exact .error (.fieldOob _)

theorem readField_raisesProperly (s : State) : RaisesProperly (readField s) := by
  unfold readField
  split_ifs
  · exact .ok _
  · exact .ok _
  · exact .error (.fieldOob _)

theorem atCursor_raisesProperly (s t : State) : RaisesProperly (atCursor s t) := by
  rcases atCursor_cases s t with ⟨-, ha⟩ | ⟨-, ha⟩ <;> rw [ha]
  · exact .ok _
  · exact .error (.cursorEnd _)

/-- No command raises NONE or the reserved code 5 (60_exceptions R241, R243). -/
theorem commandEffect_raisesProperly (i : Instr) (s : State) : RaisesProperly (commandEffect i s) := by
  cases i with
  | nop | srst | acInit | freqWr | freqRd | freqClr | rleInit | rlePop | prdInit => exact .ok _
  | csrr n => exact readControl_raisesProperly n s
  | csrw n => exact writeControl_raisesProperly n s
  | acEnc sym => exact encodeSymbol_raisesProperly sym s
  | acDec => exact decodeSymbol_raisesProperly s
  | acFlush => exact flushCoder_raisesProperly s
  | cumRd sym => exact readCumulative_raisesProperly sym s
  | rleEbit b => exact encodeBit_raisesProperly b s
  | rleEend => exact emitRun_raisesProperly s
  | rleDsym sym => exact parseSymbol_raisesProperly sym s
  | rleDend => exact endRuns_raisesProperly s
  | fldWr v => exact writeField_raisesProperly v s
  | fldRd => exact readField_raisesProperly s
  | prdForesee | prdLearn | pxEnc | pxDec => exact atCursor_raisesProperly _ _

/-- A command that raises nothing from a clear latch had its effect. -/
theorem commandEffect_of_exec_ready {i : Instr} {s t : State} (hs : s.ready) (h : exec i s = .next t) (ht : t.ready) :
    commandEffect i s = .ok t := by
  rcases exec_cases h with ⟨hl, -⟩ | heff | ⟨e, he, -, rfl⟩
  · exact absurd hs hl
  · exact heff
  · exact absurd ht (commandEffect_raisesProperly i s e he).set

/-! ### DIR -/

theorem encoded_dir (sym : Sym) (s : State) : (encoded sym s).ac.dir = .write := by
  obtain ⟨_, _, _, _, _, _, _, h⟩ := encoded_loop_frame sym s
  rw [encoded, countSection_frame, h]
  rfl

theorem flushed_dir (s : State) : (flushed s).ac.dir = .write := by rw [flushed_frame]

theorem decodePrimed_dir {p t : State} (h : decodePrimed p = .ok t) : t.ac.dir = p.ac.dir := by
  have hlook : (lookupSymbol p).2.ac.dir = p.ac.dir := by
    unfold lookupSymbol
    split <;> rfl
  unfold decodePrimed at h
  simp only at h
  split at h
  · cases h
  · rename_i u hu
    cases h
    obtain ⟨_, _, _, _, _, _, _, _, _, rfl⟩ := decRenorm_decStep hu
    rw [countSection_frame]
    exact hlook

theorem decodeSymbol_dir {s t : State} (h : decodeSymbol s = .ok t) : t.ac.dir = .read := by
  obtain ⟨hd, -, -, p, hprimed, hp⟩ := decodeSymbol_eq_ok_iff.mp h
  obtain ⟨⟨_, _, _, _, _, _, _, rfl⟩, -⟩ := hprimed.inStep hd
  exact decodePrimed_dir hp

theorem csrWrite_dir (c : Csr) (v : Word64) (s : State) : (csrWrite c v s).ac.dir = s.ac.dir := by cases c <;> rfl

theorem writeControl_dir {n : BitVec 8} {s t : State} (h : writeControl n s = .ok t) : t.ac.dir = s.ac.dir := by
  rcases writeControl_cases n s with ⟨-, hw⟩ | ⟨c, -, -, -, hw⟩ | ⟨c, -, -, hw⟩ <;> rw [hw] at h <;> cases h
  exact csrWrite_dir c s.arg s

theorem readControl_ac {n : BitVec 8} {s t : State} (h : readControl n s = .ok t) : t.ac = s.ac := by
  unfold readControl at h
  split at h <;> cases h
  rfl

theorem readCumulative_ac {sym : Sym} {s t : State} (h : readCumulative sym s = .ok t) : t.ac = s.ac := by
  unfold readCumulative at h
  split_ifs at h
  cases h
  rfl

theorem RleStep.ac {s t : State} (h : RleStep s t) : t.ac = s.ac := by
  obtain ⟨r, v, rfl⟩ := h
  rfl

theorem PrdStep.ac {s t : State} (h : PrdStep s t) : t.ac = s.ac := by
  obtain ⟨p, v, rfl⟩ := h
  rfl

/-- DIR after a command that completes (41_arith_coder R125, 40_control R114). -/
def dirAfter (i : Instr) (d : Dir) : Dir :=
  match i with
  | .acInit | .srst => .idle
  | .acEnc _ | .acFlush => .write
  | .acDec => .read
  | .nop | .csrr _ | .csrw _ | .freqWr _ | .freqRd _ | .freqClr | .cumRd _ | .rleInit | .rleEbit _ | .rleEend | .rlePop | .rleDsym _
  | .rleDend | .prdInit | .fldWr _ | .fldRd | .prdForesee | .prdLearn _ | .pxEnc _ | .pxDec _ _ => d

theorem commandEffect_dir {i : Instr} {s t : State} (h : commandEffect i s = .ok t) : t.ac.dir = dirAfter i s.ac.dir := by
  cases i with
  | nop | srst | acInit | freqWr | freqRd | freqClr | rleInit | prdInit => cases h; rfl
  | csrr n => exact congrArg _ (readControl_ac h)
  | csrw n => exact writeControl_dir h
  | acEnc sym =>
    obtain ⟨-, -, -, rfl⟩ := encodeSymbol_eq_ok_iff.mp h
    exact encoded_dir sym s
  | acDec => exact decodeSymbol_dir h
  | acFlush =>
    obtain ⟨-, rfl⟩ := flushCoder_eq_ok_iff.mp h
    exact flushed_dir s
  | cumRd sym => exact congrArg _ (readCumulative_ac h)
  | rleEbit b => exact congrArg _ (encodeBit_rleStep h).ac
  | rleEend => exact congrArg _ (emitRun_rleStep h).ac
  | rlePop => cases h; exact congrArg _ (popSymbol_rleStep s).ac
  | rleDsym sym => exact congrArg _ (parseSymbol_rleStep h).ac
  | rleDend => exact congrArg _ (endRuns_rleStep h).ac
  | fldWr v => exact congrArg _ (writeField_prdStep h).ac
  | fldRd => exact congrArg _ (readField_prdStep h).ac
  | prdForesee | prdLearn => cases atCursor_eq_ok h; rfl
  | pxEnc m => cases atCursor_eq_ok h; exact congrArg _ (encodePixel_prdStep m s).ac
  | pxDec m r => cases atCursor_eq_ok h; exact congrArg _ (decodePixel_prdStep m r s).ac

/-- The directions from which a command can complete (41_arith_coder R125). -/
theorem commandEffect_dir_before {i : Instr} {s t : State} (h : commandEffect i s = .ok t) :
    (i.opcode = 0x11 ∨ i.opcode = 0x13 → s.ac.dir ≠ .read) ∧ (i.opcode = 0x12 → s.ac.dir ≠ .write) := by
  cases i with
  | acEnc sym => exact ⟨fun _ => (encodeSymbol_eq_ok_iff.mp h).1, fun hop => absurd hop (show 0x11#8 ≠ 0x12#8 by decide)⟩
  | acFlush => exact ⟨fun _ => (flushCoder_eq_ok_iff.mp h).1, fun hop => absurd hop (by decide)⟩
  | acDec => exact ⟨fun hop => absurd hop (by decide), fun _ => (decodeSymbol_eq_ok_iff.mp h).1⟩
  | _ => exact ⟨by simp [Instr.opcode], by simp [Instr.opcode]⟩

/-- The table of R125, by opcode. -/
theorem dirAfter_by_opcode (i : Instr) (d : Dir) :
    (i.opcode = 0x10 ∨ i.opcode = 0x0F → dirAfter i d = .idle) ∧ (i.opcode = 0x11 ∨ i.opcode = 0x13 → dirAfter i d = .write) ∧
      (i.opcode = 0x12 → dirAfter i d = .read) ∧
      (i.opcode ∉ [0x0F#8, 0x10#8, 0x11#8, 0x12#8, 0x13#8] → dirAfter i d = d) := by
  cases i <;> simp [Instr.opcode, dirAfter]

/-- Settles O35, by the table `dirAfter`; a misuse is the first check of its command. -/
theorem directionLatchTable : Obligations.DirectionLatchTable := by
  unfold Obligations.DirectionLatchTable
  intro s hs
  refine ⟨fun i t h ht => ?table, fun hd => ⟨fun sym => ?enc, ?flush⟩, fun hd => ?dec⟩
  case table =>
    have heff := commandEffect_of_exec_ready hs h ht
    obtain ⟨hidle, hwrite, hread, hkept⟩ := dirAfter_by_opcode i s.ac.dir
    obtain ⟨hnotRead, hnotWrite⟩ := commandEffect_dir_before heff
    rw [commandEffect_dir heff]
    exact ⟨hidle, fun hop => ⟨hnotRead hop, hwrite hop⟩, fun hop => ⟨hnotWrite hop, hread hop⟩, hkept⟩
  case enc =>
    have heff : encodeSymbol sym s = .error (.directionMisuse .read) := (if_pos hd).trans (by rw [hd])
    exact exec_of_effect_error (i := .acEnc sym) hs heff
  case flush =>
    have heff : flushCoder s = .error (.directionMisuse .read) := (if_pos hd).trans (by rw [hd])
    exact exec_of_effect_error (i := .acFlush) hs heff
  case dec =>
    have heff : decodeSymbol s = .error (.directionMisuse .write) := (if_pos hd).trans (by rw [hd])
    exact exec_of_effect_error (i := .acDec) hs heff

end Sys2Proof.Machine
end

section
/-! The whole invariant, unit by unit, and that every command and every host action keeps it (41_arith_coder R136, R140, 10_state R30 to
R60, 60_exceptions R243). -/

namespace Sys2Proof.Machine

/-! ### The invariant, unit by unit -/

/-- The coder with its table. -/
structure CoderAndTableInv (a : AcUnit) : Prop where
  freqCanonical : a.freq.wf
  freqInRange : ∀ c ∈ a.freq, c.1 < Config.maxSym
  coder : CoderInv a

/-- The context store, canonical and within its capacity (10_state R58). -/
structure CtxInv (p : PrdUnit) : Prop where
  canonical : p.ctx.wf
  bounded : p.ctx.length ≤ Config.ctxCap

/-- The predictor with its field and its context store. -/
structure PredictorAndFieldInv (p : PrdUnit) : Prop where
  fieldCanonical : p.field.wf
  fieldInRange : ∀ c ∈ p.field, c.1 < p.cells
  ctx : CtxInv p
  predictor : PrdInv p

theorem inv_iff_units {s : State} :
    s.Inv ↔ CoderAndTableInv s.ac ∧ RleInv s.rle ∧ PredictorAndFieldInv s.prd ∧ LatchInv s.latch := by
  constructor
  · rintro ⟨⟨h1, h2, h3, h4, h5, h6⟩, hc, hr, hp, hl⟩
    exact ⟨⟨h1, h2, hc⟩, hr, ⟨h3, h4, ⟨h5, h6⟩, hp⟩, hl⟩
  · rintro ⟨⟨h1, h2, hc⟩, hr, ⟨h3, h4, ⟨h5, h6⟩, hp⟩, hl⟩
    exact ⟨⟨h1, h2, h3, h4, h5, h6⟩, hc, hr, hp, hl⟩

/-- A change that leaves the latch and the other two units: the invariant of the unit it changes is enough. -/
theorem State.Inv.of_coder {s t : State} (h : s.Inv) (hr : t.rle = s.rle) (hp : t.prd = s.prd) (hl : t.latch = s.latch)
    (hc : CoderAndTableInv t.ac) : t.Inv := by
  obtain ⟨-, hrle, hprd, hlatch⟩ := inv_iff_units.mp h
  exact inv_iff_units.mpr ⟨hc, hr ▸ hrle, hp ▸ hprd, hl ▸ hlatch⟩

theorem State.Inv.of_coderStep {s t : State} (h : s.Inv) (hstep : CoderStep s t) (hc : CoderInv t.ac) : t.Inv := by
  obtain ⟨⟨hwf, hrange, -⟩, -, -, -⟩ := inv_iff_units.mp h
  exact h.of_coder hstep.rle hstep.prd hstep.latch ⟨hstep.freq ▸ hwf, hstep.freq ▸ hrange, hc⟩

theorem State.Inv.of_setRle {s : State} {r : RleUnit} (h : s.Inv) (hr : RleInv r) : (s.setRle r).Inv := by
  obtain ⟨hac, -, hprd, hlatch⟩ := inv_iff_units.mp h
  exact inv_iff_units.mpr ⟨hac, hr, hprd, hlatch⟩

theorem State.Inv.of_setPrd {s : State} {p : PrdUnit} (h : s.Inv) (hp : PredictorAndFieldInv p) : (s.setPrd p).Inv := by
  obtain ⟨hac, hrle, -, hlatch⟩ := inv_iff_units.mp h
  exact inv_iff_units.mpr ⟨hac, hrle, hp, hlatch⟩

/-- RES, and all that the host sees, is no part of the invariant. -/
theorem State.Inv.of_setRes {s : State} (h : s.Inv) (v : Word64) : (s.setRes v).Inv := by
  rw [inv_iff_units] at h ⊢
  exact h

theorem State.Inv.of_setRle_setRes {s : State} {r : RleUnit} {v : Word64} (h : s.Inv) (hr : RleInv r) :
    ((s.setRle r).setRes v).Inv := (h.of_setRle hr).of_setRes v

/-! ### The coder -/

/-- A coder that starts anew, in any direction but READ (41_arith_coder R124, R133). -/
theorem CoderInv.of_start {a : AcUnit} (hl : a.low = 0) (hh : a.high = 0xFFFFFFFF) (hd : a.dir ≠ .read)
    (hbuf : a.bitBuf = 0 ∧ a.bitCnt = 0) (hin : a.inCnt ≤ 8 ∧ a.pastEnd ≤ Config.pastEndLimit)
    (hn : 1 ≤ a.nsym.toNat ∧ a.nsym.toNat ≤ 65536) : CoderInv a where
  renormalised := .of_start hl hh
  idleBounds := fun _ => ⟨hl, hh⟩
  codeInside := fun h => absurd h hd
  bitCntRange := by rw [hbuf.2]; decide
  bitBufPadded := fun j _ => by rw [hbuf.1]; exact BitVec.getLsbD_zero
  inCntRange := hin.1
  pastEndRange := hin.2
  nsymRange := hn

/-- TERM, SECTIONS, SECTDONE and FREQ are no part of the coder's own invariant. -/
theorem CoderInv.configured {a : AcUnit} (h : CoderInv a) (term : BitVec 16) (sections : BitVec 32) (done : Word64) (freq : Memory 64) :
    CoderInv { a with term := term, sections := sections, sectDone := done, freq := freq } :=
  { h with renormalised := ⟨h.renormalised.lowTop, h.renormalised.highTop, h.renormalised.noUnderflow⟩ }

theorem countSection_coderInv {s : State} (h : CoderInv s.ac) (sym : Sym) : CoderInv (countSection sym s).ac := by
  rw [countSection_frame]
  exact h.configured s.ac.term s.ac.sections _ s.ac.freq

theorem init_coderInv {a : AcUnit} (h : CoderInv a) : CoderInv a.init :=
  .of_start rfl rfl (by simp [AcUnit.init]) ⟨rfl, rfl⟩ ⟨Nat.zero_le _, Nat.zero_le _⟩ h.nsymRange

theorem flushed_coderInv {s : State} (h : CoderInv s.ac) : CoderInv (flushed s).ac := by
  rw [flushed_frame]
  exact .of_start rfl rfl (by simp) ⟨rfl, rfl⟩ ⟨h.inCntRange, h.pastEndRange⟩ h.nsymRange

theorem CoderInv.inputReady {s : State} (h : CoderInv s.ac) : InputReady s := ⟨h.inCntRange, h.pastEndRange⟩

/-- A turn of the encoder's loop keeps BITBUF padded. -/
theorem encTopTurn_outputReady {s : State} (h : OutputReady s) : OutputReady (encTopTurn s) := by
  obtain ⟨hcnt, hpad⟩ := (h.outBit (s.ac.high.getLsbD 31)).outBits (!s.ac.high.getLsbD 31) s.ac.uf.toNat
  exact ⟨hcnt, hpad⟩

theorem encRenorm_outputReady {n : Nat} {s : State} (h : OutputReady s) : OutputReady (encRenorm n s) := by
  induction n generalizing s with
  | zero => exact h
  | succ n ih =>
    unfold encRenorm
    split
    · exact ih (encTopTurn_outputReady h)
    · split
      · exact ih (s := encUnderflowTurn s) ⟨h.bitCnt, h.padded⟩
      · exact h

/-- AC.ENC leaves a writing coder with renormalised bounds (41_arith_coder R136). -/
theorem encoded_coderInv {s : State} {sym : Sym} (h : CoderInv s.ac) (hwf : s.ac.freq.wf) (ht : s.ac.total ≤ 2 ^ 30)
    (hsym : Codes s.ac sym) : CoderInv (encoded sym s).ac := by
  obtain ⟨-, hordered, -⟩ := intervalUpdate_inside (a := { s.ac with dir := .write }) ⟨hwf, ht, h.renormalised.range⟩
    ⟨hsym.inAlphabet, hsym.hasFrequency⟩
  have hr := encRenorm_renormalised (s := s.setAc (intervalUpdate sym { s.ac with dir := .write })) (.all hordered)
  obtain ⟨hcnt, hpad⟩ := encRenorm_outputReady (n := 32) (s := s.setAc (intervalUpdate sym { s.ac with dir := .write }))
    ⟨h.bitCntRange, h.bitBufPadded⟩
  have hframe := encoded_loop_frame sym s
  unfold encoded
  generalize encRenorm 32 (s.setAc (intervalUpdate sym { s.ac with dir := .write })) = u at *
  obtain ⟨hdir, hin, hpast, hn⟩ : u.ac.dir = .write ∧ u.ac.inCnt = s.ac.inCnt ∧ u.ac.pastEnd = s.ac.pastEnd ∧ u.ac.nsym = s.ac.nsym := by
    obtain ⟨_, _, _, _, _, _, _, rfl⟩ := hframe
    exact ⟨rfl, rfl, rfl, rfl⟩
  exact countSection_coderInv {
    renormalised := hr
    idleBounds := fun hi => by cases hdir.symm.trans hi
    codeInside := fun hi => by cases hdir.symm.trans hi
    bitCntRange := hcnt
    bitBufPadded := hpad
    inCntRange := hin.trans_le h.inCntRange
    pastEndRange := hpast.trans_le h.pastEndRange
    nsymRange := hn ▸ h.nsymRange } sym

/-- AC.DEC leaves a reading coder whose bounds are renormalised and hold CODE (41_arith_coder R136, R140). -/
theorem decodeSymbol_coderInv {s t : State} (h : CoderInv s.ac) (hwf : s.ac.freq.wf) (ht : decodeSymbol s = .ok t) :
    CoderInv t.ac := by
  obtain ⟨hd, -, ⟨hpos, htot⟩, p, hprimed, hdec⟩ := decodeSymbol_eq_ok_iff.mp ht
  obtain ⟨hpstep, hpready⟩ := hprimed.inStep hd
  obtain ⟨sym, hlook, -, hin⟩ := (hprimed.windowReady hd h).lookup hwf h.nsymRange.2 hpos htot
  obtain ⟨u, hu, rfl⟩ := (decodePrimed_eq_ok_iff hlook).mp hdec
  have hr := decRenorm_renormalised (.all hin.low_le_high) hu
  obtain ⟨hcl, hch⟩ := decRenorm_codeInside hin hu
  obtain ⟨hcnt, hpast⟩ := decRenorm_inputReady ((SameInput.setAc p _).inputReady (hpready h.inputReady)) hu
  obtain ⟨hdir, hbc, hbb, hn⟩ :
      u.ac.dir = .read ∧ u.ac.bitCnt = s.ac.bitCnt ∧ u.ac.bitBuf = s.ac.bitBuf ∧ u.ac.nsym = s.ac.nsym := by
    obtain ⟨_, _, _, _, _, _, _, rfl⟩ := hpstep
    obtain ⟨_, _, _, _, _, _, _, _, _, rfl⟩ := decRenorm_decStep hu
    exact ⟨rfl, rfl, rfl, rfl⟩
  exact countSection_coderInv (s := u.setRes (sym.setWidth 64)) {
    renormalised := hr
    idleBounds := fun hi => by cases hdir.symm.trans hi
    codeInside := fun _ => ⟨hcl, hch⟩
    bitCntRange := hbc.trans_le h.bitCntRange
    bitBufPadded := by simpa only [State.setRes_ac, hbc, hbb] using h.bitBufPadded
    inCntRange := hcnt
    pastEndRange := hpast
    nsymRange := hn ▸ h.nsymRange } sym

/-- FREQ.WR keeps the table canonical and inside its range (10_state R46). -/
theorem freqWrite_inv {a : AcUnit} (h : CoderAndTableInv a) (sym : Sym) (v : Word64) :
    CoderAndTableInv { a with freq := a.freq.write sym.toNat v } := by
  obtain ⟨hwf, hrange, hc⟩ := h
  refine ⟨Memory.write_wf hwf _ _, fun c hmem => ?_, hc.configured a.term a.sections a.sectDone _⟩
  rcases Memory.mem_write hmem with ⟨rfl, -⟩ | hmem
  · exact sym.isLt
  · exact hrange c hmem

theorem freqClear_inv {a : AcUnit} (h : CoderAndTableInv a) : CoderAndTableInv { a with freq := [] } := by
  obtain ⟨-, -, hc⟩ := h
  exact ⟨Memory.wf_nil, List.forall_mem_nil _, hc.configured a.term a.sections a.sectDone []⟩

/-! ### The run-length unit -/

theorem rleInit_inv {r : RleUnit} (h : RleInv r) : RleInv r.init :=
  ⟨h.ceiling, Nat.zero_le _, Nat.zero_le _, Nat.zero_le _, Nat.zero_le _, fun hp => by cases hp⟩

theorem emitRun_inv {s t : State} (h : s.Inv) (he : emitRun s = .ok t) : t.Inv := by
  rcases emitRun_cases s with ⟨hq, hk⟩ | ⟨-, hk⟩ <;> rw [hk] at he <;> cases he
  refine h.of_setRle { h.runLength with runRange := Nat.zero_le _, queueRange := ?_ }
  rw [List.length_append, List.length_map]
  exact hq

theorem encodeBit_inv {b : BitVec 1} {s t : State} (h : s.Inv) (he : encodeBit b s = .ok t) : t.Inv := by
  unfold encodeBit at he
  split_ifs at he with hb hmax
  · cases he
    exact h.of_setRle { h.runLength with runRange := Nat.lt_of_le_of_ne h.runLength.runRange hmax }
  · exact emitRun_inv h he

theorem popSymbol_inv {s : State} (h : s.Inv) : (popSymbol s).Inv := by
  unfold popSymbol
  split
  · exact h.of_setRes _
  · rename_i q rest hq
    have hlen := h.runLength.queueRange
    rw [hq, List.length_cons] at hlen
    exact h.of_setRle_setRes { h.runLength with queueRange := Nat.le_of_succ_le hlen }

/-- The end of a run (43_run_length R177). -/
theorem finishRun_inv {s : State} (h : s.Inv) (vacc : Nat) {r : RleUnit} (hr : RleInv r) : (finishRun vacc r s).Inv :=
  h.of_setRle_setRes { hr with vaccRange := Nat.zero_le _ }

theorem parsePrefix_inv {sym : Sym} {s t : State} (h : s.Inv) (he : parsePrefix sym s = .ok t) : t.Inv := by
  have hsym : sym.toNat ≤ Config.runMax := sym.isLt.le.trans (by decide)
  unfold parsePrefix at he
  simp only at he
  split_ifs at he with hm hmax hzero <;> cases he
  · exact h.of_setRle_setRes { h.runLength with
      depthRange := Nat.lt_of_le_of_ne h.runLength.depthRange hmax, suffixOpen := fun _ => Nat.succ_pos _ }
  · exact finishRun_inv h _ h.runLength
  · exact h.of_setRle_setRes { h.runLength with vaccRange := hsym, suffixOpen := fun _ => Nat.pos_of_ne_zero hzero }

theorem parseSuffix_inv {sym : Sym} {s t : State} (h : s.Inv) (he : parseSuffix sym s = .ok t) : t.Inv := by
  unfold parseSuffix at he
  simp only at he
  split_ifs at he with hm hmax hlast <;> cases he
  · exact finishRun_inv h _ { h.runLength with depthRange := Nat.zero_le _, suffixOpen := fun hp => by cases hp }
  · exact h.of_setRle_setRes { h.runLength with
      vaccRange := Nat.not_lt.mp hmax, depthRange := (Nat.sub_le _ _).trans h.runLength.depthRange,
      suffixOpen := fun _ => Nat.pos_of_ne_zero hlast }

theorem parseSymbol_inv {sym : Sym} {s t : State} (h : s.Inv) (he : parseSymbol sym s = .ok t) : t.Inv := by
  unfold parseSymbol at he
  split_ifs at he
  split at he
  · exact parsePrefix_inv h he
  · exact parseSuffix_inv h he

theorem endRuns_inv {s t : State} (h : s.Inv) (he : endRuns s = .ok t) : t.Inv := by
  unfold endRuns at he
  split_ifs at he
  cases he
  exact h.of_setRle { h.runLength with vaccRange := Nat.zero_le _ }

/-! ### The predictor -/

theorem observe_ctxInv {p : PrdUnit} (h : CtxInv p) (k : CtxKey) (v : Colour) : CtxInv (p.observe k v) :=
  ⟨observe_wf h.canonical k v, observe_bounded h.canonical h.bounded k v⟩

theorem observeKey_ctxInv {p : PrdUnit} (h : CtxInv p) (key : Option CtxKey) (v : Colour) : CtxInv (p.observeKey key v) := by
  cases key with
  | none => exact h
  | some k => exact observe_ctxInv h k v

theorem learnHash_ctxInv {p : PrdUnit} (h : CtxInv p) (v : Colour) : CtxInv (learnHash v p) := by
  unfold learnHash
  induction p.shapesInUse generalizing p with
  | nil => exact h
  | cons k ks ih => exact ih (observeKey_ctxInv h _ v)

/-- Learning keeps the context store canonical and within its capacity (44_predictor R206 to R210). -/
theorem learn_ctxInv {p : PrdUnit} (h : CtxInv p) (v : Colour) : CtxInv (learn v p) := by
  unfold learn
  split
  · exact h
  · exact h
  · exact observeKey_ctxInv h _ v
  · exact learnHash_ctxInv h v

/-- Writing a cell of the field (44_predictor R216, R219). -/
theorem setCell_inv {p : PrdUnit} (h : PredictorAndFieldInv p) {i : Nat} (hi : i < p.cells) (v : Colour) :
    PredictorAndFieldInv (p.setCell i v) := by
  refine ⟨Memory.write_wf h.fieldCanonical _ _, fun c hmem => ?_, ⟨h.ctx.canonical, h.ctx.bounded⟩, { h.predictor with }⟩
  rcases Memory.mem_write hmem with ⟨rfl, -⟩ | hmem
  · exact hi
  · exact h.fieldInRange c hmem

/-- Learning, then the cursor one further, from a cursor inside the field (44_predictor R213, R219 to R221). -/
theorem learn_advance_inv {p : PrdUnit} (h : PredictorAndFieldInv p) (hpos : p.pos < p.cells) (v : Colour) :
    PredictorAndFieldInv (learn v p).advance := by
  have hctx := learn_ctxInv h.ctx v
  rw [learn_frame] at hctx ⊢
  exact ⟨h.fieldCanonical, h.fieldInRange, ⟨hctx.canonical, hctx.bounded⟩, { h.predictor with posRange := hpos }⟩

theorem record_inv {p : PrdUnit} (h : PredictorAndFieldInv p) (hpos : p.pos < p.cells) (v : Colour) :
    PredictorAndFieldInv (p.record v) := learn_advance_inv (setCell_inv h hpos v) hpos v

theorem prdInit_inv {p : PrdUnit} (h : PredictorAndFieldInv p) :
    PredictorAndFieldInv { p with ctx := [], ctxFull := false, pos := 0 } :=
  ⟨h.fieldCanonical, h.fieldInRange, ⟨CtxStore.wf_nil, Nat.zero_le _⟩, { h.predictor with posRange := Nat.zero_le _ }⟩

/-- The coordinates of ARG, inside the field, name a cell (44_predictor R191). -/
theorem argIndex_lt_cells {s : State} (h : argInField s = true) : argIndex s < s.prd.cells := by
  rw [argInField, Bool.and_eq_true, decide_eq_true_iff, decide_eq_true_iff] at h
  obtain ⟨hx, hy⟩ := h
  calc argY s.arg * s.prd.width.toNat + argX s.arg < argY s.arg * s.prd.width.toNat + s.prd.width.toNat := Nat.add_lt_add_left hx _
    _ = (argY s.arg + 1) * s.prd.width.toNat := (Nat.succ_mul _ _).symm
    _ ≤ s.prd.height.toNat * s.prd.width.toNat := Nat.mul_le_mul_right _ hy
    _ = s.prd.cells := Nat.mul_comm _ _

theorem writeField_inv {v : Colour} {s t : State} (h : s.Inv) (he : writeField v s = .ok t) : t.Inv := by
  obtain ⟨-, -, hprd, -⟩ := inv_iff_units.mp h
  unfold writeField at he
  split_ifs at he with hin
  cases he
  exact h.of_setPrd (setCell_inv hprd (argIndex_lt_cells hin) v)

theorem readField_inv {s t : State} (h : s.Inv) (he : readField s = .ok t) : t.Inv := by
  unfold readField at he
  split_ifs at he <;> cases he <;> exact h.of_setRes _

/-- A cursor command that completes found the cursor inside the field. -/
theorem atCursor_ok_pos {s t u : State} (h : atCursor s t = .ok u) : s.prd.pos < s.prd.cells := by
  rcases atCursor_cases s t with ⟨hpos, -⟩ | ⟨-, ha⟩
  · exact hpos
  · cases ha.symm.trans h

/-! ### The control registers -/

/-- A legal value keeps the predictor's invariant: the register written has it, the others are untouched (10_state R54 to R60). -/
theorem csrWrite_inv {c : Csr} {s : State} (h : s.Inv) (hv : LegalCsrValue c s.arg) : (csrWrite c s.arg s).Inv := by
  obtain ⟨⟨hwf, hrange, hc⟩, hrle, hprd, -⟩ := inv_iff_units.mp h
  have hlegal := (csrLegal_iff c s.arg).mpr hv
  cases c with
  | acNsym =>
    obtain ⟨h1, h2⟩ := hv
    have hn : (s.arg.setWidth 17).toNat = s.arg.toNat := by rw [BitVec.toNat_setWidth]; omega
    exact h.of_coder rfl rfl rfl ⟨hwf, hrange, { hc with
      renormalised := ⟨hc.renormalised.lowTop, hc.renormalised.highTop, hc.renormalised.noUnderflow⟩
      nsymRange := ⟨h1.trans_eq hn.symm, hn.trans_le h2⟩ }⟩
  | acTerm => exact h.of_coder rfl rfl rfl ⟨hwf, hrange, hc.configured _ s.ac.sections s.ac.sectDone s.ac.freq⟩
  | acSections => exact h.of_coder rfl rfl rfl ⟨hwf, hrange, hc.configured s.ac.term _ s.ac.sectDone s.ac.freq⟩
  | rleM =>
    obtain ⟨h1, h2⟩ := hv
    have hm : (s.arg.setWidth 16).toNat = s.arg.toNat := by rw [BitVec.toNat_setWidth]; omega
    exact h.of_setRle (r := { s.rle with m := s.arg.setWidth 16 }) { hrle with ceiling := h1.trans_eq hm.symm }
  | fldDim =>
    obtain ⟨h1, h2, h3, -⟩ := hv
    exact State.Inv.of_setPrd h (p := { s.prd with width := _, height := _, field := [], pos := 0 })
      ⟨Memory.wf_nil, List.forall_mem_nil _, ⟨hprd.ctx.canonical, hprd.ctx.bounded⟩, { hprd.predictor with
      widthRange := h1, heightRange := h2, cellsRange := h3, posRange := Nat.zero_le _ }⟩
  | prdCfg =>
    simp only [csrLegal, Bool.and_eq_true] at hlegal
    exact h.of_setPrd { hprd with
      ctx := ⟨hprd.ctx.canonical, hprd.ctx.bounded⟩, predictor := { hprd.predictor with cfgIsLegal := hlegal.2 } }
  | shapeLen k =>
    refine h.of_setPrd { hprd with
      ctx := ⟨hprd.ctx.canonical, hprd.ctx.bounded⟩, predictor := { hprd.predictor with lenRange := fun j => ?_ } }
    by_cases hj : j = k
    · subst hj
      exact (csrWrite_shapeLen_same hv s).trans_le hv
    · exact (congrArg BitVec.toNat (csrWrite_shapeLen_other hj s.arg s)).trans_le (hprd.predictor.lenRange j)
  | shapeCell k i =>
    simp only [csrLegal, Bool.and_eq_true] at hlegal
    refine h.of_setPrd { hprd with
      ctx := ⟨hprd.ctx.canonical, hprd.ctx.bounded⟩, predictor := { hprd.predictor with cellsCausal := fun k' i' => ?_ } }
    by_cases hsame : (k', i') = (k, i)
    · cases hsame
      have hwritten : (csrWrite (.shapeCell k i) s.arg s).prd.shapeCell[k][i] = s.arg.setWidth 16 := by simp [csrWrite]
      exact (congrArg cellCausal hwritten).trans hlegal.2
    · exact (congrArg cellCausal (csrWrite_shapeCell_other hsame s.arg s)).trans (hprd.predictor.cellsCausal k' i')
  | _ => exact hv.elim

theorem writeControl_inv {n : BitVec 8} {s t : State} (h : s.Inv) (he : writeControl n s = .ok t) : t.Inv := by
  rcases writeControl_cases n s with ⟨-, hw⟩ | ⟨c, -, -, -, hw⟩ | ⟨c, -, hv, hw⟩ <;> rw [hw] at he <;> cases he
  exact csrWrite_inv h hv

theorem readControl_inv {n : BitVec 8} {s t : State} (h : s.Inv) (he : readControl n s = .ok t) : t.Inv := by
  unfold readControl at he
  split at he <;> cases he
  exact h.of_setRes _

theorem readCumulative_inv {sym : Sym} {s t : State} (h : s.Inv) (he : readCumulative sym s = .ok t) : t.Inv := by
  unfold readCumulative at he
  split_ifs at he
  cases he
  exact h.of_setRes _

/-- Only the units and the latch matter to the invariant. -/
theorem State.Inv.congr {s t : State} (h : s.Inv) (hac : t.ac = s.ac) (hrle : t.rle = s.rle) (hprd : t.prd = s.prd)
    (hlatch : t.latch = s.latch) : t.Inv := by
  rw [inv_iff_units] at h ⊢
  rw [hac, hrle, hprd, hlatch]
  exact h

theorem reset_inv : State.reset.Inv :=
  inv_iff_units.mpr ⟨⟨Memory.wf_nil, List.forall_mem_nil _,
      .of_start rfl rfl (by decide) ⟨rfl, rfl⟩ ⟨by decide, by decide⟩ (by decide)⟩,
    ⟨by decide, by decide, by decide, by decide, by decide, by decide⟩,
    ⟨Memory.wf_nil, List.forall_mem_nil _, ⟨CtxStore.wf_nil, by decide⟩,
      ⟨by decide, by decide, by decide, by decide, by decide, by decide, by decide⟩⟩,
    ⟨fun _ => ⟨rfl, rfl⟩, by decide⟩⟩

/-- What SRST and the reset input leave meets the invariant, with any bytes at the ports (70_reset R260). -/
theorem resetEngine_inv (s : State) : (resetEngine s).Inv := reset_inv.congr rfl rfl rfl rfl

/-! ### Commands, host actions, steps -/

theorem encodeSymbol_inv {sym : Sym} {s t : State} (h : s.Inv) (he : encodeSymbol sym s = .ok t) : t.Inv := by
  obtain ⟨-, hsym, htot, rfl⟩ := encodeSymbol_eq_ok_iff.mp he
  exact h.of_coderStep (encodeSymbol_step he) (encoded_coderInv h.coder h.memory.freqCanonical htot hsym)

theorem decodeSymbol_inv {s t : State} (h : s.Inv) (he : decodeSymbol s = .ok t) : t.Inv :=
  (h.of_setRes t.res).of_coderStep (decodeSymbol_step he) (decodeSymbol_coderInv h.coder h.memory.freqCanonical he)

theorem flushCoder_inv {s t : State} (h : s.Inv) (he : flushCoder s = .ok t) : t.Inv := by
  obtain ⟨-, rfl⟩ := flushCoder_eq_ok_iff.mp he
  exact h.of_coderStep (flushCoder_step he) (flushed_coderInv h.coder)

/-- The effect of every command keeps the invariant. -/
theorem commandEffect_inv {i : Instr} {s t : State} (h : s.Inv) (he : commandEffect i s = .ok t) : t.Inv := by
  obtain ⟨hac, hrle, hprd, -⟩ := inv_iff_units.mp h
  cases i with
  | nop => cases he; exact h
  | csrr n => exact readControl_inv h he
  | csrw n => exact writeControl_inv h he
  | srst => cases he; exact resetEngine_inv s
  | acInit => cases he; exact h.of_coderStep (.setAc s _ rfl rfl rfl rfl) (init_coderInv h.coder)
  | acEnc sym => exact encodeSymbol_inv h he
  | acDec => exact decodeSymbol_inv h he
  | acFlush => exact flushCoder_inv h he
  | freqWr sym => cases he; exact h.of_coder rfl rfl rfl (freqWrite_inv hac sym s.arg)
  | freqRd sym => cases he; exact h.of_setRes _
  | freqClr => cases he; exact h.of_coder rfl rfl rfl (freqClear_inv hac)
  | cumRd sym => exact readCumulative_inv h he
  | rleInit => cases he; exact h.of_setRle (rleInit_inv hrle)
  | rleEbit b => exact encodeBit_inv h he
  | rleEend => exact emitRun_inv h he
  | rlePop => cases he; exact popSymbol_inv h
  | rleDsym sym => exact parseSymbol_inv h he
  | rleDend => exact endRuns_inv h he
  | prdInit => cases he; exact h.of_setPrd (prdInit_inv hprd)
  | fldWr v => exact writeField_inv h he
  | fldRd => exact readField_inv h he
  | prdForesee => cases atCursor_eq_ok he; exact h.of_setRes _
  | prdLearn v =>
    have hpos := atCursor_ok_pos he
    cases atCursor_eq_ok he
    exact h.of_setPrd (record_inv hprd hpos v)
  | pxEnc m =>
    have hpos := atCursor_ok_pos he
    cases atCursor_eq_ok he
    exact (h.of_setRes _).of_setPrd (learn_advance_inv hprd hpos _)
  | pxDec m r =>
    have hpos := atCursor_ok_pos he
    cases atCursor_eq_ok he
    exact (h.of_setPrd (record_inv hprd hpos _)).of_setRes _

/-- A latch set by a proper error (60_exceptions R243, R246). -/
theorem State.Inv.of_setLatch {s : State} (h : s.Inv) {l : ErrorLatch} (hset : l.err ≠ .none) (himp : l.err ≠ .unimplemented) :
    (s.setLatch l).Inv := by
  obtain ⟨hac, hrle, hprd, -⟩ := inv_iff_units.mp h
  exact inv_iff_units.mpr ⟨hac, hrle, hprd, ⟨fun hnone => absurd hnone hset, himp⟩⟩

/-- Every command keeps the invariant: its effect does, and so does its error. -/
theorem exec_inv {i : Instr} {s t : State} (h : s.Inv) (he : exec i s = .next t) : t.Inv := by
  rcases exec_cases he with ⟨-, rfl⟩ | heff | ⟨e, herr, -, rfl⟩
  · exact h
  · exact commandEffect_inv h heff
  · obtain ⟨hset, himp⟩ := commandEffect_raisesProperly i s e herr
    exact h.of_setLatch (l := ⟨e.code, e.info, encode i⟩) hset himp

theorem writeCommand_inv {w : Word32} {s t : State} (h : s.Inv) (he : writeCommand w s = .next t) : t.Inv := by
  rcases writeCommand_cases w s with ⟨i, -, hw⟩ | ⟨e, -, hw⟩ <;> rw [hw] at he
  · exact exec_inv h he
  · cases he
    rcases runIllegal_cases w s with ⟨-, hr⟩ | ⟨-, hr⟩ <;> rw [hr]
    · exact h
    · exact h.of_setLatch (by simp) (by simp)

/-- Every host action keeps the invariant (20_memory R71, R72, 70_reset R260). -/
theorem perform_inv {a : HostAction} {s t : State} (h : s.Inv) (he : perform a s = .next t) : t.Inv := by
  cases a with
  | windowWrite o b v =>
    rcases windowWrite_cases o b v s with ⟨-, -, hw⟩ | ⟨-, -, hw⟩ | ⟨-, hw⟩
    · exact writeCommand_inv h (hw.symm.trans he)
    · cases hw.symm.trans he
      exact h.congr rfl rfl rfl rfl
    · cases hw.symm.trans he
  | windowRead o b =>
    simp only [perform] at he
    split at he <;> cases he
    exact h.congr rfl rfl rfl rfl
  | attachIn bs => cases he; exact h.congr rfl rfl rfl rfl
  | takeOut => cases he; exact h.congr rfl rfl rfl rfl
  | systemReset => cases he; exact (resetEngine_inv s).congr rfl rfl rfl rfl

/-- Settles O59: a step waits, or performs an action from a state with the same units and latch. -/
theorem stepsKeepTheInvariant : Obligations.StepsKeepTheInvariant := by
  unfold Obligations.StepsKeepTheInvariant
  intro s t h hstep
  cases hp : s.pending with
  | nil =>
    cases (step_waits hp).symm.trans hstep
    exact h
  | cons a rest =>
    have hbefore : ((s.setPending rest).setReply .nothing).Inv := h.congr rfl rfl rfl rfl
    exact perform_inv hbefore ((step_performs hp).symm.trans hstep)

end Sys2Proof.Machine
end

section
/-! Encoder and decoder side by side, one turn of renormalisation after the other (41_arith_coder R131, R139, R142).

The argument runs back from the end of the stream. Where the encoder stands in a state `s`, what it will still put out begins with a bit,
then its pending complements; those taken out, the next 32 bits are the CODE that a decoder holds at the same point of the stream. If
that number lies inside the encoder's interval after a turn, it lies inside before it, and the decoder that has it before the turn has
it after. -/

namespace Sys2Proof.Machine

/-! ### The window onto the bits to come -/

/-- `bits` is a bit, its `u` pending complements, 31 bits more and `tail`; `x` is the number of the 32 bits that are not pending. -/
def Window (u x : Nat) (bits tail : List Bool) : Prop :=
  ∃ (b : Bool) (mid : List Bool), mid.length = 31 ∧ bits = b :: (List.replicate u (!b) ++ (mid ++ tail)) ∧ x = bitsValue (b :: mid)

/-- Before a bit went out with its pending complements, the window began with that bit. -/
theorem Window.before_emission {x : Nat} {bits tail : List Bool} (h : Window 0 x bits tail) (b : Bool) (u : Nat) :
    ∃ (y : Nat) (c : Bool), Window u y (b :: (List.replicate u (!b) ++ bits)) (c :: tail) ∧
      2 * y + c.toNat = x + b.toNat * 2 ^ 32 := by
  obtain ⟨b', mid, hlen, rfl, rfl⟩ := h
  rcases List.eq_nil_or_concat' mid with rfl | ⟨mid, c, rfl⟩
  · cases hlen
  have hmid : mid.length = 30 := by simpa using hlen
  refine ⟨bitsValue (b :: b' :: mid), c, ⟨b, b' :: mid, by simp [hmid], by simp, rfl⟩, ?_⟩
  rw [bitsValue_cons b, ← List.cons_append, bitsValue_concat, List.length_cons, hmid]
  ring

/-- Before an underflow turn, one pending bit fewer: it was the second bit of the window. -/
theorem Window.before_underflow {u x : Nat} {bits tail : List Bool} (h : Window (u + 1) x bits tail) :
    ∃ (y : Nat) (c : Bool), Window u y bits (c :: tail) ∧ 2 * y + c.toNat = x + 2 ^ 31 := by
  obtain ⟨b, mid, hlen, rfl, rfl⟩ := h
  rcases List.eq_nil_or_concat' mid with rfl | ⟨mid, c, rfl⟩
  · cases hlen
  have hmid : mid.length = 30 := by simpa using hlen
  refine ⟨bitsValue (b :: (!b) :: mid), c, ⟨b, (!b) :: mid, by simp [hmid], by simp [List.replicate_succ'], rfl⟩, ?_⟩
  rw [← List.cons_append, bitsValue_concat, bitsValue_cons b, bitsValue_cons b, bitsValue_cons (!b), List.length_cons, hmid]
  cases b <;> simp only [Bool.not_false, Bool.not_true, Bool.toNat_true, Bool.toNat_false] <;> ring

/-! ### The decoder beside the encoder -/

/-- The bits a decoder of a whole stream can take: those left, and at most 30 zeros past the end (41_arith_coder R141). -/
def State.bitsToCome (d : State) : List Bool := d.inBitsLeft ++ List.replicate (30 - d.ac.pastEnd) false

/-- What `n` of the bits to come leave. -/
theorem BitsTaken.bitsToCome {n : Nat} {d e : State} (h : BitsTaken n d e) (hp : d.ac.pastEnd ≤ 30) (hn : n ≤ d.bitsToCome.length) :
    e.bitsToCome = d.bitsToCome.drop n ∧ e.ac.pastEnd ≤ 30 ∧ d.nextBits n = d.bitsToCome.take n := by
  have hpast := h.pastEnd
  rw [State.bitsToCome, List.length_append, List.length_replicate] at hn
  refine ⟨?_, by omega, ?_⟩
  · have hzeros : 30 - (d.ac.pastEnd + (n - d.inBitsLeft.length)) = 30 - d.ac.pastEnd - (n - d.inBitsLeft.length) := by omega
    rw [State.bitsToCome, State.bitsToCome, List.drop_append, List.drop_replicate, h.left, hpast, hzeros]
  · have hmin : min (n - d.inBitsLeft.length) (30 - d.ac.pastEnd) = n - d.inBitsLeft.length := by omega
    rw [State.bitsToCome, List.take_append, List.take_replicate, hmin, State.nextBits]

/-- As many bits can be had as there are bits to come. -/
theorem bitsToCome_le_bitsAvailable {d : State} : d.bitsToCome.length ≤ d.bitsAvailable := by
  rw [State.bitsToCome, State.bitsAvailable, List.length_append, List.length_replicate, Config.pastEndLimit]
  omega

/-- The turns an encoder has made since its coded bits numbered `c`: every one put out a bit or left one pending, `m` at most. -/
structure EncoderAt (c m : Nat) (s : State) : Prop where
  output : OutputReady s
  started : c ≤ s.outBitsSoFar.length
  turns : s.outBitsSoFar.length + s.ac.uf.toNat ≤ c + m

/-- A decoder at the point of the stream where the encoder is in `s`: the same bounds, `x` in CODE, `tail` to come, and 32 bits more taken
than the encoder has made turns. -/
structure Follows (c : Nat) (s : State) (x : Nat) (tail : List Bool) (d : State) : Prop where
  low : d.ac.low = s.ac.low
  high : d.ac.high = s.ac.high
  code : d.ac.code.toNat = x
  toCome : d.bitsToCome = tail
  inCnt : d.ac.inCnt ≤ 8
  pastEnd : d.ac.pastEnd ≤ 30
  taken : 8 * d.ac.inPos.toNat + d.ac.pastEnd + c = d.ac.inCnt + 32 + (s.outBitsSoFar.length + s.ac.uf.toNat)

theorem Follows.inputReady {c x : Nat} {s d : State} {tail : List Bool} (h : Follows c s x tail d) : InputReady d :=
  ⟨h.inCnt, h.pastEnd.trans (by decide)⟩

/-- What is still to come of the stream from `s` on has its window inside the interval of `s`. -/
structure Inside (s : State) (x : Nat) (bits tail : List Bool) : Prop where
  window : Window s.ac.uf.toNat x bits tail
  low_le : s.ac.low.toNat ≤ x
  le_high : x ≤ s.ac.high.toNat

theorem Follows.codeInside {c x : Nat} {s d : State} {bits tail tail' : List Bool} (h : Follows c s x tail d)
    (hin : Inside s x bits tail') : CodeInside d.ac :=
  ⟨by rw [h.low, h.code]; exact hin.low_le, by rw [h.high, h.code]; exact hin.le_high⟩

/-- From `s` to `t` the encoder put out `new`; and whatever follows `t`, if its window lies inside the interval at `t`, then with `new` in
front it lies inside at `s`, and every decoder beside `s` that meets `pre` runs to one beside `t`. -/
def Unwinds (c : Nat) (s t : State) (pre : State → Prop) (run : State → State → Prop) : Prop :=
  ∃ new, t.outBitsSoFar = s.outBitsSoFar ++ new ∧ ∀ x bits tail, Inside t x bits tail →
    ∃ y tail', Inside s y (new ++ bits) tail' ∧ ∀ d, pre d → Follows c s y tail' d → ∃ e, run d e ∧ Follows c t x tail e

theorem Unwinds.refl (c : Nat) (s : State) {pre : State → Prop} {run : State → State → Prop} (h : ∀ d, pre d → run d d) :
    Unwinds c s s pre run :=
  ⟨[], (List.append_nil _).symm, fun x _ tail hin => ⟨x, tail, hin, fun d hd hf => ⟨d, h d hd, hf⟩⟩⟩

theorem Unwinds.trans {c : Nat} {s t u : State} {pre pre' : State → Prop} {run run' run'' : State → State → Prop}
    (h : Unwinds c s t pre run) (k : Unwinds c t u pre' run') (hpre : ∀ d e, pre d → run d e → pre' e)
    (hrun : ∀ d e f, run d e → run' e f → run'' d f) : Unwinds c s u pre run'' := by
  obtain ⟨new, hnew, hback⟩ := h
  obtain ⟨new', hnew', hback'⟩ := k
  refine ⟨new ++ new', by rw [hnew', hnew, List.append_assoc], fun x bits tail hin => ?_⟩
  obtain ⟨y, tail', hiny, hgo'⟩ := hback' x bits tail hin
  obtain ⟨z, tail'', hinz, hgo⟩ := hback y (new' ++ bits) tail' hiny
  refine ⟨z, tail'', by rw [List.append_assoc]; exact hinz, fun d hd hf => ?_⟩
  obtain ⟨e, hde, hfe⟩ := hgo d hd hf
  obtain ⟨f, hef, hff⟩ := hgo' e (hpre d e hd hde) hfe
  exact ⟨f, hrun d e f hde hef, hff⟩

/-! ### One turn -/

/-- A decoder's turn beside an encoder's turn: the next bit goes from those to come into CODE. -/
theorem Follows.turn {c m x y : Nat} {s t d e : State} {b : Bool} {tail : List Bool} (h : Follows c s y (b :: tail) d)
    (hs : EncoderAt c m s) (hm : m + 1 < 2 ^ 63) (hturn : t.outBitsSoFar.length + t.ac.uf.toNat = s.outBitsSoFar.length + s.ac.uf.toNat + 1)
    (htaken : BitsTaken 1 d e) (hlow : e.ac.low = t.ac.low) (hhigh : e.ac.high = t.ac.high) (hcode : e.ac.code.toNat = x) :
    Follows c t x tail e := by
  have hone : 1 ≤ d.bitsToCome.length := by rw [h.toCome]; exact Nat.succ_pos _
  obtain ⟨hcome, hpast, -⟩ := htaken.bitsToCome h.pastEnd hone
  have hpos := htaken.position (by have := h.taken; have := hs.turns; have := h.inCnt; omega)
  have htk := h.taken
  exact ⟨hlow, hhigh, hcode, by rw [hcome, h.toCome]; rfl, htaken.inCnt, hpast, by omega⟩

/-- The bit a decoder takes is the first to come. -/
theorem Follows.next_bit {c y : Nat} {s d : State} {b : Bool} {tail : List Bool} (h : Follows c s y (b :: tail) d) :
    0 < d.bitsAvailable ∧ ∀ e, BitsTaken 1 d e → d.inBitsLeft.headD false = b := by
  have hone : 1 ≤ d.bitsToCome.length := by rw [h.toCome]; exact Nat.succ_pos _
  refine ⟨hone.trans bitsToCome_le_bitsAvailable, fun e htaken => ?_⟩
  obtain ⟨-, -, hnext⟩ := htaken.bitsToCome h.pastEnd hone
  rw [nextBits_succ htaken 0, h.toCome] at hnext
  exact (List.cons.inj hnext).1

/-- The encoder's turn where the top bits agree puts out the bit and its pending complements. -/
theorem encTopTurn_bits {s : State} (h : OutputReady s) : (encTopTurn s).outBitsSoFar = s.outBitsSoFar ++
    (s.ac.high.getLsbD 31 :: List.replicate s.ac.uf.toNat (!s.ac.high.getLsbD 31)) := by
  have hbits := outBits_outBitsSoFar (!s.ac.high.getLsbD 31) s.ac.uf.toNat (h.outBit (s.ac.high.getLsbD 31))
  rw [outBit_outBitsSoFar _ h.bitCnt h.padded, List.append_assoc] at hbits
  exact hbits

theorem encTopTurn_uf (s : State) : (encTopTurn s).ac.uf = 0 := by
  obtain ⟨out, buf, cnt, h⟩ := encTopTurn_eq s
  rw [h]

/-- Below the top of UF, the underflow turn adds one pending bit. -/
theorem encUnderflowTurn_uf {s : State} (h : s.ac.uf.toNat + 1 < 2 ^ 64) : (encUnderflowTurn s).ac.uf.toNat = s.ac.uf.toNat + 1 := by
  have hne : s.ac.uf ≠ BitVec.allOnes 64 := fun htop => by rw [htop, BitVec.toNat_allOnes] at h; omega
  rw [encUnderflowTurn, countUnderflow_eq, countUp_below hne]
  exact BitVec.toNat_add_of_lt h

/-- What a turn of the decoder's loop does where the loop makes it. -/
def DecTurn (d e : State) : Prop := ∀ n, decRenorm (n + 1) d = decRenorm n e

/-- The decoder's side of a turn that moves the bounds down by `δ`: with the bit `b` to come, it ends with the bounds of `t`. -/
structure DecSide (δ : Nat) (t : State) (y : Nat) (b : Bool) (d e : State) : Prop where
  turn : DecTurn d e
  taken : BitsTaken 1 d e
  low : e.ac.low = t.ac.low
  high : e.ac.high = t.ac.high
  code : e.ac.code.toNat + δ = 2 * y + b.toNat

theorem decSide_top {c y : Nat} {s d : State} {b : Bool} {bits tail : List Bool} (hf : Follows c s y (b :: tail) d)
    (hin : Inside s y bits (b :: tail)) (hagree : topBitsAgree s.ac = true) :
    ∃ e, DecSide ((s.ac.high.getLsbD 31).toNat * 2 ^ 32) (encTopTurn s) y b d e := by
  have hcode := hf.codeInside hin
  have hagreed : topBitsAgree d.ac = true := by rw [topBitsAgree, hf.low, hf.high]; exact hagree
  obtain ⟨hav, hnext⟩ := hf.next_bit
  obtain ⟨e, he, htaken, hecode⟩ := decTopTurn_of_available hf.inputReady hav
  rw [hnext e htaken] at hecode
  obtain ⟨hel, heh⟩ := shiftInCode_bounds he
  obtain ⟨hlowt, hhight⟩ := encTopTurn_bounds s
  have hec := (decTopTurn_window hcode hagreed he hecode).code
  rw [hf.high, hf.code] at hec
  refine ⟨e, fun n => ?_, htaken, by rw [hel, hlowt]; simp [topShift, hf.low], by rw [heh, hhight]; simp [topShift, hf.high], hec⟩
  rcases decRenorm_cases hcode.low_le_high with ⟨-, -, hk⟩ | ⟨-, ⟨hno, -⟩, -⟩ | ⟨-, ⟨hno, -⟩, -⟩
  · rw [hk, he]; rfl
  · cases hno.symm.trans hagreed
  · cases hno.symm.trans hagreed

theorem decSide_underflow {c y : Nat} {s d : State} {b : Bool} {bits tail : List Bool} (hf : Follows c s y (b :: tail) d)
    (hin : Inside s y bits (b :: tail)) (hno : topBitsAgree s.ac = false) (hu : inUnderflow s.ac = true) :
    ∃ e, DecSide (2 ^ 31) (encUnderflowTurn s) y b d e := by
  have hcode := hf.codeInside hin
  have hnod : topBitsAgree d.ac = false := by rw [topBitsAgree, hf.low, hf.high]; exact hno
  have hud : inUnderflow d.ac = true := by rw [inUnderflow, hf.low, hf.high]; exact hu
  obtain ⟨hav, hnext⟩ := hf.next_bit
  obtain ⟨e, he, htaken, hecode⟩ := decUnderflowTurn_of_available hf.inputReady hav
  rw [hnext e htaken] at hecode
  obtain ⟨hel, heh⟩ := shiftInCode_bounds he
  obtain ⟨hlowt, hhight⟩ := encUnderflowTurn_bounds s
  have hec := (decUnderflowTurn_window hcode (straddling_of_underflow hcode.low_le_high hnod hud) he hecode).code
  rw [hf.code] at hec
  refine ⟨e, fun n => ?_, htaken, by rw [hel, hlowt]; simp [underflowShift, hf.low],
    by rw [heh, hhight]; simp [underflowShift, hf.high], hec⟩
  rcases decRenorm_cases hcode.low_le_high with ⟨-, ha, -⟩ | ⟨-, -, hk⟩ | ⟨-, ⟨-, hu'⟩, -⟩
  · cases hnod.symm.trans ha
  · rw [hk, he]; rfl
  · cases hu'.symm.trans hud

/-- What an encoder's turn is: the loop goes on from `t`, at most one turn more is made, and it unwinds. -/
structure EncTurn (c m : Nat) (s t : State) : Prop where
  loop : ∀ n, encRenorm (n + 1) s = encRenorm n t
  reached : EncoderAt c (m + 1) t
  ordered : t.ac.low.toNat ≤ t.ac.high.toNat
  unwinds : Unwinds c s t (fun _ => True) DecTurn

/-- A turn unwinds when the window goes back over it as the bounds do, and the decoder makes it as well. -/
theorem unwinds_of_sides {c m δ : Nat} {s t : State} {new : List Bool} (hs : EncoderAt c m s) (hm : m + 1 < 2 ^ 63)
    (hd : Doubled δ s.ac t.ac) (hnew : t.outBitsSoFar = s.outBitsSoFar ++ new)
    (hcount : t.outBitsSoFar.length + t.ac.uf.toNat = s.outBitsSoFar.length + s.ac.uf.toNat + 1)
    (hwin : ∀ x bits tail, Window t.ac.uf.toNat x bits tail →
      ∃ (y : Nat) (b : Bool), Window s.ac.uf.toNat y (new ++ bits) (b :: tail) ∧ 2 * y + b.toNat = x + δ)
    (hdec : ∀ d y b bits tail, Follows c s y (b :: tail) d → Inside s y bits (b :: tail) → ∃ e, DecSide δ t y b d e) :
    Unwinds c s t (fun _ => True) DecTurn := by
  refine ⟨new, hnew, fun x bits tail hin => ?_⟩
  obtain ⟨y, b, hwiny, hy⟩ := hwin x bits tail hin.window
  have hb := Bool.toNat_le b
  obtain ⟨hdl, hdh⟩ := hd
  obtain ⟨-, hxl, hxh⟩ := hin
  have hiny : Inside s y (new ++ bits) (b :: tail) := ⟨hwiny, by omega, by omega⟩
  refine ⟨y, b :: tail, hiny, fun d _ hf => ?_⟩
  obtain ⟨e, hturn, htaken, hel, heh, hec⟩ := hdec d y b _ tail hf hiny
  exact ⟨e, hturn, hf.turn hs hm hcount htaken hel heh (by omega)⟩

theorem encTopTurn_turn {c m : Nat} {s : State} (hs : EncoderAt c m s) (hm : m + 1 < 2 ^ 63) (hle : s.ac.low.toNat ≤ s.ac.high.toNat)
    (hagree : topBitsAgree s.ac = true) : EncTurn c m s (encTopTurn s) := by
  have hbits := encTopTurn_bits hs.output
  have hd := (topShift_doubled hle hagree).congr (encTopTurn_bounds s)
  have huf : (encTopTurn s).ac.uf.toNat = 0 := by rw [encTopTurn_uf]; rfl
  have hcount : (encTopTurn s).outBitsSoFar.length + (encTopTurn s).ac.uf.toNat = s.outBitsSoFar.length + s.ac.uf.toNat + 1 := by
    rw [hbits, huf, List.length_append, List.length_cons, List.length_replicate]
    omega
  have hturns := hs.turns
  have hstarted := hs.started
  refine ⟨fun n => if_pos hagree, ⟨encTopTurn_outputReady hs.output, by rw [hbits, List.length_append]; omega, by omega⟩,
    by have := hd.low; have := hd.high; omega, ?_⟩
  refine unwinds_of_sides hs hm hd hbits hcount (fun x bits tail hwin => ?_) fun d y b bits tail hf hin => decSide_top hf hin hagree
  exact (huf ▸ hwin).before_emission _ _

theorem encUnderflowTurn_turn {c m : Nat} {s : State} (hs : EncoderAt c m s) (hm : m + 1 < 2 ^ 63)
    (hle : s.ac.low.toNat ≤ s.ac.high.toNat) (hno : topBitsAgree s.ac = false) (hu : inUnderflow s.ac = true) :
    EncTurn c m s (encUnderflowTurn s) := by
  have hd := (underflowShift_doubled (straddling_of_underflow hle hno hu)).congr (encUnderflowTurn_bounds s)
  have hturns := hs.turns
  have hstarted := hs.started
  have huf : (encUnderflowTurn s).ac.uf.toNat = s.ac.uf.toNat + 1 := encUnderflowTurn_uf (by omega)
  have hbits : (encUnderflowTurn s).outBitsSoFar = s.outBitsSoFar := rfl
  refine ⟨fun n => ?_, ⟨⟨hs.output.bitCnt, hs.output.padded⟩, hstarted, by rw [hbits]; omega⟩,
    by have := hd.low; have := hd.high; omega, ?_⟩
  · rcases encRenorm_cases hle with ⟨-, ha, -⟩ | ⟨-, -, he⟩ | ⟨-, ⟨-, hu'⟩, -⟩
    · cases hno.symm.trans ha
    · exact he n
    · cases hu'.symm.trans hu
  refine unwinds_of_sides hs hm hd (hbits.trans (List.append_nil _).symm) (by rw [hbits]; omega) (fun x bits tail hwin => ?_)
    fun d y b bits tail hf hin => decSide_underflow hf hin hno hu
  exact (huf ▸ hwin).before_underflow

/-! ### The whole loop -/

/-- The two loops run beside each other, `n` turns at most. -/
theorem encRenorm_unwinds {c m n : Nat} {s : State} (hs : EncoderAt c m s) (hm : m + n < 2 ^ 63)
    (hle : s.ac.low.toNat ≤ s.ac.high.toNat) :
    EncoderAt c (m + n) (encRenorm n s) ∧
      Unwinds c s (encRenorm n s) (fun _ => True) (fun d e => decRenorm n d = .ok e) := by
  induction n generalizing m s with
  | zero => exact ⟨hs, .refl c s fun d _ => rfl⟩
  | succ n ih =>
    have turn : ∀ t, EncTurn c m s t → EncoderAt c (m + (n + 1)) (encRenorm (n + 1) s) ∧
        Unwinds c s (encRenorm (n + 1) s) (fun _ => True) (fun d e => decRenorm (n + 1) d = .ok e) := by
      rintro t ⟨hloop, hat, hord, hunw⟩
      obtain ⟨hat', hunw'⟩ := ih hat (by omega) hord
      rw [hloop]
      exact ⟨by rw [Nat.add_comm n 1, ← Nat.add_assoc]; exact hat',
        hunw.trans hunw' (fun _ _ _ _ => trivial) fun d e f hde hef => (hde n).trans hef⟩
    rcases bounds_cases hle with ⟨hagree, -⟩ | ⟨hno, hu, -⟩ | ⟨-, -, hr⟩
    · exact turn _ (encTopTurn_turn hs (by omega) hle hagree)
    · exact turn _ (encUnderflowTurn_turn hs (by omega) hle hno hu)
    · rw [encRenorm_of_renormalised hr]
      refine ⟨⟨hs.output, hs.started, hs.turns.trans (by omega)⟩, [], (List.append_nil _).symm, fun x bits tail hin => ?_⟩
      refine ⟨x, tail, hin, fun d _ hf => ⟨d, ?_, hf⟩⟩
      have hrd : Renormalised d.ac := by
        obtain ⟨hl, hh, hn⟩ := hr
        exact ⟨by rw [hf.low]; exact hl, by rw [hf.high]; exact hh, by rw [hf.low, hf.high]; exact hn⟩
      exact decRenorm_of_renormalised hrd _

end Sys2Proof.Machine
end

section
/-! A whole stream through two coders: symbol by symbol, then from AC.INIT to AC.FLUSH and back (41_arith_coder R134, R141 to R143). -/

namespace Sys2Proof.Machine

/-! ### One symbol -/

/-- An encoder between symbols: it takes AC.ENC, and its bounds are renormalised. -/
structure EncoderReady (c m : Nat) (s : State) : Prop where
  ready : s.ready
  notReading : s.ac.dir ≠ .read
  renormalised : Renormalised s.ac
  reached : EncoderAt c m s

/-- Whether the section limit leaves room for the symbols still to be decoded (41_arith_coder R138, R143). -/
def SectionsLeft (a : AcUnit) (cs : List CodingStep) : Prop :=
  cs ≠ [] → a.sections = 0 ∨ a.sectDone.toNat + (cs.dropLast.map CodingStep.sym).count a.term < a.sections.toNat

/-- A primed decoder that may decode the symbols `cs`. -/
structure DecoderReady (cs : List CodingStep) (d : State) : Prop where
  ready : d.ready
  reading : d.ac.dir = .read
  sections : SectionsLeft d.ac cs

/-- AC.DEC of one symbol, and what it leaves for the symbols after it. -/
structure DecodesOne (cd : CodingStep) (cs : List CodingStep) (d e : State) : Prop where
  effect : decodeSymbol (d.withTable cd) = .ok e
  result : e.res = cd.sym.setWidth 64
  next : DecoderReady cs e

theorem CodingStep.Codable.updateReady {cd : CodingStep} (h : cd.Codable) {a : AcUnit} (hr : Renormalised a) (hf : a.freq = cd.freq)
    (hn : a.nsym = cd.nsym) : UpdateReady a :=
  ⟨hf ▸ h.canonical, by rw [AcUnit.total, AcUnit.cum, hf, hn]; exact h.totalBound, hr.range⟩

theorem CodingStep.Codable.codes {cd : CodingStep} (h : cd.Codable) {a : AcUnit} (hf : a.freq = cd.freq) (hn : a.nsym = cd.nsym) :
    Codes a cd.sym := ⟨hn ▸ h.inAlphabet, hf ▸ h.hasFrequency⟩

/-- The interval update reads the bounds and the table alone. -/
theorem intervalUpdate_congr {a b : AcUnit} (sym : Sym) (hl : a.low = b.low) (hh : a.high = b.high) (hf : a.freq = b.freq)
    (hn : a.nsym = b.nsym) :
    (intervalUpdate sym a).low = (intervalUpdate sym b).low ∧ (intervalUpdate sym a).high = (intervalUpdate sym b).high := by
  simp only [intervalUpdate, AcUnit.range, AcUnit.total, AcUnit.cum, hl, hh, hf, hn, and_self]

/-- Which states a decoder follows is a matter of the bounds, the coded bits and UF. -/
theorem Follows.congr {c x : Nat} {s t d : State} {tail : List Bool} (h : Follows c s x tail d) (hl : t.ac.low = s.ac.low)
    (hh : t.ac.high = s.ac.high) (hu : t.ac.uf = s.ac.uf) (hb : t.outBitsSoFar = s.outBitsSoFar) : Follows c t x tail d :=
  ⟨h.low.trans hl.symm, h.high.trans hh.symm, h.code, h.toCome, h.inCnt, h.pastEnd, by rw [hb, hu]; exact h.taken⟩

/-- The encoder's state between its interval update and its loop. -/
def updated (sym : Sym) (s : State) : State := s.setAc (intervalUpdate sym { s.ac with dir := .write })

/-- A section count is no part of what the encoder has put out. -/
theorem encoded_outBitsSoFar (sym : Sym) (s : State) : (encoded sym s).outBitsSoFar = (encRenorm 32 (updated sym s)).outBitsSoFar := by
  rw [encoded, countSection_frame]
  rfl

theorem encoded_bounds (sym : Sym) (s : State) : (encoded sym s).ac.low = (encRenorm 32 (updated sym s)).ac.low ∧
    (encoded sym s).ac.high = (encRenorm 32 (updated sym s)).ac.high ∧ (encoded sym s).ac.uf = (encRenorm 32 (updated sym s)).ac.uf := by
  rw [encoded, countSection_frame]
  exact ⟨rfl, rfl, rfl⟩

/-- AC.ENC of a position keeps the encoder going, 32 turns further at most. -/
theorem encoded_encoderReady {c m : Nat} {s : State} {cd : CodingStep} (hs : EncoderReady c m s) (hm : m + 32 < 2 ^ 63)
    (hcd : cd.Codable) : EncoderReady c (m + 32) (encoded cd.sym (s.withTable cd)) := by
  have hr : Renormalised (s.withTable cd).ac := ⟨hs.renormalised.lowTop, hs.renormalised.highTop, hs.renormalised.noUnderflow⟩
  obtain ⟨-, hord, -⟩ := intervalUpdate_inside (a := { (s.withTable cd).ac with dir := .write }) (sym := cd.sym)
    (hcd.updateReady ⟨hr.lowTop, hr.highTop, hr.noUnderflow⟩ rfl rfl) (hcd.codes rfl rfl)
  have hat : EncoderAt c m (updated cd.sym (s.withTable cd)) :=
    ⟨⟨hs.reached.output.bitCnt, hs.reached.output.padded⟩, hs.reached.started, hs.reached.turns⟩
  obtain ⟨hat', -⟩ := encRenorm_unwinds (n := 32) hat hm hord
  have hren := encRenorm_renormalised (s := updated cd.sym (s.withTable cd)) (.all hord)
  have hready : (encoded cd.sym (s.withTable cd)).latch = s.latch := by
    obtain ⟨_, _, _, _, _, _, _, hu⟩ := encoded_loop_frame cd.sym (s.withTable cd)
    rw [encoded, countSection_frame, hu]
    rfl
  refine ⟨by rw [State.ready, hready]; exact hs.ready, by rw [encoded_dir]; decide, ?_, ?_⟩
  · rw [encoded, countSection_frame]
    exact ⟨hren.lowTop, hren.highTop, hren.noUnderflow⟩
  · rw [encoded, countSection_frame]
    exact ⟨⟨hat'.output.bitCnt, hat'.output.padded⟩, hat'.started, hat'.turns⟩

/-- The room for sections after one symbol (41_arith_coder R132, R143). -/
theorem SectionsLeft.after {cd : CodingStep} {cs : List CodingStep} {d e : State} (h : SectionsLeft d.ac (cd :: cs))
    (hterm : e.ac.term = d.ac.term) (hsec : e.ac.sections = d.ac.sections)
    (hother : cd.sym ≠ d.ac.term → e.ac.sectDone = d.ac.sectDone)
    (hcounted : cd.sym = d.ac.term → d.ac.sectDone ≠ BitVec.allOnes 64 → e.ac.sectDone = d.ac.sectDone + 1) :
    SectionsLeft e.ac cs := by
  intro hne
  rw [hterm, hsec]
  refine (h (List.cons_ne_nil _ _)).imp_right fun hlt => ?_
  rw [List.dropLast_cons_of_ne_nil hne, List.map_cons, List.count_cons] at hlt
  by_cases heq : cd.sym = d.ac.term
  · rw [heq, if_pos BEq.rfl] at hlt
    have hsmall := d.ac.sections.isLt
    have hne : d.ac.sectDone ≠ BitVec.allOnes 64 := fun htop => by rw [htop, BitVec.toNat_allOnes] at hlt; omega
    have hsucc : (d.ac.sectDone + 1).toNat = d.ac.sectDone.toNat + 1 :=
      BitVec.toNat_add_of_lt (show d.ac.sectDone.toNat + 1 < 2 ^ 64 by omega)
    rw [hcounted heq hne, hsucc]
    omega
  · rw [if_neg (by simpa using heq)] at hlt
    rw [hother heq]
    exact hlt

/-- The decoder's part of a symbol: beside an encoder whose interval update for that symbol holds its CODE, the lookup finds it. -/
theorem decodesOne_of_renorm {cd : CodingStep} {cs : List CodingStep} {d e : State} (hcd : cd.Codable)
    (hd : DecoderReady (cd :: cs) d) (hr : Renormalised d.ac) (hin : CodeInside (intervalUpdate cd.sym (d.withTable cd).ac))
    (hloop : decRenorm 32 ((d.withTable cd).setAc (intervalUpdate cd.sym (d.withTable cd).ac)) = .ok e) :
    DecodesOne cd cs d (decoded cd.sym e) := by
  obtain ⟨hready, hreading, hsec⟩ := hd
  have hrt : Renormalised (d.withTable cd).ac := ⟨hr.lowTop, hr.highTop, hr.noUnderflow⟩
  have hup := hcd.updateReady hrt rfl rfl
  have hcodes := hcd.codes (a := (d.withTable cd).ac) rfl rfl
  have hlook := lookupSymbol_eq hup hcd.alphabet hcodes hin
  have hpos : 0 < (d.withTable cd).ac.total := by
    have := read_pos hcodes.hasFrequency
    have := cum_add_read_le_total hup.canonical hcodes.inAlphabet
    omega
  have hroom : d.ac.sections = 0 ∨ d.ac.sectDone.toNat < d.ac.sections.toNat :=
    (hsec (List.cons_ne_nil _ _)).imp_right fun h => by omega
  have hwrite : (d.withTable cd).ac.dir ≠ .write := fun h => by cases hreading.symm.trans h
  have heff : decodeSymbol (d.withTable cd) = .ok (decoded cd.sym e) := decodeSymbol_eq_ok_iff.mpr ⟨hwrite, hroom, ⟨hpos, hup.totalBound⟩,
    d.withTable cd, ⟨fun h => (by cases hreading.symm.trans h), fun _ => rfl⟩, (decodePrimed_eq_ok_iff hlook).mpr ⟨e, hloop, rfl⟩⟩
  obtain ⟨hlatch, hdir, hterm, hsections, hdone⟩ : e.latch = d.latch ∧ e.ac.dir = d.ac.dir ∧ e.ac.term = d.ac.term ∧
      e.ac.sections = d.ac.sections ∧ e.ac.sectDone = d.ac.sectDone := by
    obtain ⟨_, _, _, _, _, _, _, _, _, rfl⟩ := decRenorm_decStep hloop
    exact ⟨rfl, rfl, rfl, rfl, rfl⟩
  obtain ⟨hother, hcounted⟩ := countSection_sectDone (sym := cd.sym) (u := e.setRes (cd.sym.setWidth 64)) hterm hdone
  refine ⟨heff, ?_, ⟨?_, ?_, hsec.after ?_ ?_ hother hcounted⟩⟩
  · rw [decoded, countSection_frame]
    rfl
  · rw [decoded, countSection_frame]
    exact (congrArg ErrorLatch.err hlatch).trans hready
  · rw [decoded, countSection_frame]
    exact hdir.trans hreading
  · rw [decoded, countSection_frame]
    exact hterm
  · rw [decoded, countSection_frame]
    exact hsections

/-- The decoder that follows is followed with its result in RES and its sections counted. -/
theorem Follows.decoded {c x : Nat} {s e : State} {tail : List Bool} (h : Follows c s x tail e) (sym : Sym) :
    Follows c s x tail (decoded sym e) := by
  rw [Machine.decoded, countSection_frame]
  exact ⟨h.low, h.high, h.code, h.toCome, h.inCnt, h.pastEnd, h.taken⟩

/-- One symbol, encoder and decoder side by side (41_arith_coder R142). -/
theorem encoded_unwinds {c m : Nat} {s : State} {cd : CodingStep} (cs : List CodingStep) (hs : EncoderReady c m s)
    (hm : m + 32 < 2 ^ 63) (hcd : cd.Codable) :
    Unwinds c s (encoded cd.sym (s.withTable cd)) (DecoderReady (cd :: cs)) (DecodesOne cd cs) := by
  have hr : Renormalised { (s.withTable cd).ac with dir := .write } :=
    ⟨hs.renormalised.lowTop, hs.renormalised.highTop, hs.renormalised.noUnderflow⟩
  obtain ⟨hlow, hord, hhigh⟩ := intervalUpdate_inside (sym := cd.sym) (hcd.updateReady hr rfl rfl) (hcd.codes rfl rfl)
  have hat : EncoderAt c m (updated cd.sym (s.withTable cd)) :=
    ⟨⟨hs.reached.output.bitCnt, hs.reached.output.padded⟩, hs.reached.started, hs.reached.turns⟩
  obtain ⟨-, new, hnew, hback⟩ := encRenorm_unwinds (n := 32) hat hm hord
  obtain ⟨hel, heh, heu⟩ := encoded_bounds cd.sym (s.withTable cd)
  have hebits := encoded_outBitsSoFar cd.sym (s.withTable cd)
  refine ⟨new, hebits.trans hnew, fun x bits tail hin => ?_⟩
  obtain ⟨y, tail', hiny, hgo⟩ := hback x bits tail ⟨heu ▸ hin.window, hel ▸ hin.low_le, heh ▸ hin.le_high⟩
  refine ⟨y, tail', ⟨hiny.window, hlow.trans hiny.low_le, hiny.le_high.trans hhigh⟩, fun d hd hf => ?_⟩
  obtain ⟨hdl, hdh⟩ := intervalUpdate_congr (a := (d.withTable cd).ac) (b := { (s.withTable cd).ac with dir := .write }) cd.sym
    hf.low hf.high rfl rfl
  have hfu : Follows c (updated cd.sym (s.withTable cd)) y tail'
      ((d.withTable cd).setAc (intervalUpdate cd.sym (d.withTable cd).ac)) :=
    ⟨hdl, hdh, hf.code, hf.toCome, hf.inCnt, hf.pastEnd, hf.taken⟩
  obtain ⟨e, hloop, hfe⟩ := hgo _ trivial hfu
  have hrd : Renormalised d.ac := ⟨by rw [hf.low]; exact hr.lowTop, by rw [hf.high]; exact hr.highTop,
    by rw [hf.low, hf.high]; exact hr.noUnderflow⟩
  exact ⟨decoded cd.sym e, decodesOne_of_renorm hcd hd hrd (hfu.codeInside hiny) hloop, (hfe.congr hel heh heu hebits).decoded cd.sym⟩

/-! ### The symbols of a stream -/

/-- AC.DEC at each position gives its symbol. -/
inductive DecodesAll : List CodingStep → State → State → Prop
  | nil (d : State) : DecodesAll [] d d
  | cons {cd : CodingStep} {cs : List CodingStep} {d e f : State} :
    DecodesOne cd cs d e → DecodesAll cs e f → DecodesAll (cd :: cs) d f

theorem decodeStream_cons {cd : CodingStep} {cs : List CodingStep} {d e f : State} {rs : List Word64} (hd : d.ready)
    (he : decodeSymbol (d.withTable cd) = .ok e) (hf : decodeStream cs e = some (rs, f)) :
    decodeStream (cd :: cs) d = some (e.res :: rs, f) := by
  have hexec : exec .acDec (d.withTable cd) = .next e := exec_of_effect_ok (i := .acDec) (s := d.withTable cd) hd he
  simp only [decodeStream, hexec, hf]

theorem decodeStream_of_decodesAll {cs : List CodingStep} {d e : State} (h : DecodesAll cs d e) (hd : d.ready) :
    decodeStream cs d = some (cs.map fun c => c.sym.setWidth 64, e) ∧ e.ready := by
  induction h with
  | nil d => exact ⟨rfl, hd⟩
  | cons hone _ ih =>
    obtain ⟨hall, hready⟩ := ih hone.next.ready
    refine ⟨?_, hready⟩
    rw [decodeStream_cons hd hone.effect hall, hone.result, List.map_cons]

theorem encodeStream_cons {cd : CodingStep} (cs : List CodingStep) {c m : Nat} {s : State} (hs : EncoderReady c m s) (hcd : cd.Codable) :
    encodeStream (cd :: cs) s = encodeStream cs (encoded cd.sym (s.withTable cd)) := by
  have heff : encodeSymbol cd.sym (s.withTable cd) = .ok (encoded cd.sym (s.withTable cd)) :=
    encodeSymbol_eq_ok_iff.mpr ⟨hs.notReading, hcd.codes rfl rfl, hcd.totalBound, rfl⟩
  have hexec : exec (.acEnc cd.sym) (s.withTable cd) = .next (encoded cd.sym (s.withTable cd)) :=
    exec_of_effect_ok (i := .acEnc cd.sym) (s := s.withTable cd) hs.ready heff
  simp only [encodeStream, hexec]

/-- The symbols of a stream, encoder and decoder side by side (41_arith_coder R142). -/
theorem encodeStream_unwinds {cs : List CodingStep} (hcs : ∀ cd ∈ cs, cd.Codable) {c m : Nat} {s : State} (hs : EncoderReady c m s)
    (hm : m + 32 * cs.length < 2 ^ 63) : ∃ t, encodeStream cs s = some t ∧ EncoderReady c (m + 32 * cs.length) t ∧
      Unwinds c s t (DecoderReady cs) (DecodesAll cs) := by
  induction cs generalizing m s with
  | nil => exact ⟨s, rfl, hs, .refl c s fun d _ => .nil d⟩
  | cons cd cs ih =>
    rw [List.length_cons] at hm ⊢
    have hcd := hcs cd List.mem_cons_self
    obtain ⟨t, ht, htready, hunw⟩ := ih (fun cd' h => hcs cd' (List.mem_cons_of_mem _ h))
      (encoded_encoderReady hs (by omega) hcd) (by omega)
    have hcount : m + 32 + 32 * cs.length = m + 32 * (cs.length + 1) := by ring
    refine ⟨t, (encodeStream_cons cs hs hcd).trans ht, hcount ▸ htready, ?_⟩
    exact (encoded_unwinds cs hs (by omega) hcd).trans hunw (fun _ _ _ hone => hone.next) fun _ _ _ hone hall => .cons hone hall

end Sys2Proof.Machine
end

section
/-! From AC.INIT to AC.FLUSH and back: the round trip and the counters after it (41_arith_coder R124, R133, R134, R141 to R143). -/

namespace Sys2Proof.Machine

/-! ### The start -/

/-- The state after AC.INIT (41_arith_coder R124). -/
def started (s : State) : State := s.setAc s.ac.init

theorem exec_acInit {s : State} (hs : s.ready) : exec .acInit s = .next (started s) := exec_of_effect_ok (i := .acInit) hs rfl

theorem started_outBitsSoFar (s : State) : (started s).outBitsSoFar = s.out.flatMap byteBits := List.append_nil _

theorem started_inBitsLeft (s : State) : (started s).inBitsLeft = s.inp.flatMap byteBits := rfl

theorem started_renormalised (s : State) : Renormalised (started s).ac := .of_start rfl rfl

theorem started_encoderReady {s : State} (hs : s.ready) : EncoderReady (s.out.flatMap byteBits).length 0 (started s) where
  ready := hs
  notReading := by simp [started, AcUnit.init]
  renormalised := started_renormalised s
  reached := ⟨⟨Nat.zero_le _, fun _ _ => BitVec.getLsbD_zero⟩, by rw [started_outBitsSoFar], by rw [started_outBitsSoFar]; rfl⟩

/-! ### The end -/

/-- After AC.FLUSH the window lies inside the interval, whatever comes behind, if 30 bits do (41_arith_coder R133). -/
theorem inside_flush {s : State} (hr : Renormalised s.ac) {rest : List Bool} (hrest : 30 ≤ rest.length) : ∃ x tail, Inside s x
    (s.ac.low.getLsbD 30 :: (List.replicate (s.ac.uf.toNat + 1) (!s.ac.low.getLsbD 30) ++ rest)) tail := by
  have hlen : (rest.take 30).length = 30 := by rw [List.length_take]; omega
  have hz := bitsValue_lt (rest.take 30)
  rw [hlen] at hz
  have hvalue : ∀ b : Bool, bitsValue (b :: (!b) :: rest.take 30) =
      b.toNat * 2 ^ 31 + ((!b).toNat * 2 ^ 30 + bitsValue (rest.take 30)) := by
    intro b
    rw [bitsValue_cons, bitsValue_cons, List.length_cons, hlen]
  have hb := getLsbD_eq_decide_div s.ac.low 30
  rw [renormalised_iff] at hr
  refine ⟨bitsValue (s.ac.low.getLsbD 30 :: (!s.ac.low.getLsbD 30) :: rest.take 30), rest.drop 30,
    ⟨_, _ :: rest.take 30, by rw [List.length_cons, hlen], ?_, rfl⟩, ?_, ?_⟩
  · rw [List.replicate_succ', List.append_assoc, List.singleton_append, List.cons_append, List.take_append_drop]
  · rw [hvalue]
    cases h : s.ac.low.getLsbD 30
    · rw [h, eq_comm, decide_eq_false_iff_not] at hb
      simp only [Bool.not_false, Bool.toNat_true, Bool.toNat_false]
      omega
    · simp only [Bool.not_true, Bool.toNat_true, Bool.toNat_false]
      omega
  · rw [hvalue]
    cases h : s.ac.low.getLsbD 30
    · simp only [Bool.not_false, Bool.toNat_true, Bool.toNat_false]
      omega
    · rw [h, eq_comm, decide_eq_true_iff] at hb
      simp only [Bool.not_true, Bool.toNat_true, Bool.toNat_false]
      omega

/-! ### Priming beside the encoder's start -/

/-- The window with no pending bit is the first 32 bits. -/
theorem Window.of_no_pending {x : Nat} {bits tail : List Bool} (h : Window 0 x bits tail) :
    32 ≤ bits.length ∧ x = bitsValue (bits.take 32) ∧ tail = bits.drop 32 := by
  obtain ⟨b, mid, hlen, rfl, rfl⟩ := h
  have htake : (mid ++ tail).take 31 = mid := List.take_left' hlen
  have hdrop : (mid ++ tail).drop 31 = tail := List.drop_left' hlen
  refine ⟨?_, ?_, hdrop.symm⟩
  · simp only [List.replicate_zero, List.nil_append, List.length_cons, List.length_append]
    omega
  · simp only [List.replicate_zero, List.nil_append, List.take_succ_cons, htake]

/-- A decoder that starts on the encoder's bits is, once primed, beside the encoder's start (41_arith_coder R138). -/
theorem prime_follows {s d : State} {y : Nat} {tail : List Bool} (hin : Inside (started s) y d.bitsToCome tail)
    (hd : d.ac.inCnt = 0 ∧ d.ac.pastEnd = 0 ∧ d.ac.inPos = 0) (hb : d.ac.low = 0 ∧ d.ac.high = 0xFFFFFFFF) :
    ∃ p, prime d = .ok p ∧ InStep (d.setAc { d.ac with dir := .read }) p ∧ p.ac.dir = .read ∧
      Follows (s.out.flatMap byteBits).length (started s) y tail p := by
  obtain ⟨hcnt, hpast, hpos⟩ := hd
  obtain ⟨hlen, hy, htail⟩ := hin.window.of_no_pending
  have hready : InputReady d := ⟨by omega, by omega⟩
  obtain ⟨p, hp, htaken, hdir, hstep, hcode⟩ := prime_of_available hready (hlen.trans bitsToCome_le_bitsAvailable)
  obtain ⟨hcome, hpastp, hnext⟩ := htaken.bitsToCome (by omega) hlen
  have hposition := htaken.position (by rw [hpos]; decide)
  have hzero : d.ac.inPos.toNat = 0 := by rw [hpos]; rfl
  refine ⟨p, hp, hstep, hdir, ?_⟩
  obtain ⟨hpl, hph⟩ : p.ac.low = d.ac.low ∧ p.ac.high = d.ac.high := by
    obtain ⟨_, _, _, _, _, _, _, rfl⟩ := hstep
    exact ⟨rfl, rfl⟩
  have huf : (started s).ac.uf.toNat = 0 := rfl
  refine ⟨hpl.trans hb.1, hph.trans hb.2, by rw [hcode, hnext, hy], by rw [hcome, htail], htaken.inCnt, hpastp, ?_⟩
  rw [started_outBitsSoFar, huf]
  omega

/-- AC.DEC from IDLE is AC.DEC of the primed window. -/
theorem decodeSymbol_of_primed {d p t : State} (hd : d.ac.dir = .idle) (hp : prime d = .ok p) (hread : p.ac.dir = .read)
    (hstep : InStep (d.setAc { d.ac with dir := .read }) p) (h : decodeSymbol p = .ok t) : decodeSymbol d = .ok t := by
  obtain ⟨-, hsec, htot, q, hq, hdec⟩ := decodeSymbol_eq_ok_iff.mp h
  rw [hq.read hread] at hdec
  have hkept : p.ac.sections = d.ac.sections ∧ p.ac.sectDone = d.ac.sectDone ∧ p.ac.total = d.ac.total := by
    obtain ⟨_, _, _, _, _, _, _, rfl⟩ := hstep
    exact ⟨rfl, rfl, rfl⟩
  obtain ⟨hs, hdone, ht⟩ := hkept
  rw [hs, hdone] at hsec
  rw [ht] at htot
  exact decodeSymbol_eq_ok_iff.mpr ⟨by rw [hd]; decide, hsec, htot, p, ⟨fun _ => hp, fun hr => by cases hd.symm.trans hr⟩, hdec⟩

theorem primed_withTable {d p : State} {cd : CodingStep}
    (hstep : InStep ((d.withTable cd).setAc { (d.withTable cd).ac with dir := .read }) p) :
    p.withTable cd = p := by
  obtain ⟨_, _, _, _, _, _, _, rfl⟩ := hstep
  rfl

/-- A decoder that starts, with the limit of sections of its configuration. -/
theorem started_sectionsLeft {u : State} {cs : List CodingStep} (h : sectionsSuffice u.ac cs) : SectionsLeft (started u).ac cs := by
  intro _
  exact h.imp_right fun hlt => (Nat.zero_add _).trans_lt hlt

/-- The symbols of a stream decoded from AC.INIT on, with the decoder's counters beside the encoder's end (41_arith_coder R138, R142). -/
theorem decodeStream_of_unwinds {cs : List CodingStep} (hne : cs ≠ []) {s t u : State} {new bits tail : List Bool} {x : Nat}
    (hnew : t.outBitsSoFar = (started s).outBitsSoFar ++ new) (hu : u.ready) (hsec : sectionsSuffice u.ac cs)
    (hunw : Unwinds (s.out.flatMap byteBits).length (started s) t (DecoderReady cs) (DecodesAll cs))
    (hin : Inside t x bits tail) (hbits : (started u).bitsToCome = new ++ bits) :
    ∃ d, decodeStream cs (started u) = some (cs.map fun c => c.sym.setWidth 64, d) ∧ d.ready ∧
      Follows (s.out.flatMap byteBits).length t x tail d := by
  obtain ⟨new', hnew', hback⟩ := hunw
  obtain rfl : new' = new := List.append_cancel_left (hnew'.symm.trans hnew)
  obtain ⟨y, tail', hiny, hgo⟩ := hback x bits tail hin
  obtain ⟨cd, cs, rfl⟩ := List.exists_cons_of_ne_nil hne
  have hiny' : Inside (started s) y ((started u).withTable cd).bitsToCome tail' := hbits.symm ▸ hiny
  obtain ⟨p, hp, hstep, hread, hfollows⟩ := prime_follows hiny' ⟨rfl, rfl, rfl⟩ ⟨rfl, rfl⟩
  have htable := primed_withTable hstep
  have hready : DecoderReady (cd :: cs) p := by
    have hleft := started_sectionsLeft hsec
    obtain ⟨_, _, _, _, _, _, _, rfl⟩ := hstep
    exact ⟨hu, rfl, hleft⟩
  obtain ⟨d, hall, hfd⟩ := hgo p hready hfollows
  cases hall with
  | cons hone hall =>
    obtain ⟨hrest, hdready⟩ := decodeStream_of_decodesAll hall hone.next.ready
    have hfirst := hone.effect
    rw [htable] at hfirst
    refine ⟨d, ?_, hdready, hfd⟩
    rw [decodeStream_cons (d := started u) hu (decodeSymbol_of_primed rfl hp hread hstep hfirst) hrest, hone.result, List.map_cons]

/-! ### The round trip -/

theorem flatMap_byteBits_length (bs : List Byte) : (bs.flatMap byteBits).length = 8 * bs.length := by
  have hbyte : ∀ b : Byte, (byteBits b).length = 8 := fun b => by simp [byteBits]
  induction bs with
  | nil => rfl
  | cons b bs ih =>
    rw [List.flatMap_cons, List.length_append, hbyte, ih, List.length_cons]
    ring

/-- What a decoder's counters say at the end of a stream of `bytes` (41_arith_coder R141). -/
structure CountersAtEnd (d : State) (bytes : List Byte) : Prop where
  length : (8 * d.ac.inPos.toNat + d.ac.pastEnd + 7 - d.ac.inCnt - 30) / 8 = bytes.length
  pastEnd : d.ac.pastEnd ≤ 30
  position : d.ac.inPos.toNat ≤ bytes.length + 4

/-- A decoder beside the end of the encoding has taken the stream's bits but for the padding, and 30 more. -/
theorem Follows.countersAtEnd {c x pad n : Nat} {t d : State} {tail : List Bool} {bytes : List Byte} (h : Follows c t x tail d)
    (hn : n = t.outBitsSoFar.length + t.ac.uf.toNat) (hlen : c + 8 * bytes.length = n + 2 + pad) (hpad : pad < 8) :
    CountersAtEnd d bytes := by
  have := h.taken
  have := h.inCnt
  have := h.pastEnd
  exact ⟨by omega, by omega, by omega⟩

/-- AC.ENC of a stream adds bytes at the end of OUT (20_memory R74). -/
theorem encodeStream_out {cs : List CodingStep} {s t : State} (h : encodeStream cs s = some t) : ∃ added, t.out = s.out ++ added := by
  induction cs generalizing s with
  | nil => cases h; exact ⟨[], (List.append_nil _).symm⟩
  | cons cd cs ih =>
    unfold encodeStream at h
    split at h
    · rename_i e he
      obtain ⟨-, ⟨first, hfirst⟩, -⟩ := portsMoveForward _ _ _ he
      obtain ⟨rest, hrest⟩ := ih h
      exact ⟨first ++ rest, by rw [hrest, hfirst, List.append_assoc]; rfl⟩
    · cases h
    · cases h

/-- The bits of a whole stream: those of its symbols, then those of AC.FLUSH (41_arith_coder R133, R134). -/
theorem stream_bits {c m : Nat} {s t : State} {new : List Bool} {bytes : List Byte} (ht : EncoderReady c m t)
    (hnew : t.outBitsSoFar = s.out.flatMap byteBits ++ new) (hbytes : (flushed t).out = s.out ++ bytes) :
    ∃ pad < 8, bytes.flatMap byteBits = new ++ (t.ac.low.getLsbD 30 ::
      (List.replicate (t.ac.uf.toNat + 1) (!t.ac.low.getLsbD 30) ++ List.replicate pad false)) := by
  obtain ⟨pad, hpad, hbits⟩ := flushed_bits ht.reached.output
  refine ⟨pad, hpad, List.append_cancel_left (as := s.out.flatMap byteBits) ?_⟩
  rw [← List.flatMap_append, ← hbytes, hbits, hnew]
  simp only [List.append_assoc, List.cons_append, List.nil_append]

/-- The round trip, with all its states and the counters at its end (41_arith_coder R134, R141, R142). -/
theorem stream_round_trip {cs : List CodingStep} {s u : State} (suffix : List Byte) (hs : s.ready) (hu : u.ready)
    (hcs : ∀ c ∈ cs, c.Codable) (hlen : cs.length < 2 ^ 58) (hsec : sectionsSuffice u.ac cs) :
    ∃ (s1 d : State) (bytes : List Byte), encodeStream cs (started s) = some s1 ∧ exec .acFlush s1 = .next (flushed s1) ∧
      (flushed s1).out = s.out ++ bytes ∧
      decodeStream cs (started (u.setInp (bytes ++ suffix))) = some (cs.map fun c => c.sym.setWidth 64, d) ∧ d.ready ∧
      (cs ≠ [] → CountersAtEnd d bytes) := by
  obtain ⟨t, henc, hready, hunw⟩ := encodeStream_unwinds hcs (started_encoderReady hs) (by omega)
  have hflush : flushCoder t = .ok (flushed t) := flushCoder_eq_ok_iff.mpr ⟨hready.notReading, rfl⟩
  obtain ⟨coded, hcoded⟩ := encodeStream_out henc
  obtain ⟨last, hlast⟩ := (flushCoder_appendsToOut hflush).out
  have hbytes : (flushed t).out = s.out ++ (coded ++ last) := by rw [hlast, hcoded, List.append_assoc]; rfl
  refine ⟨t, ?_⟩
  by_cases hne : cs = []
  · subst hne
    exact ⟨_, coded ++ last, henc, exec_of_effect_ok (i := .acFlush) hready.ready hflush, hbytes, rfl, hu, fun h => absurd rfl h⟩
  · have ⟨new, hnew, _⟩ := hunw
    obtain ⟨pad, hpad, hstream⟩ := stream_bits hready (started_outBitsSoFar s ▸ hnew) hbytes
    obtain ⟨x, tail, hin⟩ := inside_flush hready.renormalised
      (rest := List.replicate pad false ++ suffix.flatMap byteBits ++ List.replicate 30 false)
      (by rw [List.length_append, List.length_replicate]; omega)
    have hcome : (started (u.setInp ((coded ++ last) ++ suffix))).bitsToCome = new ++ (t.ac.low.getLsbD 30 ::
        (List.replicate (t.ac.uf.toNat + 1) (!t.ac.low.getLsbD 30) ++
          (List.replicate pad false ++ suffix.flatMap byteBits ++ List.replicate 30 false))) := by
      rw [State.bitsToCome, started_inBitsLeft, State.setInp_inp, List.flatMap_append, hstream]
      simp only [List.append_assoc, List.cons_append]
      rfl
    obtain ⟨d, hdec, hd, hfollows⟩ := decodeStream_of_unwinds (u := u.setInp ((coded ++ last) ++ suffix)) hne hnew hu hsec hunw hin hcome
    refine ⟨d, coded ++ last, henc, exec_of_effect_ok (i := .acFlush) hready.ready hflush, hbytes, hdec, hd, fun _ => ?_⟩
    refine hfollows.countersAtEnd (pad := pad) rfl ?_ hpad
    have hcount := congrArg List.length hstream
    rw [flatMap_byteBits_length] at hcount
    rw [hnew, started_outBitsSoFar, hcount]
    simp only [List.length_append, List.length_cons, List.length_replicate]
    omega

/-- Settles O36, with AC.INIT on both sides. -/
theorem coderRoundTrip : Obligations.CoderRoundTrip := by
  unfold Obligations.CoderRoundTrip
  intro cs s u suffix hs hu hcs hlen hsec
  obtain ⟨s1, d, bytes, henc, hflush, hbytes, hdec, hd, -⟩ := stream_round_trip suffix hs hu hcs hlen hsec
  exact ⟨started s, s1, flushed s1, started (u.setInp (bytes ++ suffix)), d, bytes, exec_acInit hs, henc, hflush, hbytes,
    exec_acInit hu, hdec, hd⟩

/-- Settles O37: the states are those of the round trip, since every command answers one next state. -/
theorem countersGiveStreamLength : Obligations.CountersGiveStreamLength := by
  unfold Obligations.CountersGiveStreamLength
  intro cs s u suffix s0 s1 e u0 d bytes rs hs hu hcs hne hlen hsec hinit henc hflush hbytes hinit' hdec
  obtain ⟨s1', d', bytes', henc', hflush', hbytes', hdec', -, hcounters⟩ := stream_round_trip suffix hs hu hcs hlen hsec
  cases (exec_acInit hs).symm.trans hinit
  cases henc'.symm.trans henc
  cases hflush'.symm.trans hflush
  obtain rfl : bytes' = bytes := List.append_cancel_left (hbytes'.symm.trans hbytes)
  cases (exec_acInit (s := u.setInp (bytes' ++ suffix)) hu).symm.trans hinit'
  cases hdec'.symm.trans hdec
  obtain ⟨hlength, hpast, hposition⟩ := hcounters hne
  exact ⟨hlength, hpast, hposition⟩

end Sys2Proof.Machine
end

section
/-! Quantised frequencies, varints and the side channel (42_freq_table R161 to R164). -/

namespace Sys2Proof.Machine

/-! ### Quantisation -/

theorem quant_of_lt {f : Nat} (h : f < 31) : quant f = f := if_pos h

theorem quant_of_ge {f : Nat} (h : 31 ≤ f) : quant f = 31 := if_neg (Nat.not_lt.mpr h)

theorem quant_le (f : Nat) : quant f ≤ 31 := by
  rcases Nat.lt_or_ge f 31 with h | h
  · rw [quant_of_lt h]
    exact Nat.le_of_lt h
  · rw [quant_of_ge h]

theorem adjust_of_lt {f : Nat} (h : f < 31) : adjust f = f := if_pos h

theorem adjust_of_ge {f : Nat} (h : 31 ≤ f) : adjust f = f / 31 * 31 := if_neg (Nat.not_lt.mpr h)

/-- Adjusting rounds down to a multiple of the ceiling, and no further than to the ceiling (42_freq_table R161). -/
theorem le_adjust {f : Nat} (h : 31 ≤ f) : 31 ≤ adjust f := by
  rw [adjust_of_ge h]
  omega

theorem adjust_eq_self_iff (f : Nat) : adjust f = f ↔ f < 31 ∨ 31 ∣ f := by
  rcases Nat.lt_or_ge f 31 with h | h
  · simp [adjust_of_lt h, h]
  · rw [adjust_of_ge h, or_iff_right (Nat.not_lt.mpr h)]
    exact ⟨Dvd.intro_left _, Nat.div_mul_cancel⟩

theorem adjust_adjust (f : Nat) : adjust (adjust f) = adjust f := by
  rw [adjust_eq_self_iff]
  rcases Nat.lt_or_ge f 31 with h | h
  · rw [adjust_of_lt h]
    exact .inl h
  · rw [adjust_of_ge h]
    exact .inr (Nat.dvd_mul_left _ _)

theorem expand_of_lt {q : Nat} (h : q < 31) (v : Nat) : expand q v = q := if_pos h

theorem expand_ceil (v : Nat) : expand 31 v = (v + 1) * 31 := if_neg (Nat.lt_irrefl 31)

/-- The symbol and the side value give the adjusted frequency back (42_freq_table R161). -/
theorem expand_quant_side (f : Nat) : expand (quant f) (side f) = adjust f := by
  rcases Nat.lt_or_ge f 31 with h | h
  · rw [quant_of_lt h, expand_of_lt h, adjust_of_lt h]
  · have hq : 1 ≤ f / 31 := (Nat.one_le_div_iff (by decide)).mpr h
    have hside : side f + 1 = f / 31 := Nat.sub_add_cancel hq
    rw [quant_of_ge h, expand_ceil, hside, adjust_of_ge h]

/-- Settles O57: below the ceiling everything is the identity; from it on, whole multiples of the ceiling. -/
theorem quantisationLaws : Obligations.QuantisationLaws := by
  unfold Obligations.QuantisationLaws
  refine ⟨fun f => ⟨fun h => ⟨quant_of_lt h, adjust_of_lt h⟩, fun h => ⟨quant_of_ge h, rfl, adjust_of_ge h, le_adjust h⟩,
    expand_quant_side f, adjust_adjust f, adjust_eq_self_iff f⟩, fun q v => ⟨fun h => expand_of_lt h v, ?_⟩, by decide⟩
  rintro rfl
  exact expand_ceil v

/-! ### Varints -/

/-- A varint that its bytes suffice for is read back, whatever follows (42_freq_table R163). -/
theorem readVarint_varintFuel {fuel v : Nat} (h : v < fuel) (rest : List Byte) :
    readVarint (varintFuel fuel v ++ rest) = some (v, rest) := by
  induction fuel generalizing v with
  | zero => omega
  | succ fuel ih =>
    unfold varintFuel
    split_ifs with hv
    · have hval : (BitVec.ofNat 8 v).toNat = v := by rw [BitVec.toNat_ofNat]; omega
      have hlast : (BitVec.ofNat 8 v).getLsbD 7 = false := by
        rw [BitVec.getLsbD, hval]
        exact Nat.testBit_lt_two_pow hv
      simp only [List.cons_append, List.nil_append, readVarint, hlast, Bool.false_eq_true, if_false, hval]
    · have hval : (BitVec.ofNat 8 (v % 128 + 128)).toNat = v % 128 + 128 := by rw [BitVec.toNat_ofNat]; omega
      have hmore : (BitVec.ofNat 8 (v % 128 + 128)).getLsbD 7 = true := by
        rw [BitVec.getLsbD, hval, Nat.testBit_eq_decide_div_mod_eq]
        simp only [decide_eq_true_eq]
        omega
      have hparts : v % 128 + 128 - 128 + 128 * (v / 128) = v := by omega
      simp only [List.cons_append, readVarint, hmore, if_true, ih (show v / 128 < fuel by omega), hval, hparts]

theorem readVarint_varint (v : Nat) (rest : List Byte) : readVarint (varint v ++ rest) = some (v, rest) :=
  readVarint_varintFuel (Nat.lt_succ_self v) rest

/-! ### The side channel -/

theorem sideChannel_cons_of_lt {n : Nat} (h : n < 31) (f : List Nat) : sideChannel (n :: f) = sideChannel f := by
  have hn : ¬Config.freqCeil ≤ n := Nat.not_le.mpr h
  simp [sideChannel, hn]

theorem sideChannel_cons_of_ge {n : Nat} (h : 31 ≤ n) (f : List Nat) : sideChannel (n :: f) = varint (side n) ++ sideChannel f := by
  have hn : Config.freqCeil ≤ n := h
  simp [sideChannel, hn]

theorem expandAll_cons_of_lt {q : Nat} (h : q < 31) {qs gs : List Nat} {bytes rest : List Byte}
    (hqs : expandAll qs bytes = some (gs, rest)) : expandAll (q :: qs) bytes = some (q :: gs, rest) := by
  have hq : q < Config.freqCeil := h
  simp only [expandAll, if_pos hq, hqs]

theorem expandAll_cons_ceil {v : Nat} {qs gs : List Nat} {bytes more rest : List Byte} (hv : readVarint bytes = some (v, more))
    (hqs : expandAll qs more = some (gs, rest)) : expandAll (31 :: qs) bytes = some (expand 31 v :: gs, rest) := by
  have hq : ¬31 < Config.freqCeil := Nat.lt_irrefl 31
  simp only [expandAll, if_neg hq, hv, hqs]

/-- The symbols of an array and its side channel give the adjusted array, and leave what follows (42_freq_table R164, R165). -/
theorem expandAll_sideChannel (f : List Nat) (suffix : List Byte) :
    expandAll (f.map quant) (sideChannel f ++ suffix) = some (f.map adjust, suffix) := by
  induction f with
  | nil => rfl
  | cons n f ih =>
    rw [List.map_cons, List.map_cons]
    rcases Nat.lt_or_ge n 31 with h | h
    · rw [sideChannel_cons_of_lt h, quant_of_lt h, adjust_of_lt h]
      exact expandAll_cons_of_lt h ih
    · rw [sideChannel_cons_of_ge h, List.append_assoc, ← expand_quant_side, quant_of_ge h]
      exact expandAll_cons_ceil (readVarint_varint _ _) ih

end Sys2Proof.Machine
end

section
/-! AC.DEC reads FREQ below NSYM only: two tables that agree there decode alike (41_arith_coder R121, R137, R138). -/

namespace Sys2Proof.Machine

/-! ### Tables that agree below NSYM -/

/-- Two canonical tables for the same alphabet with the same frequencies; entries from NSYM on may differ (10_state R46, R47). -/
structure SameTable (c c' : CodingStep) : Prop where
  canonical : c.freq.wf
  canonical' : c'.freq.wf
  nsym : c'.nsym = c.nsym
  reads : ∀ k < c.nsym.toNat, c'.freq.read k = c.freq.read k

section
variable {c c' : CodingStep} (h : SameTable c c')
include h

theorem SameTable.sumBelow {k : Nat} (hk : k ≤ c.nsym.toNat) : c'.freq.sumBelow k = c.freq.sumBelow k := by
  rw [Memory.sumBelow_eq_sum h.canonical, Memory.sumBelow_eq_sum h.canonical']
  exact Finset.sum_congr rfl fun i hi => by rw [h.reads i ((Finset.mem_range.mp hi).trans_le hk)]

theorem SameTable.total (s : State) : (s.withTable c').ac.total = (s.withTable c).ac.total := by
  have hnsym : (s.withTable c').ac.total = c'.freq.sumBelow c.nsym.toNat := congrArg (fun n : BitVec 17 => c'.freq.sumBelow n.toNat) h.nsym
  exact hnsym.trans (h.sumBelow (Nat.le_refl _))

/-- The interval update of a symbol of the alphabet reads the frequencies below NSYM (41_arith_coder R122). -/
theorem SameTable.setAc_intervalUpdate {sym : Sym} (hsym : sym.toNat < c.nsym.toNat) (s : State) :
    (s.withTable c').setAc (intervalUpdate sym (s.withTable c').ac) =
      ((s.withTable c).setAc (intervalUpdate sym (s.withTable c).ac)).withTable c' := by
  have hcum : (s.withTable c').ac.cum sym.toNat = (s.withTable c).ac.cum sym.toNat := h.sumBelow (Nat.le_of_lt hsym)
  have hread : (s.withTable c').ac.freq.read sym.toNat = (s.withTable c).ac.freq.read sym.toNat := h.reads _ hsym
  simp only [intervalUpdate, hcum, hread, h.total s]
  rfl

theorem SameTable.updateReady {s : State} (ha : UpdateReady (s.withTable c).ac) : UpdateReady (s.withTable c').ac :=
  ⟨h.canonical', (h.total s).trans_le ha.totalBound, ha.rangeBound⟩

theorem SameTable.codes {s : State} {sym : Sym} (hsym : Codes (s.withTable c).ac sym) : Codes (s.withTable c').ac sym :=
  ⟨hsym.inAlphabet.trans_eq (congrArg BitVec.toNat h.nsym.symm), (h.reads _ hsym.inAlphabet).trans_ne hsym.hasFrequency⟩

end

/-! ### What does not read the table

An operation that does not read NSYM or FREQ gives the same under every table: it may be done before the table is replaced or after. -/

theorem inBit_withTable (c : CodingStep) (s : State) : inBit (s.withTable c) = (inBit s).map fun r => (r.1, r.2.withTable c) := by
  have hcnt : (s.withTable c).ac.inCnt = s.ac.inCnt := rfl
  have hinp : (s.withTable c).inp = s.inp := rfl
  have hpast : (s.withTable c).ac.pastEnd = s.ac.pastEnd := rfl
  rcases inBit_cases s with ⟨hc, hk⟩ | ⟨hc, b, rest, hi, hk⟩ | ⟨hc, hi, hp, hk⟩ | ⟨hc, hi, hp, hk⟩ <;> rw [hk]
  · simp only [inBit, hcnt, if_neg hc]
    rfl
  · simp only [inBit, hcnt, hinp, hc, hi, if_true]
    rfl
  · simp only [inBit, hcnt, hinp, hpast, hc, hi, if_true, if_neg hp]
    rfl
  · simp only [inBit, hcnt, hinp, hpast, hc, hi, if_true, if_pos hp]
    rfl

theorem shiftInCode_withTable (c : CodingStep) (v : Word32) (s : State) :
    shiftInCode v (s.withTable c) = (shiftInCode v s).map (·.withTable c) := by
  simp only [shiftInCode, inBit_withTable]
  cases inBit s <;> rfl

theorem shiftInBits_withTable (c : CodingStep) (n : Nat) (s : State) :
    shiftInBits n (s.withTable c) = (shiftInBits n s).map (·.withTable c) := by
  induction n generalizing s with
  | zero => rfl
  | succ n ih =>
    have hturn : shiftInCode (s.withTable c).ac.code (s.withTable c) = _ := shiftInCode_withTable c s.ac.code s
    simp only [shiftInBits, hturn]
    cases shiftInCode s.ac.code s with
    | error e => rfl
    | ok t => exact ih t

theorem prime_withTable (c : CodingStep) (s : State) : prime (s.withTable c) = (prime s).map (·.withTable c) := by
  have hbits := shiftInBits_withTable c 32 (s.setAc { s.ac with code := 0 })
  have hclear : (s.withTable c).setAc { (s.withTable c).ac with code := 0 } = (s.setAc { s.ac with code := 0 }).withTable c := rfl
  simp only [prime, hclear, hbits]
  cases shiftInBits 32 (s.setAc { s.ac with code := 0 }) <;> rfl

theorem decRenorm_withTable (c : CodingStep) (n : Nat) (s : State) :
    decRenorm n (s.withTable c) = (decRenorm n s).map (·.withTable c) := by
  induction n generalizing s with
  | zero => rfl
  | succ n ih =>
    have htop : shiftInCode (s.withTable c).ac.code ((s.withTable c).setAc (topShift (s.withTable c).ac)) = _ :=
      shiftInCode_withTable c s.ac.code (s.setAc (topShift s.ac))
    have hunder : shiftInCode ((s.withTable c).ac.code ^^^ 0x40000000)
        ((s.withTable c).setAc (underflowShift (s.withTable c).ac)) = _ :=
      shiftInCode_withTable c (s.ac.code ^^^ 0x40000000) (s.setAc (underflowShift s.ac))
    have hagree : topBitsAgree (s.withTable c).ac = topBitsAgree s.ac := rfl
    have hflow : inUnderflow (s.withTable c).ac = inUnderflow s.ac := rfl
    simp only [decRenorm, hagree, hflow, htop, hunder]
    split_ifs
    · cases shiftInCode s.ac.code (s.setAc (topShift s.ac)) with
      | error e => rfl
      | ok t => exact ih t
    · cases shiftInCode (s.ac.code ^^^ 0x40000000) (s.setAc (underflowShift s.ac)) with
      | error e => rfl
      | ok t => exact ih t
    · rfl

theorem countSection_withTable (c : CodingStep) (sym : Sym) (s : State) :
    countSection sym (s.withTable c) = (countSection sym s).withTable c := by
  have hterm : (s.withTable c).ac.term = s.ac.term := rfl
  simp only [countSection_eq, hterm]
  split_ifs <;> rfl

theorem decoded_withTable (c : CodingStep) (sym : Sym) (s : State) : decoded sym (s.withTable c) = (decoded sym s).withTable c :=
  countSection_withTable c sym (s.setRes (sym.setWidth 64))

/-! ### AC.DEC under another table -/

theorem Primed.withTable {s p : State} (h : Primed s p) (c : CodingStep) : Primed (s.withTable c) (p.withTable c) where
  idle := fun hd => by rw [prime_withTable, h.idle hd]; rfl
  read := fun hd => by rw [h.read hd]

theorem CoderInv.withTable {s : State} (h : CoderInv s.ac) {c : CodingStep} (hc : c.Codable) : CoderInv (s.withTable c).ac :=
  { h with
    renormalised := ⟨h.renormalised.lowTop, h.renormalised.highTop, h.renormalised.noUnderflow⟩
    nsymRange := ⟨Nat.one_le_of_lt hc.inAlphabet, hc.alphabet⟩ }

/-- Under a table that agrees with another below NSYM, AC.DEC does the same (41_arith_coder R137, R138). -/
theorem SameTable.decodeSymbol_withTable {c c' : CodingStep} (h : SameTable c c') {s t : State} (hinv : CoderInv (s.withTable c).ac)
    (ht : decodeSymbol (s.withTable c) = .ok t) : decodeSymbol (s.withTable c') = .ok (t.withTable c') := by
  obtain ⟨hd, hsec, ⟨hpos, htot⟩, p, hprimed, hdec⟩ := decodeSymbol_eq_ok_iff.mp ht
  have hwindow := hprimed.windowReady hd hinv
  obtain ⟨sym, hlook, hsym, hin⟩ := hwindow.lookup h.canonical hinv.nsymRange.2 hpos htot
  obtain ⟨u, hu, rfl⟩ := (decodePrimed_eq_ok_iff hlook).mp hdec
  have hp : p.withTable c = p := primed_withTable (hprimed.inStep hd).1
  have hup : UpdateReady (p.withTable c).ac := ⟨h.canonical, htot, (hp ▸ hwindow.renormalised).range⟩
  have hmoved := h.setAc_intervalUpdate hsym.inAlphabet p
  rw [hp] at hmoved
  have hin' : CodeInside (intervalUpdate sym (p.withTable c').ac) := by
    have hac := congrArg State.ac hmoved
    rw [State.setAc_ac] at hac
    rw [hac]
    exact ⟨hin.low_le, hin.le_high⟩
  have hlook' : lookupSymbol (p.withTable c') = (sym, p.withTable c') :=
    lookupSymbol_eq (h.updateReady hup) ((congrArg BitVec.toNat h.nsym).trans_le hinv.nsymRange.2)
      (h.codes (s := p) ⟨hsym.inAlphabet, hsym.hasFrequency⟩) hin'
  refine decodeSymbol_eq_ok_iff.mpr ⟨hd, hsec, ⟨(h.total s).symm ▸ hpos, (h.total s).trans_le htot⟩, p.withTable c',
    hprimed.withTable c', (decodePrimed_eq_ok_iff hlook').mpr ⟨u.withTable c', ?_, (decoded_withTable c' sym u).symm⟩⟩
  rw [hmoved, decRenorm_withTable, hu]
  rfl

/-! ### A stream decoded -/

/-- AC.DEC leaves a latched error latched (60_exceptions R247). -/
theorem ready_of_exec_acDec {s t : State} (h : exec .acDec s = .next t) (ht : t.ready) : s.ready := by
  by_contra hs
  rw [exec_eq_runCommand, runCommand_blocked hs rfl] at h
  cases h
  exact hs ht

theorem decodeStream_cons_eq_some {cd : CodingStep} {cs : List CodingStep} {d e : State} {rs : List Word64}
    (h : decodeStream (cd :: cs) d = some (rs, e)) :
    ∃ t rs', exec .acDec (d.withTable cd) = .next t ∧ decodeStream cs t = some (rs', e) ∧ rs = t.res :: rs' := by
  unfold decodeStream at h
  split at h
  · rename_i t ht
    split at h
    · rename_i rs' u hu
      cases h
      exact ⟨t, rs', ht, hu, rfl⟩
    · cases h
  · cases h
  · cases h

theorem ready_of_decodeStream {cs : List CodingStep} {d e : State} {rs : List Word64} (h : decodeStream cs d = some (rs, e))
    (he : e.ready) : d.ready := by
  induction cs generalizing d rs with
  | nil =>
    cases h
    exact he
  | cons cd cs ih =>
    obtain ⟨t, rs', ht, hrest, -⟩ := decodeStream_cons_eq_some h
    exact ready_of_exec_acDec (s := d.withTable cd) ht (ih hrest)

/-- A stream decoded with no error: each of its AC.DEC completes. -/
theorem decodeSymbol_of_decodeStream {cd : CodingStep} {cs : List CodingStep} {d e : State} {rs : List Word64}
    (h : decodeStream (cd :: cs) d = some (rs, e)) (he : e.ready) :
    ∃ t rs', d.ready ∧ decodeSymbol (d.withTable cd) = .ok t ∧ decodeStream cs t = some (rs', e) ∧ rs = t.res :: rs' := by
  obtain ⟨t, rs', ht, hrest, hrs⟩ := decodeStream_cons_eq_some h
  have htready := ready_of_decodeStream hrest he
  refine ⟨t, rs', ready_of_exec_acDec (s := d.withTable cd) ht htready, ?_, hrest, hrs⟩
  rcases exec_cases ht with ⟨hs, rfl⟩ | heff | ⟨e', heff, -, rfl⟩
  · exact absurd htready hs
  · exact heff
  · exact absurd htready (decodeSymbol_raisesProperly _ _ heff).set

end Sys2Proof.Machine
end

section
/-! The host's command sequences: a register set or read, a table loaded, a stream encoded or decoded (30_encoding R98, 42_freq_table R162, R164). -/

namespace Sys2Proof.Machine

/-! ### Host actions in order -/

theorem act_hostCommand {i : Instr} {s t : State} (h : exec i s = .next t) : act (hostCommand i) s = t := by
  have hcmd : perform (hostCommand i) s = .next t := by
    rw [hostCommand, perform_write_cmd, setWidth_cmd_word, writeCommand_of_decode (decode_encode i), h]
  simp only [act, hcmd]

@[simp] theorem act_hostArg (v : Word64) (s : State) : act (hostArg v) s = s.setArg v := rfl

@[simp] theorem act_attachIn (bs : List Byte) (s : State) : act (.attachIn bs) s = s.setInp bs := rfl

@[simp] theorem actAll_nil (s : State) : actAll [] s = s := rfl

@[simp] theorem actAll_cons (a : HostAction) (as : List HostAction) (s : State) : actAll (a :: as) s = actAll as (act a s) := rfl

@[simp] theorem actAll_append (as bs : List HostAction) (s : State) : actAll (as ++ bs) s = actAll bs (actAll as s) :=
  List.foldl_append

/-- `SETCSR` of a legal value (30_encoding R98). -/
theorem actAll_setCsr {c : Csr} {v : Word64} {s : State} (hs : s.ready) (hv : LegalCsrValue c v) :
    actAll (setCsr c v) s = csrWrite c v (s.setArg v) := by
  have hexec : exec (.csrw c.number) (s.setArg v) = .next (csrWrite c v (s.setArg v)) := exec_csrw_legal (s := s.setArg v) hs hv
  rw [setCsr, actAll_cons, act_hostArg, actAll_cons, act_hostCommand hexec, actAll_nil]

/-- `SETFREQ` (30_encoding R98). -/
theorem actAll_setFreq {s : State} (hs : s.ready) (sym : Sym) (v : Word64) :
    actAll (setFreq sym v) s = (s.setArg v).setAc { s.ac with freq := s.ac.freq.write sym.toNat v } := by
  have hexec : exec (.freqWr sym) (s.setArg v) = .next ((s.setArg v).setAc { s.ac with freq := s.ac.freq.write sym.toNat v }) :=
    exec_of_effect_ok (i := .freqWr sym) (s := s.setArg v) hs rfl
  rw [setFreq, actAll_cons, act_hostArg, actAll_cons, act_hostCommand hexec, actAll_nil]

/-- `GETCSR` answers in every state, and changes RES alone (30_encoding R98). -/
theorem getCsr_eq (c : Csr) (s : State) : getCsr c s = (csrRead c s, s.setRes (csrRead c s)) := by
  simp only [getCsr, act_hostCommand (exec_csrr_number c s), State.setRes_res]

/-! ### The length of a stream just decoded -/

theorem acBitsWord_inCnt {s : State} (h : s.ac.inCnt ≤ 8) : ((acBitsWord s).extractLsb' 16 4).toNat = s.ac.inCnt := by
  have hfield : (acBitsWord s).extractLsb' 16 4 = BitVec.ofNat 4 s.ac.inCnt := by
    simp (disch := decide) only [acBitsWord, BitVec.extractLsb'_append_eq_of_le, Nat.reduceSub]
    exact BitVec.extractLsb'_append_eq_right
  rw [hfield, BitVec.toNat_ofNat, Nat.mod_eq_of_lt (by omega)]

/-- The counters that the host reads give the stream's length (41_arith_coder R141). -/
theorem streamLength_eq {s : State} {bytes : List Byte} (h : CountersAtEnd s bytes) (hcnt : s.ac.inCnt ≤ 8) :
    (streamLength s).1 = bytes.length := by
  have hbits := acBitsWord_inCnt hcnt
  have hpast : (BitVec.ofNat 64 s.ac.pastEnd).toNat = s.ac.pastEnd := by
    have := h.pastEnd
    rw [BitVec.toNat_ofNat, Nat.mod_eq_of_lt (by omega)]
  have hlength := h.length
  have hread : (streamLength s).1 = ((8 * (s.ac.inPos.toNat : Int) - ((acBitsWord s).extractLsb' 16 4).toNat +
      (BitVec.ofNat 64 s.ac.pastEnd).toNat - 30 + 7) / 8).toNat := by
    simp only [streamLength, getCsr_eq]
    rfl
  rw [hread, hbits, hpast]
  omega

/-! ### A stream decoded by the host -/

/-- The host's DECODEs give the stream's symbols, under every table that agrees with the stream's below NSYM (41_arith_coder R137, R138). -/
theorem decodeMany_of_decodeStream {cs : List CodingStep} {c : CodingStep} (hcs : ∀ cd ∈ cs, cd.Codable ∧ SameTable cd c) {d e : State}
    {rs : List Word64} (hinv : CoderInv d.ac) (h : decodeStream cs d = some (rs, e)) (he : e.ready) :
    decodeMany cs.length (d.withTable c) = (rs.map BitVec.toNat, e.withTable c) ∧ CoderInv e.ac := by
  induction cs generalizing d rs with
  | nil =>
    cases h
    exact ⟨rfl, hinv⟩
  | cons cd cs ih =>
    obtain ⟨hcd, htable⟩ := hcs cd List.mem_cons_self
    obtain ⟨t, rs', hd, hdec, hrest, rfl⟩ := decodeSymbol_of_decodeStream h he
    have hinv' := hinv.withTable hcd
    have hexec : exec .acDec (d.withTable c) = .next (t.withTable c) :=
      exec_of_effect_ok (i := .acDec) (s := d.withTable c) hd (htable.decodeSymbol_withTable hinv' hdec)
    obtain ⟨hmany, hinve⟩ := ih (fun cd' h' => hcs cd' (List.mem_cons_of_mem _ h'))
      (decodeSymbol_coderInv hinv' hcd.canonical hdec) hrest
    refine ⟨?_, hinve⟩
    simp only [List.length_cons, decodeMany, hostDecode, act_hostCommand hexec, hmany]
    rfl

/-! ### A stream encoded by the host -/

/-- AC.ENC keeps the table (41_arith_coder R130). -/
theorem exec_acEnc_table {sym : Sym} {s t : State} (h : exec (.acEnc sym) s = .next t) :
    t.ac.nsym = s.ac.nsym ∧ t.ac.freq = s.ac.freq := by
  rcases exec_cases h with ⟨-, rfl⟩ | heff | ⟨e, -, -, rfl⟩
  · exact ⟨rfl, rfl⟩
  · have hstep := encodeSymbol_step heff
    exact ⟨hstep.nsym, hstep.freq⟩
  · exact ⟨rfl, rfl⟩

theorem withTable_eq_self {s : State} {c : CodingStep} (hn : c.nsym = s.ac.nsym) (hf : c.freq = s.ac.freq) : s.withTable c = s := by
  rw [State.withTable, hn, hf]
  rfl

/-- The host's ENCODEs of symbols under one table, the one the engine has, are the stream's (41_arith_coder R130). -/
theorem actAll_hostEncode {cs : List CodingStep} {s t : State} (hcs : ∀ cd ∈ cs, cd.nsym = s.ac.nsym ∧ cd.freq = s.ac.freq)
    (h : encodeStream cs s = some t) : actAll (cs.map fun cd => hostEncode cd.sym) s = t := by
  induction cs generalizing s with
  | nil =>
    cases h
    rfl
  | cons cd cs ih =>
    obtain ⟨hn, hf⟩ := hcs cd List.mem_cons_self
    unfold encodeStream at h
    rw [withTable_eq_self hn hf] at h
    split at h
    · rename_i u hu
      obtain ⟨hnu, hfu⟩ := exec_acEnc_table hu
      rw [List.map_cons, actAll_cons, hostEncode, act_hostCommand hu]
      exact ih (fun cd' h' => by rw [hnu, hfu]; exact hcs cd' (List.mem_cons_of_mem _ h')) h
    · cases h
    · cases h

/-! ### META_PROBS loaded -/

/-- FREQ after META_PROBS[q] was written at each index q of a list (42_freq_table R162). -/
def writeProbs (probs : Vector Word64 32) (qs : List (Fin 32)) (m : Memory 64) : Memory 64 :=
  qs.foldl (fun m q => m.write q.val probs[q]) m

theorem writeProbs_wf (probs : Vector Word64 32) (qs : List (Fin 32)) {m : Memory 64} (h : m.wf) : (writeProbs probs qs m).wf := by
  induction qs generalizing m with
  | nil => exact h
  | cons q qs ih => exact ih (Memory.write_wf h q.val probs[q])

theorem writeProbs_read (probs : Vector Word64 32) (qs : List (Fin 32)) {m : Memory 64} (h : m.wf) (k : Fin 32) :
    (writeProbs probs qs m).read k.val = if k ∈ qs then probs[k] else m.read k.val := by
  induction qs generalizing m with
  | nil => rfl
  | cons q qs ih =>
    have hrest : writeProbs probs (q :: qs) m = writeProbs probs qs (m.write q.val probs[q]) := rfl
    rw [hrest, ih (Memory.write_wf h q.val probs[q]), Memory.read_write h]
    by_cases hk : k = q
    · subst hk
      simp
    · have hval : k.val ≠ q.val := fun hv => hk (Fin.ext hv)
      simp [hk, hval]

/-- Writing META_PROBS changes FREQ, and ARG. -/
theorem actAll_setProbs (probs : Vector Word64 32) (qs : List (Fin 32)) {s : State} (hs : s.ready) :
    ∃ v, actAll (qs.flatMap fun q => setFreq (BitVec.ofNat 16 q.val) probs[q]) s =
      (s.setArg v).setAc { s.ac with freq := writeProbs probs qs s.ac.freq } := by
  induction qs generalizing s with
  | nil => exact ⟨s.arg, rfl⟩
  | cons q qs ih =>
    have hq : (BitVec.ofNat 16 q.val).toNat = q.val := by rw [BitVec.toNat_ofNat]; omega
    obtain ⟨v, hv⟩ := ih (s := (s.setArg probs[q]).setAc { s.ac with freq := s.ac.freq.write q.val probs[q] }) hs
    refine ⟨v, ?_⟩
    rw [List.flatMap_cons, actAll_append, actAll_setFreq hs, hq, hv]
    rfl

end Sys2Proof.Machine
end

section
/-! The frequency-table round trip (42_freq_table R162, R164, R165). -/

namespace Sys2Proof.Machine

/-! ### META_PROBS as a table -/

section
variable {probs : Vector Word64 32} {m m' : Memory 64}

/-- FREQ with META_PROBS at the indices 0 to 31 (42_freq_table R162, R164); the entries from 32 on are those it had.
Irreducible, so that no proof runs the 32 writes. -/
@[irreducible] def metaTable (probs : Vector Word64 32) (m : Memory 64) : Memory 64 := writeProbs probs (List.finRange 32) m

theorem metaTable_eq (probs : Vector Word64 32) (m : Memory 64) : metaTable probs m = writeProbs probs (List.finRange 32) m := by
  rw [metaTable]

theorem metaTable_wf (h : m.wf) : (metaTable probs m).wf := metaTable_eq probs m ▸ writeProbs_wf probs _ h

theorem metaTable_read (h : m.wf) (q : Fin 32) : (metaTable probs m).read q.val = probs[q] := by
  rw [metaTable_eq]
  exact (writeProbs_read probs _ h q).trans (if_pos (List.mem_finRange q))

/-- The values of a vector, as a sum over its indices. -/
theorem sum_toNat_toList {n : Nat} (v : Vector Word64 n) : (v.toList.map BitVec.toNat).sum = Finset.univ.sum fun q : Fin n => v[q].toNat := by
  rw [← List.sum_ofFn]
  exact congrArg List.sum (List.ext_getElem (by simp) fun i h₁ h₂ => by simp)

theorem metaTable_sumBelow (h : m.wf) : (metaTable probs m).sumBelow 32 = (probs.toList.map BitVec.toNat).sum := by
  rw [Memory.sumBelow_eq_sum (metaTable_wf h), Finset.sum_range, sum_toNat_toList]
  exact Finset.sum_congr rfl fun q _ => by rw [metaTable_read h]

/-- The position of the meta stream that codes one count (42_freq_table R162). -/
def metaStep (probs : Vector Word64 32) (m : Memory 64) (n : Nat) : CodingStep := ⟨32, metaTable probs m, BitVec.ofNat 16 (quant n)⟩

theorem metaStep_sym_toNat (n : Nat) : (metaStep probs m n).sym.toNat = quant n := by
  have := quant_le n
  rw [metaStep, BitVec.toNat_ofNat, Nat.mod_eq_of_lt (by omega)]

/-- A legal META_PROBS codes every quantised count (42_freq_table R166). -/
theorem metaStep_codable (hprobs : ∀ q : Fin 32, probs[q] ≠ 0) (hsum : (probs.toList.map BitVec.toNat).sum ≤ 2 ^ 30) (h : m.wf)
    (n : Nat) : (metaStep probs m n).Codable where
  canonical := metaTable_wf h
  inAlphabet := by
    rw [metaStep_sym_toNat]
    exact Nat.lt_succ_of_le (quant_le n)
  alphabet := (by decide : (32 : BitVec 17).toNat ≤ 65536)
  hasFrequency := by
    have hn : quant n < 32 := Nat.lt_succ_of_le (quant_le n)
    rw [metaStep_sym_toNat]
    exact (metaTable_read h ⟨quant n, hn⟩).trans_ne (hprobs _)
  totalBound := (metaTable_sumBelow h).trans_le hsum

/-- Writer and reader have the same table below NSYM, whatever FREQ held before. -/
theorem metaStep_sameTable (h : m.wf) (h' : m'.wf) (n n' : Nat) : SameTable (metaStep probs m n) (metaStep probs m' n') where
  canonical := metaTable_wf h
  canonical' := metaTable_wf h'
  nsym := rfl
  reads := fun k hk => (metaTable_read h' ⟨k, hk⟩).trans (metaTable_read h ⟨k, hk⟩).symm

end

/-! ### The setup of both sides -/

/-- A state with META_PROBS loaded for the meta alphabet over the table `m`. -/
structure MetaLoaded (probs : Vector Word64 32) (m : Memory 64) (s : State) : Prop where
  ready : s.ready
  nsym : s.ac.nsym = 32
  freq : s.ac.freq = metaTable probs m

/-- META_PROBS and AC.INIT, once NSYM is set. -/
theorem actAll_metaSetup (probs : Vector Word64 32) {s : State} (hs : s.ready) (hn : s.ac.nsym = 32) :
    ∃ s', actAll (setMetaProbs probs ++ [hostCommand .acInit]) s = started s' ∧ MetaLoaded probs s.ac.freq s' ∧
      s'.ac.sections = s.ac.sections := by
  obtain ⟨v, hv⟩ := actAll_setProbs probs (List.finRange 32) hs
  refine ⟨(s.setArg v).setAc { s.ac with freq := metaTable probs s.ac.freq }, ?_, ⟨hs, hn, rfl⟩, rfl⟩
  rw [actAll_append, setMetaProbs, hv, metaTable_eq]
  exact act_hostCommand (exec_acInit hs)

/-- SaveFreqs encodes from a coder that has just started, on an OUT that its first TAKE has emptied (42_freq_table R162). -/
theorem saveFreqs_bytes (probs : Vector Word64 32) (f : List Nat) {s : State} (hs : s.ready) :
    ∃ w, MetaLoaded probs s.ac.freq w ∧ w.out = [] ∧
      (saveFreqs probs f s).bytes = (actAll (metaStreamActions f) (started w)).out ++ sideChannel f := by
  have hn : LegalCsrValue .acNsym 32 := ⟨by decide, by decide⟩
  obtain ⟨s', hs', ⟨hready, hnsym, hfreq⟩, -⟩ := actAll_metaSetup probs (s := csrWrite .acNsym 32 (s.setArg 32)) hs rfl
  refine ⟨(s'.setOut []).setReply (.bytes (started s').out), ⟨hready, hnsym, hfreq⟩, rfl, ?_⟩
  rw [saveFreqs_eq, saveFreqsSetup, List.append_assoc, actAll_append, actAll_setCsr hs hn, hs']
  rfl

/-- The commands of LoadFreqs before its DECODEs (42_freq_table R164). -/
def loadFreqsSetup (probs : Vector Word64 32) (z : List Byte) : List HostAction :=
  setCsr .acNsym 32 ++ setCsr .acSections 0 ++ setMetaProbs probs ++ [hostCommand .acInit, .attachIn z]

theorem actAll_loadFreqsSetup (probs : Vector Word64 32) {u : State} (hu : u.ready) :
    ∃ u', MetaLoaded probs u.ac.freq u' ∧ u'.ac.sections = 0 ∧
      ∀ z, actAll (loadFreqsSetup probs z) u = started (u'.setInp z) := by
  have hn : LegalCsrValue .acNsym 32 := ⟨by decide, by decide⟩
  have hsec : LegalCsrValue .acSections 0 := Nat.two_pow_pos 32
  obtain ⟨u', hu', hloaded, hsections⟩ := actAll_metaSetup probs
    (s := csrWrite .acSections 0 ((csrWrite .acNsym 32 (u.setArg 32)).setArg 0)) hu rfl
  refine ⟨u', hloaded, hsections, fun z => ?_⟩
  have hcommands : loadFreqsSetup probs z =
      setCsr .acNsym 32 ++ (setCsr .acSections 0 ++ ((setMetaProbs probs ++ [hostCommand .acInit]) ++ [.attachIn z])) := by
    simp only [loadFreqsSetup, List.append_assoc, List.cons_append, List.nil_append]
  rw [hcommands, actAll_append, actAll_setCsr hu hn, actAll_append, actAll_setCsr (s := csrWrite .acNsym 32 (u.setArg 32)) hu hsec,
    actAll_append, hu']
  rfl

/-! ### The round trip -/

/-- The host's commands of a meta stream are AC.ENC of its positions and AC.FLUSH (42_freq_table R162). -/
theorem metaStreamActions_out {probs : Vector Word64 32} {m : Memory 64} {f : List Nat} {s t : State} (h : MetaLoaded probs m s)
    (henc : encodeStream (f.map (metaStep probs m)) (started s) = some t) (hflush : exec .acFlush t = .next (flushed t)) :
    actAll (metaStreamActions f) (started s) = flushed t := by
  have htable : ∀ cd ∈ f.map (metaStep probs m), cd.nsym = (started s).ac.nsym ∧ cd.freq = (started s).ac.freq := by
    intro cd hcd
    obtain ⟨n, -, rfl⟩ := List.mem_map.mp hcd
    exact ⟨h.nsym.symm, h.freq.symm⟩
  have hsymbols := actAll_hostEncode htable henc
  rw [List.map_map] at hsymbols
  rw [metaStreamActions, actAll_append]
  exact (congrArg _ hsymbols).trans (act_hostCommand hflush)

/-- LoadFreqs, from its symbols and the side channel (42_freq_table R164). -/
theorem loadFreqs_of_decoded {probs : Vector Word64 32} {z rest : List Byte} {n : Nat} {u d : State} {qs gs : List Nat}
    (hmany : decodeMany n (actAll (loadFreqsSetup probs z) u) = (qs, d))
    (hside : expandAll qs (z.drop (streamLength d).1) = some (gs, rest)) :
    loadFreqs probs z n u = some ⟨gs, rest, (streamLength d).2⟩ := by
  unfold loadFreqsSetup at hmany
  simp only [loadFreqs, hmany, hside]

/-- A started reader with the meta alphabet meets the coder's invariant. -/
theorem MetaLoaded.started_coderInv {probs : Vector Word64 32} {m : Memory 64} {s : State} (h : MetaLoaded probs m s) :
    CoderInv (started s).ac :=
  .of_start rfl rfl (by simp [started, AcUnit.init]) ⟨rfl, rfl⟩ ⟨Nat.zero_le _, Nat.zero_le _⟩
    ⟨h.nsym.symm ▸ (by decide), h.nsym.symm ▸ (by decide)⟩

/-- The reader's DECODEs of a meta stream give the quantised counts, over whatever table it had before (42_freq_table R164). -/
theorem decodeMany_of_metaStream {probs : Vector Word64 32} {m m' : Memory 64} {f : List Nat} {u d : State} {rs : List Word64}
    (hcs : ∀ cd ∈ f.map (metaStep probs m), cd.Codable) (hm : m.wf) (hm' : m'.wf) (h : MetaLoaded probs m' u)
    (hdec : decodeStream (f.map (metaStep probs m)) (started u) = some (rs, d)) (hd : d.ready) :
    decodeMany f.length (started u) = (rs.map BitVec.toNat, d.withTable (metaStep probs m' 0)) ∧ CoderInv d.ac := by
  have htables : ∀ cd ∈ f.map (metaStep probs m), cd.Codable ∧ SameTable cd (metaStep probs m' 0) := by
    intro cd hcd
    refine ⟨hcs cd hcd, ?_⟩
    obtain ⟨n, -, rfl⟩ := List.mem_map.mp hcd
    exact metaStep_sameTable hm hm' n 0
  have hmany := decodeMany_of_decodeStream htables h.started_coderInv hdec hd
  rwa [List.length_map, withTable_eq_self (s := started u) h.nsym.symm h.freq.symm] at hmany

/-- The symbols of a meta stream, as numbers. -/
theorem metaStream_symbols (probs : Vector Word64 32) (m : Memory 64) (f : List Nat) :
    ((f.map (metaStep probs m)).map fun c => c.sym.setWidth 64).map BitVec.toNat = f.map quant := by
  rw [List.map_map, List.map_map]
  refine List.map_congr_left fun n _ => ?_
  have hsym := metaStep_sym_toNat (probs := probs) (m := m) n
  have hlt := (metaStep probs m n).sym.isLt
  change ((metaStep probs m n).sym.setWidth 64).toNat = quant n
  rw [BitVec.toNat_setWidth, hsym, Nat.mod_eq_of_lt (by omega)]

/-- The meta stream written and read: the reader's symbols are the quantised counts, and its counters give the stream's length
(42_freq_table R165, 41_arith_coder R141, R142). -/
theorem metaStream_round_trip {probs : Vector Word64 32} {f : List Nat} {s u : State} (rest : List Byte) (hs : s.ready) (hu : u.ready)
    (hws : s.ac.freq.wf) (hwu : u.ac.freq.wf) (hprobs : ∀ q : Fin 32, probs[q] ≠ 0)
    (hsum : (probs.toList.map BitVec.toNat).sum ≤ 2 ^ 30) (hlen : f.length < 2 ^ 58) :
    ∃ stream d, (saveFreqs probs f s).bytes = stream ++ sideChannel f ∧
      decodeMany f.length (actAll (loadFreqsSetup probs (stream ++ rest)) u) = (f.map quant, d) ∧
      (f ≠ [] → (streamLength d).1 = stream.length) := by
  obtain ⟨w, hwriter, hempty, hsaved⟩ := saveFreqs_bytes probs f hs
  have hcs : ∀ cd ∈ f.map (metaStep probs s.ac.freq), cd.Codable := by
    intro cd hcd
    obtain ⟨n, -, rfl⟩ := List.mem_map.mp hcd
    exact metaStep_codable hprobs hsum hws n
  obtain ⟨u', hreader, hsections, hload⟩ := actAll_loadFreqsSetup probs hu
  obtain ⟨t, d, stream, henc, hflush, hout, hdec, hd, hcounters⟩ := stream_round_trip (s := w) rest hwriter.ready hreader.ready hcs
    (by rw [List.length_map]; exact hlen) (.inl hsections)
  have hreader' : MetaLoaded probs u.ac.freq (u'.setInp (stream ++ rest)) := ⟨hreader.ready, hreader.nsym, hreader.freq⟩
  obtain ⟨hmany, hinv⟩ := decodeMany_of_metaStream hcs hws hwu hreader' hdec hd
  refine ⟨stream, d.withTable (metaStep probs u.ac.freq 0), ?_, ?_, fun hne => ?_⟩
  · rw [hsaved, metaStreamActions_out hwriter henc hflush, hout, hempty, List.nil_append]
  · rw [hload, hmany, metaStream_symbols]
  · obtain ⟨hlength, hpast, hposition⟩ := hcounters fun h => hne (List.map_eq_nil_iff.mp h)
    exact streamLength_eq ⟨hlength, hpast, hposition⟩ hinv.inCntRange

/-- Settles O58: the symbols are those written, and the counters say where the side channel begins. -/
theorem freqTableRoundTrip : Obligations.FreqTableRoundTrip := by
  unfold Obligations.FreqTableRoundTrip
  intro probs f suffix s u hs hu hws hwu hprobs hsum hlen
  obtain ⟨stream, d, hbytes, hmany, hlength⟩ :=
    metaStream_round_trip (sideChannel f ++ suffix) hs hu hws hwu hprobs hsum hlen
  rw [hbytes, List.append_assoc]
  by_cases hne : f = []
  · subst hne
    exact ⟨_, loadFreqs_of_decoded hmany rfl, rfl, rfl, fun h => absurd rfl h⟩
  · have hside : expandAll (f.map quant) ((stream ++ (sideChannel f ++ suffix)).drop (streamLength d).1) =
        some (f.map adjust, suffix) := by
      rw [hlength hne, List.drop_left]
      exact expandAll_sideChannel f suffix
    exact ⟨_, loadFreqs_of_decoded hmany hside, rfl, rfl, fun _ => rfl⟩

end Sys2Proof.Machine
end

section
/-! The words of runs: one level of Enc, the shape of a word, and its length (43_run_length R171, R180). -/

namespace Sys2Proof.Machine

/-! ### One level of the recursion -/

/-- The run one level down is a shorter one: why the recursion of Enc ends (log 13). -/
theorem level_lt {m l : Nat} (hm : 1 ≤ m) (h : m ≤ l) : l / m - 1 < l := by
  have hle : l / m ≤ l := Nat.div_le_self l m
  omega

/-- A run from its level and its remainder, as the parser rebuilds it (43_run_length R177). -/
theorem level_rebuild {m l : Nat} (hm : 1 ≤ m) (h : m ≤ l) : (l / m - 1 + 1) * m + l % m = l := by
  rw [Nat.sub_add_cancel ((Nat.one_le_div_iff hm).mpr h), Nat.mul_comm, Nat.div_add_mod]

/-- Induction along the levels of a run. -/
theorem run_induction {m : Nat} (hm : 1 ≤ m) {motive : Nat → Prop} (base : ∀ l, l < m → motive l)
    (level : ∀ l, m ≤ l → motive (l / m - 1) → motive l) (l : Nat) : motive l := by
  induction l using Nat.strong_induction_on with
  | h l ih =>
    by_cases h : l < m
    · exact base l h
    · exact level l (Nat.not_lt.mp h) (ih _ (level_lt hm (Nat.not_lt.mp h)))

/-- Fuel above the run reaches the end of the word (log 13). -/
theorem encRun_fuel {m : Nat} (hm : 1 ≤ m) {f g l : Nat} (hf : l < f) (hg : l < g) : encRun m f l = encRun m g l := by
  induction f generalizing g l with
  | zero => exact absurd hf (Nat.not_lt_zero l)
  | succ f ih =>
    cases g with
    | zero => exact absurd hg (Nat.not_lt_zero l)
    | succ g =>
      by_cases h : l < m
      · simp only [encRun, if_pos h]
      · have hlt := level_lt hm (Nat.not_lt.mp h)
        simp only [encRun, if_neg h]
        rw [ih (g := g) (by omega) (by omega)]

theorem runCode_of_lt {m l : Nat} (h : l < m) : runCode m l = [l] := if_pos h

theorem runCode_of_ge {m l : Nat} (hm : 1 ≤ m) (h : m ≤ l) : runCode m l = [m] ++ runCode m (l / m - 1) ++ [l % m] := by
  rw [runCode, encRun, if_neg (Nat.not_lt.mpr h), runCode, encRun_fuel hm (level_lt hm h) (Nat.lt_succ_self _)]

/-- The word of a run rebuilt from a level and a remainder (43_run_length R171, R177). -/
theorem runCode_rebuild {m v r : Nat} (hr : r < m) : runCode m ((v + 1) * m + r) = [m] ++ runCode m v ++ [r] := by
  have hm : 0 < m := Nat.zero_lt_of_lt hr
  have hge : m ≤ (v + 1) * m + r := Nat.le_add_right_of_le (Nat.le_mul_of_pos_left m (Nat.succ_pos v))
  have hdiv : ((v + 1) * m + r) / m = v + 1 := by
    rw [Nat.add_comm, Nat.add_mul_div_right r (v + 1) hm, Nat.div_eq_of_lt hr, Nat.zero_add]
  have hmod : ((v + 1) * m + r) % m = r := by rw [Nat.mul_add_mod_self_right, Nat.mod_eq_of_lt hr]
  rw [runCode_of_ge hm hge, hdiv, hmod, Nat.add_sub_cancel]

/-! ### The shape of a word -/

/-- Every word is its escapes and then one more symbols below the ceiling (43_run_length R171). -/
theorem runCode_shape {m : Nat} (hm : 1 ≤ m) (l : Nat) :
    ∃ d tail, runCode m l = List.replicate d m ++ tail ∧ tail.length = d + 1 ∧ ∀ x ∈ tail, x < m := by
  induction l using run_induction hm with
  | base l h => exact ⟨0, [l], runCode_of_lt h, rfl, by simpa using h⟩
  | level l h ih =>
    obtain ⟨d, tail, hword, hlength, hbelow⟩ := ih
    refine ⟨d + 1, tail ++ [l % m], ?_, by simp [hlength], ?_⟩
    · rw [runCode_of_ge hm h, hword, List.replicate_succ]
      simp
    · intro x hx
      rcases List.mem_append.mp hx with hx | hx
      · exact hbelow x hx
      · rw [List.mem_singleton.mp hx]
        exact Nat.mod_lt l hm

/-- The symbols of a word are at most the ceiling. -/
theorem le_of_mem_runCode {m : Nat} (hm : 1 ≤ m) {l x : Nat} (hx : x ∈ runCode m l) : x ≤ m := by
  obtain ⟨d, tail, hword, -, hbelow⟩ := runCode_shape hm l
  rw [hword] at hx
  rcases List.mem_append.mp hx with hx | hx
  · exact (List.eq_of_mem_replicate hx).le
  · exact (hbelow x hx).le

/-- Settles O40: the equation of one level, the shape by induction along the levels, the examples by evaluation. -/
theorem runWordGrammar : Obligations.RunWordGrammar := by
  unfold Obligations.RunWordGrammar
  refine ⟨fun m l hm => ⟨runCode_of_lt, runCode_of_ge hm, runCode_shape hm l⟩, ?_⟩
  decide

/-! ### The length of a word -/

theorem length_runCode_of_lt {m l : Nat} (h : l < m) : (runCode m l).length = 1 := by rw [runCode_of_lt h, List.length_singleton]

theorem length_runCode_of_ge {m l : Nat} (hm : 1 ≤ m) (h : m ≤ l) :
    (runCode m l).length = (runCode m (l / m - 1)).length + 2 := by
  rw [runCode_of_ge hm h]
  simp

/-- One level down, the bounds B(d + 1) become B(d) (43_run_length R180). -/
theorem wordBound_succ_le_iff {m l : Nat} (hm : 1 ≤ m) (h : m ≤ l) (d : Nat) :
    wordBound m (d + 1) ≤ l ↔ wordBound m d ≤ l / m - 1 := by
  have hlevel : 1 ≤ l / m := (Nat.one_le_div_iff hm).mpr h
  calc wordBound m (d + 1) ≤ l ↔ (wordBound m d + 1) * m ≤ l := by rw [wordBound, Nat.mul_comm]
    _ ↔ wordBound m d + 1 ≤ l / m := (Nat.le_div_iff_mul_le hm).symm
    _ ↔ wordBound m d ≤ l / m - 1 := (Nat.le_sub_iff_add_le hlevel).symm

theorem le_wordBound_succ (m d : Nat) : m ≤ wordBound m (d + 1) := Nat.le_mul_of_pos_right m (Nat.succ_pos _)

/-- The runs from B(d) to below B(d + 1) are those with d escapes (43_run_length R180). -/
theorem length_runCode_iff {m : Nat} (hm : 1 ≤ m) (l d : Nat) :
    wordBound m d ≤ l ∧ l < wordBound m (d + 1) ↔ (runCode m l).length = 2 * d + 1 := by
  induction l using run_induction hm generalizing d with
  | base l h =>
    rw [length_runCode_of_lt h]
    cases d with
    | zero => simp [wordBound, h]
    | succ d =>
      have hbound := le_wordBound_succ m d
      omega
  | level l h ih =>
    rw [length_runCode_of_ge hm h]
    cases d with
    | zero =>
      simp only [wordBound]
      omega
    | succ d =>
      rw [wordBound_succ_le_iff hm h, ← Nat.not_le, wordBound_succ_le_iff hm h, Nat.not_le, ih d]
      omega

/-- Below B(d + 1) a word has at most d escapes. -/
theorem length_runCode_le {m : Nat} (hm : 1 ≤ m) {l d : Nat} (hl : l < wordBound m (d + 1)) :
    (runCode m l).length ≤ 2 * d + 1 := by
  induction l using run_induction hm generalizing d with
  | base l h =>
    rw [length_runCode_of_lt h]
    omega
  | level l h ih =>
    cases d with
    | zero =>
      simp only [wordBound] at hl
      omega
    | succ d =>
      have hlevel := ih (Nat.not_le.mp (mt (wordBound_succ_le_iff hm h (d + 1)).mpr (Nat.not_le.mpr hl)))
      rw [length_runCode_of_ge hm h]
      omega

/-- The bounds grow with the ceiling: M = 2 has the longest words of all M ≥ 2. -/
theorem wordBound_mono {m n : Nat} (h : m ≤ n) (d : Nat) : wordBound m d ≤ wordBound n d := by
  induction d with
  | zero => exact Nat.le_refl 0
  | succ d ih => exact Nat.mul_le_mul h (Nat.succ_le_succ ih)

theorem wordBound_one (d : Nat) : wordBound 1 d = d := by
  induction d with
  | zero => rfl
  | succ d ih => rw [wordBound, ih, Nat.one_mul]

/-- For M ≥ 2 the word of a run within RUN_MAX has at most 123 symbols (43_run_length R180). -/
theorem length_runCode_le_of_two_le {m l : Nat} (hm : 2 ≤ m) (hl : l ≤ Config.runMax) : (runCode m l).length ≤ 123 := by
  have hbound : Config.runMax < wordBound 2 62 := by decide
  exact length_runCode_le (d := 61) (Nat.le_of_succ_le hm) (hl.trans_lt (hbound.trans_le (wordBound_mono hm 62)))

/-- The shortest run with d escapes. -/
theorem length_runCode_wordBound {m : Nat} (hm : 1 ≤ m) {d : Nat} (h : wordBound m d < wordBound m (d + 1)) :
    (runCode m (wordBound m d)).length = 2 * d + 1 := (length_runCode_iff hm _ d).mp ⟨Nat.le_refl _, h⟩

/-- Settles O41: the equivalence along the levels; the maxima by the bounds B(d) on either side of RUN_MAX. -/
theorem runWordLength : Obligations.RunWordLength := by
  unfold Obligations.RunWordLength
  refine ⟨fun m l d hm => length_runCode_iff hm l d, fun m l hm => ⟨length_runCode_of_lt, length_runCode_of_ge hm⟩, by decide,
    wordBound_one, fun m l hm hl => length_runCode_le_of_two_le hm hl, ?_, ?_, ?_, ?_, ?_⟩
  · exact ⟨wordBound 2 61, by decide, length_runCode_wordBound (by decide) (by decide)⟩
  · exact fun l hl => length_runCode_le (d := 38) (by decide) (hl.trans_lt (by decide))
  · exact ⟨wordBound 3 38, by decide, length_runCode_wordBound (by decide) (by decide)⟩
  · exact fun l hl => length_runCode_le (d := 3) (by decide) (hl.trans_lt (by decide))
  · exact ⟨wordBound 65535 3, by decide, length_runCode_wordBound (by decide) (by decide)⟩

end Sys2Proof.Machine
end

section
/-! The commands of the run-length unit, one effect at a time (43_run_length R172 to R178). -/

namespace Sys2Proof.Machine

/-! ### The queue and the end of a pass -/

theorem popSymbol_empty {s : State} (h : s.rle.queue = []) : popSymbol s = s.setRes (BitVec.allOnes 64) := by
  simp [popSymbol, h]

theorem popSymbol_cons {s : State} {q : Sym} {rest : List Sym} (h : s.rle.queue = q :: rest) :
    popSymbol s = (s.setRle { s.rle with queue := rest }).setRes (q.setWidth 64) := by
  simp [popSymbol, h]

/-- The parser between two runs (43_run_length R178). -/
structure RleUnit.AtRest (r : RleUnit) : Prop where
  phase : r.phase = .prefixPhase
  depth : r.depth = 0

theorem endRuns_of_atRest {s : State} (h : s.rle.AtRest) : endRuns s = .ok (s.setRle { s.rle with first := true, vacc := 0 }) := by
  simp [endRuns, h.phase, h.depth]

theorem endRuns_of_inChain {s : State} (h : s.rle.phase = .suffixPhase ∨ 0 < s.rle.depth) :
    endRuns s = .error (.malformed subcauseRleTruncated s.rle.depth) := if_pos h

/-- Settles O38: each command's effect in its case, with the latch clear. -/
theorem rleControlCommands : Obligations.RleControlCommands := by
  unfold Obligations.RleControlCommands
  intro s hs
  refine ⟨exec_of_effect_ok (i := .rleInit) hs rfl, fun hq => ?_, fun q rest hq => ?_, fun hp hd => ?_, fun hchain => ?_⟩
  · exact exec_of_effect_ok (i := .rlePop) hs (congrArg _ (popSymbol_empty hq))
  · exact exec_of_effect_ok (i := .rlePop) hs (congrArg _ (popSymbol_cons hq))
  · exact exec_of_effect_ok (i := .rleDend) hs (endRuns_of_atRest ⟨hp, hd⟩)
  · exact exec_of_effect_error (i := .rleDend) hs (endRuns_of_inChain hchain)

/-! ### The encoder -/

theorem encodeBit_zero {s : State} (h : s.rle.run ≠ Config.runMax) :
    encodeBit 0 s = .ok (s.setRle { s.rle with run := s.rle.run + 1 }) := by
  simp [encodeBit, h]

theorem encodeBit_zero_atRunMax {s : State} (h : s.rle.run = Config.runMax) :
    encodeBit 0 s = .error (.rleOverflow Config.runMax) := by
  simp [encodeBit, h]

theorem encodeBit_one (s : State) : encodeBit 1 s = emitRun s := rfl

/-- The state after a run's word is queued (43_run_length R173, R174). -/
def runQueued (s : State) : State :=
  s.setRle { s.rle with queue := s.rle.queue ++ (runCode s.rle.m.toNat s.rle.run).map (BitVec.ofNat 16), run := 0 }

theorem emitRun_fits {s : State} (h : s.rle.queue.length + (runCode s.rle.m.toNat s.rle.run).length ≤ Config.rleqDepth) :
    emitRun s = .ok (runQueued s) := by
  rcases emitRun_cases s with ⟨-, hk⟩ | ⟨hlt, -⟩
  · exact hk
  · exact absurd h (Nat.not_le.mpr hlt)

theorem emitRun_overflows {s : State} (h : Config.rleqDepth < s.rle.queue.length + (runCode s.rle.m.toNat s.rle.run).length) :
    emitRun s = .error (.rleqOverflow (runCode s.rle.m.toNat s.rle.run).length) := by
  rcases emitRun_cases s with ⟨hle, -⟩ | ⟨-, hk⟩
  · exact absurd h (Nat.not_lt.mpr hle)
  · exact hk

/-- Settles O39: a zero is counted below RUN_MAX, and RLE.EBIT 1 and RLE.EEND have the one effect of queuing the run's word. -/
theorem rleEncoderCommands : Obligations.RleEncoderCommands := by
  unfold Obligations.RleEncoderCommands
  intro s hs
  refine ⟨fun hrun => exec_of_effect_ok (i := .rleEbit 0) hs (encodeBit_zero hrun),
    fun hrun => exec_of_effect_error (i := .rleEbit 0) hs (encodeBit_zero_atRunMax hrun), fun i hi => ?_⟩
  have heff : commandEffect i s = emitRun s := by
    rcases hi with rfl | rfl
    · exact encodeBit_one s
    · rfl
  exact ⟨fun hfits => exec_of_effect_ok hs (heff.trans (emitRun_fits hfits)),
    fun hover => exec_of_effect_error hs (heff.trans (emitRun_overflows hover))⟩

/-! ### The parser -/

/-- Every way one symbol is accepted (43_run_length R177): an escape, a run below the ceiling, the base value of a chain, a remainder that
rebuilds a level, and the one that rebuilds the last. -/
inductive ParseStep (sym : Sym) (s : State) : State → Prop
  | escape (hp : s.rle.phase = .prefixPhase) (hsym : sym = s.rle.m) (hd : s.rle.depth ≠ Config.runMax) :
      ParseStep sym s ((s.setRle { s.rle with depth := s.rle.depth + 1 }).setRes 0)
  | whole (hp : s.rle.phase = .prefixPhase) (hsym : sym.toNat < s.rle.m.toNat) (hd : s.rle.depth = 0) :
      ParseStep sym s (finishRun sym.toNat s.rle s)
  | base (hp : s.rle.phase = .prefixPhase) (hsym : sym.toNat < s.rle.m.toNat) (hd : 0 < s.rle.depth) :
      ParseStep sym s ((s.setRle { s.rle with vacc := sym.toNat, phase := .suffixPhase }).setRes 0)
  | level (hp : s.rle.phase = .suffixPhase) (hsym : sym.toNat < s.rle.m.toNat)
      (hv : (s.rle.vacc + 1) * s.rle.m.toNat + sym.toNat ≤ Config.runMax) (hd : 2 ≤ s.rle.depth) :
      ParseStep sym s ((s.setRle { s.rle with
        vacc := (s.rle.vacc + 1) * s.rle.m.toNat + sym.toNat, depth := s.rle.depth - 1 }).setRes 0)
  | last (hp : s.rle.phase = .suffixPhase) (hsym : sym.toNat < s.rle.m.toNat)
      (hv : (s.rle.vacc + 1) * s.rle.m.toNat + sym.toNat ≤ Config.runMax) (hd : s.rle.depth ≤ 1) :
      ParseStep sym s (finishRun ((s.rle.vacc + 1) * s.rle.m.toNat + sym.toNat)
        { s.rle with depth := 0, phase := .prefixPhase } s)

section
variable {sym : Sym} {s : State}

theorem parseSymbol_prefixPhase (hsym : sym.toNat ≤ s.rle.m.toNat) (hp : s.rle.phase = .prefixPhase) :
    parseSymbol sym s = parsePrefix sym s := by
  rw [parseSymbol, if_neg (Nat.not_lt.mpr hsym), hp]

theorem parseSymbol_suffixPhase (hsym : sym.toNat ≤ s.rle.m.toNat) (hp : s.rle.phase = .suffixPhase) :
    parseSymbol sym s = parseSuffix sym s := by
  rw [parseSymbol, if_neg (Nat.not_lt.mpr hsym), hp]

theorem ParseStep.of_prefixPhase {t : State} (hle : sym.toNat ≤ s.rle.m.toNat) (hp : s.rle.phase = .prefixPhase)
    (h : parsePrefix sym s = .ok t) : ParseStep sym s t := by
  unfold parsePrefix at h
  simp only at h
  split_ifs at h with hm hmax hzero <;> cases h
  · exact .escape hp hm hmax
  · exact .whole hp (hle.lt_of_ne (mt BitVec.eq_of_toNat_eq hm)) hzero
  · exact .base hp (hle.lt_of_ne (mt BitVec.eq_of_toNat_eq hm)) (Nat.pos_of_ne_zero hzero)

theorem ParseStep.of_suffixPhase {t : State} (hle : sym.toNat ≤ s.rle.m.toNat) (hp : s.rle.phase = .suffixPhase)
    (h : parseSuffix sym s = .ok t) : ParseStep sym s t := by
  unfold parseSuffix at h
  simp only at h
  split_ifs at h with hm hmax hlast <;> cases h
  · exact .last hp (hle.lt_of_ne (mt BitVec.eq_of_toNat_eq hm)) (Nat.not_lt.mp hmax) (Nat.sub_eq_zero_iff_le.mp hlast)
  · exact .level hp (hle.lt_of_ne (mt BitVec.eq_of_toNat_eq hm)) (Nat.not_lt.mp hmax) (by omega)

theorem ParseStep.effect {t : State} (h : ParseStep sym s t) : parseSymbol sym s = .ok t := by
  cases h with
  | escape hp hsym hd =>
    rw [parseSymbol_prefixPhase (hsym ▸ Nat.le_refl _) hp]
    simp [parsePrefix, hsym, hd]
  | whole hp hsym hd =>
    rw [parseSymbol_prefixPhase hsym.le hp]
    simp [parsePrefix, ne_of_apply_ne BitVec.toNat hsym.ne, hd]
  | base hp hsym hd =>
    rw [parseSymbol_prefixPhase hsym.le hp]
    simp [parsePrefix, ne_of_apply_ne BitVec.toNat hsym.ne, hd.ne']
  | level hp hsym hv hd =>
    have hlast : s.rle.depth - 1 ≠ 0 := by omega
    rw [parseSymbol_suffixPhase hsym.le hp]
    simp [parseSuffix, ne_of_apply_ne BitVec.toNat hsym.ne, Nat.not_lt.mpr hv, hlast]
  | last hp hsym hv hd =>
    rw [parseSymbol_suffixPhase hsym.le hp]
    simp [parseSuffix, ne_of_apply_ne BitVec.toNat hsym.ne, Nat.not_lt.mpr hv, Nat.sub_eq_zero_of_le hd]

/-- A symbol is accepted exactly in the ways listed. -/
theorem parseSymbol_eq_ok_iff {t : State} : parseSymbol sym s = .ok t ↔ ParseStep sym s t := by
  refine ⟨fun h => ?_, ParseStep.effect⟩
  by_cases hlt : s.rle.m.toNat < sym.toNat
  · rw [parseSymbol, if_pos hlt] at h
    cases h
  · have hle := Nat.not_lt.mp hlt
    cases hp : s.rle.phase with
    | prefixPhase => exact .of_prefixPhase hle hp (parseSymbol_prefixPhase hle hp ▸ h)
    | suffixPhase => exact .of_suffixPhase hle hp (parseSymbol_suffixPhase hle hp ▸ h)

/-- RLE.DSYM of a symbol that is accepted. -/
theorem ParseStep.exec {t : State} (h : ParseStep sym s t) (hs : s.ready) : exec (.rleDsym sym) s = .next t :=
  exec_of_effect_ok (i := .rleDsym sym) hs h.effect

/-! ### The parser's errors -/

/-- The value of a symbol in ERRINFO (60_exceptions R242). -/
theorem malformed_symbol (sub : BitVec 8) (sym : Sym) : Raised.malformed sub sym.toNat = ⟨.malformedStream, sub ++ sym.setWidth 56⟩ := by
  rw [Raised.malformed, BitVec.ofNat_toNat]

theorem parseSymbol_above (h : s.rle.m.toNat < sym.toNat) :
    parseSymbol sym s = .error ⟨.malformedStream, subcauseRleSymbol ++ sym.setWidth 56⟩ := by
  rw [parseSymbol, if_pos h, malformed_symbol]

theorem parseSymbol_escape_inSuffix (hp : s.rle.phase = .suffixPhase) (h : sym = s.rle.m) :
    parseSymbol sym s = .error ⟨.malformedStream, subcauseRleSymbol ++ sym.setWidth 56⟩ := by
  rw [parseSymbol_suffixPhase (h ▸ Nat.le_refl _) hp, parseSuffix, if_pos h, malformed_symbol]

theorem parseSymbol_tooDeep (hp : s.rle.phase = .prefixPhase) (h : sym = s.rle.m) (hd : s.rle.depth = Config.runMax) :
    parseSymbol sym s = .error (.malformed subcauseRleRange s.rle.depth) := by
  rw [parseSymbol_prefixPhase (h ▸ Nat.le_refl _) hp, parsePrefix, if_pos h, if_pos hd]

theorem parseSymbol_tooLong (hp : s.rle.phase = .suffixPhase) (h : sym.toNat < s.rle.m.toNat)
    (hv : Config.runMax < (s.rle.vacc + 1) * s.rle.m.toNat + sym.toNat) :
    parseSymbol sym s = .error (.malformed subcauseRleRange s.rle.depth) := by
  rw [parseSymbol_suffixPhase h.le hp, parseSuffix, if_neg (ne_of_apply_ne BitVec.toNat h.ne)]
  exact if_pos hv

end

/-- Settles O42: one way of accepting a symbol for each part. -/
theorem dsymParsesOneSymbol : Obligations.DsymParsesOneSymbol := by
  unfold Obligations.DsymParsesOneSymbol
  intro s sym hs
  exact ⟨fun hp hsym hd => (ParseStep.escape hp hsym hd).exec hs, fun hp hsym hd => (ParseStep.whole hp hsym hd).exec hs,
    fun hp hsym hd => (ParseStep.base hp hsym hd).exec hs, fun hp hsym hv hd => (ParseStep.level hp hsym hv hd).exec hs,
    fun hp hsym hv hd => (ParseStep.last hp hsym hv hd.le).exec hs⟩

/-- Settles O43: each refused symbol's error, which the latch takes. -/
theorem dsymErrors : Obligations.DsymErrors := by
  unfold Obligations.DsymErrors
  intro s sym hs
  have raises {e : Raised} (h : parseSymbol sym s = .error e) : exec (.rleDsym sym) s = .next (s.raised e (encode (.rleDsym sym))) :=
    exec_of_effect_error (i := .rleDsym sym) hs h
  exact ⟨fun hlt => raises (parseSymbol_above hlt), fun hp hsym => raises (parseSymbol_escape_inSuffix hp hsym),
    fun hp hsym hd => raises (parseSymbol_tooDeep hp hsym hd), fun hp hsym hv => raises (parseSymbol_tooLong hp hsym hv)⟩

end Sys2Proof.Machine
end

section
/-! Words through the parser: a run's word gives the run's token, and what is accepted from rest to rest is words
(43_run_length R176, R177, R179). -/

namespace Sys2Proof.Machine

/-! ### Command sequences -/

theorem execResults_cons {i : Instr} {is : List Instr} {s t u : State} {rs : List Word64} (hi : exec i s = .next t)
    (his : execResults is t = some (rs, u)) : execResults (i :: is) s = some (t.res :: rs, u) := by
  simp [execResults, hi, his]

theorem execResults_singleton {i : Instr} {s t : State} (h : exec i s = .next t) : execResults [i] s = some ([t.res], t) :=
  execResults_cons h rfl

theorem execResults_cons_eq_some {i : Instr} {is : List Instr} {s u : State} {rs : List Word64}
    (h : execResults (i :: is) s = some (rs, u)) :
    ∃ t rs', exec i s = .next t ∧ execResults is t = some (rs', u) ∧ rs = t.res :: rs' := by
  unfold execResults at h
  split at h
  · rename_i t ht
    split at h
    · rename_i rs' u' hu
      cases h
      exact ⟨t, rs', ht, hu, rfl⟩
    · cases h
  · cases h
  · cases h

theorem execResults_append {is js : List Instr} {s t u : State} {rs ps : List Word64} (his : execResults is s = some (rs, t))
    (hjs : execResults js t = some (ps, u)) : execResults (is ++ js) s = some (rs ++ ps, u) := by
  induction is generalizing s rs with
  | nil =>
    cases his
    exact hjs
  | cons i is ih =>
    obtain ⟨v, rs', hi, hrest, rfl⟩ := execResults_cons_eq_some his
    exact execResults_cons hi (ih hrest)

/-- RLE.DSYM of each symbol of a word. -/
def parseCommands (ns : List Nat) : List Instr := ns.map fun n => .rleDsym (BitVec.ofNat 16 n)

theorem parseCommands_append (ns ps : List Nat) : parseCommands (ns ++ ps) = parseCommands ns ++ parseCommands ps :=
  List.map_append

/-! ### The run token -/

@[simp] theorem runToken_sep (sep : Bool) (len : Nat) : (runToken sep len).getLsbD 62 = sep := by
  have h := BitVec.getLsbD_append (x := 1#1 ++ BitVec.ofBool sep) (y := BitVec.ofNat 62 len) (i := 62)
  unfold runToken
  rw [h]
  cases sep <;> rfl

theorem runToken_len (sep : Bool) {len : Nat} (h : len ≤ Config.runMax) :
    ((runToken sep len).extractLsb' 0 62).toNat = len := by
  have hfield : (runToken sep len).extractLsb' 0 62 = BitVec.ofNat 62 len := BitVec.extractLsb'_append_eq_right
  rw [hfield, BitVec.toNat_ofNat, Nat.mod_eq_of_lt (Nat.lt_of_le_pred (by decide) h)]

/-! ### A run's word -/

/-- A number up to the ceiling as a symbol. -/
theorem toNat_symbol {m : BitVec 16} {n : Nat} (h : n ≤ m.toNat) : (BitVec.ofNat 16 n).toNat = n := by
  rw [BitVec.toNat_ofNat, Nat.mod_eq_of_lt (h.trans_lt m.isLt)]

/-- A run's remainder as a symbol. -/
theorem toNat_remainder {m : BitVec 16} (hm : 1 ≤ m.toNat) (l : Nat) : (BitVec.ofNat 16 (l % m.toNat)).toNat = l % m.toNat :=
  toNat_symbol (Nat.mod_lt l hm).le

/-- After an escape (43_run_length R177). -/
def deepened (s : State) : State := (s.setRle { s.rle with depth := s.rle.depth + 1 }).setRes 0

/-- Inside a chain, with the value of the levels rebuilt so far (43_run_length R177). -/
def levelOpened (v : Nat) (s : State) : State := (s.setRle { s.rle with vacc := v, phase := .suffixPhase }).setRes 0

section
variable {m : BitVec 16} {l : Nat} {s : State}

theorem exec_escape (hs : s.ready) (hp : s.rle.phase = .prefixPhase) (hd : s.rle.depth ≠ Config.runMax) :
    exec (.rleDsym (BitVec.ofNat 16 s.rle.m.toNat)) s = .next (deepened s) := by
  rw [BitVec.ofNat_toNat, BitVec.setWidth_eq]
  exact (ParseStep.escape hp rfl hd).exec hs

theorem exec_base (hs : s.ready) (hp : s.rle.phase = .prefixPhase) (h : l < s.rle.m.toNat) (hd : 0 < s.rle.depth) :
    exec (.rleDsym (BitVec.ofNat 16 l)) s = .next (levelOpened l s) := by
  have hsym := toNat_symbol h.le
  have hexec := (ParseStep.base hp (hsym.trans_lt h) hd).exec hs
  rwa [hsym] at hexec

theorem exec_whole (hs : s.ready) (hrest : s.rle.AtRest) (h : l < s.rle.m.toNat) :
    exec (.rleDsym (BitVec.ofNat 16 l)) s = .next (finishRun l s.rle s) := by
  have hsym := toNat_symbol h.le
  have hexec := (ParseStep.whole hrest.phase (hsym.trans_lt h) hrest.depth).exec hs
  rwa [hsym] at hexec

/-- The remainder of a run, with the level below it rebuilt: the run is the next value. -/
theorem exec_level (hs : s.ready) (hm : 1 ≤ s.rle.m.toNat) (h : s.rle.m.toNat ≤ l) (hl : l ≤ Config.runMax) (hd : 0 < s.rle.depth) :
    exec (.rleDsym (BitVec.ofNat 16 (l % s.rle.m.toNat))) (levelOpened (l / s.rle.m.toNat - 1) (deepened s)) =
      .next (levelOpened l s) := by
  have hsym := toNat_remainder hm l
  have hvalue := level_rebuild hm h
  rw [← hsym] at hvalue
  have hexec := (ParseStep.level (s := levelOpened (l / s.rle.m.toNat - 1) (deepened s)) rfl
    (hsym.trans_lt (Nat.mod_lt l hm)) (hvalue.trans_le hl) (Nat.succ_le_succ hd)).exec hs
  exact hexec.trans (congrArg (fun v => Host.Outcome.next (levelOpened v s)) hvalue)

theorem RleUnit.AtRest.eta {r : RleUnit} (h : r.AtRest) : { r with depth := 0, phase := .prefixPhase } = r := by
  rw [← h.phase, ← h.depth]

/-- The last remainder of a run: the run is finished. -/
theorem exec_last (hs : s.ready) (hm : 1 ≤ s.rle.m.toNat) (h : s.rle.m.toNat ≤ l) (hl : l ≤ Config.runMax) (hrest : s.rle.AtRest) :
    exec (.rleDsym (BitVec.ofNat 16 (l % s.rle.m.toNat))) (levelOpened (l / s.rle.m.toNat - 1) (deepened s)) =
      .next (finishRun l s.rle s) := by
  have hsym := toNat_remainder hm l
  have hvalue := level_rebuild hm h
  rw [← hsym] at hvalue
  have hdepth : (deepened s).rle.depth ≤ 1 := (congrArg (· + 1) hrest.depth).le
  have hexec := (ParseStep.last (s := levelOpened (l / s.rle.m.toNat - 1) (deepened s)) rfl
    (hsym.trans_lt (Nat.mod_lt l hm)) (hvalue.trans_le hl) hdepth).exec hs
  have hfinished : finishRun ((l / s.rle.m.toNat - 1 + 1) * s.rle.m.toNat + (BitVec.ofNat 16 (l % s.rle.m.toNat)).toNat)
      { s.rle with depth := 0, phase := .prefixPhase } s = finishRun l s.rle s := by
    rw [hvalue, hrest.eta]
  exact hexec.trans (congrArg _ hfinished)

/-- The results of a word of at least one escape, from the escape, the word one level down and the remainder. -/
theorem execResults_level {m : Nat} {a b t : State} (hm : 1 ≤ m) (h : m ≤ l)
    (hescape : exec (.rleDsym (BitVec.ofNat 16 m)) s = .next a) (hres : a.res = 0)
    (hword : execResults (parseCommands (runCode m (l / m - 1))) a = some (List.replicate (runCode m (l / m - 1)).length 0, b))
    (hlast : exec (.rleDsym (BitVec.ofNat 16 (l % m))) b = .next t) :
    execResults (parseCommands (runCode m l)) s = some (List.replicate ((runCode m l).length - 1) 0 ++ [t.res], t) := by
  have hlength : (runCode m l).length - 1 = (runCode m (l / m - 1)).length + 1 := by
    rw [length_runCode_of_ge hm h]
    rfl
  have hcommands : parseCommands (runCode m l) = .rleDsym (BitVec.ofNat 16 m) ::
      (parseCommands (runCode m (l / m - 1)) ++ [.rleDsym (BitVec.ofNat 16 (l % m))]) := by
    rw [runCode_of_ge hm h]
    simp [parseCommands]
  rw [hcommands, execResults_cons hescape (execResults_append hword (execResults_singleton hlast)), hres, hlength,
    List.replicate_succ, List.cons_append]

/-- Behind at least one escape, the word of a run is read without a token and leaves the run's value in VACC. -/
theorem parse_inner_word (hm : 1 ≤ m.toNat) (hs : s.ready) (hsm : s.rle.m = m) (hp : s.rle.phase = .prefixPhase)
    (hd : 0 < s.rle.depth) (hl : s.rle.depth + l ≤ Config.runMax) :
    execResults (parseCommands (runCode m.toNat l)) s =
      some (List.replicate (runCode m.toNat l).length 0, levelOpened l s) := by
  induction l using run_induction hm generalizing s with
  | base l h =>
    subst hsm
    rw [runCode_of_lt h]
    exact execResults_singleton (exec_base hs hp h hd)
  | level l h ih =>
    subst hsm
    have hlt := level_lt hm h
    have hdepth : (deepened s).rle.depth = s.rle.depth + 1 := rfl
    have hinner := ih (s := deepened s) hs rfl hp (Nat.succ_pos _) (by omega)
    rw [execResults_level hm h (exec_escape hs hp (by omega)) rfl hinner (exec_level hs hm h (by omega) hd),
      length_runCode_of_ge hm h]
    exact congrArg (fun rs => some (rs, levelOpened l s)) List.replicate_succ'.symm

/-- From rest the word of a run gives results of 0 and then the run's token (43_run_length R179). -/
theorem parse_word (hm : 1 ≤ s.rle.m.toNat) (hs : s.ready) (hrest : s.rle.AtRest) (hl : l ≤ Config.runMax) :
    execResults (parseCommands (runCode s.rle.m.toNat l)) s =
      some (List.replicate ((runCode s.rle.m.toNat l).length - 1) 0 ++ [runToken (!s.rle.first) l], finishRun l s.rle s) := by
  by_cases h : l < s.rle.m.toNat
  · rw [runCode_of_lt h]
    exact execResults_singleton (exec_whole hs hrest h)
  · have hge := Nat.not_lt.mp h
    have hlt := level_lt hm hge
    have hdepth : (deepened s).rle.depth = 1 := congrArg (· + 1) hrest.depth
    have hinner := parse_inner_word (l := l / s.rle.m.toNat - 1) (s := deepened s) hm hs rfl hrest.phase (by omega) (by omega)
    exact execResults_level hm hge (exec_escape hs hrest.phase (by rw [hrest.depth]; decide)) rfl hinner
      (exec_last hs hm hge hl hrest)

end

/-- Settles O44: the parser rebuilds a run level by level. -/
theorem runWordDecodes : Obligations.RunWordDecodes := by
  unfold Obligations.RunWordDecodes
  intro s l hs hm hl hp hd
  exact ⟨finishRun l s.rle s, parse_word hm hs ⟨hp, hd⟩ hl, rfl⟩

/-! ### What the parser has accepted of a word not yet complete -/

/-- The part of a word the parser has taken: its escapes, and in the SUFFIX phase the word of the levels rebuilt so far, each of which
takes the place of its own symbols. -/
def RleUnit.openWord (r : RleUnit) : List Nat :=
  List.replicate r.depth r.m.toNat ++
    match r.phase with
    | .prefixPhase => []
    | .suffixPhase => runCode r.m.toNat r.vacc

theorem RleUnit.openWord_prefixPhase {r : RleUnit} (h : r.phase = .prefixPhase) : r.openWord = List.replicate r.depth r.m.toNat := by
  rw [RleUnit.openWord, h, List.append_nil]

theorem RleUnit.openWord_suffixPhase {r : RleUnit} (h : r.phase = .suffixPhase) :
    r.openWord = List.replicate r.depth r.m.toNat ++ runCode r.m.toNat r.vacc := by
  rw [RleUnit.openWord, h]

theorem RleUnit.AtRest.openWord {r : RleUnit} (h : r.AtRest) : r.openWord = [] := by
  rw [RleUnit.openWord_prefixPhase h.phase, h.depth, List.replicate_zero]

/-- A word behind `d + 1` escapes and its remainder are the word one level up, behind `d` escapes. -/
theorem escapes_word_remainder {m r : Nat} (hr : r < m) (d v : Nat) :
    List.replicate (d + 1) m ++ runCode m v ++ [r] = List.replicate d m ++ runCode m ((v + 1) * m + r) := by
  rw [runCode_rebuild hr, List.replicate_succ']
  simp

/-- In the SUFFIX phase a chain is open (43_run_length R178). -/
def RleUnit.ChainOpen (r : RleUnit) : Prop := r.phase = .suffixPhase → 0 < r.depth

theorem RleUnit.ChainOpen.of_prefixPhase {r : RleUnit} (h : r.phase = .prefixPhase) : r.ChainOpen := fun hs => by
  rw [h] at hs
  cases hs

/-- What one accepted symbol does to the word being taken: it goes on with no token, or it ends with the run's. -/
structure WordStep (sym : Sym) (s t : State) : Prop where
  ceiling : t.rle.m = s.rle.m
  chain : t.rle.ChainOpen
  word : (t.res = 0 ∧ t.rle.openWord = s.rle.openWord ++ [sym.toNat]) ∨
    ∃ l, l ≤ Config.runMax ∧ t.res = runToken (!s.rle.first) l ∧ t.rle.openWord = [] ∧
      s.rle.openWord ++ [sym.toNat] = runCode s.rle.m.toNat l

theorem ParseStep.wordStep {sym : Sym} {s t : State} (h : ParseStep sym s t) (hchain : s.rle.ChainOpen) : WordStep sym s t := by
  cases h with
  | escape hp hsym hd =>
    refine ⟨rfl, .of_prefixPhase hp, .inl ⟨rfl, ?_⟩⟩
    rw [RleUnit.openWord_prefixPhase hp, hsym, ← List.replicate_succ']
    exact RleUnit.openWord_prefixPhase hp
  | whole hp hsym hd =>
    have hrest : s.rle.AtRest := ⟨hp, hd⟩
    have hmax : sym.toNat ≤ Config.runMax := sym.isLt.le.trans (by decide)
    refine ⟨rfl, .of_prefixPhase hp, .inr ⟨sym.toNat, hmax, rfl, RleUnit.AtRest.openWord ⟨hp, hd⟩, ?_⟩⟩
    rw [hrest.openWord, runCode_of_lt hsym, List.nil_append]
  | base hp hsym hd =>
    refine ⟨rfl, fun _ => hd, .inl ⟨rfl, ?_⟩⟩
    rw [RleUnit.openWord_prefixPhase hp, ← runCode_of_lt hsym]
    exact RleUnit.openWord_suffixPhase rfl
  | level hp hsym hv hd =>
    refine ⟨rfl, fun _ => Nat.sub_pos_of_lt hd, .inl ⟨rfl, ?_⟩⟩
    have hrebuilt : s.rle.openWord ++ [sym.toNat] = List.replicate (s.rle.depth - 1) s.rle.m.toNat ++
        runCode s.rle.m.toNat ((s.rle.vacc + 1) * s.rle.m.toNat + sym.toNat) := by
      rw [← escapes_word_remainder hsym, Nat.sub_add_cancel (Nat.one_le_of_lt hd), RleUnit.openWord_suffixPhase hp]
    rw [hrebuilt]
    exact RleUnit.openWord_suffixPhase hp
  | last hp hsym hv hd =>
    have hdepth : s.rle.depth = 0 + 1 := Nat.le_antisymm hd (hchain hp)
    refine ⟨rfl, .of_prefixPhase rfl, .inr ⟨_, hv, rfl, RleUnit.AtRest.openWord ⟨rfl, rfl⟩, ?_⟩⟩
    rw [RleUnit.openWord_suffixPhase hp, hdepth, escapes_word_remainder hsym, List.replicate_zero, List.nil_append]

/-! ### What is accepted from rest to rest -/

/-- A command that does not run under the latch leaves a latched error latched (60_exceptions R247). -/
theorem ready_of_exec {i : Instr} (hi : opcodeRunsLatched i.opcode = false) {s t : State} (h : exec i s = .next t) (ht : t.ready) :
    s.ready := by
  by_contra hs
  rw [exec_eq_runCommand, runCommand_blocked hs hi] at h
  cases h
  exact hs ht

theorem ready_of_execResults_rleDsym {syms : List Sym} {s t : State} {rs : List Word64}
    (h : execResults (syms.map .rleDsym) s = some (rs, t)) (ht : t.ready) : s.ready := by
  induction syms generalizing s rs with
  | nil =>
    cases h
    exact ht
  | cons sym syms ih =>
    obtain ⟨u, rs', hu, hrest, -⟩ := execResults_cons_eq_some h
    exact ready_of_exec (i := .rleDsym sym) rfl hu (ih hrest)

/-- In a sequence that ends with no error, each symbol is accepted. -/
theorem parseStep_of_execResults {sym : Sym} {syms : List Sym} {s t : State} {rs : List Word64}
    (h : execResults ((sym :: syms).map .rleDsym) s = some (rs, t)) (ht : t.ready) :
    ∃ u rs', ParseStep sym s u ∧ execResults (syms.map .rleDsym) u = some (rs', t) ∧ rs = u.res :: rs' := by
  obtain ⟨u, rs', hu, hrest, hrs⟩ := execResults_cons_eq_some h
  have hready := ready_of_execResults_rleDsym hrest ht
  refine ⟨u, rs', ?_, hrest, hrs⟩
  rcases exec_cases hu with ⟨hs, rfl⟩ | heff | ⟨e, heff, -, rfl⟩
  · exact absurd hready hs
  · exact parseSymbol_eq_ok_iff.mp heff
  · exact absurd hready (parseSymbol_raisesProperly _ _ _ heff).set

/-- The runs of the VALID tokens among results (43_run_length R176). -/
def tokenRuns (rs : List Word64) : List Nat := (rs.filter fun r => r.getLsbD 63).map fun r => (r.extractLsb' 0 62).toNat

theorem tokenRuns_zero_cons (rs : List Word64) : tokenRuns (0 :: rs) = tokenRuns rs := by simp [tokenRuns]

theorem tokenRuns_token_cons (sep : Bool) {l : Nat} (hl : l ≤ Config.runMax) (rs : List Word64) :
    tokenRuns (runToken sep l :: rs) = l :: tokenRuns rs := by
  rw [tokenRuns, List.filter_cons_of_pos (p := fun r : Word64 => r.getLsbD 63) (runToken_valid sep l), List.map_cons,
    runToken_len sep hl, tokenRuns]

/-- Symbols accepted up to rest complete the word being taken, and go on with words of runs; the tokens are these runs. -/
theorem accepted_are_words {syms : List Sym} {s t : State} {rs : List Word64} (h : execResults (syms.map .rleDsym) s = some (rs, t))
    (ht : t.ready) (hrest : t.rle.AtRest) (hchain : s.rle.ChainOpen) :
    ∃ runs : List Nat, (∀ l ∈ runs, l ≤ Config.runMax) ∧
      s.rle.openWord ++ syms.map BitVec.toNat = runs.flatMap (runCode s.rle.m.toNat) ∧ tokenRuns rs = runs := by
  induction syms generalizing s rs with
  | nil =>
    cases h
    exact ⟨[], List.forall_mem_nil _, by rw [hrest.openWord]; rfl, rfl⟩
  | cons sym syms ih =>
    obtain ⟨u, rs', hstep, hsyms, rfl⟩ := parseStep_of_execResults h ht
    obtain ⟨hm, huchain, hword⟩ := hstep.wordStep hchain
    obtain ⟨runs, hruns, hwords, htokens⟩ := ih hsyms huchain
    rw [hm] at hwords
    rw [List.map_cons, List.append_cons]
    rcases hword with ⟨hres, hopen⟩ | ⟨l, hl, hres, hopen, hdone⟩
    · exact ⟨runs, hruns, hopen ▸ hwords, by rw [hres, tokenRuns_zero_cons, htokens]⟩
    · refine ⟨l :: runs, List.forall_mem_cons.mpr ⟨hl, hruns⟩, ?_, by rw [hres, tokenRuns_token_cons _ hl, htokens]⟩
      rw [hdone, List.flatMap_cons, ← hwords, hopen, List.nil_append]

/-- Settles O45: at rest no word is being taken. -/
theorem acceptedSymbolsAreRunWords : Obligations.AcceptedSymbolsAreRunWords := by
  unfold Obligations.AcceptedSymbolsAreRunWords
  intro s t syms rs _ _ hp hd h ht htp htd
  obtain ⟨runs, hruns, hwords, htokens⟩ := accepted_are_words h ht ⟨htp, htd⟩ (.of_prefixPhase hp)
  have hopen : s.rle.openWord = [] := RleUnit.AtRest.openWord ⟨hp, hd⟩
  rw [hopen, List.nil_append] at hwords
  exact ⟨runs, hruns, hwords, htokens⟩

end Sys2Proof.Machine
end

section
/-! A binary array through both sides: the encoder queues the words of its runs, the parser gives them back as tokens
(43_run_length R173 to R176, R181 to R183). -/

namespace Sys2Proof.Machine

/-! ### The runs of a bit array -/

theorem runsFrom_zero_cons (run : Nat) (bits : List (BitVec 1)) : runsFrom run (0 :: bits) = runsFrom (run + 1) bits := rfl

theorem runsFrom_one_cons (run : Nat) (bits : List (BitVec 1)) : runsFrom run (1 :: bits) = run :: runsFrom 0 bits := rfl

/-- The run being counted is part of a run of the array. -/
theorem exists_mem_runsFrom_ge (run : Nat) (bits : List (BitVec 1)) : ∃ l ∈ runsFrom run bits, run ≤ l := by
  induction bits generalizing run with
  | nil => exact ⟨run, List.mem_singleton_self run, le_rfl⟩
  | cons b bits ih =>
    rcases BitVec.eq_zero_or_eq_one b with rfl | rfl
    · obtain ⟨l, hl, hle⟩ := ih (run + 1)
      exact ⟨l, hl, Nat.le_of_succ_le hle⟩
    · exact ⟨run, List.mem_cons_self, le_rfl⟩

/-- The bits before a run: the one that ends the run before it. -/
def separator (first : Bool) : List (BitVec 1) := if first then [] else [1]

/-- The bit array of a sequence of runs; `first` says that no run came before. -/
def runBits : Bool → List Nat → List (BitVec 1)
  | _, [] => []
  | first, l :: ls => separator first ++ List.replicate l 0 ++ runBits false ls

theorem runBits_runsFrom (first : Bool) (run : Nat) (bits : List (BitVec 1)) :
    runBits first (runsFrom run bits) = separator first ++ List.replicate run 0 ++ bits := by
  induction bits generalizing first run with
  | nil => rfl
  | cons b bits ih =>
    rcases BitVec.eq_zero_or_eq_one b with rfl | rfl
    · calc runBits first (runsFrom (run + 1) bits)
          = separator first ++ List.replicate (run + 1) 0 ++ bits := ih first (run + 1)
        _ = separator first ++ List.replicate run 0 ++ 0 :: bits := by
          rw [List.replicate_succ', ← List.append_assoc, List.append_assoc _ [0], List.singleton_append]
    · calc runBits first (run :: runsFrom 0 bits)
          = separator first ++ List.replicate run 0 ++ runBits false (runsFrom 0 bits) := rfl
        _ = separator first ++ List.replicate run 0 ++ 1 :: bits := by rw [ih false 0]; rfl

/-! ### The encoder -/

/-- The word of a run within the unit's bounds fits in an empty queue (43_run_length R180, R183). -/
theorem length_runCode_le_rleqDepth {m l : Nat} (hm : 1 ≤ m) (hl : l ≤ Config.runMax) (hone : m = 1 → l ≤ 127) :
    (runCode m l).length ≤ Config.rleqDepth := by
  rcases hm.eq_or_lt with rfl | htwo
  · have hbound : l < wordBound 1 (127 + 1) := by
      rw [wordBound_one]
      exact Nat.lt_succ_of_le (hone rfl)
    exact (length_runCode_le hm hbound).trans (by decide)
  · exact (length_runCode_le_of_two_le htwo hl).trans (by decide)

/-- As many RLE.POP as symbols in the queue return them in order and leave the queue empty (43_run_length R175). -/
theorem pop_all {s : State} (hs : s.ready) : ∃ v, execResults (List.replicate s.rle.queue.length .rlePop) s =
    some (s.rle.queue.map (BitVec.setWidth 64), (s.setRle { s.rle with queue := [] }).setRes v) := by
  induction hq : s.rle.queue generalizing s with
  | nil =>
    refine ⟨s.res, congrArg (fun u => some ([], u)) ?_⟩
    rw [← hq]
    rfl
  | cons q rest ih =>
    obtain ⟨v, hrest⟩ := ih (s := (s.setRle { s.rle with queue := rest }).setRes (q.setWidth 64)) hs rfl
    have hpop : exec .rlePop s = .next ((s.setRle { s.rle with queue := rest }).setRes (q.setWidth 64)) :=
      exec_of_effect_ok (i := .rlePop) hs (congrArg _ (popSymbol_cons hq))
    exact ⟨v, execResults_cons hpop hrest⟩

/-- The symbols of a queued word, as RLE.POP returns them. -/
theorem toNat_popped {m : BitVec 16} (hm : 1 ≤ m.toNat) (l : Nat) :
    (((runCode m.toNat l).map (BitVec.ofNat 16)).map (BitVec.setWidth 64)).map BitVec.toNat = runCode m.toNat l := by
  have hsymbol (n : Nat) (hn : n ∈ runCode m.toNat l) : ((BitVec.ofNat 16 n).setWidth 64).toNat = n := by
    rw [BitVec.toNat_setWidth_of_le (by decide), toNat_symbol (le_of_mem_runCode hm hn)]
  rw [List.map_map, List.map_map]
  exact (List.map_congr_left hsymbol).trans (List.map_id' _)

/-- A command that ends a run, with the queue empty: popping the queue gives the run's word, and the unit counts from 0 again. -/
theorem pop_run {s : State} (hs : s.ready) (hm : 1 ≤ s.rle.m.toNat) (hq : s.rle.queue = []) :
    ∃ qs v, execResults (List.replicate (runQueued s).rle.queue.length .rlePop) (runQueued s) =
        some (qs, (s.setRle { s.rle with run := 0 }).setRes v) ∧
      qs.map BitVec.toNat = runCode s.rle.m.toNat s.rle.run := by
  have hqueue : (runQueued s).rle.queue = (runCode s.rle.m.toNat s.rle.run).map (BitVec.ofNat 16) := by
    simp [runQueued, hq]
  have hemptied : (runQueued s).setRle { (runQueued s).rle with queue := [] } = s.setRle { s.rle with run := 0 } := by
    rw [← hq]
    rfl
  obtain ⟨v, hpops⟩ := pop_all (s := runQueued s) hs
  rw [hemptied] at hpops
  exact ⟨_, v, hpops, by rw [hqueue, toNat_popped hm]⟩

theorem encodeArray_nil {s t u : State} {qs : List Word64} (hend : exec .rleEend s = .next t)
    (hpop : execResults (List.replicate t.rle.queue.length .rlePop) t = some (qs, u)) : encodeArray [] s = some (qs, u) := by
  simp [encodeArray, hend, hpop]

theorem encodeArray_cons {b : BitVec 1} {bits : List (BitVec 1)} {s t u v : State} {qs rs : List Word64}
    (hbit : exec (.rleEbit b) s = .next t) (hpop : execResults (List.replicate t.rle.queue.length .rlePop) t = some (qs, u))
    (hrest : encodeArray bits u = some (rs, v)) : encodeArray (b :: bits) s = some (qs ++ rs, v) := by
  simp [encodeArray, hbit, hpop, hrest]

/-- The bounds on a run under which the encoder takes it: RUN_MAX, and its word fits in the queue (43_run_length R183). -/
def RunFits (m l : Nat) : Prop := l ≤ Config.runMax ∧ (runCode m l).length ≤ Config.rleqDepth

theorem emitRun_of_fits {s : State} (hq : s.rle.queue = []) (h : RunFits s.rle.m.toNat s.rle.run) : emitRun s = .ok (runQueued s) :=
  emitRun_fits (by rw [hq, List.length_nil, Nat.zero_add]; exact h.2)

/-- The encoder side of an array: the symbols popped are the words of its runs (43_run_length R181, R182). -/
theorem encodeArray_words {bits : List (BitVec 1)} {s : State} (hs : s.ready) (hm : 1 ≤ s.rle.m.toNat) (hq : s.rle.queue = [])
    (hfits : ∀ l ∈ runsFrom s.rle.run bits, RunFits s.rle.m.toNat l) :
    ∃ syms t, encodeArray bits s = some (syms, t) ∧
      syms.map BitVec.toNat = (runsFrom s.rle.run bits).flatMap (runCode s.rle.m.toNat) ∧ t.rle.run = 0 ∧ t.rle.queue = [] := by
  induction bits generalizing s with
  | nil =>
    have hrun := hfits _ (List.mem_singleton_self _)
    have hexec : exec .rleEend s = .next (runQueued s) := exec_of_effect_ok (i := .rleEend) hs (emitRun_of_fits hq hrun)
    obtain ⟨qs, v, hpops, hword⟩ := pop_run hs hm hq
    refine ⟨qs, (s.setRle { s.rle with run := 0 }).setRes v, encodeArray_nil hexec hpops, ?_, rfl, hq⟩
    rw [hword, runsFrom, List.flatMap_singleton]
  | cons b bits ih =>
    rcases BitVec.eq_zero_or_eq_one b with rfl | rfl
    · obtain ⟨l, hl, hle⟩ := exists_mem_runsFrom_ge (s.rle.run + 1) bits
      have hrun : s.rle.run ≠ Config.runMax := Nat.ne_of_lt (hle.trans (hfits l hl).1)
      have hexec := exec_of_effect_ok (i := .rleEbit 0) hs (encodeBit_zero hrun)
      obtain ⟨syms, t, hrest, hwords, hend⟩ := ih (s := s.setRle { s.rle with run := s.rle.run + 1 }) hs hm hq hfits
      refine ⟨syms, t, ?_, hwords, hend⟩
      exact encodeArray_cons (qs := []) hexec (by rw [State.setRle_rle, hq]; rfl) hrest
    · have hrun := hfits _ List.mem_cons_self
      have hexec := exec_of_effect_ok (i := .rleEbit 1) hs (emitRun_of_fits hq hrun)
      obtain ⟨qs, v, hpops, hword⟩ := pop_run hs hm hq
      obtain ⟨syms, t, hrest, hwords, hend⟩ := ih (s := (s.setRle { s.rle with run := 0 }).setRes v) hs hm hq
        fun l hl => hfits l (List.mem_cons_of_mem _ hl)
      refine ⟨qs ++ syms, t, encodeArray_cons hexec hpops hrest, ?_, hend⟩
      rw [List.map_append, hword, hwords]
      rfl

/-! ### The decoder -/

theorem tokenBits_zero : tokenBits 0 = [] := by simp [tokenBits]

theorem tokenBits_runToken (first : Bool) {l : Nat} (hl : l ≤ Config.runMax) :
    tokenBits (runToken (!first) l) = separator first ++ List.replicate l 0 := by
  rw [tokenBits, if_pos (runToken_valid _ l), runToken_sep, runToken_len _ hl]
  cases first <;> rfl

theorem tokenBits_word (first : Bool) (k : Nat) {l : Nat} (hl : l ≤ Config.runMax) :
    (List.replicate k 0 ++ [runToken (!first) l]).flatMap tokenBits = separator first ++ List.replicate l 0 := by
  rw [List.flatMap_append, List.flatMap_replicate, tokenBits_zero, List.flatten_replicate_nil, List.nil_append,
    List.flatMap_singleton, tokenBits_runToken first hl]

/-- The words of runs through the parser: no error, rest again, and tokens that stand for the runs' bits (43_run_length R179, R182). -/
theorem parse_words {runs : List Nat} {m : BitVec 16} {s : State} (hm : 1 ≤ m.toNat) (hs : s.ready) (hsm : s.rle.m = m)
    (hrest : s.rle.AtRest) (hruns : ∀ l ∈ runs, l ≤ Config.runMax) :
    ∃ tokens t, execResults (parseCommands (runs.flatMap (runCode m.toNat))) s = some (tokens, t) ∧ t.ready ∧ t.rle.AtRest ∧
      tokens.flatMap tokenBits = runBits s.rle.first runs := by
  induction runs generalizing s with
  | nil => exact ⟨[], s, rfl, hs, hrest, rfl⟩
  | cons l runs ih =>
    subst hsm
    obtain ⟨hl, hmore⟩ := List.forall_mem_cons.mp hruns
    obtain ⟨tokens, t, hwords, ht, htrest, hbits⟩ := ih (s := finishRun l s.rle s) hs rfl ⟨hrest.phase, hrest.depth⟩ hmore
    rw [List.flatMap_cons, parseCommands_append]
    refine ⟨_, t, execResults_append (parse_word hm hs hrest hl) hwords, ht, htrest, ?_⟩
    rw [List.flatMap_append, tokenBits_word s.rle.first _ hl, hbits]
    rfl

/-- The symbols popped, as operands of RLE.DSYM. -/
theorem parseCommands_toNat (syms : List Word64) :
    parseCommands (syms.map BitVec.toNat) = syms.map fun q => .rleDsym (q.setWidth 16) := by
  rw [parseCommands, List.map_map]
  exact List.map_congr_left fun q _ => congrArg Instr.rleDsym (BitVec.ofNat_toNat 16 q)

/-- Settles O46: the symbols popped are the words of the runs, and their tokens stand for the array. -/
theorem binaryArrayRoundTrip : Obligations.BinaryArrayRoundTrip := by
  unfold Obligations.BinaryArrayRoundTrip
  intro bits s u hs hu hm hum hrun hq hup hud hufirst hmax hone
  have hfits : ∀ l ∈ runsFrom s.rle.run bits, RunFits s.rle.m.toNat l := fun l hl => by
    rw [hrun] at hl
    exact ⟨hmax l hl, length_runCode_le_rleqDepth hm (hmax l hl) fun h => hone (BitVec.eq_of_toNat_eq h) l hl⟩
  obtain ⟨syms, t, henc, hwords, htrun, htq⟩ := encodeArray_words hs hm hq hfits
  rw [hrun] at hwords
  obtain ⟨tokens, v, hdec, hv, ⟨hvp, hvd⟩, hbits⟩ := parse_words hm hu hum ⟨hup, hud⟩ hmax
  rw [← hwords, parseCommands_toNat] at hdec
  refine ⟨syms, tokens, t, v, henc, hwords, htrun, htq, hdec, hv, hvp, hvd, ?_⟩
  rw [hbits, hufirst, runBits_runsFrom]
  rfl

end Sys2Proof.Machine
end

section
/-! The transform functions and the counter entries of the context store (44_predictor R201 to R203, R211). -/

namespace Sys2Proof.Machine

/-! ### Transforms -/

/-- The residual gives the colour back (44_predictor R211). -/
@[simp] theorem inverseTransform_forwardTransform (m : Mode) (v p : Colour) :
    inverseTransform m (forwardTransform m v p) p = v := by
  cases m with
  | xor => exact (BitVec.xor_assoc v p p).trans (by rw [BitVec.xor_self, BitVec.xor_zero])
  | sub => exact BitVec.sub_add_cancel v p

/-- Settles O54: the difference and the sum of two-bit words are those of their numbers mod 4. -/
theorem transformsInvert : Obligations.TransformsInvert := by
  unfold Obligations.TransformsInvert
  refine ⟨fun v p r => ⟨rfl, rfl, ?_, BitVec.toNat_add r p⟩, inverseTransform_forwardTransform, rfl, rfl, rfl, rfl⟩
  have hsub : (forwardTransform .sub v p).toNat = (2 ^ 2 - p.toNat + v.toNat) % 2 ^ 2 := BitVec.toNat_sub v p
  have hp := p.isLt
  omega

/-! ### Counter entries -/

theorem colour_cases (v : Colour) : v = 0 ∨ v = 1 ∨ v = 2 ∨ v = 3 := by
  revert v
  decide

@[simp] theorem CtxEntry.count_zero (e : CtxEntry) : e.count 0#2 = e.c0.toNat := rfl
@[simp] theorem CtxEntry.count_one (e : CtxEntry) : e.count 1#2 = e.c1.toNat := rfl
@[simp] theorem CtxEntry.count_two (e : CtxEntry) : e.count 2#2 = e.c2.toNat := rfl
@[simp] theorem CtxEntry.count_three (e : CtxEntry) : e.count 3#2 = e.c3.toNat := rfl

@[simp] theorem CtxEntry.bump_sat (e : CtxEntry) (v : Colour) : (e.bump v).sat = e.sat := by
  unfold CtxEntry.bump
  split_ifs <;> rfl

/-- A counter below its top goes up by 1 without a wrap (44_predictor R201, R202). -/
theorem CtxEntry.count_bump_same {e : CtxEntry} {v : Colour} (h : e.count v ≠ counterMax v) :
    (e.bump v).count v = e.count v + 1 := by
  have wide (c : BitVec 12) (hc : c.toNat ≠ 4095) : (c + 1).toNat = c.toNat + 1 := by bv_omega
  have narrow (c : BitVec 11) (hc : c.toNat ≠ 2047) : (c + 1).toNat = c.toNat + 1 := by bv_omega
  rcases colour_cases v with rfl | rfl | rfl | rfl
  · exact wide e.c0 h
  · exact wide e.c1 h
  · exact wide e.c2 h
  · exact narrow e.c3 h

/-- The other counters stay. -/
theorem CtxEntry.count_bump_other (e : CtxEntry) {u v : Colour} (h : u ≠ v) : (e.bump v).count u = e.count u := by
  rcases colour_cases v with rfl | rfl | rfl | rfl <;> rcases colour_cases u with rfl | rfl | rfl | rfl <;>
    simp [CtxEntry.bump] at h ⊢

theorem CtxEntry.update_frozen {e : CtxEntry} (h : e.sat = true) (v : Colour) : e.update v = e := by
  rw [CtxEntry.update, if_pos h]

theorem CtxEntry.update_full {e : CtxEntry} {v : Colour} (h : e.sat = false) (hfull : e.count v = counterMax v) :
    e.update v = { e with sat := true } := by
  rw [CtxEntry.update, if_neg (by simp [h]), if_pos hfull]

theorem CtxEntry.update_counts {e : CtxEntry} {v : Colour} (h : e.sat = false) (hroom : e.count v ≠ counterMax v) :
    e.update v = e.bump v := by
  rw [CtxEntry.update, if_neg (by simp [h]), if_neg hroom]

/-- The vote is the least colour whose count no other count passes (44_predictor R203). -/
theorem CtxEntry.vote_spec (e : CtxEntry) :
    (∀ u : Colour, e.count u ≤ e.count e.vote) ∧ ∀ u : Colour, u < e.vote → e.count u < e.count e.vote := by
  have hall (P : Colour → Prop) : (∀ u, P u) ↔ P 0 ∧ P 1 ∧ P 2 ∧ P 3 :=
    ⟨fun h => ⟨h 0, h 1, h 2, h 3⟩, fun ⟨h0, h1, h2, h3⟩ u => by
      rcases colour_cases u with rfl | rfl | rfl | rfl <;> assumption⟩
  rw [hall, hall]
  unfold CtxEntry.vote
  simp only
  split_ifs with h0 h1 h2 <;> simp at * <;> omega

/-- A counter of colour 3 at its top freezes the entry (44_predictor R202). -/
theorem CtxEntry.update_three_full (a b c : BitVec 12) :
    (CtxEntry.mk a b c 2047 false).update 3 = CtxEntry.mk a b c 2047 true :=
  CtxEntry.update_full rfl rfl

/-- Settles O50: the three cases of an update, and the vote by its specification. -/
theorem counterUpdateAndVote : Obligations.CounterUpdateAndVote := by
  unfold Obligations.CounterUpdateAndVote
  refine ⟨fun e v => ⟨fun h => CtxEntry.update_frozen h v, fun h => ⟨CtxEntry.update_full h, fun hroom => ?_⟩, fun h => ?_⟩,
    fun e => ⟨rfl, rfl, rfl, rfl⟩, CtxEntry.vote_spec, rfl, rfl,
    fun a b c u => ⟨CtxEntry.update_three_full a b c, ?_⟩⟩
  · rw [CtxEntry.update_counts h hroom]
    exact ⟨(e.bump_sat v).trans h, CtxEntry.count_bump_same hroom, fun u hu => e.count_bump_other hu⟩
  · rw [CtxEntry.update_frozen h]
  · rw [CtxEntry.update_three_full, CtxEntry.update_frozen rfl]

end Sys2Proof.Machine
end

section
/-! The context store under Observe and under the commands (44_predictor R209, R215 to R221). -/

namespace Sys2Proof.Machine

/-! ### Observe -/

/-- Putting an entry at a key that is absent lists one more. -/
theorem CtxStore.length_put_absent {c : CtxStore} {key : CtxKey} (h : c.find key = none) (e : CtxEntry) :
    (c.put key e).length = c.length + 1 := by
  induction c with
  | nil => rfl
  | cons d c ih =>
    obtain ⟨k, u⟩ := d
    have hne : key ≠ k := by
      rintro rfl
      simp [CtxStore.find] at h
    simp only [CtxStore.find, if_neg hne] at h
    simp only [CtxStore.put, if_neg hne]
    split_ifs
    · rfl
    · exact congrArg (· + 1) (ih h)

/-- Every other key's entry stays (44_predictor R209). -/
theorem find_observe_other {p : PrdUnit} (h : p.ctx.wf) {k k' : CtxKey} (hk : k' ≠ k) (v : Colour) :
    (p.observe k v).ctx.find k' = p.ctx.find k' := by
  rcases observe_cases p k v with ⟨e, -, ho⟩ | ⟨-, -, ho⟩ | ⟨-, -, ho⟩ <;> rw [ho]
  · exact (CtxStore.find_put h k k' _).trans (if_neg hk)
  · exact (CtxStore.find_put h k k' _).trans (if_neg hk)

/-- An absent key with the store full: CTXFULL is set, nothing learned (44_predictor R209). -/
theorem observe_full {p : PrdUnit} {k : CtxKey} (hk : p.ctx.find k = none) (hfull : p.ctx.length = Config.ctxCap) (v : Colour) :
    p.observe k v = { p with ctxFull := true } := by
  unfold PrdUnit.observe
  rw [hk]
  exact if_pos hfull

/-- An absent key with room in the store: a new entry, updated once (44_predictor R209). -/
theorem observe_absent {p : PrdUnit} {k : CtxKey} (hk : p.ctx.find k = none) (hroom : p.ctx.length ≠ Config.ctxCap) (v : Colour) :
    p.observe k v = { p with ctx := p.ctx.put k (CtxEntry.fresh.update v) } := by
  unfold PrdUnit.observe
  rw [hk]
  exact if_neg hroom

/-- A present key: its entry is updated (44_predictor R209). -/
theorem observe_present {p : PrdUnit} {k : CtxKey} {e : CtxEntry} (hk : p.ctx.find k = some e) (v : Colour) :
    p.observe k v = { p with ctx := p.ctx.put k (e.update v) } := by
  unfold PrdUnit.observe
  rw [hk]

/-! ### Keys that stay -/

/-- Every key of the first store is a key of the second. -/
def KeysStay (c d : CtxStore) : Prop := ∀ (k : CtxKey) (e : CtxEntry), c.find k = some e → ∃ e', d.find k = some e'

theorem KeysStay.refl (c : CtxStore) : KeysStay c c := fun _ e h => ⟨e, h⟩

theorem KeysStay.trans {c d f : CtxStore} (h : KeysStay c d) (h' : KeysStay d f) : KeysStay c f := fun k e hk => by
  obtain ⟨e', hk'⟩ := h k e hk
  exact h' k e' hk'

theorem observe_keysStay {p : PrdUnit} (h : p.ctx.wf) (k : CtxKey) (v : Colour) : KeysStay p.ctx (p.observe k v).ctx := by
  intro k' e hk'
  by_cases hk : k' = k
  · subst hk
    rw [observe_present hk']
    exact ⟨_, (CtxStore.find_put h k' k' _).trans (if_pos rfl)⟩
  · exact ⟨e, (find_observe_other h hk v).trans hk'⟩

theorem observeKey_keysStay {p : PrdUnit} (h : p.ctx.wf) (key : Option CtxKey) (v : Colour) :
    KeysStay p.ctx (p.observeKey key v).ctx := by
  cases key with
  | none => exact .refl _
  | some k => exact observe_keysStay h k v

theorem observeKey_wf {p : PrdUnit} (h : p.ctx.wf) (key : Option CtxKey) (v : Colour) : (p.observeKey key v).ctx.wf := by
  cases key with
  | none => exact h
  | some k => exact observe_wf h k v

theorem learnHash_keysStay {p : PrdUnit} (h : p.ctx.wf) (v : Colour) : KeysStay p.ctx (learnHash v p).ctx := by
  unfold learnHash
  induction p.shapesInUse generalizing p with
  | nil => exact .refl _
  | cons k ks ih => exact (observeKey_keysStay h _ v).trans (ih (observeKey_wf h _ v))

/-- Learning forgets no key (44_predictor R209). -/
theorem learn_keysStay {p : PrdUnit} (h : p.ctx.wf) (v : Colour) : KeysStay p.ctx (learn v p).ctx := by
  unfold learn
  split
  · exact .refl _
  · exact .refl _
  · exact observeKey_keysStay h _ v
  · exact learnHash_keysStay h v

/-! ### The store, command by command -/

/-- The commands that learn (44_predictor R219 to R221). -/
def learns : Instr → Bool
  | .prdLearn _ | .pxEnc _ | .pxDec _ _ => true
  | .nop | .csrr _ | .csrw _ | .srst | .acInit | .acEnc _ | .acDec | .acFlush | .freqWr _ | .freqRd _ | .freqClr | .cumRd _
  | .rleInit | .rleEbit _ | .rleEend | .rlePop | .rleDsym _ | .rleDend | .prdInit | .fldWr _ | .fldRd | .prdForesee => false

/-- The commands that learn are known by their opcodes. -/
theorem learns_iff_opcode (i : Instr) : learns i = true ↔ i.opcode ∈ [0x34#8, 0x35#8, 0x36#8] := by
  cases i <;> simp [learns, Instr.opcode]

theorem RleStep.prd {s t : State} (h : RleStep s t) : t.prd = s.prd := by
  obtain ⟨r, v, rfl⟩ := h
  rfl

theorem csrWrite_ctx (c : Csr) (v : Word64) (s : State) : (csrWrite c v s).prd.ctx = s.prd.ctx := by cases c <;> rfl

theorem readControl_prd {n : BitVec 8} {s t : State} (h : readControl n s = .ok t) : t.prd = s.prd := by
  unfold readControl at h
  split at h <;> cases h
  rfl

theorem writeControl_ctx {n : BitVec 8} {s t : State} (h : writeControl n s = .ok t) : t.prd.ctx = s.prd.ctx := by
  rcases writeControl_cases n s with ⟨-, hw⟩ | ⟨c, -, -, -, hw⟩ | ⟨c, -, -, hw⟩ <;> rw [hw] at h <;> cases h
  exact csrWrite_ctx c s.arg s

theorem readCumulative_prd {sym : Sym} {s t : State} (h : readCumulative sym s = .ok t) : t.prd = s.prd := by
  unfold readCumulative at h
  split_ifs at h
  cases h
  rfl

theorem writeField_ctx {v : Colour} {s t : State} (h : writeField v s = .ok t) : t.prd.ctx = s.prd.ctx := by
  unfold writeField at h
  split_ifs at h
  cases h
  rfl

theorem readField_prd {s t : State} (h : readField s = .ok t) : t.prd = s.prd := by
  unfold readField at h
  split_ifs at h <;> cases h <;> rfl

/-- What the effect of a command does to the context store: PRD.INIT and SRST empty it, a command that learns forgets no key, every other
one leaves it (44_predictor R209). -/
theorem commandEffect_ctx {i : Instr} {s t : State} (hwf : s.prd.ctx.wf) (hinit : i ≠ .prdInit) (hreset : i ≠ .srst)
    (h : commandEffect i s = .ok t) : t.prd.ctx = s.prd.ctx ∨ (learns i = true ∧ KeysStay s.prd.ctx t.prd.ctx) := by
  cases i with
  | srst => exact absurd rfl hreset
  | prdInit => exact absurd rfl hinit
  | nop | acInit | freqWr | freqRd | freqClr | rleInit => cases h; exact .inl rfl
  | csrr n => exact .inl (congrArg PrdUnit.ctx (readControl_prd h))
  | csrw n => exact .inl (writeControl_ctx h)
  | acEnc sym => exact .inl (congrArg PrdUnit.ctx (encodeSymbol_step h).prd)
  | acDec => exact .inl (congrArg PrdUnit.ctx (decodeSymbol_step h).prd)
  | acFlush => exact .inl (congrArg PrdUnit.ctx (flushCoder_step h).prd)
  | cumRd sym => exact .inl (congrArg PrdUnit.ctx (readCumulative_prd h))
  | rleEbit b => exact .inl (congrArg PrdUnit.ctx (encodeBit_rleStep h).prd)
  | rleEend => exact .inl (congrArg PrdUnit.ctx (emitRun_rleStep h).prd)
  | rlePop => cases h; exact .inl (congrArg PrdUnit.ctx (popSymbol_rleStep s).prd)
  | rleDsym sym => exact .inl (congrArg PrdUnit.ctx (parseSymbol_rleStep h).prd)
  | rleDend => exact .inl (congrArg PrdUnit.ctx (endRuns_rleStep h).prd)
  | fldWr v => exact .inl (writeField_ctx h)
  | fldRd => exact .inl (congrArg PrdUnit.ctx (readField_prd h))
  | prdForesee => cases atCursor_eq_ok h; exact .inl rfl
  | prdLearn v =>
    cases atCursor_eq_ok h
    exact .inr ⟨rfl, learn_keysStay (p := s.prd.setCell s.prd.pos v) hwf v⟩
  | pxEnc m =>
    cases atCursor_eq_ok h
    exact .inr ⟨rfl, learn_keysStay hwf _⟩
  | pxDec m r =>
    cases atCursor_eq_ok h
    exact .inr ⟨rfl, learn_keysStay (p := s.prd.setCell s.prd.pos _) hwf _⟩

/-- The latch gate and error entry leave the store. -/
theorem exec_ctx {i : Instr} {s t : State} (hwf : s.prd.ctx.wf) (hinit : i ≠ .prdInit) (hreset : i ≠ .srst)
    (h : exec i s = .next t) : t.prd.ctx = s.prd.ctx ∨ (learns i = true ∧ KeysStay s.prd.ctx t.prd.ctx) := by
  rcases exec_cases h with ⟨-, rfl⟩ | heff | ⟨e, -, -, rfl⟩
  · exact .inl rfl
  · exact commandEffect_ctx hwf hinit hreset heff
  · exact .inl rfl

/-- Settles O51: Observe by the key being absent or present, then the commands by what they do to the store. -/
theorem observeStoresEntries : Obligations.ObserveStoresEntries := by
  unfold Obligations.ObserveStoresEntries
  refine ⟨fun p k v hwf => ⟨fun hk hfull => observe_full hk hfull v, fun hk hroom => ?_, fun e hk => ?_,
    fun k' hk' => find_observe_other hwf hk' v, observe_frame p k v⟩, fun i s t hwf hexec hinit hreset => ?_⟩
  · rw [observe_absent hk hroom]
    exact ⟨(CtxStore.find_put hwf k k _).trans (if_pos rfl), CtxStore.length_put_absent hk _, rfl⟩
  · rw [observe_present hk]
    exact ⟨(CtxStore.find_put hwf k k _).trans (if_pos rfl), CtxStore.length_put_present hwf hk, rfl⟩
  · rcases exec_ctx hwf hinit hreset hexec with hctx | ⟨hlearns, hstay⟩
    · exact ⟨by rw [hctx]; exact KeysStay.refl _, fun _ => hctx⟩
    · exact ⟨hstay, fun hop => absurd ((learns_iff_opcode i).mp hlearns) hop⟩

end Sys2Proof.Machine
end

section
/-! The fields of PRD_CFG as the statements write them, and the field and cursor commands (10_state R56, 44_predictor R215 to R221). -/

namespace Sys2Proof.Machine

/-! ### Fields of PRD_CFG -/

/-- A field of a register holds a number when its bits are that number's. -/
theorem toNat_field_eq {k n : Nat} {c : BitVec k} {start : Nat} (v : BitVec n) (h : c.extractLsb' start n = v) :
    (c.extractLsb' start n).toNat = v.toNat := congrArg BitVec.toNat h

theorem cfgSubst_of_subst {c : BitVec 23} (h : c.extractLsb' 4 2 = 1) : cfgSubst c = true :=
  beq_iff_eq.mpr (toNat_field_eq 1 h)

theorem cfgSubst_of_throw {c : BitVec 23} (h : c.extractLsb' 4 2 = 0) : cfgSubst c = false := by
  have : cfgOobMode c = 0 := toNat_field_eq 0 h
  simp [cfgSubst, this]

/-! ### PRD.INIT, FLD.WR, FLD.RD -/

theorem exec_prdInit {s : State} (hs : s.ready) :
    exec .prdInit s = .next (s.setPrd { s.prd with ctx := [], ctxFull := false, pos := 0 }) :=
  exec_of_effect_ok (i := .prdInit) hs rfl

theorem argInField_eq_true {s : State} : argInField s = true ↔ argX s.arg < s.prd.width.toNat ∧ argY s.arg < s.prd.height.toNat := by
  rw [argInField, Bool.and_eq_true, decide_eq_true_iff, decide_eq_true_iff]

theorem argInField_eq_false {s : State} :
    argInField s = false ↔ s.prd.width.toNat ≤ argX s.arg ∨ s.prd.height.toNat ≤ argY s.arg := by
  rw [← Bool.not_eq_true, argInField_eq_true]
  omega

theorem writeField_inside {s : State} (h : argInField s = true) (v : Colour) :
    writeField v s = .ok (s.setPrd (s.prd.setCell (argIndex s) v)) := by
  rw [writeField, if_pos h]

theorem writeField_outside {s : State} (h : argInField s = false) (v : Colour) : writeField v s = .error (.fieldOob s.arg) := by
  rw [writeField, if_neg (by simp [h])]

theorem readField_inside {s : State} (h : argInField s = true) :
    readField s = .ok (s.setRes ((s.prd.field.read (argIndex s)).setWidth 64)) := by
  rw [readField, if_pos h]

theorem readField_substituted {s : State} (h : argInField s = false) (hmode : cfgSubst s.prd.cfg = true) :
    readField s = .ok (s.setRes ((cfgOobColour s.prd.cfg).setWidth 64)) := by
  rw [readField, if_neg (by simp [h]), if_pos hmode]

theorem readField_thrown {s : State} (h : argInField s = false) (hmode : cfgSubst s.prd.cfg = false) :
    readField s = .error (.fieldOob s.arg) := by
  rw [readField, if_neg (by simp [h]), if_neg (by simp [hmode])]

/-- A cell written reads back, and the others stay. -/
theorem read_setCell {p : PrdUnit} (h : p.field.wf) (i j : Nat) (v : Colour) :
    (p.setCell i v).field.read j = if j = i then v else p.field.read j :=
  Memory.read_write h i j v

theorem read_setCell_same {p : PrdUnit} (h : p.field.wf) (i : Nat) (v : Colour) : (p.setCell i v).field.read i = v :=
  (read_setCell h i i v).trans (if_pos rfl)

theorem read_setCell_other {p : PrdUnit} (h : p.field.wf) {i j : Nat} (hj : j ≠ i) (v : Colour) :
    (p.setCell i v).field.read j = p.field.read j :=
  (read_setCell h i j v).trans (if_neg hj)

/-- Settles O47: the coordinates of ARG are inside the field or outside it, and each command checks just that. -/
theorem fieldCommands : Obligations.FieldCommands := by
  unfold Obligations.FieldCommands
  rintro s x y hs rfl rfl
  refine ⟨⟨_, exec_prdInit hs, fun _ => rfl, rfl, rfl⟩, fun v hwf hx hy => ?_, fun v hout => ?_, fun hx hy => ?_,
    fun hout hmode => ?_, fun hout hmode => ?_⟩
  · exact ⟨_, exec_of_effect_ok (i := .fldWr v) hs (writeField_inside (argInField_eq_true.mpr ⟨hx, hy⟩) v),
      read_setCell_same hwf _ v, fun i hi => read_setCell_other hwf hi v, Memory.write_wf hwf _ v, rfl⟩
  · exact exec_of_effect_error (i := .fldWr v) hs (writeField_outside (argInField_eq_false.mpr hout) v)
  · exact exec_of_effect_ok (i := .fldRd) hs (readField_inside (argInField_eq_true.mpr ⟨hx, hy⟩))
  · exact exec_of_effect_ok (i := .fldRd) hs (readField_substituted (argInField_eq_false.mpr hout) (cfgSubst_of_subst hmode))
  · exact exec_of_effect_error (i := .fldRd) hs (readField_thrown (argInField_eq_false.mpr hout) (cfgSubst_of_throw hmode))

/-! ### The cursor commands -/

theorem atCursor_inside {s : State} (h : s.prd.pos < s.prd.cells) (t : State) : atCursor s t = .ok t := by
  rw [atCursor, if_neg (Nat.not_le.mpr h)]

theorem atCursor_end {s : State} (h : s.prd.cells ≤ s.prd.pos) (t : State) : atCursor s t = .error (.cursorEnd s.prd.pos) := by
  rw [atCursor, if_pos h]

theorem exec_prdForesee {s : State} (hs : s.ready) (h : s.prd.pos < s.prd.cells) :
    exec .prdForesee s = .next (s.setRes ((foresee s.prd).setWidth 64)) :=
  exec_of_effect_ok (i := .prdForesee) hs (atCursor_inside h _)

theorem exec_prdLearn {s : State} (hs : s.ready) (h : s.prd.pos < s.prd.cells) (v : Colour) :
    exec (.prdLearn v) s = .next (s.setPrd (s.prd.record v)) :=
  exec_of_effect_ok (i := .prdLearn v) hs (atCursor_inside h _)

theorem exec_pxEnc {s : State} (hs : s.ready) (h : s.prd.pos < s.prd.cells) (m : Mode) :
    exec (.pxEnc m) s = .next (encodePixel m s) :=
  exec_of_effect_ok (i := .pxEnc m) hs (atCursor_inside h _)

theorem exec_pxDec {s : State} (hs : s.ready) (h : s.prd.pos < s.prd.cells) (m : Mode) (r : Colour) :
    exec (.pxDec m r) s = .next (decodePixel m r s) :=
  exec_of_effect_ok (i := .pxDec m r) hs (atCursor_inside h _)

/-- Recording a colour writes the cursor's cell, learns, and moves the cursor on; nothing else (44_predictor R213, R219). -/
theorem record_eq (p : PrdUnit) (v : Colour) :
    p.record v = { learn v { p with field := (p.record v).field } with pos := p.pos + 1 } := by
  have hfield : (p.record v).field = (p.setCell p.pos v).field := learn_field v _
  have hpos : (p.record v).pos = p.pos + 1 := congrArg (· + 1) (learn_pos v (p.setCell p.pos v))
  rw [hfield, ← hpos]
  rfl

theorem record_field (p : PrdUnit) (v : Colour) : (p.record v).field = p.field.write p.pos v := learn_field v _

/-- Learning leaves the cursor where it was, so that moving on takes it one further. -/
theorem learn_advance_eq (v : Colour) (p : PrdUnit) : (learn v p).advance = { learn v p with pos := p.pos + 1 } := by
  rw [PrdUnit.advance, learn_pos]

/-- Recording writes the cursor's cell and no other. -/
theorem record_cells {p : PrdUnit} (h : p.field.wf) (v : Colour) : (p.record v).field.read p.pos = v ∧
    (∀ i, i ≠ p.pos → (p.record v).field.read i = p.field.read i) ∧ (p.record v).field.wf := by
  rw [record_field]
  exact ⟨read_setCell_same h _ v, fun i hi => read_setCell_other h hi v, Memory.write_wf h _ v⟩

/-- The four cursor commands, past the last cell (44_predictor R218 to R221). -/
theorem exec_cursor_end {s : State} (hs : s.ready) (h : s.prd.cells ≤ s.prd.pos) {i : Instr}
    (hi : i.opcode ∈ [0x33#8, 0x34#8, 0x35#8, 0x36#8]) : exec i s = .next (s.raised (.cursorEnd s.prd.pos) (encode i)) := by
  apply exec_of_effect_error hs
  cases i with
  | prdForesee | prdLearn | pxEnc | pxDec => exact atCursor_end h _
  | _ => simp [Instr.opcode] at hi

/-- Settles O48: before the end each command has its effect, from the end on the cursor check answers. -/
theorem cursorCommands : Obligations.CursorCommands := by
  unfold Obligations.CursorCommands
  intro s hs
  refine ⟨fun hpos => ⟨exec_prdForesee hs hpos, fun v hwf => ?_, fun m v hv => ?_, fun m r v hv hwf => ?_⟩,
    fun hend i hi => exec_cursor_end hs hend hi⟩
  · obtain ⟨hcell, hothers, hfield⟩ := record_cells hwf v
    exact ⟨_, exec_prdLearn hs hpos v, hcell, hothers, hfield, congrArg s.setPrd (record_eq s.prd v)⟩
  · subst hv
    rw [exec_pxEnc hs hpos, encodePixel, learn_advance_eq]
    rfl
  · subst hv
    obtain ⟨hcell, hothers, hfield⟩ := record_cells hwf (inverseTransform m r (foresee s.prd))
    exact ⟨_, exec_pxDec hs hpos m r, hcell, hothers, hfield,
      congrArg (fun p => (s.setPrd p).setRes _) (record_eq s.prd _)⟩

end Sys2Proof.Machine
end

section
/-! Neighbour reads and the HORZVERT rule (44_predictor R192, R198, R199). -/

namespace Sys2Proof.Machine

/-! ### Neighbours -/

theorem nb_inside (p : PrdUnit) {a b : Nat} (ha : a < p.width.toNat) (hb : b < p.height.toNat) :
    p.nb a b = some (p.field.read (b * p.width.toNat + a)) := by
  have hindex : ((b : Int) * p.width.toNat + a).toNat = b * p.width.toNat + a := by
    rw [← Nat.cast_mul, ← Nat.cast_add, Int.toNat_natCast]
  rw [PrdUnit.nb, if_pos (by omega), hindex]

theorem nb_outside (p : PrdUnit) {a b : Int} (h : a < 0 ∨ (p.width.toNat : Int) ≤ a ∨ b < 0 ∨ (p.height.toNat : Int) ≤ b) :
    p.nb a b = if cfgSubst p.cfg then some (cfgOobColour p.cfg) else none := by
  rw [PrdUnit.nb, if_neg (by omega)]

theorem nb_outside_subst {p : PrdUnit} (hmode : cfgSubst p.cfg = true) {a b : Int}
    (h : a < 0 ∨ (p.width.toNat : Int) ≤ a ∨ b < 0 ∨ (p.height.toNat : Int) ≤ b) : p.nb a b = some (cfgOobColour p.cfg) :=
  (nb_outside p h).trans (if_pos hmode)

theorem nb_outside_throw {p : PrdUnit} (hmode : cfgSubst p.cfg = false) {a b : Int}
    (h : a < 0 ∨ (p.width.toNat : Int) ≤ a ∨ b < 0 ∨ (p.height.toNat : Int) ≤ b) : p.nb a b = none :=
  (nb_outside p h).trans (if_neg (by simp [hmode]))

/-- In SUBST every neighbour is available, in either mode every cell of the field is (44_predictor R192). -/
theorem nb_available (p : PrdUnit) {a b : Int}
    (h : cfgSubst p.cfg = true ∨ (0 ≤ a ∧ a < p.width.toNat ∧ 0 ≤ b ∧ b < p.height.toNat)) : ∃ v, p.nb a b = some v := by
  by_cases hin : 0 ≤ a ∧ a < p.width.toNat ∧ 0 ≤ b ∧ b < p.height.toNat
  · exact ⟨_, if_pos hin⟩
  · exact ⟨_, nb_outside_subst (h.resolve_right hin) (by omega)⟩

/-- The cursor's column and row are inside the field (44_predictor R191). -/
theorem cursor_in_field {p : PrdUnit} (h : p.pos < p.cells) : p.x < p.width.toNat ∧ p.y < p.height.toNat := by
  have hw : 0 < p.width.toNat := Nat.pos_of_ne_zero fun h0 => by simp [PrdUnit.cells, h0] at h
  exact ⟨Nat.mod_lt _ hw, Nat.div_lt_of_lt_mul h⟩

/-! ### HORZVERT -/

theorem near_left (p : PrdUnit) : p.near (-1) 0 = p.nb (p.x - 1) p.y := by rw [PrdUnit.near, add_zero, sub_eq_add_neg]
theorem near_above (p : PrdUnit) : p.near 0 (-1) = p.nb p.x (p.y - 1) := by rw [PrdUnit.near, add_zero, sub_eq_add_neg]
theorem near_corner (p : PrdUnit) : p.near (-1) (-1) = p.nb (p.x - 1) (p.y - 1) := by
  rw [PrdUnit.near, sub_eq_add_neg, sub_eq_add_neg]

/-- The rule, with its neighbours as cells of the field (44_predictor R199). -/
theorem predHV_eq (p : PrdUnit) : predHV p =
    if cfgSubst p.cfg ∨ (0 < p.x ∧ 0 < p.y) then
      predHV3 ((p.nb (p.x - 1) p.y).getD 0) ((p.nb p.x (p.y - 1)).getD 0) ((p.nb (p.x - 1) (p.y - 1)).getD 0)
    else if 0 < p.x then (p.nb (p.x - 1) p.y).getD 0
    else if 0 < p.y then (p.nb p.x (p.y - 1)).getD 0
    else 0 := by
  rw [← near_left, ← near_above, ← near_corner]
  rfl

/-- The interior rule, where its three cells are available (44_predictor R198, R199). -/
theorem predHV_interior {p : PrdUnit} {l t tl : Colour} (h : cfgSubst p.cfg = true ∨ (0 < p.x ∧ 0 < p.y))
    (hl : p.nb (p.x - 1) p.y = some l) (ht : p.nb p.x (p.y - 1) = some t) (htl : p.nb (p.x - 1) (p.y - 1) = some tl) :
    predHV p = predHV3 l t tl := by
  rw [predHV_eq, if_pos h, hl, ht, htl]
  rfl

/-- The top row of THROW: the cell on the left (44_predictor R199). -/
theorem predHV_topRow {p : PrdUnit} (hmode : cfgSubst p.cfg = false) (hx : 0 < p.x) (hy : p.y = 0) :
    predHV p = (p.nb (p.x - 1) p.y).getD 0 := by
  rw [predHV_eq, if_neg (by simp [hmode, hy]), if_pos hx]

/-- The left column of THROW: the cell above (44_predictor R199). -/
theorem predHV_leftColumn {p : PrdUnit} (hmode : cfgSubst p.cfg = false) (hx : p.x = 0) (hy : 0 < p.y) :
    predHV p = (p.nb p.x (p.y - 1)).getD 0 := by
  rw [predHV_eq, if_neg (by simp [hmode, hx]), if_neg (by omega), if_pos hy]

theorem predHV_firstPixel {p : PrdUnit} (hmode : cfgSubst p.cfg = false) (hx : p.x = 0) (hy : p.y = 0) : predHV p = 0 := by
  rw [predHV_eq, if_neg (by simp [hmode, hx]), if_neg (by omega), if_neg (by omega)]

/-- The three cells of the interior rule are available where it is used (44_predictor R199). -/
theorem interior_available {p : PrdUnit} (hpos : p.pos < p.cells) (h : cfgSubst p.cfg = true ∨ (0 < p.x ∧ 0 < p.y)) :
    ∃ l t tl : Colour, p.nb (p.x - 1) p.y = some l ∧ p.nb p.x (p.y - 1) = some t ∧ p.nb (p.x - 1) (p.y - 1) = some tl := by
  obtain ⟨hx, hy⟩ := cursor_in_field hpos
  obtain ⟨l, hl⟩ := nb_available p (a := p.x - 1) (b := p.y) (h.imp_right fun h => by omega)
  obtain ⟨t, ht⟩ := nb_available p (a := p.x) (b := p.y - 1) (h.imp_right fun h => by omega)
  obtain ⟨tl, htl⟩ := nb_available p (a := p.x - 1) (b := p.y - 1) (h.imp_right fun h => by omega)
  exact ⟨l, t, tl, hl, ht, htl⟩

theorem getD_of_available {o : Option Colour} (h : ∃ v, o = some v) : o = some (o.getD 0) := by
  obtain ⟨v, rfl⟩ := h
  rfl

/-- The first pixel of SUBST: all three cells are OOB_COLOR (44_predictor R199). -/
theorem predHV_firstPixel_subst {p : PrdUnit} (hmode : cfgSubst p.cfg = true) (hx : p.x = 0) (hy : p.y = 0) :
    predHV p = cfgOobColour p.cfg := by
  rw [predHV_interior (.inl hmode) (nb_outside_subst hmode (by omega)) (nb_outside_subst hmode (by omega))
    (nb_outside_subst hmode (by omega)), predHV3, if_pos rfl]

/-- Settles O52: the cell is inside the field or outside it, and the rule by the cursor's row and column. -/
theorem horzVertRule : Obligations.HorzVertRule := by
  unfold Obligations.HorzVertRule
  refine ⟨fun p => ⟨fun a b ha hb => nb_inside p ha hb, fun a b hout => ⟨fun hmode => ?_, fun hmode => ?_⟩⟩,
    fun s hs hpos => exec_prdForesee hs hpos, ⟨rfl, rfl, rfl⟩, ?_⟩
  · exact nb_outside_subst (cfgSubst_of_subst hmode) hout
  · exact nb_outside_throw (cfgSubst_of_throw hmode) hout
  · intro p hpos _ x y hx hy
    change x = p.x at hx
    change y = p.y at hy
    subst hx hy
    obtain ⟨hxw, hyh⟩ := cursor_in_field hpos
    refine ⟨fun h => ?_, fun hmode hx hy => ?_, fun hmode hx hy => ?_, fun hmode hx hy => ?_, fun hmode hx hy => ?_⟩
    · have hrule : cfgSubst p.cfg = true ∨ (0 < p.x ∧ 0 < p.y) := h.imp_left cfgSubst_of_subst
      obtain ⟨l, t, tl, hl, ht, htl⟩ := interior_available hpos hrule
      refine ⟨l, t, tl, hl, ht, htl, ?_⟩
      rw [predHV_interior hrule hl ht htl]
      exact ⟨fun h1 => if_pos h1, fun h1 h2 => (if_neg h1).trans (if_pos h2), fun h1 h2 => (if_neg h1).trans (if_neg h2)⟩
    · rw [predHV_topRow (cfgSubst_of_throw hmode) hx hy]
      exact getD_of_available (nb_available p (.inr (by omega)))
    · rw [predHV_leftColumn (cfgSubst_of_throw hmode) hx hy]
      exact getD_of_available (nb_available p (.inr (by omega)))
    · exact predHV_firstPixel (cfgSubst_of_throw hmode) hx hy
    · exact predHV_firstPixel_subst (cfgSubst_of_subst hmode) hx hy

end Sys2Proof.Machine
end

section
/-! What Foresee returns and what Learn observes, by KIND (44_predictor R196, R204, R206, R207, R210). -/

namespace Sys2Proof.Machine

/-! ### The four kinds -/

theorem foresee_null {p : PrdUnit} (h : cfgKind p.cfg = 0) : foresee p = 0 := by
  unfold foresee
  rw [h]
  rfl

theorem foresee_horzVert {p : PrdUnit} (h : cfgKind p.cfg = 1) : foresee p = predHV p := by
  unfold foresee
  rw [h]
  rfl

theorem foresee_fixed {p : PrdUnit} (h : cfgKind p.cfg = 2) : foresee p = foreseeFixed p := by
  unfold foresee
  rw [h]
  rfl

theorem foresee_hash {p : PrdUnit} (h : cfgKind p.cfg = 3) : foresee p = foreseeHash p := by
  unfold foresee
  rw [h]
  rfl

theorem learn_null {p : PrdUnit} (h : cfgKind p.cfg = 0) (v : Colour) : learn v p = p := by
  unfold learn
  rw [h]
  rfl

theorem learn_horzVert {p : PrdUnit} (h : cfgKind p.cfg = 1) (v : Colour) : learn v p = p := by
  unfold learn
  rw [h]
  rfl

theorem learn_fixed {p : PrdUnit} (h : cfgKind p.cfg = 2) (v : Colour) : learn v p = p.observeKey p.fixedKey v := by
  unfold learn
  rw [h]
  rfl

theorem learn_hash {p : PrdUnit} (h : cfgKind p.cfg = 3) (v : Colour) : learn v p = learnHash v p := by
  unfold learn
  rw [h]
  rfl

/-! ### The fallback -/

theorem secondary_null {p : PrdUnit} (h : cfgFallback p.cfg = 0) : secondary p = 0 := by
  rw [secondary, if_neg (by omega)]
  rfl

theorem secondary_horzVert {p : PrdUnit} (h : cfgFallback p.cfg = 1) : secondary p = predHV p := if_pos h

/-! ### FIXED -/

theorem foreseeFixed_data {p : PrdUnit} {e : CtxEntry} (h : p.entryAt p.fixedKey = some e) : foreseeFixed p = e.vote := by
  unfold foreseeFixed
  rw [h]

theorem foreseeFixed_noData {p : PrdUnit} (h : p.entryAt p.fixedKey = none) : foreseeFixed p = secondary p := by
  unfold foreseeFixed
  rw [h]

theorem entryAt_some (p : PrdUnit) (key : CtxKey) : p.entryAt (some key) = p.ctx.find key := rfl

/-! ### HASH -/

theorem foreseeHash_data {p : PrdUnit} {e : CtxEntry}
    (h : p.shapesInUse.findSome? (fun k => p.entryAt (p.hashKey k)) = some e) : foreseeHash p = e.vote := by
  unfold foreseeHash
  rw [h]

theorem foreseeHash_noData {p : PrdUnit}
    (h : p.shapesInUse.findSome? (fun k => p.entryAt (p.hashKey k)) = none) : foreseeHash p = secondary p := by
  unfold foreseeHash
  rw [h]

/-- A shape has no data when it is UNAVAIL or its key is absent. -/
theorem entryAt_eq_none_iff (p : PrdUnit) (key : Option CtxKey) :
    p.entryAt key = none ↔ ∀ k, key = some k → p.ctx.find k = none := by
  cases key with
  | none => simp [PrdUnit.entryAt]
  | some k => simp [PrdUnit.entryAt]

theorem mem_shapesInUse {p : PrdUnit} {k : Fin 4} : k ∈ p.shapesInUse ↔ k.val < cfgShapes p.cfg := by
  simp [PrdUnit.shapesInUse]

/-- The shapes are tried in the order of their numbers (44_predictor R207). -/
theorem shapesInUse_sorted (p : PrdUnit) : p.shapesInUse.Pairwise (· < ·) := (List.pairwise_lt_finRange 4).filter _

/-- In a sorted list, what is found is found at its least element with data. -/
theorem findSome?_of_least {α β : Type} [LT α] {l : List α} {f : α → Option β} {a : α} {b : β} (hl : l.Pairwise (· < ·))
    (ha : a ∈ l) (hb : f a = some b) (hleast : ∀ x, x < a → f x = none) : l.findSome? f = some b := by
  obtain ⟨l₁, l₂, rfl⟩ := List.append_of_mem ha
  obtain ⟨-, -, hsorted⟩ := List.pairwise_append.mp hl
  have hbefore : ∀ x ∈ l₁, f x = none := fun x hx => hleast x (hsorted x hx a List.mem_cons_self)
  exact List.findSome?_eq_some_iff.mpr ⟨l₁, a, l₂, rfl, hb, hbefore⟩

/-- The least shape with data votes (44_predictor R207). -/
theorem foreseeHash_least {p : PrdUnit} {k : Fin 4} {e : CtxEntry} (hk : k.val < cfgShapes p.cfg)
    (he : p.entryAt (p.hashKey k) = some e) (hleast : ∀ j, j < k → p.entryAt (p.hashKey j) = none) : foreseeHash p = e.vote :=
  foreseeHash_data (findSome?_of_least (shapesInUse_sorted p) (mem_shapesInUse.mpr hk) he hleast)

/-- The colours at a list of offsets depend on the neighbours at them only. -/
theorem gather_congr {p q : PrdUnit} {offs : List (Int × Int)} (h : ∀ o ∈ offs, p.near o.1 o.2 = q.near o.1 o.2) :
    p.gather offs = q.gather offs := by
  induction offs with
  | nil => rfl
  | cons o offs ih =>
    obtain ⟨ho, hoffs⟩ := List.forall_mem_cons.mp h
    simp only [PrdUnit.gather, ho, ih hoffs]

/-- A key is made of cells: an observation, which changes the store only, changes no key (44_predictor R205, R209). -/
theorem hashKey_observeKey (p : PrdUnit) (key : Option CtxKey) (v : Colour) (k : Fin 4) :
    (p.observeKey key v).hashKey k = p.hashKey k := by
  rw [observeKey_frame]
  exact congrArg (Option.map _) (gather_congr fun _ _ => rfl)

/-- Observing the shapes' keys one after the other is observing the available ones: an observation changes no key. -/
theorem foldl_observeKey (v : Colour) (key : Fin 4 → Option CtxKey) (ks : List (Fin 4)) (q : PrdUnit)
    (hq : ∀ k, q.hashKey k = key k) : ks.foldl (fun q k => q.observeKey (q.hashKey k) v) q =
      (ks.filterMap key).foldl (fun q k => q.observe k v) q := by
  induction ks generalizing q with
  | nil => rfl
  | cons k ks ih =>
    have hnext := ih (q.observeKey (q.hashKey k) v) fun j => (hashKey_observeKey q _ v j).trans (hq j)
    rw [List.foldl_cons, hnext, hq k, List.filterMap_cons]
    cases key k <;> rfl

/-- Every available shape in use learns, in order (44_predictor R207). -/
theorem learnHash_eq (v : Colour) (p : PrdUnit) :
    learnHash v p = (p.shapesInUse.filterMap p.hashKey).foldl (fun q key => q.observe key v) p :=
  foldl_observeKey v p.hashKey p.shapesInUse p fun _ => rfl

/-- Settles O49: kind by kind. -/
theorem foreseeAndLearnByKind : Obligations.ForeseeAndLearnByKind := by
  unfold Obligations.ForeseeAndLearnByKind
  intro p v
  refine ⟨⟨_, _, learn_frame v p⟩, fun h => secondary_null (toNat_field_eq 0 h), fun h => secondary_horzVert (toNat_field_eq 1 h),
    fun h => ?_, fun h => ?_, fun h => ?_, fun h => ?_⟩
  · have hkind : cfgKind p.cfg = 0 := toNat_field_eq 0 h
    exact ⟨foresee_null hkind, learn_null hkind v⟩
  · have hkind : cfgKind p.cfg = 1 := toNat_field_eq 1 h
    exact ⟨foresee_horzVert hkind, learn_horzVert hkind v⟩
  · have hkind : cfgKind p.cfg = 2 := toNat_field_eq 2 h
    rw [foresee_fixed hkind, learn_fixed hkind]
    refine ⟨fun hkey => ⟨foreseeFixed_noData (by rw [hkey]; rfl), by rw [hkey]; rfl⟩, fun key hkey => ?_⟩
    have hentry : p.entryAt p.fixedKey = p.ctx.find key := by rw [hkey, entryAt_some]
    exact ⟨by rw [hkey]; rfl, fun hnone => foreseeFixed_noData (hentry.trans hnone), fun e he => foreseeFixed_data (hentry.trans he)⟩
  · have hkind : cfgKind p.cfg = 3 := toNat_field_eq 3 h
    rw [foresee_hash hkind, learn_hash hkind]
    refine ⟨fun k key e hk hkey he hleast => ?_, fun hnone => ?_, learnHash_eq v p⟩
    · exact foreseeHash_least hk (by rw [hkey, entryAt_some, he]) fun j hj => (entryAt_eq_none_iff p _).mpr fun key' => hleast j key' hj
    · exact foreseeHash_noData (List.findSome?_eq_none_iff.mpr fun j hj =>
        (entryAt_eq_none_iff p _).mpr fun key' => hnone j key' (mem_shapesInUse.mp hj))

end Sys2Proof.Machine
end

section
/-! Predictors that agree below the cursor predict and learn alike (44_predictor R194, R195, R212). -/

namespace Sys2Proof.Machine

/-! ### Causal offsets -/

/-- An offset is causal when it names a cell above the cursor's row, or on its left in that row (44_predictor R194). -/
def CausalOffset (o : Int × Int) : Prop := o.2 < 0 ∨ (o.2 = 0 ∧ o.1 < 0)

/-- A causal offset inside the field names a cell below the cursor (44_predictor R194). -/
theorem causal_index_lt {p : PrdUnit} {o : Int × Int} (h : CausalOffset o) {a b : Nat} (ha : (a : Int) = p.x + o.1)
    (hb : (b : Int) = p.y + o.2) (haw : a < p.width.toNat) : b * p.width.toNat + a < p.pos := by
  have hpos : p.pos = p.y * p.width.toNat + p.x := (Nat.div_add_mod' p.pos p.width.toNat).symm
  rcases h with h | ⟨h0, h⟩
  · have hrow : (b + 1) * p.width.toNat ≤ p.y * p.width.toNat := Nat.mul_le_mul_right _ (by omega)
    rw [Nat.succ_mul] at hrow
    omega
  · have hrow : b = p.y := by omega
    rw [hpos, hrow]
    omega

theorem PredictAlike.x_eq {p q : PrdUnit} (h : PredictAlike p q) : p.x = q.x := by
  rw [PrdUnit.x, PrdUnit.x, h.samePos, h.sameWidth]

theorem PredictAlike.y_eq {p q : PrdUnit} (h : PredictAlike p q) : p.y = q.y := by
  rw [PrdUnit.y, PrdUnit.y, h.samePos, h.sameWidth]

/-- Predictors that agree read the same neighbour at a causal offset (44_predictor R192, R194). -/
theorem PredictAlike.near_eq {p q : PrdUnit} (h : PredictAlike p q) {o : Int × Int} (ho : CausalOffset o) :
    p.near o.1 o.2 = q.near o.1 o.2 := by
  rw [PrdUnit.near, PrdUnit.near, ← h.x_eq, ← h.y_eq]
  by_cases hin : 0 ≤ p.x + o.1 ∧ p.x + o.1 < p.width.toNat ∧ 0 ≤ p.y + o.2 ∧ p.y + o.2 < p.height.toNat
  · obtain ⟨hx, hxw, hy, hyh⟩ := hin
    obtain ⟨a, ha⟩ := Int.eq_ofNat_of_zero_le hx
    obtain ⟨b, hb⟩ := Int.eq_ofNat_of_zero_le hy
    have haw : a < p.width.toNat := by omega
    have hbh : b < p.height.toNat := by omega
    have hcell := h.sameBelow _ (causal_index_lt ho ha.symm hb.symm haw)
    rw [ha, hb, nb_inside p haw hbh, hcell, h.sameWidth]
    exact (nb_inside q (h.sameWidth ▸ haw) (h.sameHeight ▸ hbh)).symm
  · rw [nb_outside p (by omega), nb_outside q (by rw [← h.sameWidth, ← h.sameHeight]; omega), h.sameCfg]

theorem PredictAlike.gather_eq {p q : PrdUnit} (h : PredictAlike p q) {offs : List (Int × Int)}
    (hoffs : ∀ o ∈ offs, CausalOffset o) : p.gather offs = q.gather offs :=
  gather_congr fun o ho => h.near_eq (hoffs o ho)

/-- The offset of cell `j` of row `r` of the FIXED key (44_predictor R200). -/
def fixedCell (c : BitVec 23) (r j : Nat) : Int × Int := ((j : Int) - cfgFixXpos c, (r : Int) - ((cfgFixH c - 1 : Nat) : Int))

/-- The FIXED key's offsets: the FIX_H - 1 rows above, then the cells of row y left of x (44_predictor R200). -/
theorem fixedOffsets_eq (c : BitVec 23) : fixedOffsets c =
    (List.range (cfgFixH c - 1)).flatMap (fun r => (List.range (cfgFixW c)).map (fixedCell c r)) ++
      (List.range (min (cfgFixXpos c) (cfgFixW c))).map (fixedCell c (cfgFixH c - 1)) := by
  have hrow (r : Nat) : fixedCell c r = fun j : Nat => ((j : Int) - cfgFixXpos c, (r : Int) - ((cfgFixH c - 1 : Nat) : Int)) := rfl
  simp [fixedOffsets, hrow, List.flatMap_assoc]

/-- The cells of the FIXED key are causal (44_predictor R194, R200). -/
theorem fixedOffsets_causal (c : BitVec 23) : ∀ o ∈ fixedOffsets c, CausalOffset o := by
  intro o ho
  simp only [fixedOffsets_eq, List.mem_append, List.mem_flatMap, List.mem_map, List.mem_range] at ho
  rcases ho with ⟨r, hr, j, -, rfl⟩ | ⟨j, hj, rfl⟩
  · exact .inl (by simp only [fixedCell]; omega)
  · exact .inr ⟨by simp only [fixedCell]; omega, by simp only [fixedCell]; omega⟩

theorem cellCausal_iff (c : BitVec 16) : cellCausal c = true ↔ CausalOffset (cellDx c, cellDy c) := by
  simp [cellCausal, CausalOffset]

/-- The cells of the shapes are causal (44_predictor R194): what CSRW takes as a cell (10_state R60). -/
def CausalShapes (p : PrdUnit) : Prop := ∀ (k : Fin 4) (i : Fin 16), cellCausal p.shapeCell[k][i] = true

theorem shapeOffsets_causal {p : PrdUnit} (h : CausalShapes p) (k : Fin 4) : ∀ o ∈ p.shapeOffsets k, CausalOffset o := by
  intro o ho
  simp only [PrdUnit.shapeOffsets, List.mem_map] at ho
  obtain ⟨c, hc, rfl⟩ := ho
  obtain ⟨i, hi, rfl⟩ := List.getElem_of_mem (List.mem_of_mem_take hc)
  have hi16 : i < 16 := by simpa using hi
  exact (cellCausal_iff _).mp (h k ⟨i, hi16⟩)

section AlikeUnits

variable {p q : PrdUnit}

/-! ### Predictions -/

theorem PredictAlike.fixedKey_eq (h : PredictAlike p q) : p.fixedKey = q.fixedKey := by
  rw [PrdUnit.fixedKey, PrdUnit.fixedKey, h.gather_eq (fixedOffsets_causal p.cfg), h.sameCfg]

theorem PredictAlike.hashKey_eq (h : PredictAlike p q) (hp : CausalShapes p) (k : Fin 4) : p.hashKey k = q.hashKey k := by
  have hoffs : p.shapeOffsets k = q.shapeOffsets k := by
    rw [PrdUnit.shapeOffsets, PrdUnit.shapeOffsets, h.sameShapeCell, h.sameShapeLen]
  rw [PrdUnit.hashKey, PrdUnit.hashKey, h.gather_eq (shapeOffsets_causal hp k), hoffs]

theorem PredictAlike.shapesInUse_eq (h : PredictAlike p q) : p.shapesInUse = q.shapesInUse := by
  rw [PrdUnit.shapesInUse, PrdUnit.shapesInUse, h.sameCfg]

theorem PredictAlike.predHV_eq (h : PredictAlike p q) : predHV p = predHV q := by
  have hleft := h.near_eq (o := (-1, 0)) (.inr ⟨rfl, by decide⟩)
  have habove := h.near_eq (o := (0, -1)) (.inl (by decide))
  have hcorner := h.near_eq (o := (-1, -1)) (.inl (by decide))
  simp only [predHV, hleft, habove, hcorner, h.sameCfg, h.x_eq, h.y_eq]

theorem PredictAlike.secondary_eq (h : PredictAlike p q) : secondary p = secondary q := by
  rw [secondary, secondary, h.predHV_eq, h.sameCfg]

theorem PredictAlike.entryAt_eq (h : PredictAlike p q) (key : Option CtxKey) : p.entryAt key = q.entryAt key := by
  rw [PrdUnit.entryAt, PrdUnit.entryAt, h.sameCtx]

theorem PredictAlike.foreseeFixed_eq (h : PredictAlike p q) : foreseeFixed p = foreseeFixed q := by
  rw [foreseeFixed, foreseeFixed, h.fixedKey_eq, h.entryAt_eq, h.secondary_eq]

theorem PredictAlike.foreseeHash_eq (h : PredictAlike p q) (hp : CausalShapes p) : foreseeHash p = foreseeHash q := by
  rw [foreseeHash, foreseeHash, h.shapesInUse_eq, h.secondary_eq]
  simp only [h.hashKey_eq hp, h.entryAt_eq]

/-- Predictors that agree predict alike (44_predictor R195, R212). -/
theorem PredictAlike.foresee_eq (h : PredictAlike p q) (hp : CausalShapes p) : foresee p = foresee q := by
  rw [foresee, foresee, h.predHV_eq, h.foreseeFixed_eq, h.foreseeHash_eq hp, h.sameCfg]

/-! ### Learning -/

/-- Predictors that agree still do with the same entries put into both stores. -/
theorem PredictAlike.withStore (h : PredictAlike p q) (c : CtxStore) (f : Bool) :
    PredictAlike { p with ctx := c, ctxFull := f } { q with ctx := c, ctxFull := f } :=
  { h with sameCtx := rfl, sameCtxFull := rfl }

theorem PredictAlike.after_observe (h : PredictAlike p q) (k : CtxKey) (v : Colour) : PredictAlike (p.observe k v) (q.observe k v) := by
  obtain ⟨hctx, hfull⟩ : (p.observe k v).ctx = (q.observe k v).ctx ∧ (p.observe k v).ctxFull = (q.observe k v).ctxFull := by
    unfold PrdUnit.observe
    rw [h.sameCtx]
    split
    · exact ⟨rfl, h.sameCtxFull⟩
    · split
      · exact ⟨rfl, rfl⟩
      · exact ⟨rfl, h.sameCtxFull⟩
  rw [observe_frame p, observe_frame q, hctx, hfull]
  exact h.withStore _ _

theorem PredictAlike.after_observeKey (h : PredictAlike p q) (key : Option CtxKey) (v : Colour) :
    PredictAlike (p.observeKey key v) (q.observeKey key v) := by
  cases key with
  | none => exact h
  | some k => exact h.after_observe k v

theorem causalShapes_observeKey (hp : CausalShapes p) (key : Option CtxKey) (v : Colour) : CausalShapes (p.observeKey key v) := by
  rw [observeKey_frame]
  exact hp

theorem PredictAlike.after_learnHash (h : PredictAlike p q) (hp : CausalShapes p) (v : Colour) :
    PredictAlike (learnHash v p) (learnHash v q) := by
  rw [learnHash, learnHash, h.shapesInUse_eq]
  induction q.shapesInUse generalizing p q with
  | nil => exact h
  | cons k ks ih =>
    rw [List.foldl_cons, List.foldl_cons, h.hashKey_eq hp]
    exact ih (h.after_observeKey _ v) (causalShapes_observeKey hp _ v)

/-- Predictors that agree still do when both have learned the same colour (44_predictor R195, R212). -/
theorem PredictAlike.after_learn (h : PredictAlike p q) (hp : CausalShapes p) (v : Colour) : PredictAlike (learn v p) (learn v q) := by
  rw [learn, learn, h.sameCfg]
  split
  · exact h
  · exact h
  · rw [learnFixed, learnFixed, h.fixedKey_eq]
    exact h.after_observeKey _ v
  · exact h.after_learnHash hp v

/-- A write at the cursor or behind it changes nothing that a prediction reads. -/
theorem predictAlike_setCell (hwf : p.field.wf) {i : Nat} (hi : p.pos ≤ i) (c : Colour) : PredictAlike (p.setCell i c) p :=
  ⟨rfl, rfl, rfl, rfl, rfl, rfl, rfl, rfl, fun j (hj : j < p.pos) => read_setCell_other hwf (by omega) c⟩

end AlikeUnits

/-- Settles O55: units that agree predict alike and go on agreeing when they learn. -/
theorem predictionIsCausal : Obligations.PredictionIsCausal := by
  unfold Obligations.PredictionIsCausal
  refine ⟨fun p q v hp h => ⟨h.foresee_eq hp, (h.after_learn hp v).sameCtx, (h.after_learn hp v).sameCtxFull⟩,
    fun p c v i hp hwf hi => ?_⟩
  have h := predictAlike_setCell hwf hi c
  exact ⟨h.foresee_eq hp, (h.after_learn hp v).sameCtx⟩

end Sys2Proof.Machine
end

section
/-! A pass of PX.ENC on one side and of PX.DEC on the other, in lockstep (44_predictor R222). -/

namespace Sys2Proof.Machine

theorem execAll_cons {i : Instr} {is : List Instr} {s t : State} (h : exec i s = .next t) : execAll (i :: is) s = execAll is t := by
  simp [execAll, h]

/-- The commands that decode a list of residuals. -/
def decodeCommands (m : Mode) (rs : List Word64) : List Instr := rs.map fun r => .pxDec m (r.setWidth 2)

/-- Encoder and decoder side by side: both ready, their predictors in agreement (44_predictor R222). -/
structure Lockstep (s u : State) : Prop where
  encoderReady : s.ready
  decoderReady : u.ready
  alike : PredictAlike s.prd u.prd
  shapes : CausalShapes s.prd
  decoderField : u.prd.field.wf

/-- Predictors that agree, and on the cursor's cell too, agree one pixel further. -/
theorem PredictAlike.after_advance {p q : PrdUnit} (h : PredictAlike p q) (hcell : p.field.read p.pos = q.field.read q.pos) :
    PredictAlike p.advance q.advance where
  sameWidth := h.sameWidth
  sameHeight := h.sameHeight
  sameCfg := h.sameCfg
  samePos := congrArg (· + 1) h.samePos
  sameCtx := h.sameCtx
  sameCtxFull := h.sameCtxFull
  sameShapeLen := h.sameShapeLen
  sameShapeCell := h.sameShapeCell
  sameBelow := fun i (hi : i < p.pos + 1) => by
    rcases Nat.lt_succ_iff_lt_or_eq.mp hi with hi | rfl
    · exact h.sameBelow i hi
    · exact hcell.trans (congrArg q.field.read h.samePos.symm)

/-- The encoder learns the colour it codes, the decoder records it: they agree one pixel further. -/
theorem PredictAlike.after_record {p q : PrdUnit} (h : PredictAlike p q) (hp : CausalShapes p) (hwf : q.field.wf) {v : Colour}
    (hv : v = p.field.read p.pos) : PredictAlike (learn v p).advance (q.record v) := by
  have hbelow : ∀ i, i < p.pos → p.field.read i = (q.setCell q.pos v).field.read i := fun i hi =>
    (h.sameBelow i hi).trans (read_setCell_other hwf (by have := h.samePos; omega) v).symm
  have hwritten : PredictAlike p (q.setCell q.pos v) := { h with sameBelow := hbelow }
  apply (hwritten.after_learn hp v).after_advance
  rw [learn_field, learn_pos, learn_field, learn_pos, ← hv]
  exact (read_setCell_same hwf q.pos v).symm

/-- A residual put into RES is read back whole. -/
theorem residual_back (r : Colour) : (r.setWidth 64).setWidth 2 = r := by
  rw [BitVec.setWidth_setWidth_of_le r (by decide), BitVec.setWidth_eq]

/-- The decoder's colour is the encoder's (44_predictor R211, R212). -/
theorem Lockstep.decodePixel_eq {s u : State} (h : Lockstep s u) (m : Mode) {v : Colour} (hv : v = s.prd.field.read s.prd.pos) :
    decodePixel m ((encodePixel m s).res.setWidth 2) u = (u.setPrd (u.prd.record v)).setRes (v.setWidth 64) := by
  have hres : (encodePixel m s).res.setWidth 2 = forwardTransform m v (foresee s.prd) := by
    rw [hv]
    exact residual_back _
  have hcolour : inverseTransform m ((encodePixel m s).res.setWidth 2) (foresee u.prd) = v := by
    rw [hres, ← h.alike.foresee_eq h.shapes, inverseTransform_forwardTransform]
  rw [decodePixel, hcolour]

/-- One pixel in lockstep. -/
theorem Lockstep.pixel {s u : State} (h : Lockstep s u) (m : Mode) :
    Lockstep (encodePixel m s) (decodePixel m ((encodePixel m s).res.setWidth 2) u) := by
  rw [h.decodePixel_eq m rfl]
  obtain ⟨-, -, hwf⟩ := record_cells h.decoderField (s.prd.field.read s.prd.pos)
  refine ⟨h.encoderReady, h.decoderReady, h.alike.after_record h.shapes h.decoderField rfl, ?_, hwf⟩
  change CausalShapes (learn _ s.prd).advance
  rw [learn_advance_eq, learn_frame]
  exact h.shapes

theorem encodePixel_prd (m : Mode) (s : State) :
    (encodePixel m s).prd = (learn (s.prd.field.read s.prd.pos) s.prd).advance := rfl

@[simp] theorem encodePixel_field (m : Mode) (s : State) : (encodePixel m s).prd.field = s.prd.field := learn_field _ _
@[simp] theorem encodePixel_pos (m : Mode) (s : State) : (encodePixel m s).prd.pos = s.prd.pos + 1 := by
  rw [encodePixel_prd, learn_advance_eq]
@[simp] theorem encodePixel_cells (m : Mode) (s : State) : (encodePixel m s).prd.cells = s.prd.cells := by
  rw [encodePixel_prd, PrdUnit.cells, PrdUnit.advance, learn_width, learn_height, PrdUnit.cells]

/-- Units that agree have fields of one size. -/
theorem PredictAlike.cells_eq {p q : PrdUnit} (h : PredictAlike p q) : p.cells = q.cells := by
  rw [PrdUnit.cells, PrdUnit.cells, h.sameWidth, h.sameHeight]

/-- What a pass of `n` pixels in lockstep comes to: the residuals, and both sides after it (44_predictor R222). -/
theorem Lockstep.pass {m : Mode} {n : Nat} {s u : State} (h : Lockstep s u) (hn : s.prd.pos + n ≤ s.prd.cells) :
    ∃ rs t v, execResults (List.replicate n (.pxEnc m)) s = some (rs, t) ∧ execAll (decodeCommands m rs) u = some v ∧
      Lockstep t v ∧ t.prd.field = s.prd.field ∧ t.prd.pos = s.prd.pos + n := by
  induction n generalizing s u with
  | zero => exact ⟨[], s, u, rfl, rfl, h, rfl, rfl⟩
  | succ n ih =>
    have henc : exec (.pxEnc m) s = .next (encodePixel m s) := exec_pxEnc h.encoderReady (by omega) m
    have hdec : exec (.pxDec m ((encodePixel m s).res.setWidth 2)) u = _ :=
      exec_pxDec h.decoderReady (by rw [← h.alike.samePos, ← h.alike.cells_eq]; omega) m _
    obtain ⟨rs, t, v, hrs, hv, hlock, hfield, hpos⟩ := ih (h.pixel m) (by simp only [encodePixel_pos, encodePixel_cells]; omega)
    refine ⟨(encodePixel m s).res :: rs, t, v, execResults_cons henc hrs, (execAll_cons hdec).trans hv, hlock, ?_, ?_⟩
    · rw [hfield, encodePixel_field]
    · rw [hpos, encodePixel_pos]
      omega

/-- PRD.INIT on two sides with one configuration puts them in lockstep: there is no cell below the cursor (44_predictor R215, R222). -/
theorem lockstep_prdInit {s u : State} (hs : s.ready) (hu : u.ready) (hp : CausalShapes s.prd) (hwf : u.prd.field.wf)
    (hw : u.prd.width = s.prd.width) (hh : u.prd.height = s.prd.height) (hc : u.prd.cfg = s.prd.cfg)
    (hl : u.prd.shapeLen = s.prd.shapeLen) (hk : u.prd.shapeCell = s.prd.shapeCell) :
    Lockstep (s.setPrd { s.prd with ctx := [], ctxFull := false, pos := 0 })
      (u.setPrd { u.prd with ctx := [], ctxFull := false, pos := 0 }) :=
  ⟨hs, hu, ⟨hw.symm, hh.symm, hc.symm, rfl, rfl, rfl, hl.symm, hk.symm, fun _ hi => absurd hi (Nat.not_lt_zero _)⟩, hp, hwf⟩

/-- Settles O56: the pass in lockstep over all the cells; then every cell is below the cursor. -/
theorem transformPassInverts : Obligations.TransformPassInverts := by
  unfold Obligations.TransformPassInverts
  intro m s u hs hu hinv _ huwf hw hh hc hl hk
  have hstart := lockstep_prdInit hs hu hinv.cellsCausal huwf hw hh hc hl hk
  obtain ⟨rs, t, v, hrs, hv, hlock, hfield, hpos⟩ := hstart.pass (m := m) (n := s.prd.cells) (Nat.zero_add _).le
  have hend : t.prd.pos = s.prd.cells := hpos.trans (Nat.zero_add _)
  have hsame : t.prd.field = s.prd.field := hfield
  refine ⟨_, t, _, v, rs, exec_prdInit hs, exec_prdInit hu, hrs, hv, hlock.encoderReady, hlock.decoderReady,
    fun i => by rw [hsame], fun i hi => ?_, hlock.alike.sameCtx.symm, hlock.alike.samePos.symm, hend⟩
  rw [← hlock.alike.sameBelow i (hi.trans_eq hend.symm), hsame]

end Sys2Proof.Machine
end

section
/-! The cells of the keys and their packing (44_predictor R200, R205). -/

namespace Sys2Proof.Machine

/-! ### The cells of a key -/

/-- A list of offsets gives the neighbours' colours, and nothing when one of them is UNAVAIL (44_predictor R192, R200). -/
theorem gather_eq_some_iff {p : PrdUnit} {offs : List (Int × Int)} {vs : List Colour} :
    p.gather offs = some vs ↔ offs.map (fun o => p.near o.1 o.2) = vs.map some := by
  induction offs generalizing vs with
  | nil => cases vs <;> simp [PrdUnit.gather]
  | cons o offs ih =>
    simp only [PrdUnit.gather, List.map_cons]
    cases hv : p.near o.1 o.2 with
    | none => cases vs <;> simp
    | some v =>
      cases hvs : p.gather offs with
      | none =>
        have hnever (us : List Colour) : offs.map (fun o => p.near o.1 o.2) ≠ us.map some := fun h => by
          rw [ih.mpr h] at hvs
          cases hvs
        cases vs <;> simp [hnever]
      | some us => cases vs <;> simp [ih.mp hvs, List.map_inj_right]

theorem length_of_gather {p : PrdUnit} {offs : List (Int × Int)} {vs : List Colour} (h : p.gather offs = some vs) :
    vs.length = offs.length := by
  have := congrArg List.length (gather_eq_some_iff.mp h)
  simpa using this.symm

/-- Rows of one length laid end to end: cell `j` of row `r` stands at `r * w + j`. -/
theorem getElem?_rows {α : Type} (w : Nat) (cell : Nat → Nat → α) {n r j : Nat} (hr : r < n) (hj : j < w) :
    ((List.range n).flatMap fun r => (List.range w).map (cell r))[r * w + j]? = some (cell r j) := by
  induction n with
  | zero => omega
  | succ n ih =>
    have hlen : ((List.range n).flatMap fun r => (List.range w).map (cell r)).length = n * w := by simp
    rw [List.range_succ, List.flatMap_append]
    rcases Nat.lt_succ_iff_lt_or_eq.mp hr with hr | rfl
    · have hin : r * w + j < n * w := by
        have := Nat.mul_le_mul_right w (show r + 1 ≤ n from hr)
        rw [Nat.succ_mul] at this
        omega
      rw [List.getElem?_append_left (hlen ▸ hin), ih hr]
    · rw [List.getElem?_append_right (by omega), hlen, Nat.add_sub_cancel_left]
      simp [hj]

theorem length_fixedOffsets (c : BitVec 23) : (fixedOffsets c).length = cfgFixCells c := by
  simp [fixedOffsets_eq, cfgFixCells]

/-- A cell of the rows above, in R200's order. -/
theorem fixedOffsets_above {c : BitVec 23} {r j : Nat} (hr : r < cfgFixH c - 1) (hj : j < cfgFixW c) :
    (fixedOffsets c)[r * cfgFixW c + j]? = some (fixedCell c r j) := by
  have hcell := getElem?_rows (cfgFixW c) (fixedCell c) hr hj
  rw [fixedOffsets_eq, List.getElem?_append_left (List.getElem?_eq_some_iff.mp hcell).1, hcell]

/-- A cell of row y, in R200's order. -/
theorem fixedOffsets_left {c : BitVec 23} {j : Nat} (hj : j < min (cfgFixXpos c) (cfgFixW c)) :
    (fixedOffsets c)[(cfgFixH c - 1) * cfgFixW c + j]? = some ((j : Int) - cfgFixXpos c, 0) := by
  rw [fixedOffsets_eq, List.getElem?_append_right (by simp)]
  simp [hj, fixedCell]

theorem length_shapeOffsets (p : PrdUnit) (k : Fin 4) : (p.shapeOffsets k).length = min p.shapeLen[k].toNat 16 := by
  simp [PrdUnit.shapeOffsets]

/-- The cells of a shape, in order, each signed (44_predictor R205, 10_state R60). -/
theorem shapeOffsets_cell (p : PrdUnit) (k : Fin 4) (i : Fin 16) (hi : i.val < p.shapeLen[k].toNat) :
    (p.shapeOffsets k)[i.val]? = some (cellDx p.shapeCell[k][i], cellDy p.shapeCell[k][i]) := by
  have hcell : p.shapeCell[k].toList[i.val]? = some p.shapeCell[k][i] := by simp
  rw [PrdUnit.shapeOffsets, List.getElem?_map, List.getElem?_take_of_lt hi, hcell]
  rfl

/-! ### Packing -/

/-- The packed colours are the sum of R200. -/
theorem sum_zipIdx_shifted (vs : List Colour) (start : Nat) :
    ((vs.zipIdx start).map fun q => q.1.toNat <<< (2 * q.2)).sum = packColours vs * 2 ^ (2 * start) := by
  induction vs generalizing start with
  | nil => simp [packColours]
  | cons v vs ih =>
    have hpow : 2 ^ (2 * (start + 1)) = 4 * 2 ^ (2 * start) := by rw [Nat.mul_add, Nat.pow_add, Nat.mul_comm]
    rw [List.zipIdx_cons, List.map_cons, List.sum_cons, ih, Nat.shiftLeft_eq, hpow, packColours]
    ring

theorem packColours_lt (vs : List Colour) : packColours vs < 4 ^ vs.length := by
  induction vs with
  | nil => exact Nat.one_pos
  | cons v vs ih =>
    have hv := v.isLt
    rw [packColours, List.length_cons, Nat.pow_succ]
    omega

/-- The number packed from a list of known length gives the list back (44_predictor R208). -/
theorem packColours_inj {vs us : List Colour} (hlen : vs.length = us.length) (h : packColours vs = packColours us) : vs = us := by
  induction vs generalizing us with
  | nil => exact (List.eq_nil_of_length_eq_zero hlen.symm).symm
  | cons v vs ih =>
    cases us with
    | nil => cases hlen
    | cons u us =>
      have hv := v.isLt
      have hu := u.isLt
      simp only [packColours] at h
      have hhead : v = u := BitVec.eq_of_toNat_eq (by omega)
      rw [hhead, ih (Nat.succ.inj hlen) (by omega)]

/-- Packed colours cut to a field that holds them all are still told apart. -/
theorem ofNat_packColours_inj {w : Nat} {vs us : List Colour} (hlen : vs.length = us.length) (hw : 2 * vs.length ≤ w)
    (h : BitVec.ofNat w (packColours vs) = BitVec.ofNat w (packColours us)) : vs = us := by
  have hfits (xs : List Colour) (hxs : xs.length = vs.length) : packColours xs < 2 ^ w :=
    calc packColours xs < 4 ^ xs.length := packColours_lt xs
      _ = 2 ^ (2 * vs.length) := by rw [hxs, Nat.pow_mul]
      _ ≤ 2 ^ w := Nat.pow_le_pow_right (by decide) hw
  have hnat := congrArg BitVec.toNat h
  rw [BitVec.toNat_ofNat, BitVec.toNat_ofNat, Nat.mod_eq_of_lt (hfits vs rfl), Nat.mod_eq_of_lt (hfits us hlen.symm)] at hnat
  exact packColours_inj hlen hnat

/-- The first byte holds the first four colours, the bytes after it the rest (44_predictor R205). -/
theorem packBytes_eq_cons {vs : List Colour} (h : vs ≠ []) :
    packBytes vs = BitVec.ofNat 8 (packColours (vs.take 4)) :: packBytes (vs.drop 4) := by
  match vs with
  | [] => exact absurd rfl h
  | [_] => rfl
  | [_, _] => rfl
  | [_, _, _] => rfl
  | _ :: _ :: _ :: _ :: _ => rfl

theorem length_packBytes (vs : List Colour) : (packBytes vs).length = (vs.length + 3) / 4 := by
  induction hn : vs.length using Nat.strong_induction_on generalizing vs with
  | _ n ih =>
    by_cases h : vs = []
    · subst h hn
      rfl
    · have hpos := List.length_pos_iff.mpr h
      rw [packBytes_eq_cons h, List.length_cons, ih (n - 4) (by omega) (vs.drop 4) (by rw [List.length_drop, hn])]
      omega

/-- Byte `j` holds the four colours from `4 * j` on (44_predictor R205). -/
theorem packBytes_getElem? {vs : List Colour} {j : Nat} (hj : j < (vs.length + 3) / 4) :
    (packBytes vs)[j]? = some (BitVec.ofNat 8 (packColours ((vs.drop (4 * j)).take 4))) := by
  induction j generalizing vs with
  | zero =>
    rw [packBytes_eq_cons (by rintro rfl; simp at hj)]
    rfl
  | succ j ih =>
    rw [packBytes_eq_cons (by rintro rfl; simp at hj), List.getElem?_cons_succ, ih (by rw [List.length_drop]; omega),
      List.drop_drop, Nat.mul_succ, Nat.add_comm 4]

/-- The bytes packed from a list of known length give the list back (44_predictor R208). -/
theorem packBytes_inj {vs us : List Colour} (hlen : vs.length = us.length) (h : packBytes vs = packBytes us) : vs = us := by
  induction hn : vs.length using Nat.strong_induction_on generalizing vs us with
  | _ n ih =>
    by_cases hvs : vs = []
    · subst hvs
      exact (List.eq_nil_of_length_eq_zero hlen.symm).symm
    · have hus : us ≠ [] := fun hus => hvs (List.eq_nil_of_length_eq_zero (by rw [hlen, hus]; rfl))
      have hpos := List.length_pos_iff.mpr hvs
      rw [packBytes_eq_cons hvs, packBytes_eq_cons hus, List.cons.injEq] at h
      obtain ⟨hbyte, hbytes⟩ := h
      have hfirst : vs.take 4 = us.take 4 :=
        ofNat_packColours_inj (by rw [List.length_take, List.length_take, hlen]) (by rw [List.length_take]; omega) hbyte
      have hrest : vs.drop 4 = us.drop 4 :=
        ih (n - 4) (by omega) (by rw [List.length_drop, List.length_drop, hlen]) hbytes (by rw [List.length_drop, hn])
      rw [← List.take_append_drop 4 vs, hfirst, hrest, List.take_append_drop]

end Sys2Proof.Machine
end

section
/-! The CRC of a packed neighbourhood: one bit at a time, and no collision below 64 bits (44_predictor R205, R208). -/

namespace Sys2Proof.Machine

/-! ### The recursion -/

theorem crcShifts_eq_iterate (n : Nat) (c : Word64) : crcShifts n c = crcShift^[n] c := by
  induction n generalizing c with
  | zero => rfl
  | succ n ih => exact ih (crcShift c)

theorem crcFrom_append (c : Word64) (as bs : List Byte) : crcFrom c (as ++ bs) = crcFrom (crcFrom c as) bs := by
  induction as generalizing c with
  | nil => rfl
  | cons a as ih => exact ih _

/-- One more byte: eight more bits of the recursion (44_predictor R205). -/
theorem crc64_append_singleton (bs : List Byte) (b : Byte) :
    crc64 (bs ++ [b]) = crcShift^[8] (crc64 bs ^^^ (b.setWidth 64 <<< 56)) := by
  rw [crc64, crcFrom_append, ← crcShifts_eq_iterate]
  rfl

/-! ### No collision below 64 bits

The polynomial is odd, so the lowest bit after a shift tells whether the polynomial was added, and the bits above it are then those before
the shift. Read backwards, `m + 1` low bits after a shift give the top bit and the `m` low bits before it. A byte enters at the top, so as
long as low bits are left, the bytes can be read off one after the other. -/

/-- Two words have the same `m` low bits. -/
def SameLow (m : Nat) (c d : Word64) : Prop := ∀ i, i < m → c.getLsbD i = d.getLsbD i

/-- Bit 0 after a shift is the bit shifted out, since the polynomial is odd. -/
theorem getLsbD_crcShift_zero (c : Word64) : (crcShift c).getLsbD 0 = c.getLsbD 63 := by
  have hodd : crcPoly.getLsbD 0 = true := by decide
  unfold crcShift
  split <;> rename_i htop
  · rw [BitVec.getLsbD_xor, BitVec.getLsbD_shiftLeft, hodd, htop]
    rfl
  · rw [BitVec.getLsbD_shiftLeft, Bool.eq_false_of_not_eq_true htop]
    rfl

/-- The bits above it are those before the shift, with the polynomial's added if the bit shifted out was 1. -/
theorem getLsbD_crcShift_succ (c : Word64) {i : Nat} (hi : i + 1 < 64) :
    (crcShift c).getLsbD (i + 1) = (c.getLsbD i ^^ (c.getLsbD 63 && crcPoly.getLsbD (i + 1))) := by
  have hshift : (c <<< 1).getLsbD (i + 1) = c.getLsbD i := by
    rw [BitVec.getLsbD_shiftLeft, decide_eq_true hi, decide_eq_false (by omega), Nat.add_sub_cancel]
    rfl
  unfold crcShift
  split <;> rename_i htop
  · rw [BitVec.getLsbD_xor, hshift, htop, Bool.true_and]
  · rw [hshift, Bool.eq_false_of_not_eq_true htop, Bool.false_and, Bool.xor_false]

/-- A bit read backwards through a shift, with the bit shifted out known. -/
theorem getLsbD_of_crcShift {c d : Word64} (htop : c.getLsbD 63 = d.getLsbD 63) {i : Nat} (hi : i + 1 < 64)
    (h : (crcShift c).getLsbD (i + 1) = (crcShift d).getLsbD (i + 1)) : c.getLsbD i = d.getLsbD i := by
  rw [getLsbD_crcShift_succ c hi, getLsbD_crcShift_succ d hi, htop] at h
  exact Bool.xor_left_inj.mp h

/-- `n` shifts read backwards: the low bits that are left, and the `n` top bits. -/
theorem sameLow_of_crcShifts {m n : Nat} (hmn : m + n ≤ 64) {c d : Word64} (h : SameLow (m + n) (crcShifts n c) (crcShifts n d)) :
    SameLow m c d ∧ ∀ i, 64 - n ≤ i → i < 64 → c.getLsbD i = d.getLsbD i := by
  induction n generalizing c d m with
  | zero => exact ⟨h, fun i hlo hi => absurd hi (Nat.not_lt.mpr hlo)⟩
  | succ n ih =>
    have hswap : m + 1 + n = m + (n + 1) := by omega
    obtain ⟨hlow, hhigh⟩ := ih (m := m + 1) (c := crcShift c) (d := crcShift d) (by omega) (hswap ▸ h)
    have htop : c.getLsbD 63 = d.getLsbD 63 := by
      rw [← getLsbD_crcShift_zero, ← getLsbD_crcShift_zero]
      exact hlow 0 (Nat.succ_pos m)
    refine ⟨fun i hi => getLsbD_of_crcShift htop (by omega) (hlow (i + 1) (by omega)), fun i hlo hi => ?_⟩
    by_cases hlast : i = 63
    · rw [hlast, htop]
    · exact getLsbD_of_crcShift htop (by omega) (hhigh (i + 1) (by omega) (by omega))

/-- One byte of the CRC (44_predictor R205). -/
def crcByte (c : Word64) (b : Byte) : Word64 := crcShifts 8 (c ^^^ (b.setWidth 64 <<< 56))

theorem crcFrom_cons (c : Word64) (b : Byte) (bs : List Byte) : crcFrom c (b :: bs) = crcFrom (crcByte c b) bs := rfl

/-- A byte enters in the top eight bits. -/
theorem getLsbD_byte_low (b : Byte) {i : Nat} (hi : i < 56) : (b.setWidth 64 <<< 56).getLsbD i = false := by
  simp [BitVec.getLsbD_shiftLeft, hi]

theorem getLsbD_byte_high (b : Byte) {j : Nat} (hj : j < 8) : (b.setWidth 64 <<< 56).getLsbD (56 + j) = b.getLsbD j := by
  simp [show 56 + j < 64 by omega]

/-- One byte read backwards: the low bits that are left. -/
theorem sameLow_of_crcByte {m : Nat} (hm : m + 8 ≤ 64) {c d : Word64} {x y : Byte} (h : SameLow (m + 8) (crcByte c x) (crcByte d y)) :
    SameLow m c d := fun i hi => by
  have hbit := (sameLow_of_crcShifts hm h).1 i hi
  rwa [BitVec.getLsbD_xor, BitVec.getLsbD_xor, getLsbD_byte_low x (by omega), getLsbD_byte_low y (by omega), Bool.xor_false,
    Bool.xor_false] at hbit

/-- From one word, eight low bits after a byte tell the byte. -/
theorem eq_of_crcByte {c : Word64} {x y : Byte} (h : SameLow 8 (crcByte c x) (crcByte c y)) : x = y := by
  apply BitVec.eq_of_getLsbD_eq
  intro j hj
  have hbit := (sameLow_of_crcShifts (m := 0) (n := 8) (by decide) h).2 (56 + j) (by omega) (by omega)
  rw [BitVec.getLsbD_xor, BitVec.getLsbD_xor, getLsbD_byte_high x hj, getLsbD_byte_high y hj] at hbit
  exact Bool.xor_right_inj.mp hbit

/-- A sequence of bytes read backwards. -/
theorem sameLow_of_crcFrom {as bs : List Byte} (hlen : as.length = bs.length) {m : Nat} (hm : m + 8 * as.length ≤ 64) {c d : Word64}
    (h : SameLow (m + 8 * as.length) (crcFrom c as) (crcFrom d bs)) : SameLow m c d := by
  induction as generalizing bs c d m with
  | nil =>
    cases List.eq_nil_of_length_eq_zero hlen.symm
    exact h
  | cons a as ih =>
    cases bs with
    | nil => cases hlen
    | cons b bs =>
      have hlen' : as.length = bs.length := Nat.succ.inj hlen
      rw [List.length_cons] at hm h
      have hswap : m + 8 + 8 * as.length = m + 8 * (as.length + 1) := by omega
      exact sameLow_of_crcByte (by omega) (ih hlen' (m := m + 8) (by omega) (hswap ▸ h))

/-- The CRC tells sequences of one length apart, up to 64 bits: after the first byte there are eight low bits to read backwards to. -/
theorem crcFrom_inj {as bs : List Byte} (hlen : as.length = bs.length) (hbits : 8 * as.length ≤ 64) {c : Word64}
    (h : crcFrom c as = crcFrom c bs) : as = bs := by
  induction as generalizing bs c with
  | nil => exact (List.eq_nil_of_length_eq_zero hlen.symm).symm
  | cons a as ih =>
    cases bs with
    | nil => cases hlen
    | cons b bs =>
      have hlen' : as.length = bs.length := Nat.succ.inj hlen
      rw [List.length_cons] at hbits
      rw [crcFrom_cons, crcFrom_cons] at h
      have hfirst : a = b := eq_of_crcByte (sameLow_of_crcFrom hlen' (by omega) fun i _ => congrArg (·.getLsbD i) h)
      rw [hfirst] at h ⊢
      rw [ih hlen' (by omega) h]

/-- R208 for the packed neighbourhoods: sequences of one length of fewer than 64 bits with one CRC are equal. -/
theorem crc64_inj {as bs : List Byte} (hlen : as.length = bs.length) (hbits : as.length ≤ 7) (h : crc64 as = crc64 bs) : as = bs :=
  crcFrom_inj hlen (by omega) h

end Sys2Proof.Machine
end

section
/-! The keys: what they hold, and that they keep contexts apart (44_predictor R200, R205, R208). -/

namespace Sys2Proof.Machine

/-! ### The contents of a key -/

theorem fixedKey_of_gather {p : PrdUnit} {vs : List Colour} (h : p.gather (fixedOffsets p.cfg) = some vs) :
    p.fixedKey = some (0xFF#8 ++ BitVec.ofNat 120 (packColours vs)) := by
  rw [PrdUnit.fixedKey, h, Option.map_some]

theorem fixedKey_unavailable {p : PrdUnit} (h : p.gather (fixedOffsets p.cfg) = none) : p.fixedKey = none := by
  rw [PrdUnit.fixedKey, h, Option.map_none]

theorem hashKey_of_gather {p : PrdUnit} {k : Fin 4} {vs : List Colour} (h : p.gather (p.shapeOffsets k) = some vs) :
    p.hashKey k = some (BitVec.ofNat 8 k.val ++ 0#56 ++ crc64 (packBytes vs)) := by
  rw [PrdUnit.hashKey, h, Option.map_some]

theorem hashKey_unavailable {p : PrdUnit} {k : Fin 4} (h : p.gather (p.shapeOffsets k) = none) : p.hashKey k = none := by
  rw [PrdUnit.hashKey, h, Option.map_none]

/-- The tag in a key's top byte: 0xFF for FIXED, the shape's number for HASH (44_predictor R200, R205). -/
def keyTag (key : CtxKey) : BitVec 8 := key.extractLsb' 120 8

theorem keyTag_append (tag : BitVec 8) (body : BitVec 120) : keyTag (tag ++ body) = tag := BitVec.extractLsb'_append_eq_left

theorem keyTag_fixed {p : PrdUnit} {key : CtxKey} (h : p.fixedKey = some key) : keyTag key = 0xFF#8 := by
  obtain ⟨vs, -, rfl⟩ := Option.map_eq_some_iff.mp h
  exact keyTag_append _ _

/-- A HASH key as its tag and the rest. -/
theorem hash_append_eq (tag : BitVec 8) (crc : Word64) : tag ++ 0#56 ++ crc = tag ++ (0#56 ++ crc) := BitVec.append_assoc

theorem keyTag_hash {p : PrdUnit} {k : Fin 4} {key : CtxKey} (h : p.hashKey k = some key) : keyTag key = BitVec.ofNat 8 k.val := by
  obtain ⟨vs, -, rfl⟩ := Option.map_eq_some_iff.mp h
  exact (congrArg keyTag (hash_append_eq _ _)).trans (keyTag_append _ _)

theorem shapeTag_inj {k j : Fin 4} (h : BitVec.ofNat 8 k.val = BitVec.ofNat 8 j.val) : k = j := by
  revert k j
  decide

theorem shapeTag_ne_fixed (k : Fin 4) : BitVec.ofNat 8 k.val ≠ 0xFF#8 := by
  revert k
  decide

/-! ### Equal keys -/

/-- Words with equal parts. -/
theorem append_right_inj_of_eq {m n : Nat} {a c : BitVec m} {b d : BitVec n} (h : a ++ b = c ++ d) : b = d := by
  obtain ⟨-, hlow⟩ := eq_append_iff.mp h
  exact BitVec.extractLsb'_append_eq_right.symm.trans hlow

/-- FIXED keys over equally many cells are equal just when the colours are (44_predictor R208). -/
theorem fixedKey_eq_iff {p q : PrdUnit} {vs us : List Colour} (hp : p.gather (fixedOffsets p.cfg) = some vs)
    (hq : q.gather (fixedOffsets q.cfg) = some us) (hlen : vs.length = us.length) (hcells : vs.length ≤ 60) :
    p.fixedKey = q.fixedKey ↔ vs = us := by
  rw [fixedKey_of_gather hp, fixedKey_of_gather hq, Option.some.injEq]
  constructor
  · intro h
    exact ofNat_packColours_inj hlen (by omega) (append_right_inj_of_eq h)
  · rintro rfl
    rfl

/-- HASH keys of different shapes differ (44_predictor R208). -/
theorem shape_eq_of_hashKey_eq {p q : PrdUnit} {k j : Fin 4} {key : CtxKey} (hp : p.hashKey k = some key)
    (hq : q.hashKey j = some key) : k = j := shapeTag_inj ((keyTag_hash hp).symm.trans (keyTag_hash hq))

/-- HASH keys over equally many cells are equal just when the shape and the colours are (44_predictor R208). -/
theorem hashKey_eq_iff {p q : PrdUnit} {k j : Fin 4} {vs us : List Colour} (hp : p.gather (p.shapeOffsets k) = some vs)
    (hq : q.gather (q.shapeOffsets j) = some us) (hlen : vs.length = us.length) (hcells : vs.length ≤ 16) :
    p.hashKey k = q.hashKey j ↔ k = j ∧ vs = us := by
  constructor
  · intro h
    refine ⟨shape_eq_of_hashKey_eq (hashKey_of_gather hp) (h ▸ hashKey_of_gather hp), ?_⟩
    rw [hashKey_of_gather hp, hashKey_of_gather hq, Option.some.injEq] at h
    have hbytes : packBytes vs = packBytes us := crc64_inj (by rw [length_packBytes, length_packBytes, hlen])
      (by rw [length_packBytes]; omega) (append_right_inj_of_eq h)
    exact packBytes_inj hlen hbytes
  · rintro ⟨rfl, rfl⟩
    rw [hashKey_of_gather hp, hashKey_of_gather hq]

theorem hashKey_ne_of_shape_ne {p q : PrdUnit} {k j : Fin 4} {vs : List Colour} (hp : p.gather (p.shapeOffsets k) = some vs)
    (hkj : k ≠ j) : p.hashKey k ≠ q.hashKey j := fun h =>
  hkj (shape_eq_of_hashKey_eq (hashKey_of_gather hp) (h ▸ hashKey_of_gather hp))

theorem fixedKey_ne_hashKey {p q : PrdUnit} {k : Fin 4} {key key' : CtxKey} (hp : p.fixedKey = some key)
    (hq : q.hashKey k = some key') : key ≠ key' := by
  rintro rfl
  exact shapeTag_ne_fixed k ((keyTag_hash hq).symm.trans (keyTag_fixed hp))

/-- A shape has at most sixteen cells (10_state R59, R60). -/
theorem length_of_shape_gather {p : PrdUnit} {k : Fin 4} {vs : List Colour} (h : p.gather (p.shapeOffsets k) = some vs) :
    vs.length ≤ 16 := by
  rw [length_of_gather h, length_shapeOffsets]
  exact min_le_right _ _

/-! ### The check values of R205 -/

theorem crc64_check : crc64 [0x31, 0x32, 0x33, 0x34, 0x35, 0x36, 0x37, 0x38, 0x39] = 0x6C40DF5F0B497347 := by decide +kernel

theorem crc64_one : crc64 [0x01] = 0x42F0E1EBA9EA3693 := by decide +kernel

theorem workedKey : 0x02#8 ++ 0#56 ++ crc64 [0x39] = 0x02000000000000007AD1A461044D611C#128 := by decide +kernel

/-- Settles O53: the cells, the packing and the CRC one rule each; then equal keys by their tags and what stands below them. -/
theorem keysKeepContextsApart : Obligations.KeysKeepContextsApart := by
  unfold Obligations.KeysKeepContextsApart
  refine ⟨fun p offs vs => gather_eq_some_iff, ?_, fun p k hlen => ⟨?_, shapeOffsets_cell p k⟩, fun vs => ⟨?_, length_packBytes vs,
    fun j hj => packBytes_getElem? hj⟩, ⟨rfl, crc64_append_singleton⟩, fun p => ⟨fixedKey_unavailable, fun vs => fixedKey_of_gather,
    fun k => hashKey_unavailable, fun k vs => hashKey_of_gather⟩, fun as bs => crc64_inj, fun p q vs us => fixedKey_eq_iff,
    fun p q k j vs us hp hq => ?_, fun p q k key key' => fixedKey_ne_hashKey, crc64_check, crc64_one, rfl, workedKey⟩
  · rintro c fw fh xp rfl rfl rfl
    exact ⟨length_fixedOffsets c, fun r j hr hj => fixedOffsets_above hr hj, fun j hj => fixedOffsets_left hj⟩
  · rw [length_shapeOffsets, min_eq_left hlen]
  · rw [sum_zipIdx_shifted vs 0, Nat.mul_zero, Nat.pow_zero, Nat.mul_one]
  · have hcells := length_of_shape_gather hp
    exact ⟨hcells, length_of_shape_gather hq, fun hlen => hashKey_eq_iff hp hq hlen hcells, hashKey_ne_of_shape_ne hp⟩

end Sys2Proof.Machine
end

section
/-! Which unit each command may change, and that only SRST and an error change the latch (60_exceptions R246 to R248, R255). -/

namespace Sys2Proof.Machine

/-! ### The unit of each command -/

/-- The three units of the engine (41_arith_coder R120, 43_run_length R170, 44_predictor R190). -/
inductive EngineUnit where
  | coder
  | runLength
  | predictor

/-- The unit that a CSRW of this number may change: below RLE_M the coder, above it the predictor, whose registers are the only
read-write ones there (10_state R62). -/
def unitWritten (n : BitVec 8) : EngineUnit :=
  if n.toNat < 0x10 then .coder else if n.toNat = 0x10 then .runLength else .predictor

theorem unitWritten_below {n : BitVec 8} (h : n.toNat < 0x10) : unitWritten n = .coder := if_pos h

theorem unitWritten_rleM {n : BitVec 8} (h : n.toNat = 0x10) : unitWritten n = .runLength := by
  rw [unitWritten, if_neg (by omega), if_pos h]

theorem unitWritten_above {n : BitVec 8} (h : 0x10 < n.toNat) : unitWritten n = .predictor := by
  rw [unitWritten, if_neg (by omega), if_neg (by omega)]

/-- The one unit that the effect of a command may change (30_encoding R93), where it has one. SRST, which resets all three, is outside
this table. -/
def unitOfCommand (i : Instr) : Option EngineUnit :=
  match i with
  | .nop | .csrr _ | .srst => none
  | .csrw n => some (unitWritten n)
  | .acInit | .acEnc _ | .acDec | .acFlush | .freqWr _ | .freqRd _ | .freqClr | .cumRd _ => some .coder
  | .rleInit | .rleEbit _ | .rleEend | .rlePop | .rleDsym _ | .rleDend => some .runLength
  | .prdInit | .fldWr _ | .fldRd | .prdForesee | .prdLearn _ | .pxEnc _ | .pxDec _ _ => some .predictor

/-- The latch and every unit but `u` are kept. -/
structure OnlyUnit (u : Option EngineUnit) (s t : State) : Prop where
  latch : t.latch = s.latch
  ac : u ≠ some .coder → t.ac = s.ac
  rle : u ≠ some .runLength → t.rle = s.rle
  prd : u ≠ some .predictor → t.prd = s.prd

/-- A change outside the latch and the units. -/
theorem OnlyUnit.of_kept {s t : State} (u : Option EngineUnit) (hlatch : t.latch = s.latch) (hac : t.ac = s.ac) (hrle : t.rle = s.rle)
    (hprd : t.prd = s.prd) : OnlyUnit u s t := ⟨hlatch, fun _ => hac, fun _ => hrle, fun _ => hprd⟩

theorem OnlyUnit.coder {s t : State} (hlatch : t.latch = s.latch) (hrle : t.rle = s.rle) (hprd : t.prd = s.prd) :
    OnlyUnit (some .coder) s t := ⟨hlatch, fun h => absurd rfl h, fun _ => hrle, fun _ => hprd⟩

theorem CoderStep.onlyUnit {s t : State} (h : CoderStep s t) : OnlyUnit (some .coder) s t := .coder h.latch h.rle h.prd

/-- A change of the coder that answers in RES. -/
theorem CoderStep.onlyUnit_setRes {s t : State} {v : Word64} (h : CoderStep (s.setRes v) t) : OnlyUnit (some .coder) s t :=
  .coder h.latch h.rle h.prd

theorem RleStep.onlyUnit {s t : State} (h : RleStep s t) : OnlyUnit (some .runLength) s t := by
  obtain ⟨r, v, rfl⟩ := h
  exact ⟨rfl, fun _ => rfl, fun h => absurd rfl h, fun _ => rfl⟩

theorem PrdStep.onlyUnit {s t : State} (h : PrdStep s t) : OnlyUnit (some .predictor) s t := by
  obtain ⟨p, v, rfl⟩ := h
  exact ⟨rfl, fun _ => rfl, fun _ => rfl, fun h => absurd rfl h⟩

/-- A write of a control register changes at most the unit that its number names. -/
theorem csrWrite_onlyUnit (c : Csr) (v : Word64) (s : State) : OnlyUnit (some (unitWritten c.number)) s (csrWrite c v s) := by
  cases c with
  | acNsym | acTerm | acSections => exact .coder rfl rfl rfl
  | rleM => exact (RleStep.setRle s _).onlyUnit
  | fldDim | prdCfg => exact (PrdStep.setPrd s _).onlyUnit
  | shapeLen k =>
    have habove : 0x10 < (Csr.shapeLen k).number.toNat := by revert k; decide
    exact unitWritten_above habove ▸ (PrdStep.setPrd s _).onlyUnit
  | shapeCell k i =>
    have habove : 0x10 < (Csr.shapeCell k i).number.toNat := by revert k i; decide
    exact unitWritten_above habove ▸ (PrdStep.setPrd s _).onlyUnit
  | _ => exact .of_kept _ rfl rfl rfl rfl

theorem writeControl_onlyUnit {n : BitVec 8} {s t : State} (h : writeControl n s = .ok t) : OnlyUnit (some (unitWritten n)) s t := by
  rcases writeControl_cases n s with ⟨-, hw⟩ | ⟨c, -, -, -, hw⟩ | ⟨c, hn, -, hw⟩ <;> rw [hw] at h <;> cases h
  exact Csr.number_of_ofNumber hn ▸ csrWrite_onlyUnit c s.arg s

theorem readControl_onlyUnit {n : BitVec 8} {s t : State} (h : readControl n s = .ok t) : OnlyUnit none s t := by
  unfold readControl at h
  split at h <;> cases h
  exact .of_kept _ rfl rfl rfl rfl

theorem readCumulative_onlyUnit {sym : Sym} {s t : State} (h : readCumulative sym s = .ok t) : OnlyUnit (some .coder) s t := by
  unfold readCumulative at h
  split_ifs at h
  cases h
  exact .of_kept _ rfl rfl rfl rfl

/-- The effect of every command but SRST keeps the latch, and every unit but the command's own. -/
theorem commandEffect_onlyUnit {i : Instr} {s t : State} (hi : i ≠ .srst) (h : commandEffect i s = .ok t) :
    OnlyUnit (unitOfCommand i) s t := by
  cases i with
  | srst => exact absurd rfl hi
  | nop => cases h; exact .of_kept _ rfl rfl rfl rfl
  | csrr n => exact readControl_onlyUnit h
  | csrw n => exact writeControl_onlyUnit h
  | acInit | freqWr | freqRd | freqClr => cases h; exact .coder rfl rfl rfl
  | acEnc sym => exact (encodeSymbol_step h).onlyUnit
  | acDec => exact (decodeSymbol_step h).onlyUnit_setRes
  | acFlush => exact (flushCoder_step h).onlyUnit
  | cumRd sym => exact readCumulative_onlyUnit h
  | rleInit => cases h; exact (RleStep.setRle s _).onlyUnit
  | rleEbit b => exact (encodeBit_rleStep h).onlyUnit
  | rleEend => exact (emitRun_rleStep h).onlyUnit
  | rlePop => cases h; exact (popSymbol_rleStep s).onlyUnit
  | rleDsym sym => exact (parseSymbol_rleStep h).onlyUnit
  | rleDend => exact (endRuns_rleStep h).onlyUnit
  | prdInit => cases h; exact (PrdStep.setPrd s _).onlyUnit
  | fldWr v => exact (writeField_prdStep h).onlyUnit
  | fldRd => exact (readField_prdStep h).onlyUnit
  | prdForesee => cases atCursor_eq_ok h; exact .of_kept _ rfl rfl rfl rfl
  | prdLearn v => cases atCursor_eq_ok h; exact (PrdStep.setPrd s _).onlyUnit
  | pxEnc m => cases atCursor_eq_ok h; exact (encodePixel_prdStep m s).onlyUnit
  | pxDec m r => cases atCursor_eq_ok h; exact (decodePixel_prdStep m r s).onlyUnit

/-! ### The units after a command -/

/-- Error entry and the latch gate keep all three units, so a command changes its own unit at most. -/
theorem exec_units {i : Instr} {s t : State} (hi : i ≠ .srst) (h : exec i s = .next t) :
    (unitOfCommand i ≠ some .coder → t.ac = s.ac) ∧ (unitOfCommand i ≠ some .runLength → t.rle = s.rle) ∧
      (unitOfCommand i ≠ some .predictor → t.prd = s.prd) := by
  rcases exec_cases h with ⟨-, rfl⟩ | heff | ⟨e, -, -, rfl⟩
  · exact ⟨fun _ => rfl, fun _ => rfl, fun _ => rfl⟩
  · obtain ⟨-, hac, hrle, hprd⟩ := commandEffect_onlyUnit hi heff
    exact ⟨hac, hrle, hprd⟩
  · exact ⟨fun _ => rfl, fun _ => rfl, fun _ => rfl⟩

/-- A command of one unit keeps the other two. -/
theorem exec_other_units {i : Instr} {u : EngineUnit} {s t : State} (h : exec i s = .next t) (hu : unitOfCommand i = some u) :
    (u ≠ .coder → t.ac = s.ac) ∧ (u ≠ .runLength → t.rle = s.rle) ∧ (u ≠ .predictor → t.prd = s.prd) := by
  have hi : i ≠ .srst := by rintro rfl; cases hu
  obtain ⟨hac, hrle, hprd⟩ := exec_units hi h
  simp only [hu, ne_eq, Option.some.injEq] at hac hrle hprd
  exact ⟨hac, hrle, hprd⟩

/-- The opcodes are grouped by unit (30_encoding R93). -/
theorem unitOfCommand_by_opcode (i : Instr) :
    (0x10 ≤ i.opcode.toNat ∧ i.opcode.toNat ≤ 0x17 → unitOfCommand i = some .coder) ∧
    (0x20 ≤ i.opcode.toNat ∧ i.opcode.toNat ≤ 0x25 → unitOfCommand i = some .runLength) ∧
    (0x30 ≤ i.opcode.toNat ∧ i.opcode.toNat ≤ 0x36 → unitOfCommand i = some .predictor) := by
  cases i <;> simp [Instr.opcode, unitOfCommand]

/-- Settles O11: each command has its unit by its opcode, CSRW by its register's number, and keeps the other two. -/
theorem unitsAreSeparate : Obligations.UnitsAreSeparate := by
  unfold Obligations.UnitsAreSeparate
  intro i s t h
  have hcoder : unitOfCommand i = some .coder → t.rle = s.rle ∧ t.prd = s.prd := fun hu =>
    have ⟨_, hrle, hprd⟩ := exec_other_units h hu
    ⟨hrle nofun, hprd nofun⟩
  have hrunLength : unitOfCommand i = some .runLength → t.ac = s.ac ∧ t.prd = s.prd := fun hu =>
    have ⟨hac, _, hprd⟩ := exec_other_units h hu
    ⟨hac nofun, hprd nofun⟩
  have hpredictor : unitOfCommand i = some .predictor → t.ac = s.ac ∧ t.rle = s.rle := fun hu =>
    have ⟨hac, hrle, _⟩ := exec_other_units h hu
    ⟨hac nofun, hrle nofun⟩
  obtain ⟨hac, hrle, hprd⟩ := unitOfCommand_by_opcode i
  refine ⟨hcoder ∘ hac, hrunLength ∘ hrle, hpredictor ∘ hprd, ?csrw⟩
  case csrw =>
    rintro n rfl
    exact ⟨fun hn => hcoder (congrArg some (unitWritten_below hn)), fun hn => hrunLength (congrArg some (unitWritten_rleM hn)),
      fun hn => hpredictor (congrArg some (unitWritten_above hn))⟩

/-! ### The latch after a command -/

/-- Every command ends in a next state (20_memory R81). -/
theorem exec_total (i : Instr) (s : State) : ∃ t, exec i s = .next t := by
  rw [exec_eq_runCommand]
  unfold runCommand
  split
  · exact ⟨_, rfl⟩
  · split <;> exact ⟨_, rfl⟩

/-- Everything a command can do to the latch: SRST resets it, an error sets it from clear and changes nothing else, and all else keeps it
(60_exceptions R246, R248). -/
theorem exec_latch {i : Instr} {s t : State} (h : exec i s = .next t) :
    i = .srst ∨ t.latch = s.latch ∨ (∃ e : Raised, e.Proper ∧ s.ready ∧ t = s.raised e (encode i)) := by
  rcases exec_cases h with ⟨-, rfl⟩ | heff | ⟨e, he, hs, rfl⟩
  · exact .inr (.inl rfl)
  · by_cases hi : i = .srst
    · exact .inl hi
    · exact .inr (.inl (commandEffect_onlyUnit hi heff).latch)
  · exact .inr (.inr ⟨e, commandEffect_raisesProperly i s e he, hs, rfl⟩)

/-- Settles O7: commands are total, and a raised error is proper and bears the command's word. -/
theorem errorsChangeOnlyTheLatch : Obligations.ErrorsChangeOnlyTheLatch := by
  unfold Obligations.ErrorsChangeOnlyTheLatch
  intro i s
  obtain ⟨t, ht⟩ := exec_total i s
  refine ⟨t, ht, ?_⟩
  rcases exec_latch ht with hi | hkept | ⟨e, ⟨hset, himp⟩, hs, rfl⟩
  · exact .inl hi
  · exact .inr (.inl hkept)
  · exact .inr (.inr ⟨hs, rfl, hset, himp, rfl⟩)

end Sys2Proof.Machine
end

section
/-! The latched state: what works in it, and what ends it (60_exceptions R246 to R248, R253, 40_control R114). -/

namespace Sys2Proof.Machine

/-! ### Commands under the latch -/

/-- A command that the latch blocks is ignored (60_exceptions R247). -/
theorem exec_blocked {i : Instr} {s : State} (hs : s.latch.err ≠ .none) (hi : opcodeRunsLatched i.opcode = false) :
    exec i s = .next s := by
  rw [exec_eq_runCommand, runCommand_blocked hs hi]

/-- An error under the latch is not entered: the first one is kept (60_exceptions R246). -/
theorem exec_error_latched {i : Instr} {s : State} {e : Raised} (hs : s.latch.err ≠ .none) (h : commandEffect i s = .error e) :
    exec i s = .next s := by
  obtain ⟨t, ht⟩ := exec_total i s
  rcases exec_cases ht with ⟨-, rfl⟩ | hok | ⟨-, -, hr, -⟩
  · exact ht
  · cases h.symm.trans hok
  · exact absurd hr hs

/-- SRST runs in every state, latched or not (40_control R114, 60_exceptions R247). -/
theorem exec_srst (s : State) : exec .srst s = .next (resetEngine s) := by
  have hopen : opcodeRunsLatched Instr.srst.opcode = true := rfl
  simp only [exec_eq_runCommand, runCommand, hopen, commandEffect, Bool.not_true, Bool.and_false, Bool.false_eq_true, if_false]

theorem opcode_of_decode {w : Word32} {i : Instr} (h : decode w = .ok i) : i.opcode = opcodeField w := by
  obtain ⟨hopc, -⟩ := Laws.WordFields.all i
  rw [← hopc, encode_of_decode h]

/-- Under the latch an illegal word changes nothing (30_encoding R95). -/
theorem writeCommand_illegal_latched {w : Word32} {e : IllegalWord} {s : State} (hs : s.latch.err ≠ .none) (h : decode w = .error e) :
    writeCommand w s = .next s :=
  have ⟨_, ignored⟩ := illegalWordsRaise w e s h
  ignored hs

/-- Under the latch every word but those of CSRR and SRST changes nothing (60_exceptions R247). -/
theorem writeCommand_blocked {w : Word32} {s : State} (hs : s.latch.err ≠ .none) (hcsrr : opcodeField w ≠ 0x01)
    (hsrst : opcodeField w ≠ 0x0F) : writeCommand w s = .next s := by
  cases hw : decode w with
  | error e => exact writeCommand_illegal_latched hs hw
  | ok i =>
    rw [writeCommand_of_decode hw]
    refine exec_blocked hs ?_
    rw [opcode_of_decode hw, opcodeRunsLatched, Bool.or_eq_false_iff, beq_eq_false_iff_ne, beq_eq_false_iff_ne]
    exact ⟨hcsrr, hsrst⟩

/-- The word of CSRR, laid out by its format (30_encoding R91). -/
theorem decode_csrr_word (n : BitVec 8) : decode (0x01#8 ++ 0#16 ++ n) = .ok (.csrr n) := by
  have hword : encode (.csrr n) = 0x01#8 ++ 0#16 ++ n := by
    simp only [encode, Instr.opcode, Instr.operand]
    exact BitVec.append_assoc' ..
  rw [← hword, decode_encode]

/-- Settles O6: the gate lets CSRR and SRST through, error entry keeps the first error, and no host action on ARG, IN or OUT asks for
the latch. -/
theorem latchBlocksCommands : Obligations.LatchBlocksCommands := by
  unfold Obligations.LatchBlocksCommands
  intro s hs
  refine ⟨fun w => writeCommand_blocked hs, fun n c hn => ?assigned, fun n hn => ?unassigned, ?srst,
    fun w e => writeCommand_illegal_latched hs, fun _ => rfl, fun _ => rfl, rfl⟩
  case assigned => rw [writeCommand_of_decode (decode_csrr_word n), exec_csrr_assigned hn]
  case unassigned =>
    rw [writeCommand_of_decode (decode_csrr_word n)]
    exact exec_error_latched hs (readControl_unassigned hn s)
  case srst =>
    have hword : decode 0x0F000000 = .ok .srst := decode_encode .srst
    rw [writeCommand_of_decode hword, exec_srst]
    rfl

/-! ### What changes a set latch -/

/-- From a latched state, every command but SRST keeps the latch (60_exceptions R248). -/
theorem exec_latch_kept {i : Instr} {s t : State} (hs : s.latch.err ≠ .none) (h : exec i s = .next t) :
    t.latch = s.latch ∨ i = .srst := by
  rcases exec_latch h with hi | hkept | ⟨-, -, hr, -⟩
  · exact .inr hi
  · exact .inl hkept
  · exact absurd hr hs

theorem writeCommand_latch_kept {w : Word32} {s t : State} (hs : s.latch.err ≠ .none) (h : writeCommand w s = .next t) :
    t.latch = s.latch ∨ decode w = .ok .srst := by
  cases hw : decode w with
  | error e =>
    cases (writeCommand_illegal_latched hs hw).symm.trans h
    exact .inl rfl
  | ok i =>
    rw [writeCommand_of_decode hw] at h
    exact (exec_latch_kept hs h).imp_right (congrArg Except.ok)

/-- From a latched state, every host action but the reset input and a write of SRST's word keeps the latch (60_exceptions R248, R253). -/
theorem perform_latch_kept {a : HostAction} {s t : State} (hs : s.latch.err ≠ .none) (h : perform a s = .next t) :
    t.latch = s.latch ∨ a = .systemReset ∨ ∃ v, a = .windowWrite 0x00 8 v ∧ decode (v.setWidth 32) = .ok .srst := by
  cases a with
  | systemReset => exact .inr (.inl rfl)
  | attachIn bs => cases h; exact .inl rfl
  | takeOut => cases h; exact .inl rfl
  | windowRead o b =>
    simp only [perform] at h
    split at h <;> cases h
    exact .inl rfl
  | windowWrite o b v =>
    rcases windowWrite_cases o b v s with ⟨rfl, rfl, hw⟩ | ⟨-, -, hw⟩ | ⟨-, hw⟩
    · exact (writeCommand_latch_kept hs (hw.symm.trans h)).imp_right fun hv => .inr ⟨v, rfl, hv⟩
    · cases hw.symm.trans h
      exact .inl rfl
    · cases hw.symm.trans h

/-- Settles O19: command by command, then action by action; a step that waits changes nothing. -/
theorem onlyResetClearsLatch : Obligations.OnlyResetClearsLatch := by
  unfold Obligations.OnlyResetClearsLatch
  refine ⟨fun i s t => exec_latch_kept, fun s t hs h hne => ?_⟩
  cases hp : s.pending with
  | nil =>
    cases (step_waits hp).symm.trans h
    exact absurd rfl hne
  | cons a rest =>
    rcases perform_latch_kept (s := (s.setPending rest).setReply .nothing) hs ((step_performs hp).symm.trans h) with
      hkept | rfl | ⟨v, rfl, hv⟩
    · exact absurd hkept hne
    · exact .inl ⟨rest, rfl⟩
    · exact .inr ⟨v, rest, rfl, hv⟩

end Sys2Proof.Machine
end

section
/-! The errors of AC.ENC, AC.FLUSH and AC.DEC, and PAST_END when the decoder asks for more bits than can be had (60_exceptions R241 to
R246, 41_arith_coder R130, R133, R138, 20_memory R79). -/

namespace Sys2Proof.Machine

/-! ### Too few bits for the decoder's loop -/

/-- PAST_END, as it is raised with all the zeros past the end supplied (60_exceptions R242). -/
def pastEndError : Raised := .malformed subcausePastEnd Config.pastEndLimit

/-- Everything the decoder's loop can do next, whatever the bounds (41_arith_coder R139). -/
theorem decRenorm_succ_cases (n : Nat) (s : State) :
    (renormShifts (n + 1) s.ac = renormShifts n (topShift s.ac) + 1 ∧ decRenorm (n + 1) s = (decTopTurn s).bind (decRenorm n)) ∨
    (renormShifts (n + 1) s.ac = renormShifts n (underflowShift s.ac) + 1 ∧
      decRenorm (n + 1) s = (decUnderflowTurn s).bind (decRenorm n)) ∨
    renormShifts (n + 1) s.ac = 0 := by
  rw [renormShifts, decRenorm]
  split_ifs with hagree hunder
  · refine .inl ⟨rfl, ?_⟩
    rw [decTopTurn]
    cases shiftInCode s.ac.code (s.setAc (topShift s.ac)) <;> rfl
  · refine .inr (.inl ⟨rfl, ?_⟩)
    rw [decUnderflowTurn]
    cases shiftInCode (s.ac.code ^^^ 0x40000000) (s.setAc (underflowShift s.ac)) <;> rfl
  · exact .inr (.inr rfl)

/-- A turn takes one bit: it has none to take, or it leaves too few for the turns to come. -/
theorem turn_of_too_few {n : Nat} (c : Word32) {s : State} {a : AcUnit} {f : State → Except Raised State} (hs : InputReady s)
    (ha : SameInput s (s.setAc a)) (h : s.bitsAvailable < renormShifts n a + 1)
    (hf : ∀ t, InputReady t → t.bitsAvailable < renormShifts n t.ac → f t = .error pastEndError) :
    (shiftInCode c (s.setAc a)).bind f = .error pastEndError := by
  rcases Nat.eq_zero_or_pos s.bitsAvailable with hnone | hpos
  · rw [shiftInCode_of_error c (inBit_of_none_available (ha.inputReady hs) (ha.bitsAvailable.trans hnone))]
    rfl
  · obtain ⟨t, ht, htaken, -⟩ := shiftInCode_setAc_of_available c ha hs hpos
    obtain ⟨hav, -⟩ := htaken.bitsAvailable hs.pastEnd hpos
    obtain ⟨hlow, hhigh⟩ := shiftInCode_bounds ht
    have hturns : renormShifts n t.ac = renormShifts n a := renormShifts_congr n hlow hhigh
    rw [ht]
    exact hf t (htaken.inputReady hs hpos) (by omega)

/-- The decoder's loop raises PAST_END when it has more turns to do than bits can be had (41_arith_coder R139, 20_memory R79). -/
theorem decRenorm_of_too_few {n : Nat} {s : State} (hs : InputReady s) (h : s.bitsAvailable < renormShifts n s.ac) :
    decRenorm n s = .error pastEndError := by
  induction n generalizing s with
  | zero => exact absurd h (Nat.not_lt_zero _)
  | succ n ih =>
    rcases decRenorm_succ_cases n s with ⟨hturns, he⟩ | ⟨hturns, he⟩ | hnone
    · rw [he]
      exact turn_of_too_few s.ac.code hs (.setAc s (topShift s.ac)) (hturns ▸ h) fun t => ih
    · rw [he]
      exact turn_of_too_few (s.ac.code ^^^ 0x40000000) hs (.setAc s (underflowShift s.ac)) (hturns ▸ h) fun t => ih
    · omega

/-! ### Too few bits for AC.DEC -/

/-- A lookup changes at most the count of free values drawn (41_arith_coder R137; log 5). -/
theorem lookupSymbol_kept (s : State) : (lookupSymbol s).2.ac = s.ac ∧ SameInput s (lookupSymbol s).2 := by
  unfold lookupSymbol
  split <;> exact ⟨rfl, rfl, rfl, rfl, rfl, rfl⟩

theorem decodePrimed_of_too_few {p : State} (hp : InputReady p) (h : p.bitsAvailable < p.symbolShifts) :
    decodePrimed p = .error pastEndError := by
  obtain ⟨hac, hlook⟩ := lookupSymbol_kept p
  rw [State.symbolShifts, ← hac, ← hlook.bitsAvailable] at h
  have hupdate := SameInput.setAc (lookupSymbol p).2 (intervalUpdate (lookupSymbol p).1 (lookupSymbol p).2.ac)
  have hloop := decRenorm_of_too_few (hupdate.inputReady (hlook.inputReady hp)) (hupdate.bitsAvailable.trans_lt h)
  simp only [decodePrimed, hloop]

/-- From IDLE a decoder takes at least the 32 bits of a priming (41_arith_coder R138). -/
theorem le_decodeBitsNeeded_of_idle {s : State} (h : s.ac.dir = .idle) : 32 ≤ s.decodeBitsNeeded := by
  rw [State.decodeBitsNeeded, if_pos h]
  split
  · exact Nat.le_add_right _ _
  · exact Nat.le_refl _

/-- AC.DEC with its checks passed: priming from IDLE, then the symbol (41_arith_coder R138). -/
theorem decodeSymbol_of_checks {s : State} (hd : s.ac.dir ≠ .write)
    (hsec : s.ac.sections = 0 ∨ s.ac.sectDone.toNat < s.ac.sections.toNat) (hpos : 0 < s.ac.total) (htot : s.ac.total ≤ 2 ^ 30) :
    decodeSymbol s = if s.ac.dir = .idle then (prime s).bind decodePrimed else decodePrimed s := by
  have hlimit : ¬sectionLimitReached s.ac = true := Bool.eq_false_iff.mp (sectionLimitReached_eq_false_iff.mpr hsec)
  have htotal : ¬(s.ac.total = 0 ∨ Config.maxTotal < s.ac.total) := not_or.mpr ⟨Nat.ne_of_gt hpos, Nat.not_lt.mpr htot⟩
  rw [decodeSymbol, if_neg hd, if_neg hlimit, if_neg htotal]
  cases prime s <;> rfl

/-- AC.DEC raises PAST_END when fewer bits can be had than it takes, in priming or in renormalisation (41_arith_coder R138). -/
theorem decodeSymbol_of_too_few {s : State} (hd : s.ac.dir ≠ .write)
    (hsec : s.ac.sections = 0 ∨ s.ac.sectDone.toNat < s.ac.sections.toNat) (hpos : 0 < s.ac.total) (htot : s.ac.total ≤ 2 ^ 30)
    (hs : InputReady s) (h : s.bitsAvailable < s.decodeBitsNeeded) : decodeSymbol s = .error pastEndError := by
  rw [decodeSymbol_of_checks hd hsec hpos htot]
  rw [State.decodeBitsNeeded] at h
  by_cases hidle : s.ac.dir = .idle
  · rw [if_pos hidle] at h ⊢
    rcases Nat.lt_or_ge s.bitsAvailable 32 with hfew | henough
    · rw [prime_of_too_few hs hfew]
      rfl
    · obtain ⟨p, hp, htaken, -⟩ := prime_of_available hs henough
      obtain ⟨hav, -⟩ := htaken.bitsAvailable hs.pastEnd henough
      rw [hp] at h ⊢
      simp only at h
      exact decodePrimed_of_too_few (htaken.inputReady hs henough) (by omega)
  · rw [if_neg hidle] at h ⊢
    exact decodePrimed_of_too_few hs h

/-! ### The checks, in order -/

theorem encodeSymbol_invalidSymbol {sym : Sym} {s : State} (hd : s.ac.dir ≠ .read) (hn : s.ac.nsym.toNat ≤ sym.toNat) :
    encodeSymbol sym s = .error (.invalidSymbol sym) := by
  rw [encodeSymbol, if_neg hd, if_pos hn]

theorem encodeSymbol_zeroProbability {sym : Sym} {s : State} (hd : s.ac.dir ≠ .read) (hn : sym.toNat < s.ac.nsym.toNat)
    (hf : s.ac.freq.read sym.toNat = 0) : encodeSymbol sym s = .error (.zeroProbability sym) := by
  rw [encodeSymbol, if_neg hd, if_neg (Nat.not_le.mpr hn), if_pos hf]

theorem encodeSymbol_freqTotal {sym : Sym} {s : State} (hd : s.ac.dir ≠ .read) (hn : sym.toNat < s.ac.nsym.toNat)
    (hf : s.ac.freq.read sym.toNat ≠ 0) (ht : 2 ^ 30 < s.ac.total) : encodeSymbol sym s = .error (.freqTotal s.ac.total) := by
  rw [encodeSymbol, if_neg hd, if_neg (Nat.not_le.mpr hn), if_neg hf, if_pos (show Config.maxTotal < s.ac.total from ht)]

theorem decodeSymbol_sectionLimit {s : State} (hd : s.ac.dir ≠ .write) (hsec : s.ac.sections ≠ 0)
    (hdone : s.ac.sections.toNat ≤ s.ac.sectDone.toNat) :
    decodeSymbol s = .error ⟨.malformedStream, 2#8 ++ s.ac.sectDone.setWidth 56⟩ := by
  have hlimit : sectionLimitReached s.ac = true := by
    rw [sectionLimitReached, Bool.and_eq_true, bne_iff_ne, decide_eq_true_eq]
    exact ⟨hsec, hdone⟩
  have hinfo : Raised.malformed subcauseSectionLimit s.ac.sectDone.toNat = ⟨.malformedStream, 2#8 ++ s.ac.sectDone.setWidth 56⟩ := by
    rw [Raised.malformed, BitVec.ofNat_toNat]
    rfl
  rw [decodeSymbol, if_neg hd, if_pos hlimit, hinfo]

theorem decodeSymbol_freqTotal {s : State} (hd : s.ac.dir ≠ .write)
    (hsec : s.ac.sections = 0 ∨ s.ac.sectDone.toNat < s.ac.sections.toNat) (ht : s.ac.total = 0 ∨ 2 ^ 30 < s.ac.total) :
    decodeSymbol s = .error (.freqTotal s.ac.total) := by
  have hlimit : ¬sectionLimitReached s.ac = true := Bool.eq_false_iff.mp (sectionLimitReached_eq_false_iff.mpr hsec)
  rw [decodeSymbol, if_neg hd, if_neg hlimit, if_pos (show s.ac.total = 0 ∨ Config.maxTotal < s.ac.total from ht)]

/-- AC.FLUSH has no error but DIRECTION_MISUSE (41_arith_coder R133). -/
theorem exec_acFlush_ready {s : State} (hs : s.ready) (hd : s.ac.dir ≠ .read) : ∃ t, exec .acFlush s = .next t ∧ t.ready := by
  have heff : flushCoder s = .ok (flushed s) := flushCoder_eq_ok_iff.mpr ⟨hd, rfl⟩
  exact ⟨flushed s, exec_of_effect_ok (i := .acFlush) hs heff, (congrArg ErrorLatch.err (flushCoder_step heff).latch).trans hs⟩

/-- Settles O32: DIRECTION_MISUSE as O35 has it, then each check with those before it passed; too few bits for a priming are too few for
the symbol. -/
theorem coderCommandErrors : Obligations.CoderCommandErrors := by
  unfold Obligations.CoderCommandErrors
  intro s hs
  obtain ⟨-, hread, hwrite⟩ := directionLatchTable s hs
  have acEnc {sym : Sym} {e : Raised} (he : encodeSymbol sym s = .error e) :
      exec (.acEnc sym) s = .next (s.raised e (encode (.acEnc sym))) := exec_of_effect_error hs he
  have acDec {e : Raised} (he : decodeSymbol s = .error e) : exec .acDec s = .next (s.raised e 0x12000000) :=
    exec_of_effect_error (i := .acDec) hs he
  refine ⟨hread, exec_acFlush_ready hs, hwrite,
    fun sym hd hn => acEnc (encodeSymbol_invalidSymbol hd hn),
    fun sym hd hn hf => acEnc (encodeSymbol_zeroProbability hd hn hf),
    fun sym hd hn hf ht => acEnc (encodeSymbol_freqTotal hd hn hf ht),
    fun hd hsec hdone => acDec (decodeSymbol_sectionLimit hd hsec hdone),
    fun hd hsec ht => acDec (decodeSymbol_freqTotal hd hsec ht), ?priming, ?renormalisation⟩
  case priming =>
    intro hidle hsec hpos htot hcnt hpast hfew
    have hd : s.ac.dir ≠ .write := by rw [hidle]; decide
    exact acDec (decodeSymbol_of_too_few hd hsec hpos htot ⟨hcnt, hpast⟩ (hfew.trans_le (le_decodeBitsNeeded_of_idle hidle)))
  case renormalisation =>
    intro hd hsec hpos htot hcnt hpast hfew
    exact acDec (decodeSymbol_of_too_few hd hsec hpos htot ⟨hcnt, hpast⟩ hfew)

end Sys2Proof.Machine
end

section
/-! The reset values of every component, and the ways to reach them: power-on, SRST and the reset input (70_reset R260). -/

namespace Sys2Proof.Machine

/-! ### The empty stores and the shapes after reset -/

@[simp] theorem CtxStore.find_nil (k : CtxKey) : CtxStore.find [] k = none := rfl

/-- A table with no entry stored counts nothing (10_state R47). -/
theorem total_of_freq_nil {a : AcUnit} (h : a.freq = []) : a.total = 0 := by
  rw [AcUnit.total, AcUnit.cum, h]
  exact Memory.sumBelow_of_le (List.forall_mem_nil _)

/-- The cells of the four shapes after reset as displacements, those in use before the filling (10_state R60). -/
theorem resetShapeCell_displacements :
    (resetShapeCell.toList.map fun v => v.toList.map fun c => (cellDx c, cellDy c)) =
      [[(-2, -2), (-1, -2), (0, -2), (1, -2), (2, -2), (-2, -1), (-1, -1), (0, -1), (1, -1), (2, -1), (-2, 0), (-1, 0)] ++
          List.replicate 4 (-1, 0),
        [(0, -2), (-1, -1), (0, -1), (1, -1), (-2, 0), (-1, 0)] ++ List.replicate 10 (-1, 0),
        [(-1, -1), (0, -1), (-1, 0)] ++ List.replicate 13 (-1, 0),
        List.replicate 16 (-1, 0)] := by decide

/-! ### The ways to reach the reset values -/

/-- The reset input always has its step, and after it every engine component has its reset value (70_reset R260). -/
theorem perform_systemReset_components (s : State) : ∃ t, perform .systemReset s = .next t ∧ t.arg = 0 ∧ t.res = 0 ∧
    t.latch = State.reset.latch ∧ t.ac = State.reset.ac ∧ t.rle = State.reset.rle ∧ t.prd = State.reset.prd :=
  ⟨systemReset s, rfl, by simp only [systemReset_eq, State.reset, and_self]⟩

/-- Settles O18: the latch and ports, then each unit field by field; SRST runs in every state and leaves the engine as at power-on, and
so does the reset input. -/
theorem resetValues : Obligations.ResetValues := by
  unfold Obligations.ResetValues
  refine ⟨⟨rfl, rfl, rfl, rfl, rfl⟩, ?coder, ⟨rfl, rfl, rfl, rfl, rfl, rfl, rfl⟩, ?predictor, exec_srst,
    perform_systemReset_components⟩
  case coder =>
    exact ⟨rfl, rfl, rfl, rfl, rfl, rfl, rfl, rfl, rfl, rfl, rfl, rfl, rfl, rfl, rfl, Memory.read_nil, total_of_freq_nil rfl⟩
  case predictor =>
    exact ⟨rfl, rfl, Memory.read_nil, rfl, rfl, CtxStore.find_nil, rfl, rfl, rfl, resetShapeCell_displacements⟩

/-- Settles O60: the starting point of the invariant that every step keeps (O59). -/
theorem resetMeetsTheInvariant : Obligations.ResetMeetsTheInvariant := reset_inv

end Sys2Proof.Machine
end
